-- ==== Sys2Proof/Word.lean ====
section
/-! DEFINITION. The word types of the engine (00_scope R11, R12): bits are numbered from 0, least significant first. -/

namespace Sys2Proof

/-- A register, argument or response word (00_scope R11). -/
abbrev Word := BitVec 32

/-- A byte of host memory or of card storage. -/
abbrev Byte := BitVec 8

/-- A CSD or CID register, bits 127 down to 0 (00_scope R12). -/
abbrev Reg128 := BitVec 128

/-- A command frame, bits 47 down to 0 (30_encoding R122). -/
abbrev Frame := BitVec 48

end Sys2Proof
end

