-- ==== Sys2Proof/Config.lean ====
section
/-! DEFINITION. What an implementation fixes (00_scope R10) and the free values of the model. -/

namespace Sys2Proof

/-- The parameters of 00_scope R10, as plain data. A machine carries one value of this type and never writes it, so a
statement about every state is a statement about every choice of the parameters. The fields are raw: the accessors of
Machine/Params.lean give each parameter its value within the constraint R10 states. -/
structure Params where
  /-- CMD_TIMEOUT_MS (OPEN, > 0). -/
  cmdTimeout : Word
  /-- CMD0_TIMEOUT_MS (OPEN, > 0). -/
  cmd0Timeout : Word
  /-- VOLTAGE_DEADLINE_MS (OPEN, > 0). -/
  voltageDeadline : Word
  /-- VOLT_POLL_DELAY_MS (OPEN, at least 0). DESIGN CHOICE, log entry 1: held as a 32-bit word, so below 2^32 ms. -/
  voltPollDelay : Word
  /-- DATA_DEADLINE_MS (OPEN, total, positive, non-decreasing): the steps (div, count, ms) of a staircase. -/
  dataDeadline : List (Nat × Nat × Word)
  /-- ERASE_POLL_BUDGET (OPEN, at least 1). -/
  erasePollBudget : Nat
  /-- INIT_CLKDIV (OPEN). -/
  initClkdiv : Nat
  /-- TRANSFER_CLKDIV (OPEN). -/
  transferClkdiv : Nat
  /-- VOLTAGE_WINDOW_SD (decided 0x80100000, D6). -/
  voltageWindowSd : Word
  /-- HCS_BIT (decided 30, D6). -/
  hcsBit : Nat
  /-- VOLTAGE_WINDOW_MMC (decided 0x80FF8000, D6). -/
  voltageWindowMmc : Word
  /-- IF_COND_ARG (decided 0x000001AA, D6). -/
  ifCondArg : Word
  /-- MAX_COUNT (OPEN, 2 to 2^23 - 1). -/
  maxCount : BitVec 23
  /-- BUF_ALIGN (OPEN power of two, default 4): its logarithm. -/
  bufAlignLog2 : Nat
  /-- RANGE_CHECK (decided true, D23). -/
  rangeCheck : Bool
  /-- ENGINE_CHECKS_WP (decided false, D38). -/
  engineChecksWp : Bool
  /-- DCACHE_MAINT (OPEN Boolean, D40). -/
  dcacheMaint : Bool
  /-- HOST_ADDR_W (OPEN, default 32, D24). -/
  hostAddrW : Nat
  /-- The host addresses DMA can reach, as (base, size) regions (20_memory R102: a platform parameter). -/
  dmaReach : List (Nat × Nat)
  deriving DecidableEq, Repr

/-- The parameters a machine has at `State.reset`: the value the spec decides, else the default it gives, else the least
value the constraint allows. DESIGN CHOICE (log entry 1). -/
def Params.least : Params where
  cmdTimeout := 1#32
  cmd0Timeout := 1#32
  voltageDeadline := 1#32
  voltPollDelay := 0#32
  dataDeadline := []
  erasePollBudget := 1
  initClkdiv := 0
  transferClkdiv := 0
  voltageWindowSd := 0x80100000#32
  hcsBit := 30
  voltageWindowMmc := 0x80FF8000#32
  ifCondArg := 0x000001AA#32
  maxCount := 2#23
  bufAlignLog2 := 2
  rangeCheck := true
  engineChecksWp := false
  dcacheMaint := false
  hostAddrW := 32
  dmaReach := [(0, 4294967296)]

/-- The free values of the model (log entry 5): byte number `n` of all the bytes the spec leaves at 'any value'
(93 U5, U6, U7, U8, U13, U35). Nothing constrains it. -/
opaque Config.freeByte : Nat → Byte

end Sys2Proof
end

