-- ==== Sys2Proof/Syntax.lean ====
section
/-! DEFINITION. The instructions: the ten host operations of 30_encoding R150 and the 23 bus commands of R131, one
constructor per row of spec/opcode_table.json. A host operation's operands sit in registers; a bus command carries its
32-bit argument and the CRC7 field of its frame (R122). -/

namespace Sys2Proof

/-- How the engine decodes the response of a command (30_encoding R121, R131). -/
inductive Kind where
  | rNone | r1 | r1b | r2 | r3 | r6 | r7
  deriving DecidableEq, Repr

/-- The response format a command is sent with (30_encoding R121). -/
inductive Fmt where
  | none | short | long
  deriving DecidableEq, Repr

inductive Instr where
  /-- INITIALIZE, OPC 0x1 (R310). -/
  | initializeCard
  /-- READ_BLOCK, OPC 0x2 (R410). -/
  | readBlock
  /-- READ_BLOCKS, OPC 0x3 (R411). -/
  | readBlocks
  /-- WRITE_BLOCK, OPC 0x4 (R412). -/
  | writeBlock
  /-- WRITE_BLOCKS, OPC 0x5 (R413). -/
  | writeBlocks
  /-- ERASE, OPC 0x6 (R430). -/
  | erase
  /-- QUERY_STATUS, OPC 0x7 (R470). -/
  | queryStatus
  /-- TRANSFER_BUSY, OPC 0x8 (R472). -/
  | transferBusy
  /-- CAPACITY_BLOCKS, OPC 0x9 (R473). -/
  | capacityBlocks
  /-- BLOCK_SIZE, OPC 0xa (R474). -/
  | blockSize
  /-- CMD0 GO_IDLE_STATE (R250). -/
  | cmd0 (arg : Word) (crc : BitVec 7)
  /-- CMD1 SEND_OP_COND (MMC) (R251). -/
  | cmd1 (arg : Word) (crc : BitVec 7)
  /-- CMD2 ALL_SEND_CID (R252). -/
  | cmd2 (arg : Word) (crc : BitVec 7)
  /-- CMD3 SEND_RELATIVE_ADDR (R253). -/
  | cmd3 (arg : Word) (crc : BitVec 7)
  /-- CMD7 SELECT/DESELECT_CARD (R254). -/
  | cmd7 (arg : Word) (crc : BitVec 7)
  /-- CMD8 SEND_IF_COND (R255). -/
  | cmd8 (arg : Word) (crc : BitVec 7)
  /-- CMD9 SEND_CSD (R256). -/
  | cmd9 (arg : Word) (crc : BitVec 7)
  /-- CMD12 STOP_TRANSMISSION (R257). -/
  | cmd12 (arg : Word) (crc : BitVec 7)
  /-- CMD13 SEND_STATUS (R258). -/
  | cmd13 (arg : Word) (crc : BitVec 7)
  /-- CMD16 SET_BLOCKLEN (R259). -/
  | cmd16 (arg : Word) (crc : BitVec 7)
  /-- CMD17 READ_SINGLE_BLOCK (R260). -/
  | cmd17 (arg : Word) (crc : BitVec 7)
  /-- CMD18 READ_MULTIPLE_BLOCK (R261). -/
  | cmd18 (arg : Word) (crc : BitVec 7)
  /-- CMD24 WRITE_BLOCK (R262). -/
  | cmd24 (arg : Word) (crc : BitVec 7)
  /-- CMD25 WRITE_MULTIPLE_BLOCK (R263). -/
  | cmd25 (arg : Word) (crc : BitVec 7)
  /-- CMD32 ERASE_WR_BLK_START (R264). -/
  | cmd32 (arg : Word) (crc : BitVec 7)
  /-- CMD33 ERASE_WR_BLK_END (R265). -/
  | cmd33 (arg : Word) (crc : BitVec 7)
  /-- CMD35 ERASE_GROUP_START (MMC) (R266). -/
  | cmd35 (arg : Word) (crc : BitVec 7)
  /-- CMD36 ERASE_GROUP_END (MMC) (R267). -/
  | cmd36 (arg : Word) (crc : BitVec 7)
  /-- CMD38 ERASE (R268). -/
  | cmd38 (arg : Word) (crc : BitVec 7)
  /-- CMD55 APP_CMD (R269). -/
  | cmd55 (arg : Word) (crc : BitVec 7)
  /-- ACMD6 SET_BUS_WIDTH (R270). -/
  | acmd6 (arg : Word) (crc : BitVec 7)
  /-- ACMD23 SET_WR_BLK_ERASE_COUNT (R271). -/
  | acmd23 (arg : Word) (crc : BitVec 7)
  /-- ACMD41 SD_SEND_OP_COND (R272). -/
  | acmd41 (arg : Word) (crc : BitVec 7)
  deriving DecidableEq, Repr

/-- The words an instruction is written in: the word of the OP register (30_encoding R150), or a command frame (R122)
together with the one bit of state outside the frame that selects ACMDn (R130). -/
inductive Words where
  | op (w : Word)
  | frame (app : Bool) (f : Frame)
  deriving DecidableEq, Repr

/-- Why bits are no instruction. -/
inductive DecodeError where
  /-- A reserved OPC or a reserved OP bit set (30_encoding R151). -/
  | reservedOp (w : Word)
  /-- A start, transmission or end bit is wrong, or there are not six bytes (30_encoding R122). -/
  | malformedFrame
  /-- An index outside the command set of 30_encoding R131 (R140). -/
  | outsideCommandSet (app : Bool) (idx : BitVec 6)
  /-- No encoding has this length (30_encoding R120). -/
  | unknownLength (nbits : Nat)
  deriving DecidableEq, Repr

end Sys2Proof
end

