-- ==== Sys2Proof/Machine/Frame.lean ====
section
/-! DEFINITION. The command frame (30_encoding R122, R123): the index, argument and CRC7 of each bus command, the frame and
its six bytes; and the decode kind and response format of each command (R121, R131). -/

namespace Sys2Proof

/-- One bit shifted into the CRC7 register, generator x^7 + x^3 + 1 (30_encoding R123). -/
def crc7Step (c : BitVec 7) (b : Bool) : BitVec 7 :=
  if c.msb != b then (c <<< 1) ^^^ 0x09#7 else c <<< 1

/-- The CRC7 register after a sequence of bits, the first bit first. -/
def crc7Bits : List Bool → BitVec 7 → BitVec 7
  | [], c => c
  | b :: bs, c => crc7Bits bs (crc7Step c b)

/-- Bits 47:8 of the frame of a command: start bit 0, transmission bit 1, index, argument (30_encoding R122). -/
def frameHead (idx : BitVec 6) (arg : Word) : BitVec 40 := 0b01#2 ++ idx ++ arg

/-- The CRC7 of a command's frame, bits 47:8 shifted in most significant first from 0 (30_encoding R123). -/
def frameCrc (idx : BitVec 6) (arg : Word) : BitVec 7 :=
  crc7Bits ((List.range 40).map fun i => (frameHead idx arg).getLsbD (39 - i)) 0#7

/-- The 48 bits of a frame with a given CRC field (30_encoding R122). -/
def frameWith (idx : BitVec 6) (arg : Word) (crc : BitVec 7) : Frame := frameHead idx arg ++ crc ++ 1#1

/-- The frame BC builds for a command (30_encoding R122, R123; a duty of BC, 60_exceptions R546 (a)). -/
def frameOf (idx : BitVec 6) (arg : Word) : Frame := frameWith idx arg (frameCrc idx arg)

/-- A frame as its six bytes, byte 0 first (30_encoding R122). -/
def frameBytes (f : Frame) : List Byte :=
  [f.extractLsb' 40 8, f.extractLsb' 32 8, f.extractLsb' 24 8, f.extractLsb' 16 8, f.extractLsb' 8 8, f.extractLsb' 0 8]

/-- Six bytes as a frame, byte 0 first (30_encoding R122). -/
def frameOfBytes : List Byte → Option Frame
  | [b0, b1, b2, b3, b4, b5] => some (b0 ++ b1 ++ b2 ++ b3 ++ b4 ++ b5)
  | _ => none

/-- The response format of a decode kind (30_encoding R121). -/
def fmtOf : Kind → Fmt
  | .rNone => .none
  | .r2 => .long
  | .r1 | .r1b | .r3 | .r6 | .r7 => .short

/-- The code of a response format; the code 2 is reserved and never sent (30_encoding R121). -/
def fmtCode : Fmt → BitVec 2
  | .none => 0#2
  | .short => 1#2
  | .long => 3#2

/-- A bus command as the parts of its frame: application command or not, index, argument, CRC field; none for a host
operation (30_encoding R131). -/
def frameParts : Instr → Option (Bool × BitVec 6 × Word × BitVec 7)
  | .initializeCard => none
  | .readBlock => none
  | .readBlocks => none
  | .writeBlock => none
  | .writeBlocks => none
  | .erase => none
  | .queryStatus => none
  | .transferBusy => none
  | .capacityBlocks => none
  | .blockSize => none
  | .cmd0 arg crc => some (false, 0#6, arg, crc)
  | .cmd1 arg crc => some (false, 1#6, arg, crc)
  | .cmd2 arg crc => some (false, 2#6, arg, crc)
  | .cmd3 arg crc => some (false, 3#6, arg, crc)
  | .cmd7 arg crc => some (false, 7#6, arg, crc)
  | .cmd8 arg crc => some (false, 8#6, arg, crc)
  | .cmd9 arg crc => some (false, 9#6, arg, crc)
  | .cmd12 arg crc => some (false, 12#6, arg, crc)
  | .cmd13 arg crc => some (false, 13#6, arg, crc)
  | .cmd16 arg crc => some (false, 16#6, arg, crc)
  | .cmd17 arg crc => some (false, 17#6, arg, crc)
  | .cmd18 arg crc => some (false, 18#6, arg, crc)
  | .cmd24 arg crc => some (false, 24#6, arg, crc)
  | .cmd25 arg crc => some (false, 25#6, arg, crc)
  | .cmd32 arg crc => some (false, 32#6, arg, crc)
  | .cmd33 arg crc => some (false, 33#6, arg, crc)
  | .cmd35 arg crc => some (false, 35#6, arg, crc)
  | .cmd36 arg crc => some (false, 36#6, arg, crc)
  | .cmd38 arg crc => some (false, 38#6, arg, crc)
  | .cmd55 arg crc => some (false, 55#6, arg, crc)
  | .acmd6 arg crc => some (true, 6#6, arg, crc)
  | .acmd23 arg crc => some (true, 23#6, arg, crc)
  | .acmd41 arg crc => some (true, 41#6, arg, crc)

/-- The word of the OP register of a host operation (30_encoding R150); none for a bus command. -/
def opWord : Instr → Option Word
  | .initializeCard => some 1#32
  | .readBlock => some 2#32
  | .readBlocks => some 3#32
  | .writeBlock => some 4#32
  | .writeBlocks => some 5#32
  | .erase => some 6#32
  | .queryStatus => some 7#32
  | .transferBusy => some 8#32
  | .capacityBlocks => some 9#32
  | .blockSize => some 10#32
  | .cmd0 _ _ => none
  | .cmd1 _ _ => none
  | .cmd2 _ _ => none
  | .cmd3 _ _ => none
  | .cmd7 _ _ => none
  | .cmd8 _ _ => none
  | .cmd9 _ _ => none
  | .cmd12 _ _ => none
  | .cmd13 _ _ => none
  | .cmd16 _ _ => none
  | .cmd17 _ _ => none
  | .cmd18 _ _ => none
  | .cmd24 _ _ => none
  | .cmd25 _ _ => none
  | .cmd32 _ _ => none
  | .cmd33 _ _ => none
  | .cmd35 _ _ => none
  | .cmd36 _ _ => none
  | .cmd38 _ _ => none
  | .cmd55 _ _ => none
  | .acmd6 _ _ => none
  | .acmd23 _ _ => none
  | .acmd41 _ _ => none

/-- The decode kind of a bus command (30_encoding R131); `rNone` for a host operation, which has none. -/
def kindOf : Instr → Kind
  | .initializeCard => .rNone
  | .readBlock => .rNone
  | .readBlocks => .rNone
  | .writeBlock => .rNone
  | .writeBlocks => .rNone
  | .erase => .rNone
  | .queryStatus => .rNone
  | .transferBusy => .rNone
  | .capacityBlocks => .rNone
  | .blockSize => .rNone
  | .cmd0 _ _ => .rNone
  | .cmd1 _ _ => .r3
  | .cmd2 _ _ => .r2
  | .cmd3 _ _ => .r6
  | .cmd7 _ _ => .r1b
  | .cmd8 _ _ => .r7
  | .cmd9 _ _ => .r2
  | .cmd12 _ _ => .r1b
  | .cmd13 _ _ => .r1
  | .cmd16 _ _ => .r1
  | .cmd17 _ _ => .r1
  | .cmd18 _ _ => .r1
  | .cmd24 _ _ => .r1
  | .cmd25 _ _ => .r1
  | .cmd32 _ _ => .r1
  | .cmd33 _ _ => .r1
  | .cmd35 _ _ => .r1
  | .cmd36 _ _ => .r1
  | .cmd38 _ _ => .r1b
  | .cmd55 _ _ => .r1
  | .acmd6 _ _ => .r1
  | .acmd23 _ _ => .r1
  | .acmd41 _ _ => .r3

end Sys2Proof
end

