-- ==== Sys2Proof/WellFormed.lean ====
section
/-! DEFINITION. Well-formed instructions: what the engine itself puts on the bus (30_encoding R131, R126, R142; R122 for the
CRC field). A host operation has no field, so it is always well formed. -/

namespace Sys2Proof

/-- The argument is one the engine sends with this command (30_encoding R126, R131, R142): 0, 512, 2, an RCA above 16 stuff
bits, a count of 23 bits, or a free 32-bit value (an address, or a parameter of 00_scope R10). -/
def Instr.argOk : Instr → Bool
  | .initializeCard => true
  | .readBlock => true
  | .readBlocks => true
  | .writeBlock => true
  | .writeBlocks => true
  | .erase => true
  | .queryStatus => true
  | .transferBusy => true
  | .capacityBlocks => true
  | .blockSize => true
  | .cmd0 arg _ => arg == 0#32
  | .cmd1 _ _ => true
  | .cmd2 arg _ => arg == 0#32
  | .cmd3 arg _ => arg == 0#32
  | .cmd7 arg _ => arg.extractLsb' 0 16 == 0#16
  | .cmd8 _ _ => true
  | .cmd9 arg _ => arg.extractLsb' 0 16 == 0#16
  | .cmd12 arg _ => arg == 0#32
  | .cmd13 arg _ => arg.extractLsb' 0 16 == 0#16
  | .cmd16 arg _ => arg == 512#32
  | .cmd17 _ _ => true
  | .cmd18 _ _ => true
  | .cmd24 _ _ => true
  | .cmd25 _ _ => true
  | .cmd32 _ _ => true
  | .cmd33 _ _ => true
  | .cmd35 _ _ => true
  | .cmd36 _ _ => true
  | .cmd38 arg _ => arg == 0#32
  | .cmd55 arg _ => arg.extractLsb' 0 16 == 0#16
  | .acmd6 arg _ => arg == 2#32
  | .acmd23 arg _ => arg.extractLsb' 23 9 == 0#9
  | .acmd41 _ _ => true

/-- The CRC field is the CRC7 of the frame's first 40 bits (30_encoding R122, R123). -/
def Instr.crcOk (i : Instr) : Bool :=
  match frameParts i with
  | none => true
  | some (_, idx, arg, crc) => crc == frameCrc idx arg

/-- An instruction as the engine issues it. -/
abbrev Instr.WellFormed (i : Instr) : Prop := i.argOk = true ∧ i.crcOk = true

end Sys2Proof
end

