-- ==== Sys2Proof/Decode.lean ====
section
/-! DEFINITION. The decoder, total on any bits and rejecting by name, and after it the encoder, both written from the tables
of 30_encoding (R122, R130, R131, R140, R150, R151). -/

namespace Sys2Proof

/-- The host operation an OP word selects: bits [3:0] are OPC, bits [31:4] must be 0 (30_encoding R150, R151). -/
def decodeOp (w : Word) : Except DecodeError Instr :=
  if w.extractLsb' 4 28 ≠ 0#28 then .error (.reservedOp w)
  else
    match (w.extractLsb' 0 4).toNat with
    | 1 => .ok .initializeCard
    | 2 => .ok .readBlock
    | 3 => .ok .readBlocks
    | 4 => .ok .writeBlock
    | 5 => .ok .writeBlocks
    | 6 => .ok .erase
    | 7 => .ok .queryStatus
    | 8 => .ok .transferBusy
    | 9 => .ok .capacityBlocks
    | 10 => .ok .blockSize
    | _ => .error (.reservedOp w)

/-- The bus command of an index, an argument and a CRC field; `app` says whether the previous command was a successful
CMD55 (30_encoding R130). Every other index is outside the command set (R131, R140). -/
def decodeCommand (app : Bool) (idx : BitVec 6) (arg : Word) (crc : BitVec 7) : Except DecodeError Instr :=
  match app, idx.toNat with
  | false, 0 => .ok (.cmd0 arg crc)
  | false, 1 => .ok (.cmd1 arg crc)
  | false, 2 => .ok (.cmd2 arg crc)
  | false, 3 => .ok (.cmd3 arg crc)
  | false, 7 => .ok (.cmd7 arg crc)
  | false, 8 => .ok (.cmd8 arg crc)
  | false, 9 => .ok (.cmd9 arg crc)
  | false, 12 => .ok (.cmd12 arg crc)
  | false, 13 => .ok (.cmd13 arg crc)
  | false, 16 => .ok (.cmd16 arg crc)
  | false, 17 => .ok (.cmd17 arg crc)
  | false, 18 => .ok (.cmd18 arg crc)
  | false, 24 => .ok (.cmd24 arg crc)
  | false, 25 => .ok (.cmd25 arg crc)
  | false, 32 => .ok (.cmd32 arg crc)
  | false, 33 => .ok (.cmd33 arg crc)
  | false, 35 => .ok (.cmd35 arg crc)
  | false, 36 => .ok (.cmd36 arg crc)
  | false, 38 => .ok (.cmd38 arg crc)
  | false, 55 => .ok (.cmd55 arg crc)
  | true, 6 => .ok (.acmd6 arg crc)
  | true, 23 => .ok (.acmd23 arg crc)
  | true, 41 => .ok (.acmd41 arg crc)
  | _, _ => .error (.outsideCommandSet app idx)

/-- The bus command a 48-bit frame holds (30_encoding R122, R130, R131). -/
def decodeFrame (app : Bool) (f : Frame) : Except DecodeError Instr :=
  if f.extractLsb' 46 2 = 0b01#2 ∧ f.extractLsb' 0 1 = 1#1 then
    decodeCommand app (f.extractLsb' 40 6) (f.extractLsb' 8 32) (f.extractLsb' 1 7)
  else .error .malformedFrame

/-- The bus command six bytes hold, byte 0 first (30_encoding R122); any other number of bytes is no frame. -/
def decodeBytes (app : Bool) (bs : List Byte) : Except DecodeError Instr :=
  match frameOfBytes bs with
  | some f => decodeFrame app f
  | none => .error .malformedFrame

/-- The instruction that words hold. -/
def decode : Words → Except DecodeError Instr
  | .op w => decodeOp w
  | .frame app f => decodeFrame app f

/-- The words of an instruction (30_encoding R122, R150). -/
def encode (i : Instr) : Words :=
  match frameParts i with
  | some (app, idx, arg, crc) => .frame app (frameWith idx arg crc)
  | none => .op ((opWord i).getD 0#32)

/-- The prefix bit under which the opcode table gives a row its meaning: the indices 6, 23 and 41 are commands of the table
only behind CMD55 (30_encoding R130, R131, R140; the notes of the ACMD rows). -/
def tablePrefix (f : Frame) : Bool :=
  let idx := f.extractLsb' 40 6
  idx == 6#6 || idx == 23#6 || idx == 41#6

/-- An opcode-table row's bits as the words they are: 32 bits are an OP word, 48 bits a command frame. -/
def tableWords (nbits w : Nat) : Except DecodeError Words :=
  if nbits = 32 then .ok (.op (BitVec.ofNat 32 w))
  else if nbits = 48 then .ok (.frame (tablePrefix (BitVec.ofNat 48 w)) (BitVec.ofNat 48 w))
  else .error (.unknownLength nbits)

/-- The instruction the decoder reads from a row's bits, numbered as the opcode table numbers them. -/
def decodeTableWord (nbits w : Nat) : Option Instr :=
  match tableWords nbits w with
  | .error _ => none
  | .ok ws =>
    match decode ws with
    | .ok i => some i
    | .error _ => none

end Sys2Proof
end

