-- ==== Sys2Proof/Machine/State.lean ====
section
/-! DEFINITION. The state of the machine, as plain data: every piece of state of 10_state R30-R55, what it implies, the
parameters of 00_scope R10, and what the other agents do next; the reasons a step can stop; the state after reset (70 R601). -/

namespace Sys2Proof.Machine

open Sys2Proof

/-- The closed error taxonomy, in the order of its codes 1 to 32 (60_exceptions R500, R501). -/
inductive TransferError where
  | cmdCrcFail | dataCrcFail | cmdResponseTimeout | dataTimeout | txUnderrun | rxOverrun | startBitError
  | addressOutOfRange | addressMisaligned | blockLengthError | eraseSequenceError | badEraseParam
  | writeProtectViolation | lockUnlockFailed | illegalCommand | cardEccFailed | controllerError | unknownError
  | streamUnderrun | streamOverrun | registerOverwrite | partialErase | eccDisabled | eraseReset | authSequenceError
  | invalidVoltageRange | unsupportedFeature | unsupportedHardware | invalidParameter | busyTimeout | notReady
  | writeProtected
  deriving DecidableEq, Repr

/-- CARD_TYPE (10_state R32); the register values 5 to 7 are never written, so they have no constructor (93 U20). -/
inductive CardType where
  | unknown | standardV1 | standardV2 | highCapacity | mmc
  deriving DecidableEq, Repr

/-- SEQ, the sequencer (10_state R40); the value 15 is never written, so it has no constructor (93 U19). -/
inductive Seq where
  | idle | negReset | negProbe | negVoltage | negIdent | negRegfetch | negSelect | negWidth | negBlklen
  | xferCmd | xferData | xferStop | eraseCmd | erasePoll | statusQuery
  deriving DecidableEq, Repr

/-- The card states of 45_status_poller R471. -/
inductive CardState where
  | ready | identification | standby | transfer | sending | receiving | programming | disconnected | error
  deriving DecidableEq, Repr

/-- The two CSD layouts (43_register_parser R351). -/
inductive Layout where
  | v1 | v2
  deriving DecidableEq, Repr

/-- The parsed CSD record (43_register_parser R352, R353, R354; 10_state R35). -/
structure Csd where
  layout : Layout
  csdStructure : BitVec 2
  taac : BitVec 8
  nsac : BitVec 8
  tranSpeed : BitVec 8
  ccc : BitVec 12
  readBlLen : BitVec 4
  readBlPartial : BitVec 1
  writeBlkMisalign : BitVec 1
  readBlkMisalign : BitVec 1
  dsrImp : BitVec 1
  cSize : BitVec 22
  vddRCurrMin : BitVec 3
  vddRCurrMax : BitVec 3
  vddWCurrMin : BitVec 3
  vddWCurrMax : BitVec 3
  cSizeMult : BitVec 3
  eraseBlkEn : BitVec 1
  sectorSize : BitVec 7
  wpGrpSize : BitVec 7
  wpGrpEnable : BitVec 1
  r2wFactor : BitVec 3
  writeBlLen : BitVec 4
  writeBlPartial : BitVec 1
  fileFormatGrp : BitVec 1
  copy : BitVec 1
  permWriteProtect : BitVec 1
  tmpWriteProtect : BitVec 1
  fileFormat : BitVec 2
  crc : BitVec 7
  deriving DecidableEq, Repr

/-- The parsed CID record (43_register_parser R356; 10_state R35). -/
structure Cid where
  mid : BitVec 8
  oid : BitVec 16
  pnm : BitVec 40
  prv : BitVec 8
  psn : BitVec 32
  mdt : BitVec 12
  crc : BitVec 7
  deriving DecidableEq, Repr

/-- `Result<T, TransferError>` (00_scope R15). -/
inductive Res (α : Type) where
  | ok (v : α)
  | err (e : TransferError)
  deriving DecidableEq, Repr

/-- What the decoder returns on success, by decode kind (40_response_decoder R200). -/
inductive Fields where
  /-- R1, R1b: the card status word. -/
  | status (st : Word)
  /-- R2: the 128-bit register. -/
  | reg (r : Reg128)
  /-- R3: the OCR word. -/
  | ocr (w : Word)
  /-- R6: the published RCA and the status subset. -/
  | rca (r : BitVec 16) (st : BitVec 16)
  /-- R7 and RNone: nothing. -/
  | empty
  deriving DecidableEq, Repr

/-- One diagnostic event of LOG (60_exceptions R551). -/
inductive LogEvent where
  | widthUpgradeFailed (code : BitVec 8)
  deriving DecidableEq, Repr

/-- A bus command as it was sent: the sequencer step that sent it, whether the prefix bit made it an application command
(30_encoding R130), its index and argument, and the decode kind the engine recorded for it (R121). -/
structure Sent where
  seq : Seq
  app : Bool
  idx : BitVec 6
  arg : Word
  kind : Kind
  deriving DecidableEq, Repr

/-- The direction of a data phase: card to host or host to card (60_exceptions R540). -/
inductive Dir where
  | rx | tx
  deriving DecidableEq, Repr

/-- An armed DMA transfer: the parameters of BC_Arm (60_exceptions R540). -/
structure Dma where
  dir : Dir
  buf : Nat
  len : Nat
  deriving DecidableEq, Repr

/-- How a command sent with a response format is answered (60_exceptions R540): CRC good, CRC bad, or no response within
BC's own window. -/
inductive Answer where
  | crcGood | crcBad | noResponse
  deriving DecidableEq, Repr

/-- One move of an agent other than ENGINE and HOST (10_state R30). A move of BC outside its duties is counted, and the run is
refused (60_exceptions R546, 93 U16). -/
inductive Ev where
  /-- TIMER: `d` milliseconds pass (60_exceptions R535). -/
  | tick (d : Word)
  /-- The GPIO inputs take these values (60_exceptions R545). -/
  | pins (present protect : Bool)
  /-- CARD and BC end the command in progress: RESPCMD and the four response words are drawn (60_exceptions R540), but for what
  the card itself decides: its state field, APP_CMD, its CSD in Standby, its addressing mode in a ready OCR (log entry 29). -/
  | respond (a : Answer) (rc : BitVec 6) (w1 w2 w3 w4 : Word)
  /-- BC sets data-path flags; with DATAEND, DMA has moved every byte (60_exceptions R546 (d), (e), (h)). -/
  | data (flags : Word)
  /-- The data path goes idle: TXACT and RXACT fall (10_state R49, 45_status_poller R472). -/
  | pathIdle
  /-- The completion interrupt's handler runs (60_exceptions R520, R522). -/
  | isr
  /-- CARD changes its own state (10_state R55 (c), (d)). -/
  | card (st : BitVec 4)
  deriving DecidableEq, Repr

/-- One move of HOST (10_state R46, 60_exceptions R547). -/
inductive HostMove where
  | writeArg0 (v : Word)
  | writeArg1 (v : Word)
  | writeBuf (a : Nat)
  | writeBuflen (v : Word)
  /-- The write to OP that starts an operation. -/
  | writeOp (w : Word)
  /-- The host writes its own memory between operations (20_memory R112). -/
  | store (a : Nat) (bs : List Byte)
  /-- Whether the host keeps its cache duty from here on (20_memory R111). -/
  | maint (kept : Bool)
  /-- The host waits: it reads HBUSY. -/
  | idle
  /-- Another card in the slot, in card state `st`, with its addressing mode, its kind, its CSD and its block length, holding the
  bytes `cells` lists by address (70 R617). -/
  | swap (st : BitVec 4) (byBlock mmc : Bool) (csd : Reg128) (len : Word) (cells : List (Nat × List Byte))
  /-- A bus command run by itself (30_encoding R152). -/
  | frame (f : Frame)
  deriving DecidableEq, Repr

/-- Memory: (address, byte) pairs in canonical form, addresses strictly rising and no byte equal to what an unlisted
address reads as (Machine/Memory.lean). -/
abbrev Memory := List Host.Cell

/-- The Card Descriptor registers (10_state R31-R36). -/
structure Descriptor where
  /-- DESC_VALID. -/
  valid : Bool
  cardType : CardType
  rca : BitVec 16
  csdRaw : Reg128
  cidRaw : Reg128
  csd : Csd
  cid : Cid
  capacity : Word
  deriving DecidableEq, Repr

/-- The negotiation working registers (10_state R39). -/
structure Negotiation where
  sdv2 : Bool
  ocr : Word
  busWidth : BitVec 3
  clkdiv : Nat
  deriving DecidableEq, Repr

/-- The Bus/DMA Transfer State (10_state R41-R44). PEND_ERR holds a TransferError or 0 = none. -/
structure Transfer where
  pendErr : Option TransferError
  /-- XFER_DONE. -/
  done : Bool
  multi : Bool
  deriving DecidableEq, Repr

/-- The host interface registers (10_state R46). -/
structure HostRegs where
  op : Word
  arg0 : Word
  arg1 : Word
  buf : Nat
  buflen : Word
  hbusy : Bool
  result : BitVec 8
  value : Word
  deriving DecidableEq, Repr

/-- The bus controller as the engine sees it (10_state R48-R53), its command and its armed transfer (60_exceptions R540). -/
structure Bc where
  /-- BCSTA. -/
  sta : Word
  /-- BCMASK. -/
  mask : Word
  respcmd : BitVec 6
  resp1 : Word
  resp2 : Word
  resp3 : Word
  resp4 : Word
  /-- The clock divider last configured. -/
  div : Nat
  /-- The bus width last configured. -/
  width : BitVec 3
  /-- The command sent last; it is in progress while BCSTA.CMDACT is set. -/
  cmd : Sent
  /-- The armed transfer, from BC_Arm to BC_Disarm. -/
  dma : Option Dma
  /-- DMA has moved every byte of the armed transfer: DATAEND has come (60_exceptions R546 (d)). -/
  moved : Bool
  /-- An interrupt was raised and its handler has not run yet (20_memory R108). -/
  irq : Bool
  /-- A transfer was just disarmed: a late data flag is still possible (60_exceptions R546 (h)). -/
  late : Bool
  deriving DecidableEq, Repr

/-- The card, as far as the spec lets a model see it (10_state R55; 20_memory R92). DESIGN CHOICE, log entry 32: it has no physical
size (93 U36), so a block past its end reads and stores like any other. -/
structure Card where
  /-- CURRENT_STATE (30_encoding R125, 45_status_poller R471). -/
  state : BitVec 4
  /-- The byte address at which the open data command moves its next block. -/
  addr : Nat
  /-- The byte address of the first block the erase commands selected. -/
  eraseFirst : Nat
  /-- The byte address of the last block the erase commands selected. -/
  eraseLast : Nat
  /-- What the card is, which no command changes (log entry 29): whether the addresses it takes are block numbers (10_state R38). -/
  byBlock : Bool
  /-- It is an MMC card. -/
  mmc : Bool
  /-- Its own CSD: what a CMD9 in Standby reads, each time the same (20_memory R101). -/
  csd : Reg128
  /-- The card's bus width (41_command_issuer R270). -/
  width : BitVec 3
  /-- The card's block length in bytes (30_encoding R132; 41_command_issuer R259): what it moves by where it takes byte addresses. -/
  blockLen : Word
  /-- How many blocks the next CMD25 finds pre-erased (41_command_issuer R271). -/
  preErase : Nat
  /-- Block storage by byte address: byte `k` of block `b` is at `512 * b + k`. -/
  mem : Memory
  deriving DecidableEq, Repr

/-- The inputs: what ENGINE reads of the outside, and what the other agents do next. -/
structure Inputs where
  /-- The milliseconds the TIMER has counted; `Now()` is their low 32 bits (60_exceptions R535). -/
  ms : Nat
  cardPresent : Bool
  writeProtect : Bool
  /-- The host keeps its cache duty (20_memory R111, 70 R616). -/
  maint : Bool
  /-- The schedule: one batch of moves before each access of ENGINE to something another agent writes. -/
  sched : List (List Ev)
  /-- What HOST does next. -/
  inbox : List HostMove
  /-- How many moves BC has made outside its duties: the model's own count, by which a run is refused (60_exceptions R546). -/
  breaches : Nat
  deriving DecidableEq, Repr

/-- The machine. -/
structure State where
  desc : Descriptor
  neg : Negotiation
  /-- SEQ (10_state R40). -/
  seq : Seq
  xfer : Transfer
  host : HostRegs
  /-- LOG (10_state R47). -/
  log : List LogEvent
  bc : Bc
  card : Card
  /-- The previous command was a successful CMD55 (30_encoding R130). -/
  app : Bool
  /-- Host memory (20_memory R90 (3)). -/
  mem : Memory
  inp : Inputs
  /-- The parameters of this machine (00_scope R10); no step writes them. -/
  cfg : Params
  /-- The commands put on the bus so far, oldest first (30_encoding R152). -/
  wire : List Sent
  /-- The Result the Command Issuer returned for the last bus command run by itself (41_command_issuer R240). -/
  cmdResult : Option (Res Fields)
  /-- How many free values have been drawn (Config.freeByte). -/
  free : Nat
  deriving DecidableEq, Repr

/-- Why the machine stops with a fault. -/
inductive Fault where
  /-- Raised by a host store past the end of the host address space (20_memory R90 (3), 60_exceptions R547). Safe: the
  spec has no such address. -/
  | outsideHostMemory (a : Nat)
  deriving DecidableEq, Repr

/-- Why the machine has no meaning for what is asked of it. -/
inductive Refusal where
  /-- Answered by `exec` for an instruction without a meaning. Safe. -/
  | notModelled (mnemonic : String)
  /-- A write to OP, to an operand register or to host memory, or a bus command, while HBUSY = 1: a host-duty violation
  the spec gives no move (60_exceptions R548, 70 R614, R615; 93 U12, U15). Unsafe only if a real host does it. -/
  | engineBusy
  /-- A command index outside the table of 30_encoding R131 under the prefix bit at hand (R130, R140; 93 U21): of a frame, or of
  the first command of a host operation begun right after a lone CMD55. Safe. -/
  | outsideCommandSet (app : Bool) (idx : BitVec 6)
  /-- Bits that are no command frame (30_encoding R122). Safe. -/
  | malformedFrame
  /-- A transfer whose buffer DMA cannot reach or that passes the end of the host address space: a host-duty violation
  (60_exceptions R547, 20_memory R102). Safe. -/
  | bufferUnreachable
  /-- Answered by an operation, a bus command or a wait of the host during which BC made a move outside its duties
  (60_exceptions R546, 93 U16). Safe. -/
  | dutyBroken
  deriving DecidableEq, Repr

/-- What HOST's next move asks of the machine: a next state, an instruction to run, or a stop. -/
inductive Fetched where
  | next (s : State)
  | run (i : Instr) (s : State)
  | fault (r : Fault)
  | refused (r : Refusal)
  deriving DecidableEq, Repr

/-- The CSD record after reset: every field 0 (10_state R35). -/
def Csd.zero : Csd where
  layout := .v1
  csdStructure := 0
  taac := 0
  nsac := 0
  tranSpeed := 0
  ccc := 0
  readBlLen := 0
  readBlPartial := 0
  writeBlkMisalign := 0
  readBlkMisalign := 0
  dsrImp := 0
  cSize := 0
  vddRCurrMin := 0
  vddRCurrMax := 0
  vddWCurrMin := 0
  vddWCurrMax := 0
  cSizeMult := 0
  eraseBlkEn := 0
  sectorSize := 0
  wpGrpSize := 0
  wpGrpEnable := 0
  r2wFactor := 0
  writeBlLen := 0
  writeBlPartial := 0
  fileFormatGrp := 0
  copy := 0
  permWriteProtect := 0
  tmpWriteProtect := 0
  fileFormat := 0
  crc := 0

/-- The CID record after reset: every field 0 (10_state R35). -/
def Cid.zero : Cid where
  mid := 0
  oid := 0
  pnm := 0
  prv := 0
  psn := 0
  mdt := 0
  crc := 0

/-- The machine with parameters `p` right after reset (70_reset_and_hazards R601, R602). What R601 leaves at 'any', or
does not name, has the value log entries 2, 3, 4 and 31 name. -/
def State.resetWith (p : Params) : State where
  desc :=
    { valid := false, cardType := .unknown, rca := 0, csdRaw := 0, cidRaw := 0, csd := Csd.zero, cid := Cid.zero,
      capacity := 0 }
  neg := { sdv2 := false, ocr := 0, busWidth := 1, clkdiv := p.initClkdiv }
  seq := .idle
  xfer := { pendErr := none, done := false, multi := false }
  host := { op := 0, arg0 := 0, arg1 := 0, buf := 0, buflen := 0, hbusy := false, result := 0, value := 0 }
  log := []
  bc :=
    { sta := 0, mask := 0, respcmd := 0, resp1 := 0, resp2 := 0, resp3 := 0, resp4 := 0, div := 0, width := 1,
      cmd := { seq := .idle, app := false, idx := 0, arg := 0, kind := .rNone }, dma := none, moved := false, irq := false,
      late := false }
  card :=
    { state := 0, addr := 0, eraseFirst := 0, eraseLast := 0, byBlock := false, mmc := false, csd := 0, width := 1,
      blockLen := 512, preErase := 0, mem := [] }
  app := false
  mem := []
  inp := { ms := 0, cardPresent := false, writeProtect := false, maint := true, sched := [], inbox := [], breaches := 0 }
  cfg := p
  wire := []
  cmdResult := none
  free := 0

/-- The machine right after reset. -/
def State.reset : State := State.resetWith Params.least

end Sys2Proof.Machine
end

