-- ==== Sys2Proof/Machine/Params.lean ====
section
/-! DEFINITION. The values of the parameters, each within the constraint of 00_scope R10 by construction. -/

namespace Sys2Proof.Machine

open Sys2Proof

/-- BLOCK_SIZE, hardwired (10_state R37). -/
def blockSize : Nat := 512

/-- A deadline a raw word stands for: at least 1 ms, and below 2^32 ms, so that the wrapping timer can pass it
(00_scope R10, R16; log entry 1). -/
def positiveMs (w : Word) : Nat := max 1 w.toNat

/-- The deadline of one command: CMD0_TIMEOUT_MS for CMD0, CMD_TIMEOUT_MS for every other (41_command_issuer R240). -/
def commandTimeoutMs (p : Params) (idx : BitVec 6) : Nat :=
  if idx = 0#6 then positiveMs p.cmd0Timeout else positiveMs p.cmdTimeout

/-- VOLTAGE_DEADLINE_MS (00_scope R10). -/
def voltageDeadlineMs (p : Params) : Nat := positiveMs p.voltageDeadline

/-- The highest step of a staircase at or below a divider and a block count. -/
def staircase (div count : Nat) : List (Nat × Nat × Word) → Nat
  | [] => 0
  | (d, c, ms) :: rest =>
    if d ≤ div ∧ c ≤ count then max ms.toNat (staircase div count rest) else staircase div count rest

/-- DATA_DEADLINE_MS(div, count): total, positive, non-decreasing in both (00_scope R10, 70 R621). -/
def dataDeadlineMs (p : Params) (div count : Nat) : Nat := max 1 (staircase div count p.dataDeadline)

/-- ERASE_POLL_BUDGET, at least 1 (00_scope R10). -/
def erasePollBudget (p : Params) : Nat := max 1 p.erasePollBudget

/-- MAX_COUNT, 2 to 2^23 - 1 (00_scope R10). -/
def maxCount (p : Params) : Nat := max 2 p.maxCount.toNat

/-- BUF_ALIGN, a power of two (00_scope R10). -/
def bufAlign (p : Params) : Nat := 2 ^ p.bufAlignLog2

/-- The size of the host address space (00_scope R10, HOST_ADDR_W). -/
def hostSpace (p : Params) : Nat := 2 ^ p.hostAddrW

/-- What a region (base, size) leaves of an interval [first, end): the parts below and above it, without the empty ones. -/
def cutRegion (r i : Nat × Nat) : List (Nat × Nat) :=
  [(i.1, min i.2 r.1), (max i.1 (r.1 + r.2), i.2)].filter fun j => decide (j.1 < j.2)

/-- What regions leave of intervals. -/
def cutRegions : List (Nat × Nat) → List (Nat × Nat) → List (Nat × Nat)
  | [], is => is
  | r :: rs, is => cutRegions rs (is.flatMap (cutRegion r))

/-- Every byte of a buffer lies inside the host address space and in some region DMA can reach (60_exceptions R547, 20_memory
R102). -/
def reachable (p : Params) (a n : Nat) : Bool :=
  decide (a + n ≤ hostSpace p) && (cutRegions p.dmaReach [(a, a + n)]).all fun i => decide (i.2 ≤ i.1)

end Sys2Proof.Machine
end

