-- ==== Sys2Proof/Machine/Flags.lean ====
section
/-! DEFINITION. The bits of BCSTA and every flag computation: masks (10_state R49, R51, R52), the end of a command wait
(41_command_issuer R240), the ISR's flag order (60_exceptions R520), the pending condition (R521). -/

namespace Sys2Proof.Machine

open Sys2Proof

/-- BCSTA masks, by bit (10_state R49). -/
def mCcrcfail : Word := 0x00000001#32
def mDcrcfail : Word := 0x00000002#32
def mCtimeout : Word := 0x00000004#32
def mDtimeout : Word := 0x00000008#32
def mTxunderr : Word := 0x00000010#32
def mRxoverr : Word := 0x00000020#32
def mCmdrend : Word := 0x00000040#32
def mCmdsent : Word := 0x00000080#32
def mDataend : Word := 0x00000100#32
def mStbiterr : Word := 0x00000200#32
def mDbckend : Word := 0x00000400#32
def mCmdact : Word := 0x00000800#32
def mTxact : Word := 0x00001000#32
def mRxact : Word := 0x00002000#32

/-- The static status flags, bits 10:0 (10_state R52). -/
def mStatic : Word := 0x000007FF#32

/-- DMASK, the data interrupt's flags (10_state R51). -/
def mData : Word := mDcrcfail ||| mDtimeout ||| mTxunderr ||| mRxoverr ||| mDataend ||| mStbiterr

/-- A status word has some bit of a mask set. -/
def hasFlag (s m : Word) : Bool := s &&& m != 0#32

/-- The flag that ends the wait for a command of this kind (41_command_issuer R240). -/
def commandEnded (k : Kind) (s : Word) : Bool :=
  match k with
  | .rNone => hasFlag s mCmdsent
  | _ => hasFlag s mCmdrend || hasFlag s mCcrcfail || hasFlag s mCtimeout

/-- The error the ISR records: the first flag set in the order of 60_exceptions R520; none where only DATAEND is set. -/
def isrError (s : Word) : Option TransferError :=
  if hasFlag s mDcrcfail then some .dataCrcFail
  else if hasFlag s mDtimeout then some .dataTimeout
  else if hasFlag s mTxunderr then some .txUnderrun
  else if hasFlag s mRxoverr then some .rxOverrun
  else if hasFlag s mStbiterr then some .startBitError
  else none

/-- The data interrupt is pending: a level (60_exceptions R521). -/
def irqPending (b : Bc) : Bool := b.sta &&& b.mask != 0#32

/-- `BC_TransferActive()` (45_status_poller R472). -/
def transferActive (s : Word) : Bool := hasFlag s mTxact || hasFlag s mRxact

/-- The act flag of a direction (10_state R49). -/
def mAct : Dir → Word
  | .rx => mRxact
  | .tx => mTxact

/-- Every bit of the card status word that is an error: R1_ERRORS (30_encoding R125). -/
def r1Errors : Word := 0xFDFFE008#32

/-- R6_ERRORS (30_encoding R128). -/
def r6Errors : Word := 0x0000E000#32

/-- `Now()` once the TIMER has counted `ms` milliseconds: a `u32` that wraps (60_exceptions R535). -/
def nowAt (ms : Nat) : Word := BitVec.ofNat 32 ms

/-- `elapsed(t0) >= T` with the wrapping timer (00_scope R16). -/
def passed (now t0 : Word) (t : Nat) : Bool := decide (t ≤ (now - t0).toNat)

/-- A deadline check, for a deadline of `t` ms begun when the TIMER stood at `m0`: the reading has passed it; or the timer has
wrapped past `m0` since, and by the TIMER's fairness a reading before that wrap had passed it (60_exceptions R535). -/
def expired (ms m0 t : Nat) : Bool := passed (nowAt ms) (nowAt m0) t || decide (m0 + 2 ^ 32 ≤ ms)

end Sys2Proof.Machine
end

