-- ==== Sys2Proof/Machine/Memory.lean ====
section
/-! DEFINITION. Memory as (address, byte) pairs in one canonical form: host memory (20_memory R93) and the card's block
storage (R92). -/

namespace Sys2Proof.Machine

open Sys2Proof

/-- What an unlisted address reads as (DESIGN CHOICE, log entry 3). -/
def blankByte : Byte := 0#8

/-- The canonical form: addresses strictly rising, no byte equal to what an unlisted address reads as. -/
abbrev Memory.wf (m : Memory) : Prop := m.Pairwise (fun x y => x.1 < y.1) ∧ ∀ c ∈ m, c.2 ≠ blankByte

/-- One byte. -/
def Memory.read : Memory → Nat → Byte
  | [], _ => blankByte
  | (k, v) :: m, a => if k = a then v else Memory.read m a

/-- The cells of consecutive bytes from an address on, without those an unlisted address reads as. -/
def cellsOf : Nat → List Byte → Memory
  | _, [] => []
  | a, b :: bs => if b = blankByte then cellsOf (a + 1) bs else (a, b) :: cellsOf (a + 1) bs

/-- Consecutive bytes written from an address on. -/
def Memory.write (m : Memory) (a : Nat) (bs : List Byte) : Memory :=
  m.filter (fun c => decide (c.1 < a)) ++ cellsOf a bs ++ m.filter (fun c => decide (a + bs.length ≤ c.1))

/-- Consecutive bytes read from an address on. -/
def Memory.readRange (m : Memory) (a n : Nat) : List Byte := (List.range n).map fun k => m.read (a + k)

/-- `n` free values from the counter on (log entry 5). -/
def freeBytes (seed n : Nat) : List Byte := (List.range n).map fun k => Config.freeByte (seed + k)

/-- `n` bytes of host memory from `a` on take free values (93 U5). -/
def spoilMem (a n : Nat) (s : State) : State :=
  { s with mem := s.mem.write a (freeBytes s.free n), free := s.free + n }

/-- `n` bytes of card storage from `a` on take free values (93 U6, U7, U8, U35). -/
def spoilCard (a n : Nat) (s : State) : State :=
  { s with card := { s.card with mem := s.card.mem.write a (freeBytes s.free n) }, free := s.free + n }

end Sys2Proof.Machine
end

