-- ==== Sys2Proof/Machine/Card.lean ====
section
/-! DEFINITION. The CARD agent, as far as the spec describes it: what it takes from a command (41_command_issuer R250-R272,
"card effect"), the state it reports (30_encoding R125), the blocks an erase touches (93 U8, U35). -/

namespace Sys2Proof.Machine

open Sys2Proof

/-- The byte address in card storage that a wire address means to the card: a block number where it takes block numbers, else a
byte offset (10_state R38, 44 R400). It is the card that decides, not the descriptor (70 R617). -/
def cardByteAddr (byBlock : Bool) (arg : Word) : Nat :=
  if byBlock then arg.toNat * blockSize else arg.toNat

/-- What the card keeps of a command's argument when the command reaches it: the address of the data commands, and the
ends of the range to erase (41_command_issuer R260-R267; log entry 11), the count of blocks the next CMD25 pre-erases (R271; log
entry 27). DESIGN CHOICE, log entry 11: a card takes the ends from CMD32 and CMD33 and from CMD35 and CMD36 alike, whatever its
kind; which pair it is sent is the engine's choice by CARD_TYPE (R264-R267). DESIGN CHOICE, log entry 11: CMD38 does not use the range
up, so a later CMD38 without selecting commands acts on the old one (R268). DESIGN CHOICE, log entries 11 and 27: CMD0 drops neither
the erase range nor the count of ACMD23 (R250 names the state alone), and each argument is kept in whatever state the card is. -/
def cardReceives (c : Sent) (k : Card) : Card :=
  match c.app, c.idx.toNat with
  | false, 17 | false, 18 | false, 24 => { k with addr := cardByteAddr k.byBlock c.arg }
  | false, 25 => { k with addr := cardByteAddr k.byBlock c.arg, preErase := 0 }
  | false, 32 | false, 35 => { k with eraseFirst := cardByteAddr k.byBlock c.arg }
  | false, 33 | false, 36 => { k with eraseLast := cardByteAddr k.byBlock c.arg }
  | true, 23 => { k with preErase := (c.arg.extractLsb' 0 23).toNat }
  | _, _ => k

/-- The size in bytes of the unit an erase acts on (93 U35): one block where ERASE_BLK_EN is 1, else SECTOR_SIZE + 1 write blocks
(43_register_parser R352); on MMC the erase group of bits 46:42 and 41:37 (R357). It is read from the card's own CSD and kind, not
from ENGINE's record. PRESUMED, log entry 8. -/
def eraseUnit (k : Card) : Nat :=
  let writeBlock := 2 ^ (k.csd.extractLsb' 22 4).toNat
  if k.mmc then ((k.csd.extractLsb' 42 5).toNat + 1) * ((k.csd.extractLsb' 37 5).toNat + 1) * writeBlock
  else if k.csd.getLsbD 46 then blockSize
  else ((k.csd.extractLsb' 39 7).toNat + 1) * writeBlock

/-- `a` up to the next multiple of the block size. -/
def ceilBlock (a : Nat) : Nat := (a + (blockSize - 1)) / blockSize * blockSize

/-- The byte range, first address and length, of every block that lies in an erase unit the selected range touches, from the
first byte of its first block to the last byte of its last (44 R430, 93 U8, U35; log entry 8). DESIGN CHOICE, log entry 8: where the
first address lies above the last (the selecting commands run by themselves, or a byte address that wraps with RANGE_CHECK = false)
the range is the whole span between the two. -/
def eraseRange (k : Card) : Nat × Nat :=
  let u := eraseUnit k
  let lo := min k.eraseFirst k.eraseLast / u * u / blockSize * blockSize
  let hi := ceilBlock ((max k.eraseFirst k.eraseLast + (blockSize - 1)) / u * u + u)
  (lo, hi - lo)

/-- The byte range, first address and length, of the blocks a CMD25 finds pre-erased: those the last ACMD23 announced, on an SD
card (41_command_issuer R271; log entry 27). -/
def preErased (arg : Word) (k : Card) : Nat × Nat :=
  (cardByteAddr k.byBlock arg, if k.mmc then 0 else k.preErase * blockSize)

/-- The byte range whose content a command that has just reached the card leaves open: the erase units of a CMD38 (93 U8, U35), the
blocks pre-erased for a CMD25 (41_command_issuer R271); empty for any other. -/
def spoiledRange (c : Sent) (k : Card) : Nat × Nat :=
  match c.app, c.idx.toNat with
  | false, 38 => eraseRange k
  | false, 25 => preErased c.arg k
  | _, _ => (0, 0)

/-- The status word the card reports: its CURRENT_STATE is the card's own state (30_encoding R125, R128; 10_state R55
(c); log entry 13). -/
def reportState (kind : Kind) (st : BitVec 4) (w : Word) : Word :=
  match kind with
  | .r1 | .r1b | .r6 => (w &&& 0xFFFFE1FF#32) ||| (st.setWidth 32 <<< 9)
  | .rNone | .r2 | .r3 | .r7 => w

/-- The first word of an answer with a good CRC: the card's own state in its state field, and APP_CMD (bit 5) set in the answer to
a CMD55 carried out (41_command_issuer R269). -/
def statusWordOf (c : Sent) (st : BitVec 4) (w : Word) : Word :=
  let v := reportState c.kind st w
  if c.app = false ∧ c.idx = 55#6 ∧ hasFlag v r1Errors = false then v ||| 0x00000020#32 else v

/-- A CMD9 answered with a good CRC in Standby: the read of the card's CSD, which always gives the same register (20_memory R101). -/
def readsCsd (c : Sent) (a : Answer) (k : Card) : Bool :=
  !c.app && c.idx == 9#6 && a == .crcGood && k.state == 3#4

/-- The four response words of a 128-bit register, RESP1 first (10_state R50). -/
def wordsOf (r : Reg128) : Word × Word × Word × Word :=
  (r.extractLsb' 96 32, r.extractLsb' 64 32, r.extractLsb' 32 32, r.extractLsb' 0 32)

/-- The register four response words hold (10_state R50). -/
def regOf (x : Word × Word × Word × Word) : Reg128 := x.1 ++ x.2.1 ++ x.2.2.1 ++ x.2.2.2

/-- The OCR word an ACMD41 is answered with: once bit 31 says that the card is ready, bit 30 is the card's own addressing mode
(30_encoding R127; 42_negotiation R303). DESIGN CHOICE, log entry 29: on a card of either kind, and whatever the argument, so a
card answers its mode without HCS (bit 30) and for any voltage window too (41_command_issuer R272). Any other word is as drawn. -/
def ocrOf (c : Sent) (byBlock : Bool) (w : Word) : Word :=
  if c.kind = .r3 ∧ c.idx = 41#6 ∧ w.getLsbD 31 = true then
    if byBlock then w ||| 0x40000000#32 else w &&& 0xBFFFFFFF#32
  else w

/-- The four response words as the card sends them, from the four drawn: the card's own CSD where a CMD9 reads it (20_memory
R101); else the card's own state in a status word and its addressing mode in a ready OCR. -/
def answerWords (c : Sent) (a : Answer) (k : Card) (w : Word × Word × Word × Word) : Word × Word × Word × Word :=
  if readsCsd c a k then wordsOf k.csd
  else (ocrOf c k.byBlock (if a = .crcGood then statusWordOf c k.state w.1 else w.1), w.2)

/-- The card carries a command out: it answered, and its answer reports no error (41_command_issuer, "card effect"). -/
def cardAccepts (kind : Kind) (a : Answer) (w : Word) : Bool :=
  match kind with
  | .rNone => true
  | .r1 | .r1b => a == .crcGood && !hasFlag w r1Errors
  | .r6 => a == .crcGood && !hasFlag w r6Errors
  | .r2 | .r3 | .r7 => a != .noResponse

/-- The card-state transition of a command carried out (41_command_issuer R250-R272): the state changes from the state
named there, else stays (log entry 13); the field values 9 to 15 hold Inactive, which CMD0 does not leave (R250; 45 R471). `w` is
the response word. DESIGN CHOICE, log entry 13: the card does not compare an addressed command's argument (CMD7, CMD9, CMD13, CMD55;
R254, R256, R258, R269) with an RCA of its own, so CMD7 selects with any argument and deselects with none; and it has no
regard to the card's kind, so CMD1 (R251, MMC only) makes an idle SD card ready too, and ACMD41 (R272) an idle MMC card. Nor does
the card heed the argument of ACMD41 (HCS, voltage window) or of CMD1 (voltage window): with any, OCR bit 31 alone makes it ready. -/
def cardNext (c : Sent) (w : Word) (st : BitVec 4) : BitVec 4 :=
  let step (src dst : BitVec 4) : BitVec 4 := if st = src then dst else st
  match c.app, c.idx.toNat with
  | false, 0 => if st.toNat ≤ 8 then 0#4 else st
  | false, 1 => if w.getLsbD 31 then step 0#4 1#4 else st
  | true, 41 => if w.getLsbD 31 then step 0#4 1#4 else st
  | false, 2 => step 1#4 2#4
  | false, 3 => step 2#4 3#4
  | false, 7 => step 3#4 4#4
  | false, 12 => if st = 6#4 then 7#4 else step 5#4 4#4
  | false, 17 | false, 18 => step 4#4 5#4
  | false, 24 | false, 25 => step 4#4 6#4
  | false, 38 => step 4#4 7#4
  | _, _ => st

/-- The card's bus width after a command carried out in state `st`: ACMD6 sets it in Transfer (41_command_issuer R270), CMD0 takes
it back to 1. DESIGN CHOICE, log entry 27: the width code is bits 1:0 of the argument, and the codes 1 and 3, to which the spec
gives no width, leave it; an ACMD6 run by itself sets the width of an MMC card too, to which the engine never sends it. -/
def cardWidth (c : Sent) (st : BitVec 4) (width : BitVec 3) : BitVec 3 :=
  match c.app, c.idx.toNat with
  | true, 6 =>
    if st = 4#4 ∧ c.arg.extractLsb' 0 2 = 2#2 then 4#3
    else if st = 4#4 ∧ c.arg.extractLsb' 0 2 = 0#2 then 1#3
    else width
  | false, 0 => if st.toNat ≤ 8 then 1#3 else width
  | _, _ => width

/-- The card's block length after a command carried out: CMD16 sets it in Transfer (30_encoding R132; 41_command_issuer R259), but
for a card that takes block numbers, which ignores the value; CMD0 takes it back to 512 (PRESUMED, log entry 31). DESIGN CHOICE,
log entry 31: any argument the card does not refuse is its block length from then on. -/
def cardBlockLen (c : Sent) (k : Card) : Word :=
  match c.app, c.idx.toNat with
  | false, 16 => if k.state = 4#4 ∧ k.byBlock = false then c.arg else k.blockLen
  | false, 0 => if k.state.toNat ≤ 8 then 512#32 else k.blockLen
  | _, _ => k.blockLen

/-- The card moves blocks of 512 bytes: one that takes block numbers always, another one by its block length (41_command_issuer R259;
log entry 31). -/
def movesBlocks (k : Card) : Bool := k.byBlock || k.blockLen == 512#32

/-- The card after a command carried out. -/
def cardDoes (c : Sent) (w : Word) (k : Card) : Card :=
  { k with state := cardNext c w k.state, width := cardWidth c k.state k.width, blockLen := cardBlockLen c k }

/-- The card once it has answered with the word `w`: a command carried out has its effect. -/
def cardAnswers (c : Sent) (a : Answer) (w : Word) (k : Card) : Card :=
  if cardAccepts c.kind a w then cardDoes c w k else k

/-- The card state once every block of a data phase has moved: a single block ends by itself (R260, R262), and BC ends an
MMC multi-block write with the stop token (60_exceptions R546 (f)); any other waits for CMD12. DESIGN CHOICE, log entry 29: after a
change of card without an INITIALIZE (70 R617) it is the kind of the card in the slot that decides, not CARD_TYPE (44 R422). -/
def cardAfterData (mmc : Bool) (c : Sent) (st : BitVec 4) : BitVec 4 :=
  match c.idx.toNat with
  | 17 => if st = 5#4 then 4#4 else st
  | 24 => if st = 6#4 then 7#4 else st
  | 25 => if mmc = true ∧ st = 6#4 then 7#4 else st
  | _ => st

end Sys2Proof.Machine
end

