-- ==== Sys2Proof/Machine/Errors.lean ====
section
/-! DEFINITION. The numeric codes (60_exceptions R500, 10_state R32, R40, 45_status_poller R471). -/

namespace Sys2Proof.Machine

open Sys2Proof

/-- The code of an error (60_exceptions R500). -/
def TransferError.code : TransferError → BitVec 8
  | .cmdCrcFail => 1
  | .dataCrcFail => 2
  | .cmdResponseTimeout => 3
  | .dataTimeout => 4
  | .txUnderrun => 5
  | .rxOverrun => 6
  | .startBitError => 7
  | .addressOutOfRange => 8
  | .addressMisaligned => 9
  | .blockLengthError => 10
  | .eraseSequenceError => 11
  | .badEraseParam => 12
  | .writeProtectViolation => 13
  | .lockUnlockFailed => 14
  | .illegalCommand => 15
  | .cardEccFailed => 16
  | .controllerError => 17
  | .unknownError => 18
  | .streamUnderrun => 19
  | .streamOverrun => 20
  | .registerOverwrite => 21
  | .partialErase => 22
  | .eccDisabled => 23
  | .eraseReset => 24
  | .authSequenceError => 25
  | .invalidVoltageRange => 26
  | .unsupportedFeature => 27
  | .unsupportedHardware => 28
  | .invalidParameter => 29
  | .busyTimeout => 30
  | .notReady => 31
  | .writeProtected => 32

/-- PEND_ERR as the 8-bit register it is: 0 for none (10_state R42). -/
def pendErrCode (x : Transfer) : BitVec 8 :=
  match x.pendErr with
  | none => 0
  | some e => e.code

/-- The code of CARD_TYPE (10_state R32). -/
def CardType.code : CardType → BitVec 3
  | .unknown => 0
  | .standardV1 => 1
  | .standardV2 => 2
  | .highCapacity => 3
  | .mmc => 4

/-- The code of SEQ (10_state R40). -/
def Seq.code : Seq → BitVec 4
  | .idle => 0
  | .negReset => 1
  | .negProbe => 2
  | .negVoltage => 3
  | .negIdent => 4
  | .negRegfetch => 5
  | .negSelect => 6
  | .negWidth => 7
  | .negBlklen => 8
  | .xferCmd => 9
  | .xferData => 10
  | .xferStop => 11
  | .eraseCmd => 12
  | .erasePoll => 13
  | .statusQuery => 14

/-- The code of a card state (45_status_poller R471). -/
def CardState.code : CardState → BitVec 8
  | .ready => 1
  | .identification => 2
  | .standby => 3
  | .transfer => 4
  | .sending => 5
  | .receiving => 6
  | .programming => 7
  | .disconnected => 8
  | .error => 0xFF

/-- `StateOf(v)`: the CURRENT_STATE field as a card state; 0 and 9 to 15 are Error (45_status_poller R471). -/
def stateOf (v : BitVec 4) : CardState :=
  match v.toNat with
  | 1 => .ready
  | 2 => .identification
  | 3 => .standby
  | 4 => .transfer
  | 5 => .sending
  | 6 => .receiving
  | 7 => .programming
  | 8 => .disconnected
  | _ => .error

end Sys2Proof.Machine
end

