-- ==== Sys2Proof/Machine/Ops.lean ====
section
/-! DEFINITION. The named operations: the bus-controller primitives (60_exceptions R540), the completion interrupt's handler
(R520), the moves of the other agents, ending an operation (R510), and the sequencing of steps (00_scope R15). -/

namespace Sys2Proof.Machine

open Sys2Proof

/-! ## Bus-controller primitives (60_exceptions R540) -/

/-- `BC_ClearStatic()`: exactly bits 10:0 of BCSTA (10_state R52). -/
def bcClearStatic (s : State) : State := { s with bc := { s.bc with sta := s.bc.sta &&& ~~~mStatic } }

/-- `BC_Config(div, width)`: the divider and the width, no status bit. -/
def bcConfig (div : Nat) (width : BitVec 3) (s : State) : State := { s with bc := { s.bc with div := div, width := width } }

/-- The command as BC_Send puts it on the bus at this state (30_encoding R121, R130). Under a pending prefix it is the application
command of its index; a host operation that would begin so is refused (`settle`; DESIGN CHOICE, log entry 23). -/
def sentAs (idx : BitVec 6) (arg : Word) (kind : Kind) (s : State) : Sent :=
  { seq := s.seq, app := s.app, idx := idx, arg := arg, kind := kind }

/-- A command has reached the card: the blocks it erases or finds pre-erased hold free values from now on, whatever the answer
will be (93 U8, U35; 60_exceptions R510; log entry 27). -/
def spoilOnCard (c : Sent) (s : State) : State :=
  let r := spoiledRange c s.card
  if r.2 = 0 then s else spoilCard r.1 r.2 s

/-- `BC_Send(idx, arg, fmt)`: the command is on the bus, CMDACT is set, the card receives it. DESIGN CHOICE, log entry 24: it takes
the place of a command still in progress, so that one answer, the new command's, is all that can come. -/
def bcSend (idx : BitVec 6) (arg : Word) (kind : Kind) (s : State) : State :=
  let c := sentAs idx arg kind s
  let s1 := spoilOnCard c s
  { s1 with
    bc := { s1.bc with sta := s1.bc.sta ||| mCmdact, cmd := c, late := false }
    card := cardReceives c s1.card
    wire := s1.wire ++ [c] }

/-- `BC_Arm(dir, buf, len)`: DMA and the data path start, BCMASK <- DMASK (10_state R51). DESIGN CHOICE, log entry 25: the act flag
a transfer that timed out left in BCSTA falls here at the latest. -/
def bcArm (dir : Dir) (buf len : Nat) (s : State) : State :=
  { s with
    bc :=
      { s.bc with
        sta := (s.bc.sta &&& ~~~(mTxact ||| mRxact)) ||| mAct dir
        mask := mData
        dma := some { dir := dir, buf := buf, len := len }
        moved := false
        irq := false
        late := false } }

/-- `BC_Disarm()`: DMA and the data path stop, BCMASK <- 0. A late flag of this transfer stays possible (R546 (h);
log entry 14). -/
def bcDisarm (s : State) : State := { s with bc := { s.bc with mask := 0#32, dma := none, late := true } }

/-! ## The completion interrupt (60_exceptions R520) -/

/-- `ISR()`: one atomic step. It writes PEND_ERR, XFER_DONE and BCMASK, or nothing where no data flag is set. -/
def isr (s : State) : State :=
  if s.bc.sta &&& mData = 0#32 then { s with bc := { s.bc with irq := false } }
  else
    { s with
      bc := { s.bc with mask := 0#32, irq := false }
      xfer := { s.xfer with pendErr := isrError s.bc.sta, done := true } }

/-! ## The moves of the other agents (10_state R30) -/

/-- The static flag that ends a command (60_exceptions R540): exactly one. -/
def answerFlag (kind : Kind) (a : Answer) : Word :=
  match kind, a with
  | .rNone, _ => mCmdsent
  | _, .crcGood => mCmdrend
  | _, .crcBad => mCcrcfail
  | _, .noResponse => mCtimeout

/-- RESPCMD and RESP1..RESP4 are loaded: a response has arrived (60_exceptions R540). -/
def loadsResponse (kind : Kind) (a : Answer) : Bool :=
  match kind, a with
  | .rNone, _ | _, .noResponse => false
  | _, _ => true

/-- BC's side of the end of a command: CMDACT falls, exactly one static flag rises, and a response that arrived is loaded. DESIGN
CHOICE, log entry 28: a long response loads RESPCMD too, with the value drawn. -/
def respondBc (a : Answer) (rc : BitVec 6) (x : Word × Word × Word × Word) (b : Bc) : Bc :=
  let sta := (b.sta &&& ~~~mCmdact) ||| answerFlag b.cmd.kind a
  if loadsResponse b.cmd.kind a then
    { b with sta := sta, respcmd := rc, resp1 := x.1, resp2 := x.2.1, resp3 := x.2.2.1, resp4 := x.2.2.2 }
  else { b with sta := sta }

/-- BC made a move outside its duties: the run is to be refused (60_exceptions R546, 93 U16). -/
def breach (s : State) : State := { s with inp := { s.inp with breaches := s.inp.breaches + 1 } }

/-- CARD and BC end the command in progress. BC has no answer to give where there is none. -/
def respond (a : Answer) (rc : BitVec 6) (w1 w2 w3 w4 : Word) (s : State) : State :=
  if hasFlag s.bc.sta mCmdact then
    let x := answerWords s.bc.cmd a s.card (w1, w2, w3, w4)
    { s with bc := respondBc a rc x s.bc, card := cardAnswers s.bc.cmd a x.1 s.card }
  else breach s

/-- The bytes a data phase moves are the real ones: no cache maintenance the platform needs was skipped (70 R616, 93 U13), and the
card moves blocks of 512 bytes (41_command_issuer R259; DESIGN CHOICE, log entry 31). -/
def realBytes (s : State) : Bool := (!s.cfg.dcacheMaint || s.inp.maint) && movesBlocks s.card

/-- The bytes a data phase moves: the real ones, or free values. -/
def exchanged (bs : List Byte) (s : State) : List Byte × Nat :=
  if realBytes s then (bs, s.free) else (freeBytes s.free bs.length, s.free + bs.length)

/-- DMA moves every byte of the armed transfer, in order (20_memory R95, 60_exceptions R546 (d)). -/
def dmaMove (d : Dma) (s : State) : State :=
  match d.dir with
  | .rx =>
    let x := exchanged (s.card.mem.readRange s.card.addr d.len) s
    { s with
      mem := s.mem.write d.buf x.1
      free := x.2
      card := { s.card with state := cardAfterData s.card.mmc s.bc.cmd s.card.state } }
  | .tx =>
    let x := exchanged (s.mem.readRange d.buf d.len) s
    { s with
      card :=
        { s.card with
          mem := s.card.mem.write s.card.addr x.1
          state := cardAfterData s.card.mmc s.bc.cmd s.card.state }
      free := x.2 }

/-- The flags of the data path: those of the data interrupt, and DBCKEND (10_state R49). -/
def mPath : Word := mData ||| mDbckend

/-- BC sets data-path flags of an armed transfer. With the first DATAEND every byte has moved (60_exceptions R546 (d)), and an
enabled flag raises the interrupt (R521). DESIGN CHOICE, log entry 25: a flag of DMASK takes both act flags down; log entry 30:
further flags may follow until BC_Disarm, and the bytes move once. -/
def armedMove (f : Word) (d : Dma) (s : State) : State :=
  let ends := hasFlag f mDataend
  let s1 := if ends && !s.bc.moved then dmaMove d s else s
  let sta := s.bc.sta ||| f
  let act := if hasFlag f mData then mTxact ||| mRxact else 0#32
  { s1 with
    bc :=
      { s1.bc with
        sta := sta &&& ~~~act
        moved := s.bc.moved || ends
        irq := s.bc.irq || sta &&& ~~~act &&& s.bc.mask != 0#32 } }

/-- BC sets data-path flags: of the transfer that is armed, or late flags of one just disarmed (60_exceptions R546 (h)). Any other
flag is outside BC's duties. -/
def dataMove (f : Word) (s : State) : State :=
  if hasFlag f (~~~mPath) then breach s
  else
    match s.bc.dma with
    | some d => armedMove f d s
    | none => if s.bc.late then { s with bc := { s.bc with sta := s.bc.sta ||| f } } else breach s

/-- Milliseconds pass (60_exceptions R535). -/
def tick (d : Word) (s : State) : State := { s with inp := { s.inp with ms := s.inp.ms + d.toNat } }

/-- The GPIO inputs change (60_exceptions R545). -/
def setPins (present protect : Bool) (s : State) : State :=
  { s with inp := { s.inp with cardPresent := present, writeProtect := protect } }

/-- The data path goes idle: both act flags fall (10_state R49, 45_status_poller R472; log entry 19). -/
def pathIdle (s : State) : State := { s with bc := { s.bc with sta := s.bc.sta &&& ~~~(mTxact ||| mRxact) } }

/-- The handler runs where the interrupt is pending, or was raised and has not been handled (60_exceptions R522, 20_memory
R108); elsewhere the ISR agent has no step (log entry 19). -/
def isrMove (s : State) : State := if s.bc.irq || irqPending s.bc then isr s else s

/-- The card changes its own state (10_state R55 (c), (d)). -/
def setCardState (st : BitVec 4) (s : State) : State := { s with card := { s.card with state := st } }

/-- One move of another agent. -/
def applyEv (e : Ev) (s : State) : State :=
  match e with
  | .tick d => tick d s
  | .pins p w => setPins p w s
  | .respond a rc w1 w2 w3 w4 => respond a rc w1 w2 w3 w4 s
  | .data f => dataMove f s
  | .pathIdle => pathIdle s
  | .isr => isrMove s
  | .card st => setCardState st s

/-- A batch of moves, in order. -/
def applyBatch : List Ev → State → State
  | [], s => s
  | e :: es, s => applyBatch es (applyEv e s)

/-- The schedule after this point. -/
def setSched (r : List (List Ev)) (s : State) : State := { s with inp := { s.inp with sched := r } }

/-- The other agents make their moves of the next batch. ENGINE does so before each access to something they write. -/
def sync (s : State) : State :=
  match s.inp.sched with
  | [] => s
  | b :: r => applyBatch b (setSched r s)

/-- Time goes on until `t` ms after `m0` have passed: all that is sure once the schedule has run out (60_exceptions
R535). -/
def fairTick (m0 t : Nat) (s : State) : State :=
  if expired s.inp.ms m0 t then s else { s with inp := { s.inp with ms := m0 + t } }

/-- A polling loop with a deadline: in each iteration the condition is tested before the timer (41_command_issuer R240, 44
R420). It recurses on the schedule: two batches an iteration, one before each test. `m0` is what the TIMER had counted at its
start. The Boolean is `timed_out`. -/
def waitLoop (ended : State → Bool) (m0 t : Nat) : List (List Ev) → State → State × Bool
  | [], s => if ended s then (setSched [] s, false) else (fairTick m0 t (setSched [] s), true)
  | [b], s =>
    let s1 := applyBatch b s
    if ended s1 then (setSched [] s1, false) else (fairTick m0 t (setSched [] s1), true)
  | b :: c :: r, s =>
    let s1 := applyBatch b s
    if ended s1 then (setSched (c :: r) s1, false)
    else
      let s2 := applyBatch c s1
      if expired s2.inp.ms m0 t then (setSched r s2, true) else waitLoop ended m0 t r s2

/-- Wait from now on for a condition, at most `t` ms. -/
def waitFor (ended : State → Bool) (t : Nat) (s : State) : State × Bool := waitLoop ended s.inp.ms t s.inp.sched s

/-! ## Sequencing and the end of an operation -/

/-- `r?` (00_scope R15): go on with the value, or pass the error on. -/
def andThen {α β : Type} (r : State × Res α) (k : α → State → State × Res β) : State × Res β :=
  match r.2 with
  | .ok v => k v r.1
  | .err e => (r.1, .err e)

/-- SEQ <- q (10_state R40). -/
def setSeq (q : Seq) (s : State) : State := { s with seq := q }

/-- Trap entry, `raise e`: how a host operation ends with an error (60_exceptions R510). -/
def raise (e : TransferError) (s : State) : State :=
  { s with seq := .idle, host := { s.host with result := e.code, value := 0#32, hbusy := false } }

/-- How a host operation ends with `Ok(v)` (10_state R46). There is no return from a trap (60_exceptions R511): the next OP
write starts the next operation. -/
def finish (v : Word) (s : State) : State :=
  { s with seq := .idle, host := { s.host with result := 0#8, value := v, hbusy := false } }

/-- The end of an operation, by its Result (00_scope R15). -/
def endWith (r : State × Res Word) : State :=
  match r.2 with
  | .ok v => finish v r.1
  | .err e => raise e r.1

/-- HBUSY <- 1: the operation begins (10_state R46). -/
def beginOp (s : State) : State := { s with host := { s.host with hbusy := true } }

/-- What was begun at `s` and went on to `t` is refused where BC made a move outside its duties meanwhile (60_exceptions R546, 93
U16). -/
def inDuty (s t : State) : Host.Outcome State Fault Refusal :=
  if t.inp.breaches = s.inp.breaches then .next t else .refused .dutyBroken

/-- A host operation begun at `s` came to `t`. Begun right after a lone CMD55, its first command would be the application command
of its index, one outside the table, as no operation begins with ACMD6, ACMD23 or ACMD41: refused (30_encoding R130, R140; log entry
23). An operation that sends no command is not. -/
def settle (s t : State) : Host.Outcome State Fault Refusal :=
  if s.app then
    match t.wire.drop s.wire.length with
    | [] => inDuty s t
    | c :: _ => .refused (.outsideCommandSet true c.idx)
  else inDuty s t

/-- A host operation. While HBUSY = 1 it is refused (60_exceptions R548). -/
def hostOp (body : State → State × Res Word) (s : State) : Host.Outcome State Fault Refusal :=
  if s.host.hbusy then .refused .engineBusy else settle s (endWith (body (beginOp s)))

end Sys2Proof.Machine
end

