-- ==== Sys2Proof/Machine/Operands.lean ====
section
/-! DEFINITION. The operands: arguments of commands (30_encoding R126), wire addresses (44 R400), and the checks that come
before the commands of an operation (44 R402, R430, R460). -/

namespace Sys2Proof.Machine

open Sys2Proof

/-- BLOCK_ADDRESSED (10_state R38). -/
def blockAddressed (d : Descriptor) : Bool := decide (d.cardType = .highCapacity)

/-- The argument of an addressed command: RCA in bits 31:16 (30_encoding R126). -/
def rcaArg (s : State) : Word := s.desc.rca.setWidth 32 <<< 16

/-- `WireAddr(a)`: the block number on a high-capacity card, else the byte address `u32(a * 512)` (44 R400). -/
def wireAddr (d : Descriptor) (a : Word) : Word := if blockAddressed d then a else a * BitVec.ofNat 32 blockSize

/-- The argument of ACMD41: the voltage window, and HCS for a V2 candidate (41_command_issuer R272). -/
def opCondArg (s : State) : Word :=
  s.cfg.voltageWindowSd ||| (if s.neg.sdv2 then 1#32 <<< s.cfg.hcsBit else 0#32)

/-- `CardCheck()`: the card-present input is sampled; an absent card invalidates the descriptor (44 R460, R462). -/
def cardCheck (s : State) : State × Res Unit :=
  let s1 := sync s
  if s1.inp.cardPresent then (s1, .ok ())
  else ({ s1 with desc := { s1.desc with valid := false } }, .err .notReady)

/-- The operation needs a published descriptor (44 R402, 45 R470). -/
def descCheck (s : State) : State × Res Unit := if s.desc.valid then (s, .ok ()) else (s, .err .notReady)

/-- The write-protect input is sampled, only for a write and only with ENGINE_CHECKS_WP (44 R402, 60_exceptions R545). -/
def protectCheck (dir : Dir) (s : State) : State × Res Unit :=
  if dir = .tx ∧ s.cfg.engineChecksWp = true then
    let s1 := sync s
    if s1.inp.writeProtect then (s1, .err .writeProtected) else (s1, .ok ())
  else (s, .ok ())

/-- The count, buffer and range checks of a transfer hold (44 R402): exact sums and products. -/
def argsOk (p : Params) (d : Descriptor) (h : HostRegs) (count : Nat) (multi : Bool) : Bool :=
  (!multi || decide (2 ≤ count ∧ count ≤ maxCount p))
    && decide (h.buf % bufAlign p = 0 ∧ count * blockSize ≤ h.buflen.toNat)
    && (!p.rangeCheck || decide (h.arg0.toNat + count ≤ d.capacity.toNat))

/-- `Checks(dir, addr, count, multi)`: before any bus command of a transfer, in this order (44 R402). -/
def checks (dir : Dir) (count : Nat) (multi : Bool) (s : State) : State × Res Unit :=
  andThen (cardCheck s) fun _ s =>
  andThen (descCheck s) fun _ s =>
  andThen (protectCheck dir s) fun _ s =>
  if argsOk s.cfg s.desc s.host count multi then (s, .ok ()) else (s, .err .invalidParameter)

/-- `HasEraseClass(csd)`: command class 5 (43_register_parser R363). -/
def hasEraseClass (c : Csd) : Bool := c.ccc.getLsbD 5

/-- The checks of an erase, in this order (44 R430). -/
def eraseChecks (s : State) : State × Res Unit :=
  andThen (cardCheck s) fun _ s =>
  andThen (descCheck s) fun _ s =>
  if hasEraseClass s.desc.csd = false then (s, .err .unsupportedFeature)
  else if s.host.arg1.toNat < s.host.arg0.toNat then (s, .err .invalidParameter)
  else if s.cfg.rangeCheck = true ∧ s.desc.capacity.toNat ≤ s.host.arg1.toNat then (s, .err .invalidParameter)
  else (s, .ok ())

end Sys2Proof.Machine
end

