-- ==== Sys2Proof/Machine/Decoder.lean ====
section
/-! DEFINITION. The Response Decoder (40_response_decoder R200-R211): pure. -/

namespace Sys2Proof.Machine

open Sys2Proof

/-- The R1 status bits and their errors, in priority order (40_response_decoder R203). -/
def r1Table : List (Nat × TransferError) :=
  [(31, .addressOutOfRange), (30, .addressMisaligned), (29, .blockLengthError), (28, .eraseSequenceError),
   (27, .badEraseParam), (26, .writeProtectViolation), (24, .lockUnlockFailed), (23, .cmdCrcFail),
   (22, .illegalCommand), (21, .cardEccFailed), (20, .controllerError), (19, .unknownError), (18, .streamUnderrun),
   (17, .streamOverrun), (16, .registerOverwrite), (15, .partialErase), (14, .eccDisabled), (13, .eraseReset),
   (3, .authSequenceError)]

/-- The R6 subset, in priority order (40_response_decoder R209). -/
def r6Table : List (Nat × TransferError) := [(15, .cmdCrcFail), (14, .illegalCommand), (13, .unknownError)]

/-- The error of the first set bit of a table. -/
def firstError (w : Word) : List (Nat × TransferError) → Option TransferError
  | [] => none
  | (b, e) :: t => if w.getLsbD b then some e else firstError w t

/-- The 128-bit register of a long response: RESP1 holds bits 127:96 (40_response_decoder R206, 10_state R50). -/
def longReg (b : Bc) : Reg128 := b.resp1 ++ b.resp2 ++ b.resp3 ++ b.resp4

/-- The controller-level checks of the kinds whose response carries a valid CRC (40_response_decoder R201). -/
def crcChecks (s : Word) (ok : Res Fields) : Res Fields :=
  if hasFlag s mCtimeout then .err .cmdResponseTimeout
  else if hasFlag s mCcrcfail then .err .cmdCrcFail
  else if hasFlag s mCmdrend then ok
  else .err .cmdResponseTimeout

/-- The controller-level checks of R3 and R7, which skip the CRC step (40_response_decoder R201, R207, R208). -/
def arrivalChecks (s : Word) (ok : Res Fields) : Res Fields :=
  if hasFlag s mCtimeout then .err .cmdResponseTimeout
  else if hasFlag s mCmdrend || hasFlag s mCcrcfail then ok
  else .err .cmdResponseTimeout

/-- The echo check, then the status bits of a table (40_response_decoder R202, R203, R209). -/
def statusChecks (idx rc : BitVec 6) (w : Word) (table : List (Nat × TransferError)) (ok : Fields) : Res Fields :=
  if rc = idx then
    match firstError w table with
    | some e => .err e
    | none => .ok ok
  else .err .illegalCommand

/-- `Decode(kind, idx, s, rc, w)` on the registers of BC (40_response_decoder R200, R204-R210). -/
def decodeResponse (kind : Kind) (idx : BitVec 6) (b : Bc) : Res Fields :=
  match kind with
  | .r1 | .r1b => crcChecks b.sta (statusChecks idx b.respcmd b.resp1 r1Table (.status b.resp1))
  | .r2 => crcChecks b.sta (.ok (.reg (longReg b)))
  | .r3 => arrivalChecks b.sta (.ok (.ocr b.resp1))
  | .r6 =>
    crcChecks b.sta
      (statusChecks idx b.respcmd b.resp1 r6Table (.rca (b.resp1.extractLsb' 16 16) (b.resp1.extractLsb' 0 16)))
  | .r7 => arrivalChecks b.sta (.ok .empty)
  | .rNone => if hasFlag b.sta mCmdsent then .ok .empty else .err .cmdResponseTimeout

/-- The status word of a decoded R1 or R1b; 0 for any other kind, which no caller asks for. -/
def Fields.statusWord : Fields → Word
  | .status st => st
  | .reg _ | .ocr _ | .rca _ _ | .empty => 0#32

/-- The register of a decoded R2. -/
def Fields.register : Fields → Reg128
  | .reg r => r
  | .status _ | .ocr _ | .rca _ _ | .empty => 0#128

/-- The OCR word of a decoded R3. -/
def Fields.ocrWord : Fields → Word
  | .ocr w => w
  | .status _ | .reg _ | .rca _ _ | .empty => 0#32

/-- The RCA of a decoded R6. -/
def Fields.rcaField : Fields → BitVec 16
  | .rca r _ => r
  | .status _ | .reg _ | .ocr _ | .empty => 0#16

end Sys2Proof.Machine
end

