-- ==== Sys2Proof/Machine/Issuer.lean ====
section
/-! DEFINITION. The Command Issuer (41_command_issuer R240-R243). -/

namespace Sys2Proof.Machine

open Sys2Proof

/-- The command just decoded is a prefix that succeeded (30_encoding R130). -/
def prefixOf (idx : BitVec 6) (r : Res Fields) : Bool :=
  match r with
  | .ok _ => idx == 55#6
  | .err _ => false

/-- The command wait is over (41_command_issuer R240). -/
def waitEnded (kind : Kind) (s : State) : Bool := commandEnded kind s.bc.sta

/-- `IssueCmd(idx, arg, kind)` (41_command_issuer R240): clear, send, wait for the flag or the deadline, decode, clear. -/
def issueCmd (idx : BitVec 6) (arg : Word) (kind : Kind) (s : State) : State × Res Fields :=
  let s1 := bcSend idx arg kind (sync (bcClearStatic s))
  let w := waitFor (waitEnded kind) (commandTimeoutMs s.cfg idx) s1
  let r := if w.2 then .err .cmdResponseTimeout else decodeResponse kind idx w.1.bc
  ({ bcClearStatic w.1 with app := prefixOf idx r }, r)

/-- `IssueApp(n, arg, kind)`: the command behind its prefix (41_command_issuer R241). -/
def issueApp (idx : BitVec 6) (arg : Word) (kind : Kind) (s : State) : State × Res Fields :=
  andThen (issueCmd 55#6 (rcaArg s) .r1 s) fun _ s => issueCmd idx arg kind s

end Sys2Proof.Machine
end

