-- ==== Sys2Proof/Machine/Commands.lean ====
section
/-! DEFINITION. The 23 bus commands run by themselves (41_command_issuer R250-R272): the Command Issuer's procedure R240
with the command's index and decode kind. The issuer writes no engine register (R243); its Result is kept in `cmdResult`. -/

namespace Sys2Proof.Machine

open Sys2Proof

/-- One bus command. It is refused while an operation is in progress (60_exceptions R548), and where the prefix bit makes
its index another command, one outside the table (30_encoding R130, R140). BC builds the frame, its CRC7 included, from the
index and the argument (R122), so the CRC field of the frame asked for is not passed on. -/
def busCommand (app : Bool) (idx : BitVec 6) (arg : Word) (kind : Kind) (s : State) : Host.Outcome State Fault Refusal :=
  if s.host.hbusy then .refused .engineBusy
  else if s.app = app then
    let r := issueCmd idx arg kind s
    inDuty s { r.1 with cmdResult := some r.2 }
  else .refused (.outsideCommandSet s.app idx)

/-- CMD0 GO_IDLE_STATE (41_command_issuer R250). -/
def execCmd0 (arg : Word) (_crc : BitVec 7) (s : State) : Host.Outcome State Fault Refusal :=
  busCommand false 0#6 arg .rNone s

/-- CMD1 SEND_OP_COND (MMC) (41_command_issuer R251). -/
def execCmd1 (arg : Word) (_crc : BitVec 7) (s : State) : Host.Outcome State Fault Refusal :=
  busCommand false 1#6 arg .r3 s

/-- CMD2 ALL_SEND_CID (41_command_issuer R252). -/
def execCmd2 (arg : Word) (_crc : BitVec 7) (s : State) : Host.Outcome State Fault Refusal :=
  busCommand false 2#6 arg .r2 s

/-- CMD3 SEND_RELATIVE_ADDR (41_command_issuer R253). -/
def execCmd3 (arg : Word) (_crc : BitVec 7) (s : State) : Host.Outcome State Fault Refusal :=
  busCommand false 3#6 arg .r6 s

/-- CMD7 SELECT/DESELECT_CARD (41_command_issuer R254). -/
def execCmd7 (arg : Word) (_crc : BitVec 7) (s : State) : Host.Outcome State Fault Refusal :=
  busCommand false 7#6 arg .r1b s

/-- CMD8 SEND_IF_COND (41_command_issuer R255). -/
def execCmd8 (arg : Word) (_crc : BitVec 7) (s : State) : Host.Outcome State Fault Refusal :=
  busCommand false 8#6 arg .r7 s

/-- CMD9 SEND_CSD (41_command_issuer R256). -/
def execCmd9 (arg : Word) (_crc : BitVec 7) (s : State) : Host.Outcome State Fault Refusal :=
  busCommand false 9#6 arg .r2 s

/-- CMD12 STOP_TRANSMISSION (41_command_issuer R257). -/
def execCmd12 (arg : Word) (_crc : BitVec 7) (s : State) : Host.Outcome State Fault Refusal :=
  busCommand false 12#6 arg .r1b s

/-- CMD13 SEND_STATUS (41_command_issuer R258). -/
def execCmd13 (arg : Word) (_crc : BitVec 7) (s : State) : Host.Outcome State Fault Refusal :=
  busCommand false 13#6 arg .r1 s

/-- CMD16 SET_BLOCKLEN (41_command_issuer R259). -/
def execCmd16 (arg : Word) (_crc : BitVec 7) (s : State) : Host.Outcome State Fault Refusal :=
  busCommand false 16#6 arg .r1 s

/-- CMD17 READ_SINGLE_BLOCK (41_command_issuer R260). -/
def execCmd17 (arg : Word) (_crc : BitVec 7) (s : State) : Host.Outcome State Fault Refusal :=
  busCommand false 17#6 arg .r1 s

/-- CMD18 READ_MULTIPLE_BLOCK (41_command_issuer R261). -/
def execCmd18 (arg : Word) (_crc : BitVec 7) (s : State) : Host.Outcome State Fault Refusal :=
  busCommand false 18#6 arg .r1 s

/-- CMD24 WRITE_BLOCK (41_command_issuer R262). -/
def execCmd24 (arg : Word) (_crc : BitVec 7) (s : State) : Host.Outcome State Fault Refusal :=
  busCommand false 24#6 arg .r1 s

/-- CMD25 WRITE_MULTIPLE_BLOCK (41_command_issuer R263). -/
def execCmd25 (arg : Word) (_crc : BitVec 7) (s : State) : Host.Outcome State Fault Refusal :=
  busCommand false 25#6 arg .r1 s

/-- CMD32 ERASE_WR_BLK_START (41_command_issuer R264). -/
def execCmd32 (arg : Word) (_crc : BitVec 7) (s : State) : Host.Outcome State Fault Refusal :=
  busCommand false 32#6 arg .r1 s

/-- CMD33 ERASE_WR_BLK_END (41_command_issuer R265). -/
def execCmd33 (arg : Word) (_crc : BitVec 7) (s : State) : Host.Outcome State Fault Refusal :=
  busCommand false 33#6 arg .r1 s

/-- CMD35 ERASE_GROUP_START (MMC) (41_command_issuer R266). -/
def execCmd35 (arg : Word) (_crc : BitVec 7) (s : State) : Host.Outcome State Fault Refusal :=
  busCommand false 35#6 arg .r1 s

/-- CMD36 ERASE_GROUP_END (MMC) (41_command_issuer R267). -/
def execCmd36 (arg : Word) (_crc : BitVec 7) (s : State) : Host.Outcome State Fault Refusal :=
  busCommand false 36#6 arg .r1 s

/-- CMD38 ERASE (41_command_issuer R268). -/
def execCmd38 (arg : Word) (_crc : BitVec 7) (s : State) : Host.Outcome State Fault Refusal :=
  busCommand false 38#6 arg .r1b s

/-- CMD55 APP_CMD (41_command_issuer R269). -/
def execCmd55 (arg : Word) (_crc : BitVec 7) (s : State) : Host.Outcome State Fault Refusal :=
  busCommand false 55#6 arg .r1 s

/-- ACMD6 SET_BUS_WIDTH (41_command_issuer R270). -/
def execAcmd6 (arg : Word) (_crc : BitVec 7) (s : State) : Host.Outcome State Fault Refusal :=
  busCommand true 6#6 arg .r1 s

/-- ACMD23 SET_WR_BLK_ERASE_COUNT (41_command_issuer R271). -/
def execAcmd23 (arg : Word) (_crc : BitVec 7) (s : State) : Host.Outcome State Fault Refusal :=
  busCommand true 23#6 arg .r1 s

/-- ACMD41 SD_SEND_OP_COND (41_command_issuer R272). -/
def execAcmd41 (arg : Word) (_crc : BitVec 7) (s : State) : Host.Outcome State Fault Refusal :=
  busCommand true 41#6 arg .r3 s

end Sys2Proof.Machine
end

