-- ==== Sys2Proof/Machine/Parser.lean ====
section
/-! DEFINITION. The Register Parser (43_register_parser R350-R361): pure bit-field extraction and the capacity formula. -/

namespace Sys2Proof.Machine

open Sys2Proof

/-- The fields common to both layouts, at their bits (43_register_parser R352); the layout's own fields are 0 here. -/
def commonFields (raw : Reg128) : Csd where
  layout := .v1
  csdStructure := raw.extractLsb' 126 2
  taac := raw.extractLsb' 112 8
  nsac := raw.extractLsb' 104 8
  tranSpeed := raw.extractLsb' 96 8
  ccc := raw.extractLsb' 84 12
  readBlLen := raw.extractLsb' 80 4
  readBlPartial := raw.extractLsb' 79 1
  writeBlkMisalign := raw.extractLsb' 78 1
  readBlkMisalign := raw.extractLsb' 77 1
  dsrImp := raw.extractLsb' 76 1
  cSize := 0#22
  vddRCurrMin := 0#3
  vddRCurrMax := 0#3
  vddWCurrMin := 0#3
  vddWCurrMax := 0#3
  cSizeMult := 0#3
  eraseBlkEn := raw.extractLsb' 46 1
  sectorSize := raw.extractLsb' 39 7
  wpGrpSize := raw.extractLsb' 32 7
  wpGrpEnable := raw.extractLsb' 31 1
  r2wFactor := raw.extractLsb' 26 3
  writeBlLen := raw.extractLsb' 22 4
  writeBlPartial := raw.extractLsb' 21 1
  fileFormatGrp := raw.extractLsb' 15 1
  copy := raw.extractLsb' 14 1
  permWriteProtect := raw.extractLsb' 13 1
  tmpWriteProtect := raw.extractLsb' 12 1
  fileFormat := raw.extractLsb' 10 2
  crc := raw.extractLsb' 1 7

/-- The fields layout V1 adds (43_register_parser R353). -/
def v1Fields (raw : Reg128) (r : Csd) : Csd :=
  { r with
    layout := .v1
    cSize := (raw.extractLsb' 62 12).setWidth 22
    vddRCurrMin := raw.extractLsb' 59 3
    vddRCurrMax := raw.extractLsb' 56 3
    vddWCurrMin := raw.extractLsb' 53 3
    vddWCurrMax := raw.extractLsb' 50 3
    cSizeMult := raw.extractLsb' 47 3 }

/-- The field layout V2 adds (43_register_parser R354). -/
def v2Fields (raw : Reg128) (r : Csd) : Csd := { r with layout := .v2, cSize := raw.extractLsb' 48 22 }

/-- `ParseCSD(raw, card_type)`: the layout follows the card type (43_register_parser R351, R357). -/
def parseCsd (raw : Reg128) (t : CardType) : Res Csd :=
  let structure2or3 : Bool := decide (2 ≤ (raw.extractLsb' 126 2).toNat)
  match t with
  | .highCapacity => if structure2or3 then .err .unsupportedHardware else .ok (v2Fields raw (commonFields raw))
  | .standardV1 | .standardV2 => if structure2or3 then .err .unsupportedHardware else .ok (v1Fields raw (commonFields raw))
  | .mmc | .unknown => .ok (v1Fields raw (commonFields raw))

/-- `ParseCID(raw)` (43_register_parser R356). -/
def parseCid (raw : Reg128) : Cid where
  mid := raw.extractLsb' 120 8
  oid := raw.extractLsb' 104 16
  pnm := raw.extractLsb' 64 40
  prv := raw.extractLsb' 56 8
  psn := raw.extractLsb' 24 32
  mdt := raw.extractLsb' 8 12
  crc := raw.extractLsb' 1 7

/-- The capacity in blocks, exact (43_register_parser R360). -/
def capacityNat (c : Csd) (t : CardType) : Nat :=
  match t with
  | .highCapacity => (c.cSize.toNat + 1) * 1024
  | .standardV2 => (c.cSize.toNat + 1) * 2 ^ (c.cSizeMult.toNat + 2) * 2
  | .standardV1 | .mmc | .unknown => (c.cSize.toNat + 1) * 2 ^ (c.cSizeMult.toNat + 2)

/-- `Capacity(csd, card_type)`: a capacity of 2^32 or more is refused (43_register_parser R360, R361). -/
def capacity (c : Csd) (t : CardType) : Res Word :=
  if 2 ^ 32 ≤ capacityNat c t then .err .unsupportedHardware else .ok (BitVec.ofNat 32 (capacityNat c t))

end Sys2Proof.Machine
end

