-- ==== Sys2Proof/Machine/Negotiation.lean ====
section
/-! DEFINITION. Card Negotiation, the host operation INITIALIZE (42_negotiation R300-R314): one definition per step. -/

namespace Sys2Proof.Machine

open Sys2Proof

/-- Entry: the descriptor is invalidated and the working registers take their reset values (42_negotiation R300). -/
def negClear (s : State) : State :=
  { s with
    desc :=
      { valid := false, cardType := .unknown, rca := 0, csdRaw := 0, cidRaw := 0, csd := Csd.zero, cid := Cid.zero,
        capacity := 0 }
    neg := { s.neg with sdv2 := false, ocr := 0 } }

/-- Entry: no card, no command (42_negotiation R300). -/
def negEntry (s : State) : State × Res Unit := cardCheck (negClear s)

/-- The clock and width are configured and mirrored (10_state R39, R53). -/
def configure (div : Nat) (width : BitVec 3) (s : State) : State :=
  let s1 := bcConfig div width s
  { s1 with neg := { s1.neg with busWidth := width, clkdiv := div } }

/-- Step 1, Reset (42_negotiation R301). -/
def negReset (s : State) : State × Res Unit :=
  andThen (issueCmd 0#6 0#32 .rNone (configure s.cfg.initClkdiv 1#3 (setSeq .negReset s))) fun _ s => (s, .ok ())

/-- SDV2 <- v (10_state R39). -/
def setSdv2 (v : Bool) (s : State) : State := { s with neg := { s.neg with sdv2 := v } }

/-- The result is `Ok`. -/
def Res.isOk {α : Type} : Res α → Bool
  | .ok _ => true
  | .err _ => false

/-- Step 2, Interface Probe: a timeout is not a failure (42_negotiation R302). -/
def negProbe (s : State) : State × Res Unit :=
  let r := issueCmd 8#6 s.cfg.ifCondArg .r7 (setSeq .negProbe s)
  (setSdv2 (Res.isOk r.2) r.1, .ok ())

/-- What one attempt of the voltage loop comes to (42_negotiation R303). -/
inductive Attempt where
  /-- The first CMD55 timed out and the card is no V2 candidate: the card is MMC (D14). -/
  | isMmc
  /-- A command failed: negotiation ends. -/
  | failed (e : TransferError)
  /-- The card answered its OCR. -/
  | answered (ocr : Word)
  deriving DecidableEq, Repr

/-- An OCR answer, or the error of the command that asked for it. -/
def attemptOf (r : Res Fields) : Attempt :=
  match r with
  | .ok f => .answered f.ocrWord
  | .err e => .failed e

/-- One attempt: CMD1 for MMC, else CMD55 and ACMD41 (42_negotiation R303). -/
def voltAttempt (mmc first : Bool) (arg : Word) (s : State) : State × Attempt :=
  if mmc then
    let r := issueCmd 1#6 s.cfg.voltageWindowMmc .r3 s
    (r.1, attemptOf r.2)
  else
    let p := issueCmd 55#6 (rcaArg s) .r1 s
    match p.2 with
    | .err e =>
      if first = true ∧ s.neg.sdv2 = false ∧ e = .cmdResponseTimeout then (p.1, .isMmc) else (p.1, .failed e)
    | .ok _ =>
      let r := issueCmd 41#6 arg .r3 p.1
      (r.1, attemptOf r.2)

/-- OCR <- w (42_negotiation R303). -/
def setOcr (w : Word) (s : State) : State := { s with neg := { s.neg with ocr := w } }

/-- The pause between two attempts: VOLT_POLL_DELAY_MS pass (42_negotiation R303; log entry 20). -/
def voltPause (s : State) : State := { s with inp := { s.inp with ms := s.inp.ms + s.cfg.voltPollDelay.toNat } }

/-- The voltage loop (42_negotiation R303), begun when the TIMER stood at `m0`, with fuel: every attempt but the last takes a
batch of the schedule, so the fuel `negVoltage` gives is never used up (Laws/Negotiation.lean). The result says whether the card
is MMC. -/
def voltLoop (m0 : Nat) (arg : Word) : Nat → Bool → Bool → State → State × Res Bool
  | 0, _, _, s => (s, .err .invalidVoltageRange)
  | n + 1, mmc, first, s =>
    let a := voltAttempt mmc first arg s
    match a.2 with
    | .isMmc => voltLoop m0 arg n true false a.1
    | .failed e => (a.1, .err e)
    | .answered ocr =>
      let s1 := setOcr ocr a.1
      if ocr.getLsbD 31 then (s1, .ok mmc)
      else
        let s2 := sync s1
        if expired s2.inp.ms m0 (voltageDeadlineMs s2.cfg) then (s2, .err .invalidVoltageRange)
        else voltLoop m0 arg n mmc false (voltPause s2)

/-- The card type a ready OCR means (42_negotiation R303). -/
def cardTypeOf (mmc : Bool) (ocr : Word) (sdv2 : Bool) : CardType :=
  if mmc then .mmc
  else if ocr.getLsbD 30 then .highCapacity
  else if sdv2 then .standardV2
  else .standardV1

/-- CARD_TYPE <- t (10_state R32). -/
def setCardType (t : CardType) (s : State) : State := { s with desc := { s.desc with cardType := t } }

/-- Step 3, Voltage/Capacity Negotiation (42_negotiation R303). -/
def negVoltage (s : State) : State × Res Unit :=
  let s0 := setSeq .negVoltage s
  andThen (voltLoop s0.inp.ms (opCondArg s0) (s0.inp.sched.length + 2) false true s0) fun mmc s =>
    (setCardType (cardTypeOf mmc s.neg.ocr s.neg.sdv2) s, .ok ())

/-- Step 4a, Identification: CID (42_negotiation R304). -/
def negIdentCid (s : State) : State × Res Unit :=
  andThen (issueCmd 2#6 0#32 .r2 (setSeq .negIdent s)) fun f s =>
    ({ s with desc := { s.desc with cidRaw := f.register } }, .ok ())

/-- Step 4b, Identification: RCA (42_negotiation R305). -/
def negIdentRca (s : State) : State × Res Unit :=
  andThen (issueCmd 3#6 0#32 .r6 s) fun f s => ({ s with desc := { s.desc with rca := f.rcaField } }, .ok ())

/-- The registers just fetched are parsed, and the capacity computed (42_negotiation R306). -/
def negParse (s : State) : State × Res Unit :=
  let s1 := { s with desc := { s.desc with cid := parseCid s.desc.cidRaw } }
  match parseCsd s1.desc.csdRaw s1.desc.cardType with
  | .err e => (s1, .err e)
  | .ok c =>
    let s2 := { s1 with desc := { s1.desc with csd := c } }
    match capacity c s2.desc.cardType with
    | .err e => (s2, .err e)
    | .ok n => ({ s2 with desc := { s2.desc with capacity := n } }, .ok ())

/-- Step 5, Register Fetch (42_negotiation R306). -/
def negRegfetch (s : State) : State × Res Unit :=
  andThen (issueCmd 9#6 (rcaArg s) .r2 (setSeq .negRegfetch s)) fun f s =>
    negParse { s with desc := { s.desc with csdRaw := f.register } }

/-- Step 6, Selection (42_negotiation R307). -/
def negSelect (s : State) : State × Res Unit :=
  andThen (issueCmd 7#6 (rcaArg s) .r1b (setSeq .negSelect s)) fun _ s =>
    let s1 := bcConfig s.cfg.transferClkdiv 1#3 s
    ({ s1 with neg := { s1.neg with clkdiv := s1.cfg.transferClkdiv } }, .ok ())

/-- Step 7, Bus Width Upgrade: a failure is logged and not fatal; MMC skips the step (42_negotiation R308). -/
def negWidth (s : State) : State × Res Unit :=
  let s0 := setSeq .negWidth s
  if s0.desc.cardType = .mmc then (s0, .ok ())
  else
    let r := issueApp 6#6 2#32 .r1 s0
    match r.2 with
    | .ok _ =>
      let s1 := bcConfig r.1.cfg.transferClkdiv 4#3 r.1
      ({ s1 with neg := { s1.neg with busWidth := 4#3 } }, .ok ())
    | .err e => ({ r.1 with log := r.1.log ++ [.widthUpgradeFailed e.code] }, .ok ())

/-- Step 8, Block Length Fix (42_negotiation R309). -/
def negBlklen (s : State) : State × Res Unit :=
  andThen (issueCmd 16#6 512#32 .r1 (setSeq .negBlklen s)) fun _ s => (s, .ok ())

/-- Publication (42_negotiation R311). -/
def publish (s : State) : State × Res Word := ({ s with desc := { s.desc with valid := true } }, .ok 0#32)

/-- Entry, then the eight steps in their fixed order, then publication (42_negotiation R310, R314). -/
def negotiate (s : State) : State × Res Word :=
  andThen (negEntry s) fun _ s =>
  andThen (negReset s) fun _ s =>
  andThen (negProbe s) fun _ s =>
  andThen (negVoltage s) fun _ s =>
  andThen (negIdentCid s) fun _ s =>
  andThen (negIdentRca s) fun _ s =>
  andThen (negRegfetch s) fun _ s =>
  andThen (negSelect s) fun _ s =>
  andThen (negWidth s) fun _ s =>
  andThen (negBlklen s) fun _ s =>
  publish s

/-- INITIALIZE (42_negotiation R310). -/
def execInitialize (s : State) : Host.Outcome State Fault Refusal := hostOp negotiate s

end Sys2Proof.Machine
end

