-- ==== Sys2Proof/Machine/Status.lean ====
section
/-! DEFINITION. The Card Status Poller and the accessors (45_status_poller R470-R475). -/

namespace Sys2Proof.Machine

open Sys2Proof

/-- `StatusQuery()`: CMD13, R1, the state field in bits 12:9 (45_status_poller R470). -/
def statusQuery (s : State) : State × Res CardState :=
  andThen (issueCmd 13#6 (rcaArg s) .r1 s) fun f s => (s, .ok (stateOf (f.statusWord.extractLsb' 9 4)))

/-- The body of QUERY_STATUS (45_status_poller R470). -/
def queryBody (s : State) : State × Res Word :=
  andThen (cardCheck s) fun _ s =>
  andThen (descCheck s) fun _ s =>
  andThen (statusQuery (setSeq .statusQuery s)) fun st s => (s, .ok (st.code.setWidth 32))

/-- QUERY_STATUS (45_status_poller R470). -/
def execQueryStatus (s : State) : Host.Outcome State Fault Refusal := hostOp queryBody s

/-- TRANSFER_BUSY (45_status_poller R472). -/
def execTransferBusy (s : State) : Host.Outcome State Fault Refusal :=
  hostOp (fun s => (sync s, .ok (if transferActive (sync s).bc.sta then 1#32 else 0#32))) s

/-- CAPACITY_BLOCKS (45_status_poller R473). -/
def execCapacityBlocks (s : State) : Host.Outcome State Fault Refusal :=
  hostOp (fun s => (s, .ok (if s.desc.valid then s.desc.capacity else 0#32))) s

/-- BLOCK_SIZE (45_status_poller R474). -/
def execBlockSize (s : State) : Host.Outcome State Fault Refusal := hostOp (fun s => (s, .ok (BitVec.ofNat 32 blockSize))) s

/-! ## The end of a run (70_reset_and_hazards R603) -/

/-- No step of the ISR is enabled. -/
def isrIdle (b : Bc) : Bool := !b.irq && !irqPending b

/-- The run is over: no operation, the data interrupt masked, no ISR step, the data path idle (70 R603). -/
def runEnded (s : State) : Bool :=
  !s.host.hbusy && s.seq == .idle && s.bc.mask == 0#32 && isrIdle s.bc && !transferActive s.bc.sta

/-- What is observed of a run at its end (70 R603). -/
structure Observation where
  result : BitVec 8
  value : Word
  desc : Descriptor
  /-- The host buffer of a read; empty for any other operation. -/
  buffer : List Byte
  deriving DecidableEq, Repr

/-- How many blocks the operation in OP reads (44 R410, R411). -/
def blocksRead (h : HostRegs) : Nat :=
  match decodeOp h.op with
  | .ok .readBlock => 1
  | .ok .readBlocks => h.arg1.toNat
  | _ => 0

/-- The observation of a run that is over (70 R603). -/
def observation (s : State) : Observation :=
  { result := s.host.result, value := s.host.value, desc := s.desc,
    buffer := s.mem.readRange s.host.buf (blocksRead s.host * blockSize) }

end Sys2Proof.Machine
end

