-- ==== Sys2Proof/Machine/Transfer.lean ====
section
/-! DEFINITION. The Block Transfer Engine (44_block_transfer R400-R463): the data phase, the four transfers, the erase. -/

namespace Sys2Proof.Machine

open Sys2Proof

/-- The transfer cells are written: reset before arming, with MULTI as given (44 R420). -/
def setTransfer (e : Option TransferError) (done multi : Bool) (s : State) : State :=
  { s with xfer := { pendErr := e, done := done, multi := multi } }

/-- DMA is armed over the caller's buffer, and the engine waits for the completion or the deadline (44 R420). -/
def dataWait (dir : Dir) (count : Nat) (multi : Bool) (s : State) : State × Bool :=
  let s1 := bcArm dir s.host.buf (count * blockSize) (setTransfer none false multi (setSeq .xferData s))
  waitFor (fun t => t.xfer.done) (dataDeadlineMs s1.cfg s1.neg.clkdiv count) s1

/-- The result of a data phase: the latched error, then DataTimeout, then the CMD12 error, then Ok (44 R421). -/
def dataResult (lat : Option TransferError) (timedOut : Bool) (stop : Res Fields) : Res Unit :=
  match lat with
  | some e => .err e
  | none =>
    if timedOut then .err .dataTimeout
    else
      match stop with
      | .err e => .err e
      | .ok _ => .ok ()

/-- After the wait: CMD12 where MULTI is set, whatever the outcome (44 R421). -/
def dataStop (s : State) : State × Res Fields :=
  if s.xfer.multi then issueCmd 12#6 0#32 .r1b (setSeq .xferStop s) else (s, .ok .empty)

/-- The cleanup of every data phase: disarm, clear the static flags, clear the cells (44 R421). -/
def dataCleanup (s : State) : State := setTransfer none false false (bcClearStatic (bcDisarm s))

/-- `DataPhase(dir, count, multi)` (44 R420, R421). -/
def dataPhase (dir : Dir) (count : Nat) (multi : Bool) (s : State) : State × Res Unit :=
  let w := dataWait dir count multi s
  let lat := if w.2 then none else w.1.xfer.pendErr
  let p := dataStop w.1
  (dataCleanup p.1, dataResult lat w.2 p.2)

/-- The byte address at which the card opens a data command for the block in ARG0: the wire address by the descriptor (44 R400), read
as the card in the slot reads it (41_command_issuer R260-R263; 70 R617). -/
def openedAt (s : State) : Nat := cardByteAddr s.card.byBlock (wireAddr s.desc s.host.arg0)

/-- The byte range, first address and length, of the whole blocks that `count` blocks' bytes from where the card opens them touch. -/
def openedBlocks (count : Nat) (s : State) : Nat × Nat :=
  let lo := openedAt s / blockSize * blockSize
  (lo, ceilBlock (openedAt s + count * blockSize) - lo)

/-- What a transfer's `Err` leaves open once its commands were sent (93 U6, U7): the blocks of a write, both those ARG0 names and
those where the card in the slot opens the data command. The two are the same but after a change of card (70 R617) or where the byte
address wraps; that both are then open is DESIGN CHOICE, log entry 22. -/
def spoilBlocks (dir : Dir) (count : Nat) (s : State) : State :=
  match dir with
  | .rx => s
  | .tx =>
    let r := openedBlocks count s
    spoilCard r.1 r.2 (spoilCard (s.host.arg0.toNat * blockSize) (count * blockSize) s)

/-- What a transfer's `Err` leaves open once DMA was armed: the buffer of a read too (93 U5). -/
def spoilTransfer (dir : Dir) (count : Nat) (s : State) : State :=
  match dir with
  | .rx => spoilMem s.host.buf (count * blockSize) s
  | .tx => spoilBlocks .tx count s

/-- The command phase, then the data phase (44 R410-R413, R423, R424). -/
def moveBlocks (dir : Dir) (count : Nat) (stop : Bool) (command : State → State × Res Fields) (s : State) :
    State × Res Word :=
  let c := command (setSeq .xferCmd s)
  match c.2 with
  | .err e => (spoilBlocks dir count c.1, .err e)
  | .ok _ =>
    let d := dataPhase dir count stop c.1
    match d.2 with
    | .err e => (spoilTransfer dir count d.1, .err e)
    | .ok _ => (d.1, .ok (BitVec.ofNat 32 count))

/-- A transfer operation: refused while HBUSY = 1 (60_exceptions R548); the checks, before any command (44 R402); a buffer
DMA cannot reach breaks a host duty (R547); then the blocks move. `stop` says whether CMD12 ends it (44 R422). -/
def transferOp (dir : Dir) (count : Nat) (multi : Bool) (stop : Descriptor → Bool)
    (command : State → State × Res Fields) (s : State) : Host.Outcome State Fault Refusal :=
  if s.host.hbusy then .refused .engineBusy
  else
    let c := checks dir count multi (beginOp s)
    match c.2 with
    | .err e => settle s (raise e c.1)
    | .ok _ =>
      if reachable c.1.cfg c.1.host.buf (count * blockSize) then
        settle s (endWith (moveBlocks dir count (stop c.1.desc) command c.1))
      else .refused .bufferUnreachable

/-- A data command at the wire address of ARG0 (44 R400, R410-R413). -/
def dataCommand (idx : BitVec 6) (s : State) : State × Res Fields :=
  issueCmd idx (wireAddr s.desc s.host.arg0) .r1 s

/-- The card is an SD card: the multi-block write is announced and stopped (44 R413, R422). -/
def isSd (d : Descriptor) : Bool := decide (d.cardType ≠ .mmc)

/-- The commands of WRITE_BLOCKS: ACMD23 before CMD25 on an SD card, CMD25 alone on MMC (44 R413). -/
def writeBlocksCommand (s : State) : State × Res Fields :=
  if isSd s.desc then andThen (issueApp 23#6 s.host.arg1 .r1 s) fun _ s => dataCommand 25#6 s else dataCommand 25#6 s

/-- READ_BLOCK (44 R410). -/
def execReadBlock (s : State) : Host.Outcome State Fault Refusal :=
  transferOp .rx 1 false (fun _ => false) (dataCommand 17#6) s

/-- READ_BLOCKS (44 R411). -/
def execReadBlocks (s : State) : Host.Outcome State Fault Refusal :=
  transferOp .rx s.host.arg1.toNat true (fun _ => true) (dataCommand 18#6) s

/-- WRITE_BLOCK (44 R412). -/
def execWriteBlock (s : State) : Host.Outcome State Fault Refusal :=
  transferOp .tx 1 false (fun _ => false) (dataCommand 24#6) s

/-- WRITE_BLOCKS (44 R413). -/
def execWriteBlocks (s : State) : Host.Outcome State Fault Refusal :=
  transferOp .tx s.host.arg1.toNat true isSd writeBlocksCommand s

/-- `ErasePoll()` with `n` polls left (44 R431). -/
def erasePoll : Nat → State → State × Res Unit
  | 0, s => (s, .err .busyTimeout)
  | n + 1, s =>
    andThen (statusQuery s) fun st s =>
      if st = .programming ∨ st = .receiving then erasePoll n s else (s, .ok ())

/-- The indices of the commands that select the first and the last block of an erase (44 R430). -/
def eraseIndices (d : Descriptor) : BitVec 6 × BitVec 6 :=
  if d.cardType = .mmc then (35#6, 36#6) else (32#6, 33#6)

/-- The body of ERASE (44 R430). -/
def eraseBody (s : State) : State × Res Word :=
  andThen (eraseChecks s) fun _ s =>
  andThen (issueCmd (eraseIndices s.desc).1 (wireAddr s.desc s.host.arg0) .r1 (setSeq .eraseCmd s)) fun _ s =>
  andThen (issueCmd (eraseIndices s.desc).2 (wireAddr s.desc s.host.arg1) .r1 s) fun _ s =>
  andThen (issueCmd 38#6 0#32 .r1b s) fun _ s =>
  andThen (erasePoll (erasePollBudget s.cfg) (setSeq .erasePoll s)) fun _ s =>
  (s, .ok 0#32)

/-- ERASE (44 R430). -/
def execErase (s : State) : Host.Outcome State Fault Refusal := hostOp eraseBody s

end Sys2Proof.Machine
end

