-- ==== Sys2Proof/Machine/Dispatch.lean ====
section
/-! DEFINITION. One arm per instruction. -/

namespace Sys2Proof.Machine

open Sys2Proof

def exec (i : Instr) (s : State) : Host.Outcome State Fault Refusal :=
  match i with
  | .initializeCard => Sys2Proof.Machine.execInitialize s
  | .readBlock => Sys2Proof.Machine.execReadBlock s
  | .readBlocks => Sys2Proof.Machine.execReadBlocks s
  | .writeBlock => Sys2Proof.Machine.execWriteBlock s
  | .writeBlocks => Sys2Proof.Machine.execWriteBlocks s
  | .erase => Sys2Proof.Machine.execErase s
  | .queryStatus => Sys2Proof.Machine.execQueryStatus s
  | .transferBusy => Sys2Proof.Machine.execTransferBusy s
  | .capacityBlocks => Sys2Proof.Machine.execCapacityBlocks s
  | .blockSize => Sys2Proof.Machine.execBlockSize s
  | .cmd0 arg crc => Sys2Proof.Machine.execCmd0 arg crc s
  | .cmd1 arg crc => Sys2Proof.Machine.execCmd1 arg crc s
  | .cmd2 arg crc => Sys2Proof.Machine.execCmd2 arg crc s
  | .cmd3 arg crc => Sys2Proof.Machine.execCmd3 arg crc s
  | .cmd7 arg crc => Sys2Proof.Machine.execCmd7 arg crc s
  | .cmd8 arg crc => Sys2Proof.Machine.execCmd8 arg crc s
  | .cmd9 arg crc => Sys2Proof.Machine.execCmd9 arg crc s
  | .cmd12 arg crc => Sys2Proof.Machine.execCmd12 arg crc s
  | .cmd13 arg crc => Sys2Proof.Machine.execCmd13 arg crc s
  | .cmd16 arg crc => Sys2Proof.Machine.execCmd16 arg crc s
  | .cmd17 arg crc => Sys2Proof.Machine.execCmd17 arg crc s
  | .cmd18 arg crc => Sys2Proof.Machine.execCmd18 arg crc s
  | .cmd24 arg crc => Sys2Proof.Machine.execCmd24 arg crc s
  | .cmd25 arg crc => Sys2Proof.Machine.execCmd25 arg crc s
  | .cmd32 arg crc => Sys2Proof.Machine.execCmd32 arg crc s
  | .cmd33 arg crc => Sys2Proof.Machine.execCmd33 arg crc s
  | .cmd35 arg crc => Sys2Proof.Machine.execCmd35 arg crc s
  | .cmd36 arg crc => Sys2Proof.Machine.execCmd36 arg crc s
  | .cmd38 arg crc => Sys2Proof.Machine.execCmd38 arg crc s
  | .cmd55 arg crc => Sys2Proof.Machine.execCmd55 arg crc s
  | .acmd6 arg crc => Sys2Proof.Machine.execAcmd6 arg crc s
  | .acmd23 arg crc => Sys2Proof.Machine.execAcmd23 arg crc s
  | .acmd41 arg crc => Sys2Proof.Machine.execAcmd41 arg crc s

end Sys2Proof.Machine
end

