-- ==== Sys2Proof/Machine/Fetch.lean ====
section
/-! DEFINITION. What HOST's next move asks for (10_state R46, 60_exceptions R547, R548), and how a step fetches an
instruction: the write to OP, or a bus command run by itself. The engine itself fetches nothing (20_memory R110). -/

namespace Sys2Proof.Machine

open Sys2Proof

/-- The inbox after this point. -/
def setInbox (r : List HostMove) (s : State) : State := { s with inp := { s.inp with inbox := r } }

/-- A host move that is a duty violation while HBUSY = 1 (60_exceptions R548, 70 R614). -/
def whenIdle (s : State) (f : Fetched) : Fetched := if s.host.hbusy then .refused .engineBusy else f

/-- A decode error as a refusal by name. -/
def refusalOf : DecodeError → Refusal
  | .outsideCommandSet app idx => .outsideCommandSet app idx
  | .reservedOp _ | .malformedFrame | .unknownLength _ => .malformedFrame

/-- OP <- w (10_state R46). -/
def setOp (w : Word) (s : State) : State := { s with host := { s.host with op := w } }

/-- The write to OP: it starts the operation its word selects. A reserved word sends no command and completes at once with
InvalidParameter (30_encoding R151). -/
def fetchOp (w : Word) (s : State) : Fetched :=
  match decodeOp w with
  | .ok i => .run i (setOp w s)
  | .error _ => .next (raise .invalidParameter (setOp w s))

/-- A bus command run by itself, chosen by its frame and the prefix bit (30_encoding R130). -/
def fetchFrame (f : Frame) (s : State) : Fetched :=
  match decodeFrame s.app f with
  | .ok i => .run i s
  | .error e => .refused (refusalOf e)

/-- The host waits while the other agents make their moves; the run is refused where BC left its duties (60_exceptions R546). -/
def hostWaits (s : State) : Fetched :=
  if (sync s).inp.breaches = s.inp.breaches then .next (sync s) else .refused .dutyBroken

/-- The block storage of a card that holds these bytes. -/
def storageOf : List (Nat × List Byte) → Memory
  | [] => []
  | (a, bs) :: cells => (storageOf cells).write a bs

/-- Another card is in the slot: ENGINE sees nothing of it, and the descriptor stays (70 R617; log entry 26). DESIGN CHOICE, log
entry 26: BC stays as it is, so a command still in progress (CMDACT set, its deadline passed) stays in progress; an answer that comes
later is the new card's, and the command has its effect on the new card's state, bus width and block length. -/
def swapCard (st : BitVec 4) (byBlock mmc : Bool) (csd : Reg128) (len : Word) (cells : List (Nat × List Byte)) (s : State) : State :=
  { s with
    card :=
      { state := st, addr := 0, eraseFirst := 0, eraseLast := 0, byBlock := byBlock, mmc := mmc, csd := csd, width := 1,
        blockLen := len, preErase := 0, mem := storageOf cells } }

/-- One move of HOST. -/
def hostMove (m : HostMove) (s : State) : Fetched :=
  match m with
  | .writeArg0 v => whenIdle s (.next { s with host := { s.host with arg0 := v } })
  | .writeArg1 v => whenIdle s (.next { s with host := { s.host with arg1 := v } })
  | .writeBuf a => whenIdle s (.next { s with host := { s.host with buf := a % hostSpace s.cfg } })
  | .writeBuflen v => whenIdle s (.next { s with host := { s.host with buflen := v } })
  | .writeOp w => whenIdle s (fetchOp w s)
  | .store a bs =>
    whenIdle s
      (if a + bs.length ≤ hostSpace s.cfg then .next { s with mem := s.mem.write a bs }
       else .fault (.outsideHostMemory (a + bs.length - 1)))
  | .maint k => .next { s with inp := { s.inp with maint := k } }
  | .idle => hostWaits s
  | .swap st byBlock mmc csd len cells => .next (swapCard st byBlock mmc csd len cells s)
  | .frame f => fetchFrame f s

/-- HOST's next move; without one the other agents make theirs. -/
def fetch (s : State) : Fetched :=
  match s.inp.inbox with
  | [] => hostWaits s
  | m :: r => hostMove m (setInbox r s)

/-- A host move that runs an opcode-table row's bits next, and the prefix bit the row needs (log entry 7). -/
def placeMove (nbits w : Nat) (s : State) : State :=
  match tableWords nbits w with
  | .ok (.op v) => setInbox (.writeOp v :: s.inp.inbox) s
  | .ok (.frame app f) => { setInbox (.frame f :: s.inp.inbox) s with app := app }
  | .error _ => s

end Sys2Proof.Machine
end

