-- ==== Sys2Proof/Machine/Step.lean ====
section
/-! DEFINITION. One step: HOST's next move, and the instruction it runs. -/

namespace Sys2Proof.Machine

open Sys2Proof

/-- One step of the machine. -/
def step (s : State) : Host.Outcome State Fault Refusal :=
  match fetch s with
  | .next t => .next t
  | .run i t => exec i t
  | .fault r => .fault r
  | .refused r => .refused r

/-- `s` with an instruction of the opcode table as HOST's next move, so that the next step fetches and runs it. -/
def State.withFetchWord (s : State) (nbits w : Nat) : State := placeMove nbits w s

end Sys2Proof.Machine
end

