-- ==== Sys2Proof/Safety.lean ====
section
/-! DEFINITION. What holds of every state between two moves of HOST, in the spec's terms; what the prompt answers of a
working bus are. -/

namespace Sys2Proof.Safety

open Sys2Proof Sys2Proof.Machine

/-- A published descriptor is the one its raw registers and card type give (42_negotiation R306, R311, R313;
43_register_parser R351, R356, R360). -/
def Published (d : Descriptor) : Prop :=
  d.valid = true →
    d.cardType ≠ .unknown ∧ parseCsd d.csdRaw d.cardType = .ok d.csd ∧ d.cid = parseCid d.cidRaw ∧
      capacity d.csd d.cardType = .ok d.capacity

/-- The invariant of the machine between two moves of HOST. -/
structure Inv (s : State) : Prop where
  /-- Host memory has its canonical form and holds no address past the host address space (20_memory R90 (3)). -/
  memWf : s.mem.wf
  memIn : ∀ c ∈ s.mem, c.1 < hostSpace s.cfg
  /-- Card storage has its canonical form. -/
  cardWf : s.card.mem.wf
  /-- No operation is in progress (20_memory R104, 10_state R40). -/
  notBusy : s.host.hbusy = false
  seqIdle : s.seq = .idle
  /-- No transfer is armed and the data interrupt is masked (44 R421, 70 R603). -/
  unarmed : s.bc.dma = none
  masked : s.bc.mask = 0#32
  notMulti : s.xfer.multi = false
  /-- RESULT is a code of the taxonomy, and VALUE is 0 after an error (60_exceptions R500, 10_state R46). -/
  resultCode : s.host.result.toNat ≤ 32
  valueZero : s.host.result ≠ 0#8 → s.host.value = 0#32
  /-- BUF lies in the host address space (10_state R46). -/
  bufIn : s.host.buf < hostSpace s.cfg
  /-- The mirrored bus width is 1 or 4 (10_state R39). -/
  width : s.neg.busWidth = 1#3 ∨ s.neg.busWidth = 4#3
  /-- BCSTA bits 31:14 read as 0 (10_state R49). -/
  reserved : s.bc.sta.extractLsb' 14 18 = 0#18
  /-- A published descriptor is consistent. -/
  published : Published s.desc

/-- The commands each step of negotiation may send (42_negotiation R301-R309). -/
def stepCommands : Seq → List (BitVec 6)
  | .negReset => [0#6]
  | .negProbe => [8#6]
  | .negVoltage => [55#6, 41#6, 1#6]
  | .negIdent => [2#6, 3#6]
  | .negRegfetch => [9#6]
  | .negSelect => [7#6]
  | .negWidth => [55#6, 6#6]
  | .negBlklen => [16#6]
  | .idle | .xferCmd | .xferData | .xferStop | .eraseCmd | .erasePoll | .statusQuery => []

/-- Commands sent by steps of negotiation in their fixed order (42_negotiation R314). -/
def InOrder (cs : List Sent) : Prop :=
  cs.Pairwise (fun a b => a.seq.code.toNat ≤ b.seq.code.toNat) ∧ ∀ c ∈ cs, c.idx ∈ stepCommands c.seq

/-- Byte `k` of a register: bits `127 - 8 k` down to `120 - 8 k` (43_register_parser R350). -/
def byteOf (r : Reg128) (k : Nat) : Byte := r.extractLsb' (120 - 8 * k) 8

/-! ## Where data goes -/

/-- How many blocks, from where the card opens it, a write of `count` blocks may touch: an SD card in the place of the MMC card the
descriptor names is sent no ACMD23, and pre-erases what an earlier one announced (41_command_issuer R271; 70 R617; log entry 27). -/
def touched (i : Instr) (count : Nat) (s : State) : Nat :=
  if i = .writeBlocks ∧ s.desc.cardType = .mmc ∧ s.card.mmc = false then max count s.card.preErase else count

/-- The card once ERASE's two selecting commands, for the blocks in ARG0 and ARG1, have reached it (41_command_issuer R264-R267). -/
def selectedCard (s : State) : Card :=
  { s.card with
    eraseFirst := cardByteAddr s.card.byBlock (wireAddr s.desc s.host.arg0)
    eraseLast := cardByteAddr s.card.byBlock (wireAddr s.desc s.host.arg1) }

/-- The addresses of the erase units an ERASE begun at this state touches (93 U8, U35). -/
def erasedBy (s : State) : Nat → Prop := fun x =>
  (eraseRange (selectedCard s)).1 ≤ x ∧ x < (eraseRange (selectedCard s)).1 + (eraseRange (selectedCard s)).2

/-- What every operation but INITIALIZE leaves as it was: the operands, the descriptor but for DESC_VALID, which can only fall
(44_block_transfer R462), the working registers, the log, the clock and width, the parameters; DMA stays disarmed. -/
structure KeptByOp (s t : State) : Prop where
  cfg : t.cfg = s.cfg
  op : t.host.op = s.host.op
  arg0 : t.host.arg0 = s.host.arg0
  arg1 : t.host.arg1 = s.host.arg1
  buf : t.host.buf = s.host.buf
  buflen : t.host.buflen = s.host.buflen
  desc : t.desc = { s.desc with valid := t.desc.valid }
  valid : t.desc.valid = true → s.desc.valid = true
  neg : t.neg = s.neg
  log : t.log = s.log
  div : t.bc.div = s.bc.div
  width : t.bc.width = s.bc.width
  dma : t.bc.dma = none
  multi : s.xfer.multi = false → t.xfer.multi = false
  mask : s.bc.mask = 0#32 → t.bc.mask = 0#32
  cmdResult : t.cmdResult = s.cmdResult
  wire : ∃ cs, t.wire = s.wire ++ cs

/-! ## Prompt answers -/

/-- Two batches of a schedule that answer one command at once: nothing before it is sent, then the answer. -/
def promptly (a : Answer) (rc : BitVec 6) (w1 w2 w3 w4 : Word) : List (List Ev) := [[], [.respond a rc w1 w2 w3 w4]]

/-- A prompt short response with a good CRC. -/
def prompt (rc : BitVec 6) (w : Word) : List (List Ev) := promptly .crcGood rc w 0#32 0#32 0#32

/-- A prompt long response holding a register (10_state R50). -/
def promptLong (r : Reg128) : List (List Ev) :=
  promptly .crcGood 63#6 (r.extractLsb' 96 32) (r.extractLsb' 64 32) (r.extractLsb' 32 32) (r.extractLsb' 0 32)

/-- A prompt answer with which a command of this kind fails, and its error: no answer; a bad CRC; another index, or the first error
bit, of an R1, R1b or R6 (40_response_decoder R201-R209). -/
def AnswerFails (kind : Kind) (idx : BitVec 6) (a : Answer) (rc : BitVec 6) (w : Word) (e : TransferError) : Prop :=
  match kind, a with
  | .rNone, _ | .r3, .crcGood | .r3, .crcBad | .r7, .crcGood | .r7, .crcBad | .r2, .crcGood => False
  | _, .noResponse => e = .cmdResponseTimeout
  | _, .crcBad => e = .cmdCrcFail
  | .r1, .crcGood | .r1b, .crcGood => if rc = idx then firstError w r1Table = some e else e = .illegalCommand
  | .r6, .crcGood => if rc = idx then firstError w r6Table = some e else e = .illegalCommand

/-- One batch in which every block of the armed transfer moves and the handler runs. -/
def dataDone : List (List Ev) := [[.data mDataend, .isr]]

/-- A prompt end of a card's programming: the card is in state `st` when CMD13 is answered (44_block_transfer R431). -/
def polled (st : BitVec 4) (w : Word) : List (List Ev) := [[.card st], [.respond .crcGood 13#6 w 0#32 0#32 0#32]]

/-- The batches the checks of a transfer take: one for the card-present input, and one more for the write-protect input
where it is sampled (44_block_transfer R402). -/
def checkBatches (dir : Dir) (p : Params) : List (List Ev) :=
  if dir = .tx ∧ p.engineChecksWp = true then [[], []] else [[]]

/-- A transfer of `count` blocks passes its checks (44_block_transfer R402), DMA can reach its buffer (60_exceptions R547), and no
CMD55 is pending. The write-protect input matters to a write under ENGINE_CHECKS_WP alone, the capacity under RANGE_CHECK alone. -/
structure Ready (dir : Dir) (count : Nat) (multi : Bool) (s : State) : Prop where
  notBusy : s.host.hbusy = false
  present : s.inp.cardPresent = true
  unprotected : dir = .tx → s.cfg.engineChecksWp = true → s.inp.writeProtect = false
  valid : s.desc.valid = true
  countOk : multi = true → 2 ≤ count ∧ count ≤ maxCount s.cfg
  aligned : s.host.buf % bufAlign s.cfg = 0
  long : count * 512 ≤ s.host.buflen.toNat
  inRange : s.cfg.rangeCheck = true → s.host.arg0.toNat + count ≤ s.desc.capacity.toNat
  reach : reachable s.cfg s.host.buf (count * 512) = true
  app : s.app = false

/-- What a failed write of `count` blocks leaves open: the blocks ARG0 names, and those that the bytes touch where the card in the slot
opens the command (93 U6, U7; 70 R617; log entry 22). -/
def leftOpen (count : Nat) (s : State) : Nat → Prop := fun x =>
  (s.host.arg0.toNat * 512 ≤ x ∧ x < s.host.arg0.toNat * 512 + count * 512) ∨
    ((openedBlocks count s).1 ≤ x ∧ x < (openedBlocks count s).1 + (openedBlocks count s).2)

/-- The card in the slot is of the kind and the addressing mode the descriptor names (10_state R38); after a change of card
without an INITIALIZE it need not be (70 R617). -/
structure OwnCard (s : State) : Prop where
  byBlock : s.card.byBlock = decide (s.desc.cardType = .highCapacity)
  mmc : s.card.mmc = decide (s.desc.cardType = .mmc)

/-- The byte address of the block in ARG0 fits the wire address (44_block_transfer R400). -/
def NoWrap (s : State) : Prop := s.desc.cardType = .highCapacity ∨ s.host.arg0.toNat * 512 < 2 ^ 32

/-! ## The commands of a transfer -/

/-- A command of kind R1 of a transfer's command phase. -/
def opening (app : Bool) (idx : BitVec 6) (arg : Word) : Sent := { seq := .xferCmd, app := app, idx := idx, arg := arg, kind := .r1 }

/-- The stop command of a data phase (44_block_transfer R421). -/
def stopSent : Sent := { seq := .xferStop, app := false, idx := 12#6, arg := 0#32, kind := .r1b }

/-- What a transfer sends and moves. -/
structure Plan where
  dir : Dir
  count : Nat
  multi : Bool
  /-- CMD12 ends it (44_block_transfer R422). -/
  stop : Bool
  /-- The commands before the data, in order. -/
  opens : List Sent
  deriving DecidableEq, Repr

/-- The four transfers as a host operation begun at this state carries them out (44_block_transfer R410-R413, R422). -/
def plans (s : State) : List (Instr × Plan) :=
  let at0 := wireAddr s.desc s.host.arg0
  let n := s.host.arg1.toNat
  [(.readBlock, { dir := .rx, count := 1, multi := false, stop := false, opens := [opening false 17#6 at0] }),
    (.readBlocks, { dir := .rx, count := n, multi := true, stop := true, opens := [opening false 18#6 at0] }),
    (.writeBlock, { dir := .tx, count := 1, multi := false, stop := false, opens := [opening false 24#6 at0] }),
    (.writeBlocks,
      { dir := .tx, count := n, multi := true
        stop := decide (s.desc.cardType ≠ .mmc)
        opens :=
          if s.desc.cardType = .mmc then [opening false 25#6 at0]
          else [opening false 55#6 (s.desc.rca ++ 0#16), opening true 23#6 s.host.arg1, opening false 25#6 at0] })]

/-- The commands of an ERASE before its polls (44_block_transfer R430). -/
def eraseSent (s : State) : List Sent :=
  let sent (idx : BitVec 6) (arg : Word) (kind : Kind) : Sent :=
    { seq := .eraseCmd, app := false, idx := idx, arg := arg, kind := kind }
  [sent (if s.desc.cardType = .mmc then 35#6 else 32#6) (wireAddr s.desc s.host.arg0) .r1,
    sent (if s.desc.cardType = .mmc then 36#6 else 33#6) (wireAddr s.desc s.host.arg1) .r1, sent 38#6 0#32 .r1b]

/-- A status query of this step (45_status_poller R470). -/
def querySent (q : Seq) (s : State) : Sent :=
  { seq := q, app := false, idx := 13#6, arg := s.desc.rca ++ 0#16, kind := .r1 }

/-- Prompt answers to the first commands of a list, a status word for each. -/
def answers (cs : List Sent) (ws : List Word) : List (List Ev) := (List.zipWith (fun c w => prompt c.idx w) cs ws).flatten

/-- How a command can fail, and its error: by a prompt answer, or by silence, when the schedule ends there. `b` are its batches, `r`
what follows (40_response_decoder R201-R210; 41_command_issuer R240). -/
def CommandFails (kind : Kind) (idx : BitVec 6) (b r : List (List Ev)) (e : TransferError) : Prop :=
  (∃ a rc w, b = promptly a rc w 0#32 0#32 0#32 ∧ AnswerFails kind idx a rc w e) ∨ (b = [] ∧ r = [] ∧ e = .cmdResponseTimeout)

/-! ## The commands of a negotiation -/

/-- What a card answers, each time at once, to the commands of a negotiation that none of them ends: by how it answers CMD0 and CMD8,
its busy OCRs with the status words before them, then the ready one, and so on step by step. -/
structure NegAnswers where
  /-- It is recognised as MMC: the first CMD55 goes unanswered (42_negotiation R303). -/
  mmc : Bool
  a0 : Answer
  a8 : Answer
  w8 : Word
  busy : List (Word × Word)
  w55 : Word
  aOcr : Answer
  ocr : Word
  cid : Reg128
  w3 : Word
  csd : Reg128
  w7 : Word
  w55b : Word
  w6 : Word
  w16 : Word
  deriving DecidableEq, Repr

/-- The card answered the interface probe (42_negotiation R302). -/
def NegAnswers.v2 (x : NegAnswers) : Bool := x.a8 != .noResponse

/-- The card type its answers mean (42_negotiation R303). -/
def NegAnswers.cardType (x : NegAnswers) : CardType :=
  if x.mmc then .mmc else if x.ocr.getLsbD 30 then .highCapacity else if x.v2 then .standardV2 else .standardV1

/-- The commands of a negotiation in their order, each with the batches in which it is answered; a busy OCR is followed by the look at
the TIMER (42_negotiation R301-R309). -/
def negScript (x : NegAnswers) (s : State) : List (Sent × List (List Ev)) :=
  let sent (q : Seq) (app : Bool) (idx : BitVec 6) (arg : Word) (kind : Kind) : Sent :=
    { seq := q, app := app, idx := idx, arg := arg, kind := kind }
  let rca := x.w3.extractLsb' 16 16 ++ 0#16
  let attempt (w : Word) (b : List (List Ev)) :=
    if x.mmc then [(sent .negVoltage false 1#6 s.cfg.voltageWindowMmc .r3, b)]
    else
      [(sent .negVoltage false 55#6 0#32 .r1, prompt 55#6 w),
        (sent .negVoltage true 41#6 (s.cfg.voltageWindowSd ||| if x.v2 then 1#32 <<< s.cfg.hcsBit else 0#32) .r3, b)]
  [(sent .negReset false 0#6 0#32 .rNone, promptly x.a0 0#6 0#32 0#32 0#32 0#32),
    (sent .negProbe false 8#6 s.cfg.ifCondArg .r7, promptly x.a8 8#6 x.w8 0#32 0#32 0#32)] ++
  (if x.mmc then [(sent .negVoltage false 55#6 0#32 .r1, promptly .noResponse 0#6 0#32 0#32 0#32 0#32)] else []) ++
  x.busy.flatMap (fun b => attempt b.1 (prompt 63#6 b.2 ++ [[]])) ++ attempt x.w55 (promptly x.aOcr 63#6 x.ocr 0#32 0#32 0#32) ++
  [(sent .negIdent false 2#6 0#32 .r2, promptLong x.cid), (sent .negIdent false 3#6 0#32 .r6, prompt 3#6 x.w3),
    (sent .negRegfetch false 9#6 rca .r2, promptLong x.csd), (sent .negSelect false 7#6 rca .r1b, prompt 7#6 x.w7)] ++
  (if x.mmc then []
   else [(sent .negWidth false 55#6 rca .r1, prompt 55#6 x.w55b), (sent .negWidth true 6#6 2#32 .r1, prompt 6#6 x.w6)]) ++
  [(sent .negBlklen false 16#6 512#32 .r1, prompt 16#6 x.w16)]

/-- None of these answers ends the negotiation, as far as commands go: only an MMC card or one before version 2 leaves CMD8
unanswered, no status word has an error bit, VOLTAGE_DEADLINE_MS has not passed at the last busy OCR (exact pauses: log entry 20), and
the CSD and the addressing mode are the card's own (42_negotiation R301-R309; log entry 29). -/
structure NegOk (x : NegAnswers) (s : State) : Prop where
  legacy : x.mmc = true → x.a8 = .noResponse
  arrives : x.aOcr ≠ .noResponse
  busy : ∀ b ∈ x.busy, b.1 &&& 0xFDFFE008#32 = 0#32 ∧ b.2.getLsbD 31 = false
  inTime : (x.busy.length - 1) * s.cfg.voltPollDelay.toNat < max 1 s.cfg.voltageDeadline.toNat
  words : ∀ w ∈ [x.w55, x.w7, x.w55b, x.w6, x.w16], w &&& 0xFDFFE008#32 = 0#32
  rca : x.w3 &&& 0x0000E000#32 = 0#32
  ready : x.ocr.getLsbD 31 = true
  csd : s.card.csd = x.csd
  mode : x.mmc = false → s.card.byBlock = x.ocr.getLsbD 30

/-- What a successful transfer of `count` blocks leaves of the registers (44_block_transfer R421, R423). -/
structure Done (count : Nat) (s t : State) (sent : List Sent) (r : List (List Ev)) : Prop where
  result : t.host.result = 0#8
  value : t.host.value = BitVec.ofNat 32 count
  idle : t.seq = .idle
  free : t.host.hbusy = false
  wire : t.wire = s.wire ++ sent
  cells : t.xfer = { pendErr := none, done := false, multi := false }
  disarmed : t.bc.dma = none
  masked : t.bc.mask = 0#32
  static : t.bc.sta &&& mStatic = 0#32
  sched : t.inp.sched = r
  /-- The run is over (70_reset_and_hazards R603). -/
  ended : runEnded t = true

end Sys2Proof.Safety
end

