-- ==== Sys2Proof/Certificates/Slice0/Obligations.lean ====
section
/-! DEFINITION. The statements for the provers. Every statement is about every choice of the parameters of 00_scope R10, since
they are part of the state, and about every schedule of the other agents it does not name. -/

open Sys2Proof Sys2Proof.Machine Sys2Proof.Safety

/-! ## Encodings -/

/-- Decoding the words of any instruction gives it back, every operand at every value (30_encoding R122, R130, R131, R150). -/
def Obligations.DecodeOfEncode : Prop := ∀ i : Instr, decode (encode i) = .ok i

/-- Words that decode to an instruction are exactly its words: no other word has the same meaning (30_encoding R120, R122,
R140, R150, R151). -/
def Obligations.EncodeOfDecode : Prop := ∀ (ws : Words) (i : Instr), decode ws = .ok i → encode i = ws

/-- Frames of the spec's own examples, written out byte by byte, and the ten OP words decode to what they stand for
(41_command_issuer R250, R251, R254, R255, R260; 44_block_transfer R412; 30_encoding R150, R151). -/
def Obligations.SpecWordsDecode : Prop :=
  decodeBytes false [0x40#8, 0x00#8, 0x00#8, 0x00#8, 0x00#8, 0x95#8] = .ok (.cmd0 0#32 0x4A#7) ∧
  decodeBytes false [0x41#8, 0x80#8, 0xFF#8, 0x80#8, 0x00#8, 0xAF#8] = .ok (.cmd1 0x80FF8000#32 0x57#7) ∧
  decodeBytes false [0x47#8, 0x12#8, 0x34#8, 0x00#8, 0x00#8, 0x59#8] = .ok (.cmd7 0x12340000#32 0x2C#7) ∧
  decodeBytes false [0x48#8, 0x00#8, 0x00#8, 0x01#8, 0xAA#8, 0x87#8] = .ok (.cmd8 0x000001AA#32 0x43#7) ∧
  decodeBytes false [0x51#8, 0x00#8, 0x00#8, 0x10#8, 0x00#8, 0x27#8] = .ok (.cmd17 0x00001000#32 0x13#7) ∧
  decodeBytes false [0x58#8, 0x00#8, 0x00#8, 0x04#8, 0x00#8, 0x37#8] = .ok (.cmd24 0x00000400#32 0x1B#7) ∧
  (List.range 16).map (fun n => decodeOp (BitVec.ofNat 32 n)) =
    [.error (.reservedOp 0#32), .ok .initializeCard, .ok .readBlock, .ok .readBlocks, .ok .writeBlock, .ok .writeBlocks,
      .ok .erase, .ok .queryStatus, .ok .transferBusy, .ok .capacityBlocks, .ok .blockSize, .error (.reservedOp 11#32),
      .error (.reservedOp 12#32), .error (.reservedOp 13#32), .error (.reservedOp 14#32), .error (.reservedOp 15#32)]

/-- The frame of a command: its fields and its six bytes (30_encoding R122); its CRC7, one bit shifted in by the generator
x^7 + x^3 + 1, and the spec's three reference values (R123). The spec marks both as general knowledge (log entry 16). -/
def Obligations.FrameLayout : Prop :=
  (∀ (idx : BitVec 6) (arg : Word),
    let f := frameOf idx arg
    f.extractLsb' 47 1 = 0#1 ∧ f.extractLsb' 46 1 = 1#1 ∧ f.extractLsb' 40 6 = idx ∧ f.extractLsb' 8 32 = arg ∧
      f.extractLsb' 1 7 = frameCrc idx arg ∧ f.extractLsb' 0 1 = 1#1 ∧
      frameBytes f =
        [0x40#8 ||| idx.setWidth 8, arg.extractLsb' 24 8, arg.extractLsb' 16 8, arg.extractLsb' 8 8, arg.extractLsb' 0 8,
          ((frameCrc idx arg).setWidth 8 <<< 1) ||| 1#8]) ∧
  (∀ (c : BitVec 7) (b : Bool), crc7Step c b = (c <<< 1) ^^^ (if (c.getLsbD 6 ^^ b) then 0b0001001#7 else 0#7)) ∧
    frameCrc 0#6 0#32 = 0x4A#7 ∧ frameCrc 8#6 0x000001AA#32 = 0x43#7 ∧ frameCrc 55#6 0#32 = 0x32#7

/-- A reserved OP word ends at once with InvalidParameter (code 29) and nothing else happens (30_encoding R151). -/
def Obligations.ReservedOp : Prop :=
  ∀ (s : State) (w : Word) (r : List HostMove),
    s.host.hbusy = false → s.inp.inbox = .writeOp w :: r →
    (w.extractLsb' 0 4 = 0#4 ∨ 0xB ≤ (w.extractLsb' 0 4).toNat ∨ w.extractLsb' 4 28 ≠ 0#28) →
      step s =
        .next
          { s with
            seq := .idle
            host := { s.host with op := w, hbusy := false, result := 29#8, value := 0#32 }
            inp := { s.inp with inbox := r } }

/-- A frame whose index is no command of the table under the prefix bit at hand is refused by name (30_encoding R130, R131,
R140). -/
def Obligations.OutsideSetRefused : Prop :=
  ∀ (s : State) (f : Frame) (r : List HostMove),
    s.inp.inbox = .frame f :: r → f.extractLsb' 46 2 = 0b01#2 → f.extractLsb' 0 1 = 1#1 →
    (f.extractLsb' 40 6).toNat ∉
        (if s.app then [6, 23, 41] else [0, 1, 2, 3, 7, 8, 9, 12, 13, 16, 17, 18, 24, 25, 32, 33, 35, 36, 38, 55]) →
      step s = .refused (.outsideCommandSet s.app (f.extractLsb' 40 6))

/-! ## The step -/

/-- A step runs the decoded instruction: the write to OP sets OP and runs the operation its word decodes to; a frame run by
itself is the command it decodes to under the prefix bit (10_state R46, 30_encoding R130, R150). -/
def Obligations.StepRunsDecoded : Prop :=
  (∀ (s : State) (w : Word) (r : List HostMove) (i : Instr),
    s.inp.inbox = .writeOp w :: r → s.host.hbusy = false → decodeOp w = .ok i →
      step s = exec i { s with host := { s.host with op := w }, inp := { s.inp with inbox := r } }) ∧
  ∀ (s : State) (f : Frame) (r : List HostMove) (i : Instr),
    s.inp.inbox = .frame f :: r → decodeFrame s.app f = .ok i →
      step s = exec i { s with inp := { s.inp with inbox := r } }

/-- Each move of the host between operations (10_state R46, 20_memory R111, R112). BUF keeps HOST_ADDR_W bits of what is written
to it, and a store past the end of the host address space faults (log entry 18: the model's choice). While HBUSY = 1 a write to an
operand register, to host memory or to OP, and every instruction, is refused by name: the engine is not reentrant (60_exceptions
R548, 70 R614). The other moves are possible whatever HBUSY: keeping or dropping the cache duty (70 R616), changing the card,
which ENGINE does not see (70 R617; what the new card starts with is log entry 26), and waiting, explicitly or by having no move
left, during which the other agents move; the wait is refused where BC leaves its duties (60 R546). -/
def Obligations.HostWrites : Prop :=
  (∀ (s : State) (r : List HostMove),
    (∀ v, s.inp.inbox = .writeArg0 v :: r →
      step s = if s.host.hbusy then .refused .engineBusy
        else .next { s with host := { s.host with arg0 := v }, inp := { s.inp with inbox := r } }) ∧
    (∀ v, s.inp.inbox = .writeArg1 v :: r →
      step s = if s.host.hbusy then .refused .engineBusy
        else .next { s with host := { s.host with arg1 := v }, inp := { s.inp with inbox := r } }) ∧
    (∀ a, s.inp.inbox = .writeBuf a :: r →
      step s = if s.host.hbusy then .refused .engineBusy
        else .next { s with host := { s.host with buf := a % 2 ^ s.cfg.hostAddrW }, inp := { s.inp with inbox := r } }) ∧
    (∀ v, s.inp.inbox = .writeBuflen v :: r →
      step s = if s.host.hbusy then .refused .engineBusy
        else .next { s with host := { s.host with buflen := v }, inp := { s.inp with inbox := r } }) ∧
    (∀ a bs, s.inp.inbox = .store a bs :: r →
      step s = if s.host.hbusy then .refused .engineBusy
        else if a + bs.length ≤ 2 ^ s.cfg.hostAddrW then
          .next { s with mem := s.mem.write a bs, inp := { s.inp with inbox := r } }
        else .fault (.outsideHostMemory (a + bs.length - 1))) ∧
    (∀ w, s.inp.inbox = .writeOp w :: r → s.host.hbusy = true → step s = .refused .engineBusy) ∧
    (∀ k, s.inp.inbox = .maint k :: r → step s = .next { s with inp := { s.inp with maint := k, inbox := r } }) ∧
    (∀ st byBlock mmc csd len cells, s.inp.inbox = .swap st byBlock mmc csd len cells :: r →
      step s =
        .next
          { s with
            card :=
              { state := st, addr := 0, eraseFirst := 0, eraseLast := 0, byBlock := byBlock, mmc := mmc, csd := csd, width := 1#3,
                blockLen := len, preErase := 0, mem := storageOf cells }
            inp := { s.inp with inbox := r } }) ∧
    (s.inp.inbox = .idle :: r →
      let u := { s with inp := { s.inp with inbox := r } }
      step s = if (sync u).inp.breaches = s.inp.breaches then .next (sync u) else .refused .dutyBroken)) ∧
  (∀ s : State, s.inp.inbox = [] →
    step s = if (sync s).inp.breaches = s.inp.breaches then .next (sync s) else .refused .dutyBroken) ∧
  ∀ (i : Instr) (s : State), s.host.hbusy = true → exec i s = .refused .engineBusy

/-! ## Reset and invariants -/

/-- What reset leaves, for every choice of the parameters: ENGINE at IDLE with HBUSY = 0, the data interrupt masked, no step of the
ISR agent (70 R602), and every value 70 R601 states. -/
def Obligations.ResetValues : Prop :=
  ∀ p : Params,
    let s := State.resetWith p
    s.desc.valid = false ∧ s.desc.cardType = .unknown ∧ s.desc.rca = 0#16 ∧ s.desc.csdRaw = 0#128 ∧ s.desc.cidRaw = 0#128 ∧
      s.desc.csd = { Csd.zero with layout := s.desc.csd.layout } ∧ s.desc.cid = Cid.zero ∧ s.desc.capacity = 0#32 ∧
      s.neg.sdv2 = false ∧ s.neg.ocr = 0#32 ∧ s.neg.busWidth = 1#3 ∧
      s.neg.clkdiv = p.initClkdiv ∧ s.seq = .idle ∧ s.xfer = { pendErr := none, done := false, multi := false } ∧
      s.host = { op := 0#32, arg0 := 0#32, arg1 := 0#32, buf := 0, buflen := 0#32, hbusy := false, result := 0#8, value := 0#32 } ∧
      s.log = [] ∧ s.bc.sta.extractLsb' 11 3 = 0#3 ∧ s.bc.mask = 0#32 ∧ blockSize = 512 ∧ applyEv .isr s = s

/-- The invariant holds after reset, whatever the parameters (70 R601, R602); and the machine's reset state is the one with the
least parameters (log entry 1: the model's choice). -/
def Obligations.InvAtReset : Prop :=
  (∀ p : Params, Inv (State.resetWith p)) ∧ State.reset = State.resetWith Params.least

/-- Every step of every machine keeps the invariant: memories canonical and inside the address space, no operation, transfer
or interrupt left open between two moves of the host, RESULT a code of the taxonomy with VALUE 0 after an error, a published
descriptor the one its raw registers and card type give (10_state R31, R39, R40, R46; 20_memory R90, R104; 42_negotiation R311,
R313; 44 R421; 60_exceptions R500, R510). -/
def Obligations.StepKeepsInv : Prop := ∀ s t : State, Inv s → step s = .next t → Inv t

/-- Who writes what. Parameters are never written; LOG and the trace of commands only grow (00_scope R10, 10_state R47). Only
INITIALIZE writes LOG, the Card Descriptor, the working registers, the clock and the bus width; every other instruction leaves
them, but for DESC_VALID, which a check that finds no card clears (10_state R31-R36, R39, R53; 44 R462; 60_exceptions R551). -/
def Obligations.WhoWritesWhat : Prop :=
  (∀ s t : State, step s = .next t →
    t.cfg = s.cfg ∧ (∃ l, t.log = s.log ++ l) ∧ ∃ cs, t.wire = s.wire ++ cs) ∧
  ∀ (i : Instr) (s t : State), i ≠ .initializeCard → exec i s = .next t →
    t.desc = { s.desc with valid := t.desc.valid } ∧ (t.desc.valid = true → s.desc.valid = true) ∧ t.neg = s.neg ∧
      t.bc.div = s.bc.div ∧ t.bc.width = s.bc.width ∧ t.log = s.log

/-- The handler (60_exceptions R520): with no flag of DMASK set it writes nothing the spec names; else BCMASK is 0, XFER_DONE 1,
and PEND_ERR the first error of the stated order, or none with DATAEND alone. No move of any agent other than ENGINE and HOST
writes an engine register but these two cells (10_state R45). What BC may set of the data path (60 R546 (d), (h)): a flag that is none
of it, or any flag with nothing armed and no transfer just disarmed, is a breach; a late flag only sets its bit; while a transfer is
armed, until BC_Disarm, any of them may come (log entry 30: the model's choice) and the bytes have moved with the first DATAEND, the
real ones where no cache duty was skipped (70 R616) and the card's block length is 512 (log entry 31). -/
def Obligations.HandlerOrder : Prop :=
  (∀ s : State,
    isr s =
      if s.bc.sta &&& 0x0000033A#32 = 0#32 then { s with bc := { s.bc with irq := false } }
      else
        { s with
          bc := { s.bc with mask := 0#32, irq := false }
          xfer :=
            { pendErr :=
                if s.bc.sta.getLsbD 1 then some .dataCrcFail
                else if s.bc.sta.getLsbD 3 then some .dataTimeout
                else if s.bc.sta.getLsbD 4 then some .txUnderrun
                else if s.bc.sta.getLsbD 5 then some .rxOverrun
                else if s.bc.sta.getLsbD 9 then some .startBitError
                else none
              done := true
              multi := s.xfer.multi } }) ∧
  (∀ (e : Ev) (s : State),
    let t := applyEv e s
    t.desc = s.desc ∧ t.neg = s.neg ∧ t.seq = s.seq ∧ t.xfer.multi = s.xfer.multi ∧ t.host = s.host ∧ t.log = s.log ∧
      (e ≠ .isr → t.xfer = s.xfer)) ∧
  ∀ (f : Word) (s : State),
    let t := applyEv (.data f) s
    let bad : Prop := f &&& 0xFFFFF8C5#32 ≠ 0#32
    (bad ∨ (s.bc.dma = none ∧ s.bc.late = false) → t = { s with inp := { s.inp with breaches := s.inp.breaches + 1 } }) ∧
    (¬ bad → s.bc.dma = none → s.bc.late = true → t = { s with bc := { s.bc with sta := s.bc.sta ||| f } }) ∧
    ∀ d, ¬ bad → s.bc.dma = some d →
      t.bc.dma = s.bc.dma ∧ t.inp = s.inp ∧ t.bc.sta &&& f = f ∧
        (f.getLsbD 8 = false ∨ s.bc.moved = true → t.mem = s.mem ∧ t.card = s.card ∧ t.free = s.free) ∧
        (f.getLsbD 8 = true → t.bc.moved = true) ∧
        (f.getLsbD 8 = true → s.bc.moved = false →
          (d.dir = .rx →
            (realBytes s = true → t.mem = s.mem.write d.buf (s.card.mem.readRange s.card.addr d.len)) ∧ t.card.mem = s.card.mem) ∧
          (d.dir = .tx →
            (realBytes s = true → t.card.mem = s.card.mem.write s.card.addr (s.mem.readRange d.buf d.len)) ∧ t.mem = s.mem))

/-- Every host operation ends, whatever the other agents do: with SEQ at IDLE, HBUSY 0 and a result code of the taxonomy,
VALUE 0 unless it is Ok (60_exceptions R500, R510; 10_state R40, R46). Or it is refused by name, for one of three reasons alone: a
transfer whose buffer has a byte DMA cannot reach or past the end of the host address space (60 R547, 20_memory R102); BC made a
move outside its duties (60 R546); or a CMD55 run by itself just before leaves its first command to go out as an application command
outside the table (30_encoding R130, R140; the model refuses the run there: log entry 23). -/
def Obligations.HostOpsEnd : Prop :=
  ∀ (i : Instr) (s : State),
    i ∈ [Instr.initializeCard, .readBlock, .readBlocks, .writeBlock, .writeBlocks, .erase, .queryStatus, .transferBusy,
      .capacityBlocks, .blockSize] →
    s.host.hbusy = false →
      let reach (n : Nat) : Prop :=
        s.host.buf + n ≤ 2 ^ s.cfg.hostAddrW ∧
          ∀ x, s.host.buf ≤ x → x < s.host.buf + n → ∃ r ∈ s.cfg.dmaReach, r.1 ≤ x ∧ x < r.1 + r.2
      (∃ t, exec i s = .next t ∧ t.seq = .idle ∧ t.host.hbusy = false ∧ t.host.result.toNat ≤ 32 ∧
        (t.host.result ≠ 0#8 → t.host.value = 0#32) ∧ (s.app = true → t.wire = s.wire)) ∨
      (exec i s = .refused .bufferUnreachable ∧
        ((i ∈ [Instr.readBlock, .writeBlock] ∧ ¬ reach 512) ∨
          (i ∈ [Instr.readBlocks, .writeBlocks] ∧ ¬ reach (s.host.arg1.toNat * 512)))) ∨
      (exec i s = .refused .dutyBroken ∧ s.inp.sched ≠ []) ∨
      ∃ idx : BitVec 6, exec i s = .refused (.outsideCommandSet true idx) ∧ s.app = true ∧
        (i, idx) ∈
          [(Instr.initializeCard, 0#6), (.readBlock, 17#6), (.readBlocks, 18#6), (.writeBlock, 24#6),
            (.writeBlocks, if s.desc.cardType = .mmc then 25#6 else 55#6),
            (.erase, if s.desc.cardType = .mmc then 35#6 else 32#6), (.queryStatus, 13#6)]

/-! ## The Response Decoder -/

/-- The R1 table, in its priority order: the first set error bit decides (40_response_decoder R203); and no error bit is set
exactly where the word meets the mask 0xFDFFE008 in nothing (30_encoding R125, R141). The spec marks the bit positions as
general knowledge (log entry 16). -/
def Obligations.R1Priority : Prop :=
  (∀ (kind : Kind) (idx : BitVec 6) (b : Bc), kind = .r1 ∨ kind = .r1b →
    hasFlag b.sta mCtimeout = false → hasFlag b.sta mCcrcfail = false → hasFlag b.sta mCmdrend = true → b.respcmd = idx →
      decodeResponse kind idx b =
        if b.resp1.getLsbD 31 then .err .addressOutOfRange
        else if b.resp1.getLsbD 30 then .err .addressMisaligned
        else if b.resp1.getLsbD 29 then .err .blockLengthError
        else if b.resp1.getLsbD 28 then .err .eraseSequenceError
        else if b.resp1.getLsbD 27 then .err .badEraseParam
        else if b.resp1.getLsbD 26 then .err .writeProtectViolation
        else if b.resp1.getLsbD 24 then .err .lockUnlockFailed
        else if b.resp1.getLsbD 23 then .err .cmdCrcFail
        else if b.resp1.getLsbD 22 then .err .illegalCommand
        else if b.resp1.getLsbD 21 then .err .cardEccFailed
        else if b.resp1.getLsbD 20 then .err .controllerError
        else if b.resp1.getLsbD 19 then .err .unknownError
        else if b.resp1.getLsbD 18 then .err .streamUnderrun
        else if b.resp1.getLsbD 17 then .err .streamOverrun
        else if b.resp1.getLsbD 16 then .err .registerOverwrite
        else if b.resp1.getLsbD 15 then .err .partialErase
        else if b.resp1.getLsbD 14 then .err .eccDisabled
        else if b.resp1.getLsbD 13 then .err .eraseReset
        else if b.resp1.getLsbD 3 then .err .authSequenceError
        else .ok (.status b.resp1)) ∧
  ∀ w : Word, firstError w r1Table = none ↔ w &&& 0xFDFFE008#32 = 0#32

/-- The checks before any status bit. The controller-level checks of every kind, in their order (40_response_decoder R201); R3 and
R7, which skip the CRC step (R207, R208); the RNone kind (R210). The echo check: of R1, R1b and R6 alone (R202); for an
application command the index is its own, and ACMD41, an R3, has none: its OCR is what the card answers (bit 30 of a ready card's is
the card's own, log entry 29, so nothing is said of it). -/
def Obligations.DecoderChecks : Prop :=
  (∀ (kind : Kind) (idx : BitVec 6) (b : Bc),
    (kind ≠ .rNone → hasFlag b.sta mCtimeout = true → decodeResponse kind idx b = .err .cmdResponseTimeout) ∧
    (kind ∈ [Kind.r1, .r1b, .r2, .r6] → hasFlag b.sta mCtimeout = false → hasFlag b.sta mCcrcfail = true →
      decodeResponse kind idx b = .err .cmdCrcFail) ∧
    (kind ≠ .rNone → hasFlag b.sta mCtimeout = false → hasFlag b.sta mCmdrend = false → hasFlag b.sta mCcrcfail = false →
      decodeResponse kind idx b = .err .cmdResponseTimeout) ∧
    (kind = .rNone → decodeResponse kind idx b = if hasFlag b.sta mCmdsent then .ok .empty else .err .cmdResponseTimeout) ∧
    (hasFlag b.sta mCtimeout = false → hasFlag b.sta mCmdrend = true ∨ hasFlag b.sta mCcrcfail = true →
      (kind = .r3 → decodeResponse kind idx b = .ok (.ocr b.resp1)) ∧ (kind = .r7 → decodeResponse kind idx b = .ok .empty))) ∧
  (∀ (kind : Kind) (idx : BitVec 6) (b : Bc), kind ∈ [Kind.r1, .r1b, .r6] →
    hasFlag b.sta mCtimeout = false → hasFlag b.sta mCcrcfail = false → hasFlag b.sta mCmdrend = true → b.respcmd ≠ idx →
      decodeResponse kind idx b = .err .illegalCommand) ∧
  (∀ (kind : Kind) (idx rc : BitVec 6) (b : Bc), kind ∈ [Kind.rNone, .r2, .r3, .r7] →
    decodeResponse kind idx { b with respcmd := rc } = decodeResponse kind idx b) ∧
  ∀ (arg : Word) (crc : BitVec 7) (rc : BitVec 6) (w : Word) (r : List (List Ev)) (s : State),
    s.host.hbusy = false → s.app = true → s.inp.sched = prompt rc w ++ r →
      (rc ≠ 6#6 → ∃ t, exec (.acmd6 arg crc) s = .next t ∧ t.cmdResult = some (.err .illegalCommand)) ∧
      (rc ≠ 23#6 → ∃ t, exec (.acmd23 arg crc) s = .next t ∧ t.cmdResult = some (.err .illegalCommand)) ∧
      ∃ t v, exec (.acmd41 arg crc) s = .next t ∧ t.cmdResult = some (.ok (.ocr v)) ∧ v ||| 0x40000000#32 = w ||| 0x40000000#32

/-- R6: the 3-bit error subset after the echo, then the RCA in the upper half (40_response_decoder R209). -/
def Obligations.R6Decode : Prop :=
  ∀ (idx : BitVec 6) (b : Bc),
    decodeResponse .r6 idx b =
      if hasFlag b.sta mCtimeout then .err .cmdResponseTimeout
      else if hasFlag b.sta mCcrcfail then .err .cmdCrcFail
      else if hasFlag b.sta mCmdrend = false then .err .cmdResponseTimeout
      else if b.respcmd ≠ idx then .err .illegalCommand
      else if b.resp1.getLsbD 15 then .err .cmdCrcFail
      else if b.resp1.getLsbD 14 then .err .illegalCommand
      else if b.resp1.getLsbD 13 then .err .unknownError
      else .ok (.rca (b.resp1.extractLsb' 16 16) (b.resp1.extractLsb' 0 16))

/-! ## The Register Parser -/

/-- The layout follows the card type; an SD CSD of structure 2 or 3 is refused, an MMC one never (43_register_parser R351). -/
def Obligations.CsdDispatch : Prop :=
  ∀ (raw : Reg128) (ct : CardType),
    (ct ∈ [CardType.standardV1, .standardV2, .highCapacity] →
      (2 ≤ (raw.extractLsb' 126 2).toNat → parseCsd raw ct = .err .unsupportedHardware) ∧
      ((raw.extractLsb' 126 2).toNat ≤ 1 → ∃ c, parseCsd raw ct = .ok c)) ∧
    (ct = .mmc → ∃ c, parseCsd raw ct = .ok c) ∧
    ∀ c, parseCsd raw ct = .ok c →
      c.csdStructure = raw.extractLsb' 126 2 ∧ c.layout = (if ct = .highCapacity then Layout.v2 else .v1)

/-- The CSD fields common to both layouts and the CID fields, each at its bits (43_register_parser R352, R356; positions the spec
marks as general knowledge, log entry 16). -/
def Obligations.RegisterFields : Prop :=
  (∀ (raw : Reg128) (ct : CardType) (c : Csd), parseCsd raw ct = .ok c →
    c.csdStructure = raw.extractLsb' 126 2 ∧ c.taac = raw.extractLsb' 112 8 ∧ c.nsac = raw.extractLsb' 104 8 ∧
    c.tranSpeed = raw.extractLsb' 96 8 ∧ c.ccc = raw.extractLsb' 84 12 ∧ c.readBlLen = raw.extractLsb' 80 4 ∧
    c.readBlPartial = raw.extractLsb' 79 1 ∧ c.writeBlkMisalign = raw.extractLsb' 78 1 ∧
    c.readBlkMisalign = raw.extractLsb' 77 1 ∧ c.dsrImp = raw.extractLsb' 76 1 ∧ c.eraseBlkEn = raw.extractLsb' 46 1 ∧
    c.sectorSize = raw.extractLsb' 39 7 ∧ c.wpGrpSize = raw.extractLsb' 32 7 ∧ c.wpGrpEnable = raw.extractLsb' 31 1 ∧
    c.r2wFactor = raw.extractLsb' 26 3 ∧ c.writeBlLen = raw.extractLsb' 22 4 ∧ c.writeBlPartial = raw.extractLsb' 21 1 ∧
    c.fileFormatGrp = raw.extractLsb' 15 1 ∧ c.copy = raw.extractLsb' 14 1 ∧ c.permWriteProtect = raw.extractLsb' 13 1 ∧
    c.tmpWriteProtect = raw.extractLsb' 12 1 ∧ c.fileFormat = raw.extractLsb' 10 2 ∧ c.crc = raw.extractLsb' 1 7) ∧
  ∀ raw : Reg128,
    let c := parseCid raw
    c.mid = raw.extractLsb' 120 8 ∧ c.oid = raw.extractLsb' 104 16 ∧ c.pnm = raw.extractLsb' 64 40 ∧
      c.prv = raw.extractLsb' 56 8 ∧ c.psn = raw.extractLsb' 24 32 ∧ c.mdt = raw.extractLsb' 8 12 ∧ c.crc = raw.extractLsb' 1 7

/-- Layout V1: its fields by bits, and C_SIZE and C_SIZE_MULT by bytes (43_register_parser R353). Layout V2: C_SIZE by bits and by
bytes, and the V1-only fields 0 (R354). The spec marks the positions as general knowledge (log entry 16). -/
def Obligations.LayoutFields : Prop :=
  (∀ (raw : Reg128) (ct : CardType) (c : Csd), ct ∈ [CardType.standardV1, .standardV2, .mmc] → parseCsd raw ct = .ok c →
    c.cSize = (raw.extractLsb' 62 12).setWidth 22 ∧ c.cSizeMult = raw.extractLsb' 47 3 ∧
    c.vddRCurrMin = raw.extractLsb' 59 3 ∧ c.vddRCurrMax = raw.extractLsb' 56 3 ∧ c.vddWCurrMin = raw.extractLsb' 53 3 ∧
    c.vddWCurrMax = raw.extractLsb' 50 3 ∧
    c.cSize =
      ((byteOf raw 6 &&& 0x03#8).setWidth 22 <<< 10) ||| ((byteOf raw 7).setWidth 22 <<< 2) |||
        ((byteOf raw 8 &&& 0xC0#8).setWidth 22 >>> 6) ∧
    c.cSizeMult.setWidth 8 = ((byteOf raw 9 &&& 0x03#8) <<< 1) ||| ((byteOf raw 10 &&& 0x80#8) >>> 7)) ∧
  ∀ (raw : Reg128) (c : Csd), parseCsd raw .highCapacity = .ok c →
    c.cSize = raw.extractLsb' 48 22 ∧
    c.cSize =
      ((byteOf raw 7 &&& 0x3F#8).setWidth 22 <<< 16) ||| ((byteOf raw 8).setWidth 22 <<< 8) ||| (byteOf raw 9).setWidth 22 ∧
    c.vddRCurrMin = 0#3 ∧ c.vddRCurrMax = 0#3 ∧ c.vddWCurrMin = 0#3 ∧ c.vddWCurrMax = 0#3 ∧ c.cSizeMult = 0#3

/-- The capacity formulas, exact, and their overflow: on a high-capacity card at C_SIZE 0x3FFFFF alone, on a card with a 12-bit
C_SIZE never (43_register_parser R360, R361). -/
def Obligations.CapacityFormula : Prop :=
  ∀ (c : Csd) (ct : CardType),
    (ct = .highCapacity →
      (c.cSize = 0x3FFFFF#22 → capacity c ct = .err .unsupportedHardware) ∧
      (c.cSize ≠ 0x3FFFFF#22 → ∃ n, capacity c ct = .ok n ∧ n.toNat = (c.cSize.toNat + 1) * 1024) ∧
      (c.cSize = 0x3FFFFE#22 → capacity c ct = .ok 4294966272#32)) ∧
    (ct ≠ .highCapacity → c.cSize.toNat < 4096 →
      ∃ n, capacity c ct = .ok n ∧
        n.toNat = (c.cSize.toNat + 1) * 2 ^ (c.cSizeMult.toNat + 2) * (if ct = .standardV2 then 2 else 1) ∧
        n.toNat ≤ 4194304)

/-- The wire address: the block number on a high-capacity card; elsewhere the byte address, which never wraps for a block
below the published capacity (44_block_transfer R400). What the card in the slot takes it for: its own block where it is of the mode
the descriptor names; after a change of card (70 R617, 93 U30; log entry 29: the model's choice) another byte address. -/
def Obligations.WireAddress : Prop :=
  (∀ (d : Descriptor) (a : Word), Published d → d.valid = true →
    (d.cardType = .highCapacity → wireAddr d a = a) ∧
    (d.cardType ≠ .highCapacity →
      d.capacity.toNat ≤ 4194304 ∧
      (a.toNat < d.capacity.toNat → (wireAddr d a).toNat = a.toNat * 512 ∧ a.toNat * 512 < 2 ^ 31))) ∧
  ∀ s : State, Published s.desc → s.desc.valid = true → s.host.arg0.toNat < s.desc.capacity.toNat →
    NoWrap s ∧
      (s.card.byBlock = decide (s.desc.cardType = .highCapacity) → openedAt s = 512 * s.host.arg0.toNat) ∧
      (s.card.byBlock = true → s.desc.cardType ≠ .highCapacity → openedAt s = 512 * 512 * s.host.arg0.toNat) ∧
      (s.card.byBlock = false → s.desc.cardType = .highCapacity → openedAt s = s.host.arg0.toNat)

/-! ## The Command Issuer -/

/-- The issuer writes no engine register, sends one command once, leaves every static flag clear, and never sees a flag an
earlier command left (41_command_issuer R243, R242). -/
def Obligations.IssuerWritesNothing : Prop :=
  ∀ (idx : BitVec 6) (arg : Word) (kind : Kind) (s : State),
    let t := (issueCmd idx arg kind s).1
    t.desc = s.desc ∧ t.neg = s.neg ∧ t.seq = s.seq ∧ t.xfer.multi = s.xfer.multi ∧ t.host = s.host ∧ t.log = s.log ∧
      t.bc.div = s.bc.div ∧ t.bc.width = s.bc.width ∧
      t.wire = s.wire ++ [{ seq := s.seq, app := s.app, idx := idx, arg := arg, kind := kind }] ∧
      t.bc.sta.extractLsb' 0 11 = 0#11 ∧
      issueCmd idx arg kind { s with bc := { s.bc with sta := s.bc.sta &&& 0xFFFFF800#32 } } = issueCmd idx arg kind s

/-- An application command goes behind its prefix CMD55(RCA << 16): where the prefix fails its error is the result and nothing
more is sent (41_command_issuer R241). -/
def Obligations.PrefixFirst : Prop :=
  ∀ (idx : BitVec 6) (arg : Word) (kind : Kind) (s : State),
    let p := issueCmd 55#6 (s.desc.rca ++ 0#16) .r1 s
    (∀ e, p.2 = .err e → issueApp idx arg kind s = (p.1, .err e)) ∧
    (∀ f, p.2 = .ok f →
      issueApp idx arg kind s = issueCmd idx arg kind p.1 ∧
        (issueApp idx arg kind s).1.wire =
          s.wire ++
            [{ seq := s.seq, app := s.app, idx := 55#6, arg := s.desc.rca ++ 0#16, kind := .r1 },
              { seq := s.seq, app := true, idx := idx, arg := arg, kind := kind }])

/-- A bus that never answers: the command ends with CmdResponseTimeout once its deadline has passed, sent once, with every
static flag clear (41_command_issuer R240, R242; 60_exceptions R535; no move of another agent comes: log entry 4). -/
def Obligations.SilentBusTimesOut : Prop :=
  ∀ (idx : BitVec 6) (arg : Word) (kind : Kind) (s : State), s.inp.sched = [] →
    let r := issueCmd idx arg kind s
    r.2 = .err .cmdResponseTimeout ∧
      (if idx = 0#6 then max 1 s.cfg.cmd0Timeout.toNat else max 1 s.cfg.cmdTimeout.toNat) ≤ (nowAt r.1.inp.ms - nowAt s.inp.ms).toNat ∧
      r.1.wire.length = s.wire.length + 1 ∧ r.1.bc.sta.extractLsb' 0 11 = 0#11

/-! ## The bus commands run by themselves -/

/-- The commands answered by R1 or R1b complete with a prompt answer: their result is the decoded status word
(41_command_issuer R254, R257-R271; 30_encoding R131; 40_response_decoder R202, R203). Which word the card sends is partly the model's:
the card's own state stands in bits 12:9, and bit 5, APP_CMD, is set where a CMD55 reports no error (30 R125, 41 R269; log entry 13:
PRESUMED). -/
def Obligations.R1CommandsComplete : Prop :=
  ∀ (i : Instr) (app : Bool) (idx : BitVec 6) (arg : Word) (crc : BitVec 7) (rc : BitVec 6) (w : Word)
    (r : List (List Ev)) (s : State),
    i ∈ [Instr.cmd7 arg crc, .cmd12 arg crc, .cmd13 arg crc, .cmd16 arg crc, .cmd17 arg crc, .cmd18 arg crc, .cmd24 arg crc,
      .cmd25 arg crc, .cmd32 arg crc, .cmd33 arg crc, .cmd35 arg crc, .cmd36 arg crc, .cmd38 arg crc, .cmd55 arg crc,
      .acmd6 arg crc, .acmd23 arg crc] →
    frameParts i = some (app, idx, arg, crc) → s.host.hbusy = false → s.app = app → s.inp.sched = prompt rc w ++ r →
      let u := (w &&& 0xFFFFE1FF#32) ||| (s.card.state.setWidth 32 <<< 9)
      let v := if idx = 55#6 ∧ u &&& 0xFDFFE008#32 = 0#32 then u ||| 0x00000020#32 else u
      ∃ t, exec i s = .next t ∧
        t.cmdResult =
          some (if rc ≠ idx then .err .illegalCommand
            else match firstError v r1Table with
              | some e => .err e
              | none => .ok (.status v)) ∧
        t.wire = s.wire ++ [{ seq := s.seq, app := app, idx := idx, arg := arg, kind := kindOf i }] ∧
        t.bc.sta.extractLsb' 0 11 = 0#11 ∧ t.inp.sched = r ∧ t.seq = s.seq

/-- The commands answered by R2 complete with the register of a prompt answer (41_command_issuer R252, R256;
40_response_decoder R206). In Standby a CMD9 reads the card's own CSD, whatever was drawn, and so each time the same (20_memory R101;
log entry 29). -/
def Obligations.R2CommandsComplete : Prop :=
  ∀ (i : Instr) (idx : BitVec 6) (arg : Word) (crc : BitVec 7) (reg : Reg128) (r : List (List Ev)) (s : State),
    i ∈ [Instr.cmd2 arg crc, .cmd9 arg crc] → frameParts i = some (false, idx, arg, crc) →
    s.host.hbusy = false → s.app = false → s.inp.sched = promptLong reg ++ r →
      let got := if idx = 9#6 ∧ s.card.state = 3#4 then s.card.csd else reg
      ∃ t, exec i s = .next t ∧ t.cmdResult = some (.ok (.reg got)) ∧
        t.card.csd = s.card.csd ∧
        t.wire = s.wire ++ [{ seq := s.seq, app := false, idx := idx, arg := arg, kind := .r2 }] ∧
        t.bc.sta.extractLsb' 0 11 = 0#11 ∧ t.inp.sched = r ∧ t.seq = s.seq

/-- The commands answered by R3 complete with the OCR word of a prompt answer, its CRC good or bad (41_command_issuer R251, R272;
40_response_decoder R208). In the ready answer to an ACMD41 bit 30 is the card's own addressing mode (30_encoding R127; log entry 29:
the model's choice); every other word is as drawn. An idle card whose OCR bit 31 is 1 is then ready: a card-state transition of log
entry 13 (PRESUMED). -/
def Obligations.R3CommandsComplete : Prop :=
  ∀ (i : Instr) (app : Bool) (idx : BitVec 6) (arg : Word) (crc : BitVec 7) (a : Answer) (rc : BitVec 6)
    (w w2 w3 w4 : Word) (r : List (List Ev)) (s : State),
    i ∈ [Instr.cmd1 arg crc, .acmd41 arg crc] → frameParts i = some (app, idx, arg, crc) → a ≠ .noResponse →
    s.host.hbusy = false → s.app = app → s.inp.sched = promptly a rc w w2 w3 w4 ++ r →
      let got :=
        if app = true ∧ w.getLsbD 31 = true then if s.card.byBlock then w ||| 0x40000000#32 else w &&& 0xBFFFFFFF#32 else w
      ∃ t, exec i s = .next t ∧ t.cmdResult = some (.ok (.ocr got)) ∧
        (w.getLsbD 31 = true → s.card.state = 0#4 → t.card.state = 1#4) ∧
        t.wire = s.wire ++ [{ seq := s.seq, app := app, idx := idx, arg := arg, kind := .r3 }] ∧
        t.bc.sta.extractLsb' 0 11 = 0#11 ∧ t.inp.sched = r ∧ t.seq = s.seq

/-- CMD0, CMD3 and CMD8 complete with a prompt answer: CMD0 needs no response, CMD3 gives the RCA of an R6 without its three
error bits, CMD8 is Ok with any response (41_command_issuer R250, R253, R255; 40_response_decoder R207, R209, R210). CMD0 takes the
card to Idle from any state but Inactive, which the field values 9 to 15 hold (41 R250; 45_status_poller R471; log entry 13:
PRESUMED). -/
def Obligations.Cmd0Cmd3Cmd8Complete : Prop :=
  ∀ (arg : Word) (crc : BitVec 7) (a : Answer) (rc : BitVec 6) (w w2 w3 w4 : Word) (r : List (List Ev)) (s : State),
    s.host.hbusy = false → s.app = false →
      (s.inp.sched = promptly a rc w w2 w3 w4 ++ r →
        ∃ t, exec (.cmd0 arg crc) s = .next t ∧ t.cmdResult = some (.ok .empty) ∧
          t.card.state = (if s.card.state.toNat ≤ 8 then 0#4 else s.card.state) ∧
          t.wire = s.wire ++ [{ seq := s.seq, app := false, idx := 0#6, arg := arg, kind := .rNone }] ∧
          t.bc.sta.extractLsb' 0 11 = 0#11 ∧ t.inp.sched = r ∧ t.seq = s.seq) ∧
      (s.inp.sched = prompt 3#6 w ++ r → w &&& 0x0000E000#32 = 0#32 →
        ∃ t st, exec (.cmd3 arg crc) s = .next t ∧ t.cmdResult = some (.ok (.rca (w.extractLsb' 16 16) st)) ∧
          t.wire = s.wire ++ [{ seq := s.seq, app := false, idx := 3#6, arg := arg, kind := .r6 }] ∧
          t.bc.sta.extractLsb' 0 11 = 0#11 ∧ t.inp.sched = r ∧ t.seq = s.seq) ∧
      (s.inp.sched = promptly a rc w w2 w3 w4 ++ r →
        ∃ t, exec (.cmd8 arg crc) s = .next t ∧
          t.cmdResult = some (if a = .noResponse then .err .cmdResponseTimeout else .ok .empty) ∧
          t.wire = s.wire ++ [{ seq := s.seq, app := false, idx := 8#6, arg := arg, kind := .r7 }] ∧
          t.bc.sta.extractLsb' 0 11 = 0#11 ∧ t.inp.sched = r ∧ t.seq = s.seq)

/-- The one bit outside the frame: after any command it is 1 exactly where the command was a CMD55 that succeeded
(30_encoding R130). -/
def Obligations.PrefixBit : Prop :=
  ∀ (i : Instr) (app : Bool) (idx : BitVec 6) (arg : Word) (crc : BitVec 7) (s t : State),
    frameParts i = some (app, idx, arg, crc) → exec i s = .next t →
      (t.app = true ↔ idx = 55#6 ∧ ∃ f, t.cmdResult = some (.ok f))

/-- The card effect of each command the card carries out, on a prompt answer (41_command_issuer R252-R271, which the spec marks as
general knowledge: log entries 13 and 27). A standard command moves the card between the states named: one answered by R1 or R1b
where its status word has no error bit, CMD3 where its R6 has none, whatever the RCA, and CMD2, CMD8 and CMD9 on any response,
whatever the register or echo (CMD0, CMD1 and ACMD41 stand in Cmd0Cmd3Cmd8Complete and R3CommandsComplete). CMD13 changes nothing
of the card, in whatever state (R258). CMD55 changes nothing of the card and reports APP_CMD in bit 5 (R269); ACMD6 sets the bus
width of a card in Transfer, 4 for the argument 2 and 1 for 0 (R270; the code read from bits 1:0: log entry 27); CMD16 sets the
block length of a card in Transfer that takes byte addresses, 512 for the argument the engine sends (R259; 30_encoding R132; other
arguments: log entry 31); ACMD23 sets how many blocks the next CMD25 finds pre-erased, and CMD25 uses the count up (R271). A whole
transfer of a card in Transfer, answered at once, leaves it in Transfer after a read (R257, R260, R261) and in Programming after a
write: a single block by itself, more by CMD12, and those of an MMC card by the stop token of BC (R262, R263; 44_block_transfer
R422; 60_exceptions R546 (f)). -/
def Obligations.CardEffects : Prop :=
  (∀ (i : Instr) (idx : BitVec 6) (arg : Word) (crc : BitVec 7) (w : Word) (r : List (List Ev)) (s t : State) (src dst : Nat),
    (i, src, dst) ∈
      [(Instr.cmd7 arg crc, 3, 4), (.cmd12 arg crc, 5, 4), (.cmd12 arg crc, 6, 7), (.cmd16 arg crc, 4, 4), (.cmd17 arg crc, 4, 5),
        (.cmd18 arg crc, 4, 5), (.cmd24 arg crc, 4, 6), (.cmd25 arg crc, 4, 6), (.cmd32 arg crc, 4, 4), (.cmd33 arg crc, 4, 4),
        (.cmd35 arg crc, 4, 4), (.cmd36 arg crc, 4, 4), (.cmd38 arg crc, 4, 7), (.cmd13 arg crc, 7, 7)] →
    frameParts i = some (false, idx, arg, crc) → s.inp.sched = prompt idx w ++ r → w &&& 0xFDFFE008#32 = 0#32 →
    s.card.state = BitVec.ofNat 4 src → exec i s = .next t → t.card.state = BitVec.ofNat 4 dst) ∧
  (∀ (i : Instr) (idx : BitVec 6) (arg : Word) (crc : BitVec 7) (a : Answer) (rc : BitVec 6) (w w2 w3 w4 : Word)
      (r : List (List Ev)) (s t : State) (src dst : Nat),
    (i, src, dst) ∈ [(Instr.cmd2 arg crc, 1, 2), (.cmd9 arg crc, 3, 3), (.cmd8 arg crc, 0, 0)] →
    frameParts i = some (false, idx, arg, crc) → a ≠ .noResponse → s.inp.sched = promptly a rc w w2 w3 w4 ++ r →
    s.card.state = BitVec.ofNat 4 src → exec i s = .next t → t.card.state = BitVec.ofNat 4 dst) ∧
  (∀ (arg : Word) (crc : BitVec 7) (w : Word) (r : List (List Ev)) (s t : State),
    s.inp.sched = prompt 3#6 w ++ r → w &&& 0x0000E000#32 = 0#32 → s.card.state = 2#4 → exec (.cmd3 arg crc) s = .next t →
      t.card.state = 3#4) ∧
  (∀ (arg : Word) (crc : BitVec 7) (w : Word) (r : List (List Ev)) (s t : State), w &&& 0xFDFFE008#32 = 0#32 →
    (s.inp.sched = prompt 55#6 w ++ r → exec (.cmd55 arg crc) s = .next t →
      t.card = s.card ∧ ∃ v, t.cmdResult = some (.ok (.status v)) ∧ v.getLsbD 5 = true) ∧
    (s.inp.sched = prompt 13#6 w ++ r → exec (.cmd13 arg crc) s = .next t → t.card = s.card) ∧
    (s.inp.sched = prompt 6#6 w ++ r → exec (.acmd6 arg crc) s = .next t →
      t.card =
        { s.card with
          width :=
            if s.card.state = 4#4 ∧ arg.extractLsb' 0 2 = 2#2 then 4#3
            else if s.card.state = 4#4 ∧ arg.extractLsb' 0 2 = 0#2 then 1#3
            else s.card.width }) ∧
    (s.inp.sched = prompt 16#6 w ++ r → exec (.cmd16 arg crc) s = .next t →
      t.card =
        { s.card with blockLen := if s.card.state = 4#4 ∧ s.card.byBlock = false then arg else s.card.blockLen }) ∧
    (s.inp.sched = prompt 23#6 w ++ r → exec (.acmd23 arg crc) s = .next t →
      t.card = { s.card with preErase := (arg.extractLsb' 0 23).toNat }) ∧
    (s.inp.sched = prompt 25#6 w ++ r → exec (.cmd25 arg crc) s = .next t → t.card.preErase = 0)) ∧
  ∀ (i : Instr) (p : Plan) (ws : List Word) (w12 : Word) (r : List (List Ev)) (s : State),
    (i, p) ∈ plans s → Ready p.dir p.count p.multi s → OwnCard s → s.card.state = 4#4 → ws.length = p.opens.length →
    (∀ w ∈ w12 :: ws, w &&& 0xFDFFE008#32 = 0#32) →
    s.inp.sched =
      checkBatches p.dir s.cfg ++ answers p.opens ws ++ dataDone ++ (if p.stop then prompt 12#6 w12 else []) ++ r →
      ∃ t, exec i s = .next t ∧ t.host.result = 0#8 ∧ t.inp.sched = r ∧ t.card.state = if p.dir = .rx then 4#4 else 7#4

/-- The frame of the 23 bus commands: no engine register, no byte of host memory, and of card storage only the erase units an
ERASE (CMD38) touches and the blocks a CMD25 finds pre-erased; PEND_ERR and XFER_DONE may still be written by a late handler
(41_command_issuer R243, R271; 20_memory R108; 93 U8, U35). What an erase unit is, is log entry 8 (PRESUMED), that CMD38 acts on
the range last selected log entry 11, which blocks are pre-erased log entry 27. -/
def Obligations.BusCommandFrame : Prop :=
  ∀ (i : Instr) (app : Bool) (idx : BitVec 6) (arg : Word) (crc : BitVec 7) (s t : State),
    frameParts i = some (app, idx, arg, crc) → s.bc.dma = none → exec i s = .next t →
      t.desc = s.desc ∧ t.neg = s.neg ∧ t.seq = s.seq ∧ t.host = s.host ∧ t.log = s.log ∧ t.xfer.multi = s.xfer.multi ∧
      t.cfg = s.cfg ∧ t.bc.div = s.bc.div ∧ t.bc.width = s.bc.width ∧ t.bc.dma = none ∧
      (t.bc.mask = s.bc.mask ∨ t.bc.mask = 0#32) ∧ t.inp.inbox = s.inp.inbox ∧
      t.wire = s.wire ++ [{ seq := s.seq, app := app, idx := idx, arg := arg, kind := kindOf i }] ∧
      (∀ x, t.mem.read x = s.mem.read x) ∧
      (i ≠ .cmd38 arg crc → i ≠ .cmd25 arg crc → ∀ x, t.card.mem.read x = s.card.mem.read x) ∧
      (i = .cmd38 arg crc →
        ∀ x, x < (eraseRange s.card).1 ∨ (eraseRange s.card).1 + (eraseRange s.card).2 ≤ x →
          t.card.mem.read x = s.card.mem.read x) ∧
      (i = .cmd25 arg crc →
        ∀ x, x < cardByteAddr s.card.byBlock arg ∨ cardByteAddr s.card.byBlock arg + s.card.preErase * 512 ≤ x ∨
            s.card.mmc = true →
          t.card.mem.read x = s.card.mem.read x)

/-! ## The accessors and the status query -/

/-- The accessors complete at once, with no command and no look at the card-present input (45_status_poller R475). BLOCK_SIZE: 512
(R474, 10_state R37). CAPACITY_BLOCKS: the capacity of a published descriptor, else 0 (R473). TRANSFER_BUSY: TXACT or RXACT as
the other agents have left them when ENGINE looks (R472); a run in which BC then made a move outside its duties is refused
(60_exceptions R546). Nothing else changes. -/
def Obligations.Accessors : Prop :=
  ∀ s : State, s.host.hbusy = false →
    exec .blockSize s =
      .next { s with seq := .idle, host := { s.host with hbusy := false, result := 0#8, value := 512#32 } } ∧
    exec .capacityBlocks s =
      .next
        { s with
          seq := .idle
          host :=
            { s.host with hbusy := false, result := 0#8, value := if s.desc.valid then s.desc.capacity else 0#32 } } ∧
    ((sync s).inp.breaches = s.inp.breaches →
      exec .transferBusy s =
        .next
          { sync s with
            seq := .idle
            host :=
              { s.host with
                hbusy := false
                result := 0#8
                value := if (sync s).bc.sta.getLsbD 12 || (sync s).bc.sta.getLsbD 13 then 1#32 else 0#32 } }) ∧
    ((sync s).inp.breaches ≠ s.inp.breaches → exec .transferBusy s = .refused .dutyBroken)

/-- The card-state codes: 1 to 8 for the fields 1 to 8, 0xFF for 0 and 9 to 15 (45_status_poller R471). QUERY_STATUS completes with a
prompt answer without an error bit, no CMD55 pending (log entry 23): VALUE is the code of the state the card reports, its own (log
entry 13: PRESUMED; the field's bits, log entry 16), and one CMD13 with the RCA was sent (R470). -/
def Obligations.QueryStatusOk : Prop :=
  (∀ v : BitVec 4, (stateOf v).code = if 1 ≤ v.toNat ∧ v.toNat ≤ 8 then v.setWidth 8 else 0xFF#8) ∧
  ∀ (w : Word) (r : List (List Ev)) (s : State),
    s.host.hbusy = false → s.inp.cardPresent = true → s.desc.valid = true → s.app = false → w &&& 0xFDFFE008#32 = 0#32 →
    s.inp.sched = [] :: (prompt 13#6 w ++ r) →
      ∃ t, exec .queryStatus s = .next t ∧ t.host.result = 0#8 ∧
        t.host.value = ((stateOf s.card.state).code).setWidth 32 ∧ t.seq = .idle ∧ t.host.hbusy = false ∧
        t.wire = s.wire ++ [{ seq := .statusQuery, app := false, idx := 13#6, arg := s.desc.rca ++ 0#16, kind := .r1 }] ∧
        t.desc = s.desc ∧ t.inp.sched = r

/-- NotReady (code 31) before any command: with no card at the check, the descriptor then no longer published (44_block_transfer
R402, R460, R462; 45_status_poller R470); and with a card but no published descriptor (44 R402, R430; 45 R470). A run in which BC made
a move outside its duties meanwhile is refused instead (60_exceptions R546). -/
def Obligations.NotReadyFirst : Prop :=
  (∀ (i : Instr) (s : State),
    i ∈ [Instr.readBlock, .readBlocks, .writeBlock, .writeBlocks, .erase, .queryStatus] →
    s.host.hbusy = false → (sync s).inp.breaches = s.inp.breaches → (sync s).inp.cardPresent = false →
      exec i s =
        .next
          { sync s with
            seq := .idle
            desc := { s.desc with valid := false }
            host := { s.host with hbusy := false, result := 31#8, value := 0#32 } }) ∧
  (∀ (i : Instr) (s : State),
    i ∈ [Instr.readBlock, .readBlocks, .writeBlock, .writeBlocks, .erase, .queryStatus] →
    s.host.hbusy = false → (sync s).inp.breaches = s.inp.breaches → (sync s).inp.cardPresent = true → s.desc.valid = false →
      exec i s =
        .next { sync s with seq := .idle, host := { s.host with hbusy := false, result := 31#8, value := 0#32 } }) ∧
  ∀ (i : Instr) (s : State),
    i ∈ [Instr.readBlock, .readBlocks, .writeBlock, .writeBlocks, .erase, .queryStatus] →
    s.host.hbusy = false → (sync s).inp.breaches ≠ s.inp.breaches →
    ((sync s).inp.cardPresent = false ∨ s.desc.valid = false) → exec i s = .refused .dutyBroken

/-! ## INITIALIZE -/

/-- INITIALIZE ends in every case in which BC keeps its duties (60_exceptions R546) and no CMD55 is pending (log entry 23), with a
published descriptor exactly where its result is Ok. The descriptor is then the one its raw registers and card type give, and the card
type the one the ready OCR means: MMC exactly where CMD1 asked for it, else by OCR bit 30 and the interface probe (42_negotiation R303,
R306, R311, R313). -/
def Obligations.InitializePublishes : Prop :=
  ∀ s : State, s.host.hbusy = false → s.app = false →
    (exec .initializeCard s = .refused .dutyBroken ∧ s.inp.sched ≠ []) ∨
    ∃ t cs, exec .initializeCard s = .next t ∧ t.wire = s.wire ++ cs ∧
      (t.desc.valid = true ↔ t.host.result = 0#8) ∧ t.host.value = 0#32 ∧
      (t.desc.valid = true →
        Published t.desc ∧ t.neg.ocr.getLsbD 31 = true ∧
          t.desc.cardType =
            if cs.any (fun c => !c.app && c.idx == 1#6) then .mmc
            else if t.neg.ocr.getLsbD 30 then .highCapacity
            else if t.neg.sdv2 then .standardV2
            else .standardV1)

/-- INITIALIZE puts its commands on the bus in the fixed order of its steps, each command one of its step, whatever the other
agents do; where it succeeds no step but the bus-width step was without a command (42_negotiation R301-R310, R314). -/
def Obligations.InitializeOrder : Prop :=
  ∀ s t : State, exec .initializeCard s = .next t →
    ∃ cs, t.wire = s.wire ++ cs ∧ InOrder cs ∧
      (t.host.result = 0#8 →
        ∀ q ∈ [Seq.negReset, .negProbe, .negVoltage, .negIdent, .negRegfetch, .negSelect, .negBlklen], ∃ c ∈ cs, c.seq = q)

/-- INITIALIZE without a card: NotReady (code 31), no command, the descriptor and the working registers at their reset values
(42_negotiation R300); BC keeps its duties meanwhile (60_exceptions R546). -/
def Obligations.InitializeAbsent : Prop :=
  ∀ s : State, s.host.hbusy = false →
    let u := sync { s with desc := (State.resetWith s.cfg).desc, neg := { s.neg with sdv2 := false, ocr := 0#32 } }
    u.inp.breaches = s.inp.breaches → u.inp.cardPresent = false →
      ∃ t, exec .initializeCard s = .next t ∧ t.host.result = 31#8 ∧ t.host.value = 0#32 ∧ t.host.hbusy = false ∧
        t.seq = .idle ∧ t.desc = (State.resetWith s.cfg).desc ∧ t.neg.sdv2 = false ∧ t.neg.ocr = 0#32 ∧ t.wire = s.wire

/-- INITIALIZE of an SD card that answers every command at once: the published descriptor, the working registers, the clock and
width, and the commands. The OCR may be busy any number of times first, each attempt VOLT_POLL_DELAY_MS after the one before
(exactly so: log entry 20), as long as VOLTAGE_DEADLINE_MS has not passed at the last busy one (R303). Only CMD8 may go
unanswered, by a card before version 2; the OCR's CRC may be good or bad (42_negotiation R300-R311; 40_response_decoder R207,
R208). What the card answers of itself is its own: its CSD (20_memory R101), and its addressing mode in OCR bit 30 (log
entry 29). -/
def Obligations.InitializeSd : Prop :=
  ∀ (a0 a8 aOcr : Answer) (busy : List (Word × Word)) (w8 w55 ocr w3 w7 w55b w6 w16 : Word) (csdReg cidReg : Reg128) (c : Csd)
    (n : Word) (r : List (List Ev)) (s : State),
    s.host.hbusy = false → s.inp.cardPresent = true → s.app = false → aOcr ≠ .noResponse →
    s.inp.sched =
      [] :: (promptly a0 0#6 0#32 0#32 0#32 0#32 ++ promptly a8 8#6 w8 0#32 0#32 0#32 ++
        busy.flatMap (fun b => prompt 55#6 b.1 ++ prompt 63#6 b.2 ++ [[]]) ++ prompt 55#6 w55 ++
        promptly aOcr 63#6 ocr 0#32 0#32 0#32 ++ promptLong cidReg ++ prompt 3#6 w3 ++ promptLong csdReg ++ prompt 7#6 w7 ++
        prompt 55#6 w55b ++ prompt 6#6 w6 ++ prompt 16#6 w16 ++ r) →
    (∀ b ∈ busy, b.1 &&& 0xFDFFE008#32 = 0#32 ∧ b.2.getLsbD 31 = false) →
    (busy.length - 1) * s.cfg.voltPollDelay.toNat < max 1 s.cfg.voltageDeadline.toNat →
    (∀ w ∈ [w55, w7, w55b, w6, w16], w &&& 0xFDFFE008#32 = 0#32) → w3 &&& 0x0000E000#32 = 0#32 → ocr.getLsbD 31 = true →
    s.card.csd = csdReg → s.card.byBlock = ocr.getLsbD 30 →
    let v2 : Bool := a8 != .noResponse
    let ct := if ocr.getLsbD 30 then CardType.highCapacity else if v2 then .standardV2 else .standardV1
    parseCsd csdReg ct = .ok c → capacity c ct = .ok n →
      let rca := w3.extractLsb' 16 16
      let sent (q : Seq) (app : Bool) (idx : BitVec 6) (arg : Word) (kind : Kind) : Sent :=
        { seq := q, app := app, idx := idx, arg := arg, kind := kind }
      let attempt :=
        [sent .negVoltage false 55#6 0#32 .r1,
          sent .negVoltage true 41#6 (s.cfg.voltageWindowSd ||| if v2 then 1#32 <<< s.cfg.hcsBit else 0#32) .r3]
      ∃ t, exec .initializeCard s = .next t ∧ t.host.result = 0#8 ∧ t.host.value = 0#32 ∧ t.host.hbusy = false ∧
        t.seq = .idle ∧
        t.desc =
          { valid := true, cardType := ct, rca := rca, csdRaw := csdReg, cidRaw := cidReg, csd := c, cid := parseCid cidReg,
            capacity := n } ∧
        t.neg = { sdv2 := v2, ocr := ocr, busWidth := 4#3, clkdiv := s.cfg.transferClkdiv } ∧
        t.bc.div = s.cfg.transferClkdiv ∧ t.bc.width = 4#3 ∧ t.log = s.log ∧ t.inp.sched = r ∧
        t.wire =
          s.wire ++
            ([sent .negReset false 0#6 0#32 .rNone, sent .negProbe false 8#6 s.cfg.ifCondArg .r7] ++
              (List.replicate (busy.length + 1) attempt).flatten ++
              [sent .negIdent false 2#6 0#32 .r2, sent .negIdent false 3#6 0#32 .r6,
                sent .negRegfetch false 9#6 (rca ++ 0#16) .r2, sent .negSelect false 7#6 (rca ++ 0#16) .r1b,
                sent .negWidth false 55#6 (rca ++ 0#16) .r1, sent .negWidth true 6#6 2#32 .r1,
                sent .negBlklen false 16#6 512#32 .r1])

/-- INITIALIZE of an MMC card, recognised by two commands without an answer: CMD1 instead of ACMD41, sent again while the OCR is
busy and VOLTAGE_DEADLINE_MS has not passed (exact pauses: log entry 20); no bus-width step (42_negotiation R302, R303, R308). The
CSD the card answers with is its own (log entry 29). -/
def Obligations.InitializeMmc : Prop :=
  ∀ (a0 aOcr : Answer) (busy : List Word) (ocr w3 w7 w16 : Word) (csdReg cidReg : Reg128) (c : Csd) (n : Word)
    (r : List (List Ev)) (s : State),
    s.host.hbusy = false → s.inp.cardPresent = true → s.app = false → aOcr ≠ .noResponse →
    s.inp.sched =
      [] :: (promptly a0 0#6 0#32 0#32 0#32 0#32 ++ promptly .noResponse 0#6 0#32 0#32 0#32 0#32 ++
        promptly .noResponse 0#6 0#32 0#32 0#32 0#32 ++ busy.flatMap (fun b => prompt 63#6 b ++ [[]]) ++
        promptly aOcr 63#6 ocr 0#32 0#32 0#32 ++ promptLong cidReg ++ prompt 3#6 w3 ++ promptLong csdReg ++ prompt 7#6 w7 ++
        prompt 16#6 w16 ++ r) →
    (∀ b ∈ busy, b.getLsbD 31 = false) →
    (busy.length - 1) * s.cfg.voltPollDelay.toNat < max 1 s.cfg.voltageDeadline.toNat →
    (∀ w ∈ [w7, w16], w &&& 0xFDFFE008#32 = 0#32) → w3 &&& 0x0000E000#32 = 0#32 → ocr.getLsbD 31 = true →
    s.card.csd = csdReg →
    parseCsd csdReg .mmc = .ok c → capacity c .mmc = .ok n →
      let rca := w3.extractLsb' 16 16
      let sent (q : Seq) (idx : BitVec 6) (arg : Word) (kind : Kind) : Sent :=
        { seq := q, app := false, idx := idx, arg := arg, kind := kind }
      ∃ t, exec .initializeCard s = .next t ∧ t.host.result = 0#8 ∧ t.host.value = 0#32 ∧ t.host.hbusy = false ∧ t.seq = .idle ∧
        t.desc =
          { valid := true, cardType := .mmc, rca := rca, csdRaw := csdReg, cidRaw := cidReg, csd := c, cid := parseCid cidReg,
            capacity := n } ∧
        t.neg = { sdv2 := false, ocr := ocr, busWidth := 1#3, clkdiv := s.cfg.transferClkdiv } ∧ t.log = s.log ∧
        t.inp.sched = r ∧
        t.wire =
          s.wire ++
            ([sent .negReset 0#6 0#32 .rNone, sent .negProbe 8#6 s.cfg.ifCondArg .r7, sent .negVoltage 55#6 0#32 .r1] ++
              List.replicate (busy.length + 1) (sent .negVoltage 1#6 s.cfg.voltageWindowMmc .r3) ++
              [sent .negIdent 2#6 0#32 .r2, sent .negIdent 3#6 0#32 .r6,
                sent .negRegfetch 9#6 (rca ++ 0#16) .r2, sent .negSelect 7#6 (rca ++ 0#16) .r1b,
                sent .negBlklen 16#6 512#32 .r1])

/-- An OCR that stays busy until VOLTAGE_DEADLINE_MS has passed ends INITIALIZE with InvalidVoltageRange (code 26), after as many
attempts, of CMD55 and ACMD41 with an SD card, of CMD1 with an MMC card, without a published descriptor and without a command of a
later step (42_negotiation R303, R313). Here the deadline has passed when ENGINE looks after the last attempt, `d` ms having gone
by meanwhile, and not before; that each pause between two attempts lasts exactly VOLT_POLL_DELAY_MS is the model's choice (log
entry 20). -/
def Obligations.VoltageDeadline : Prop :=
  (∀ (a0 a8 : Answer) (busy : List (Word × Word)) (last : Word × Word) (w8 d : Word) (r : List (List Ev)) (s : State),
    s.host.hbusy = false → s.inp.cardPresent = true → s.app = false →
    s.inp.sched =
      [] :: (promptly a0 0#6 0#32 0#32 0#32 0#32 ++ promptly a8 8#6 w8 0#32 0#32 0#32 ++
        busy.flatMap (fun b => prompt 55#6 b.1 ++ prompt 63#6 b.2 ++ [[]]) ++
        prompt 55#6 last.1 ++ prompt 63#6 last.2 ++ [[.tick d]] ++ r) →
    (∀ b ∈ last :: busy, b.1 &&& 0xFDFFE008#32 = 0#32 ∧ b.2.getLsbD 31 = false) →
    (busy.length - 1) * s.cfg.voltPollDelay.toNat < max 1 s.cfg.voltageDeadline.toNat →
    max 1 s.cfg.voltageDeadline.toNat ≤ busy.length * s.cfg.voltPollDelay.toNat + d.toNat →
      let v2 : Bool := a8 != .noResponse
      let sent (q : Seq) (app : Bool) (idx : BitVec 6) (arg : Word) (kind : Kind) : Sent :=
        { seq := q, app := app, idx := idx, arg := arg, kind := kind }
      let attempt :=
        [sent .negVoltage false 55#6 0#32 .r1,
          sent .negVoltage true 41#6 (s.cfg.voltageWindowSd ||| if v2 then 1#32 <<< s.cfg.hcsBit else 0#32) .r3]
      ∃ t, exec .initializeCard s = .next t ∧ t.host.result = 26#8 ∧ t.host.value = 0#32 ∧ t.host.hbusy = false ∧
        t.seq = .idle ∧ t.desc = (State.resetWith s.cfg).desc ∧ t.neg.ocr = last.2 ∧ t.neg.sdv2 = v2 ∧ t.log = s.log ∧
        t.inp.sched = r ∧
        t.wire =
          s.wire ++
            ([sent .negReset false 0#6 0#32 .rNone, sent .negProbe false 8#6 s.cfg.ifCondArg .r7] ++
              (List.replicate (busy.length + 1) attempt).flatten)) ∧
  ∀ (a0 : Answer) (busy : List Word) (last d : Word) (r : List (List Ev)) (s : State),
    s.host.hbusy = false → s.inp.cardPresent = true → s.app = false →
    s.inp.sched =
      [] :: (promptly a0 0#6 0#32 0#32 0#32 0#32 ++ promptly .noResponse 0#6 0#32 0#32 0#32 0#32 ++
        promptly .noResponse 0#6 0#32 0#32 0#32 0#32 ++ busy.flatMap (fun b => prompt 63#6 b ++ [[]]) ++
        prompt 63#6 last ++ [[.tick d]] ++ r) →
    (∀ b ∈ last :: busy, b.getLsbD 31 = false) →
    (busy.length - 1) * s.cfg.voltPollDelay.toNat < max 1 s.cfg.voltageDeadline.toNat →
    max 1 s.cfg.voltageDeadline.toNat ≤ busy.length * s.cfg.voltPollDelay.toNat + d.toNat →
      let sent (q : Seq) (idx : BitVec 6) (arg : Word) (kind : Kind) : Sent :=
        { seq := q, app := false, idx := idx, arg := arg, kind := kind }
      ∃ t, exec .initializeCard s = .next t ∧ t.host.result = 26#8 ∧ t.host.value = 0#32 ∧ t.host.hbusy = false ∧
        t.seq = .idle ∧ t.desc = (State.resetWith s.cfg).desc ∧ t.neg.ocr = last ∧ t.neg.sdv2 = false ∧ t.log = s.log ∧
        t.inp.sched = r ∧
        t.wire =
          s.wire ++
            ([sent .negReset 0#6 0#32 .rNone, sent .negProbe 8#6 s.cfg.ifCondArg .r7, sent .negVoltage 55#6 0#32 .r1] ++
              List.replicate (busy.length + 1) (sent .negVoltage 1#6 s.cfg.voltageWindowMmc .r3))

/-- The bus-width step is not fatal. Whatever error IssueApp(6, 2, R1) ends with, the step goes on, LOG gains the failure with the
error's code, and clock, width and descriptor stay (42_negotiation R308; 60_exceptions R551). So an INITIALIZE of a card that answers
at once and fails the prefix or ACMD6 in any way (no answer, a bad CRC, another index, any error bit) still succeeds, with width 1. -/
def Obligations.WidthFailureLogged : Prop :=
  (∀ (s : State) (e : TransferError), s.desc.cardType ≠ .mmc → (issueApp 6#6 2#32 .r1 (setSeq .negWidth s)).2 = .err e →
    let r := negWidth s
    r.2 = .ok () ∧ r.1.log = s.log ++ [.widthUpgradeFailed e.code] ∧ r.1.neg = s.neg ∧ r.1.bc.width = s.bc.width ∧
      r.1.bc.div = s.bc.div ∧ r.1.desc = s.desc) ∧
  ∀ (a0 a8 aOcr : Answer) (w8 w55 ocr w3 w7 w16 : Word) (csdReg cidReg : Reg128) (c : Csd) (n : Word)
    (upgrade : List (List Ev)) (e : TransferError) (r : List (List Ev)) (s : State),
    s.host.hbusy = false → s.inp.cardPresent = true → s.app = false → aOcr ≠ .noResponse →
    s.inp.sched =
      [] :: (promptly a0 0#6 0#32 0#32 0#32 0#32 ++ promptly a8 8#6 w8 0#32 0#32 0#32 ++ prompt 55#6 w55 ++
        promptly aOcr 63#6 ocr 0#32 0#32 0#32 ++ promptLong cidReg ++ prompt 3#6 w3 ++ promptLong csdReg ++ prompt 7#6 w7 ++
        upgrade ++ prompt 16#6 w16 ++ r) →
    ((∃ a rc w, upgrade = promptly a rc w 0#32 0#32 0#32 ∧ AnswerFails .r1 55#6 a rc w e) ∨
      ∃ w55b a rc w, upgrade = prompt 55#6 w55b ++ promptly a rc w 0#32 0#32 0#32 ∧ w55b &&& 0xFDFFE008#32 = 0#32 ∧
        AnswerFails .r1 6#6 a rc w e) →
    (∀ w ∈ [w55, w7, w16], w &&& 0xFDFFE008#32 = 0#32) → w3 &&& 0x0000E000#32 = 0#32 → ocr.getLsbD 31 = true →
    s.card.csd = csdReg → s.card.byBlock = ocr.getLsbD 30 →
    let v2 : Bool := a8 != .noResponse
    let ct := if ocr.getLsbD 30 then CardType.highCapacity else if v2 then .standardV2 else .standardV1
    parseCsd csdReg ct = .ok c → capacity c ct = .ok n →
      ∃ t, exec .initializeCard s = .next t ∧ t.host.result = 0#8 ∧ t.host.hbusy = false ∧ t.seq = .idle ∧
        t.desc =
          { valid := true, cardType := ct, rca := w3.extractLsb' 16 16, csdRaw := csdReg, cidRaw := cidReg, csd := c,
            cid := parseCid cidReg, capacity := n } ∧
        t.neg = { sdv2 := v2, ocr := ocr, busWidth := 1#3, clkdiv := s.cfg.transferClkdiv } ∧ t.bc.width = 1#3 ∧
        t.log = s.log ++ [.widthUpgradeFailed e.code] ∧ t.inp.sched = r

/-- The frame of INITIALIZE: no byte of host memory or card storage, none of the operands, and LOG only grows
(42_negotiation R310; 10_state R46, R47). -/
def Obligations.InitializeFrame : Prop :=
  ∀ s t : State, s.bc.dma = none → exec .initializeCard s = .next t →
    t.host.op = s.host.op ∧ t.host.arg0 = s.host.arg0 ∧ t.host.arg1 = s.host.arg1 ∧ t.host.buf = s.host.buf ∧
      t.host.buflen = s.host.buflen ∧ t.cfg = s.cfg ∧ (∃ l, t.log = s.log ++ l) ∧ t.bc.dma = none ∧
      (s.xfer.multi = false → t.xfer.multi = false) ∧ (s.bc.mask = 0#32 → t.bc.mask = 0#32) ∧ t.cmdResult = s.cmdResult ∧
      (∀ x, t.mem.read x = s.mem.read x) ∧ ∀ x, t.card.mem.read x = s.card.mem.read x

/-! ## Transfers -/

/-- READ_BLOCK completes: one CMD17, the block's 512 bytes in the buffer in order, Ok(1), the transfer cells clear
(44_block_transfer R410, R420-R423; 20_memory R95); the run is then over, and what is observed of it is the result, the descriptor and
the buffer (70_reset_and_hazards R603). The block is the one in ARG0 where the card is of the mode the descriptor names; a card put in
the slot since acts at the byte address it takes the wire address for (70 R617; log entry 29). The bytes are the card's own where no
cache maintenance the platform needs was skipped (70 R616, 93 U13) and the card's block length is 512 (41_command_issuer R259; log
entry 31); else they are free values, and the operation completes all the same. -/
def Obligations.ReadBlockOk : Prop :=
  ∀ (w : Word) (r : List (List Ev)) (s : State),
    Ready .rx 1 false s → w &&& 0xFDFFE008#32 = 0#32 →
    s.inp.sched = checkBatches .rx s.cfg ++ prompt 17#6 w ++ dataDone ++ r →
      (OwnCard s → NoWrap s → openedAt s = 512 * s.host.arg0.toNat) ∧
      ∃ t, exec .readBlock s = .next t ∧
        Done 1 s t
          [{ seq := .xferCmd, app := false, idx := 17#6, arg := wireAddr s.desc s.host.arg0, kind := .r1 }] r ∧
        (realBytes s = true → ∀ k, k < 512 → t.mem.read (s.host.buf + k) = s.card.mem.read (openedAt s + k)) ∧
        t.card.mem = s.card.mem ∧
        (realBytes s = true → s.host.op = 2#32 →
          observation t =
            { result := 0#8, value := 1#32, desc := s.desc, buffer := s.card.mem.readRange (openedAt s) 512 })

/-- READ_BLOCKS completes: CMD18, byte `k` of block `addr + j` at BUF + 512 j + k, CMD12, Ok(count) (44_block_transfer R411,
R420-R423; 20_memory R95); the run is then over, and what is observed of it is the result, the descriptor and the buffer
(70_reset_and_hazards R603). Where the blocks begin, and when the bytes are the card's own, is as for READ_BLOCK (70 R616, R617; log
entries 29 and 31). -/
def Obligations.ReadBlocksOk : Prop :=
  ∀ (w w12 : Word) (r : List (List Ev)) (s : State),
    Ready .rx s.host.arg1.toNat true s → w &&& 0xFDFFE008#32 = 0#32 → w12 &&& 0xFDFFE008#32 = 0#32 →
    s.inp.sched = checkBatches .rx s.cfg ++ prompt 18#6 w ++ dataDone ++ prompt 12#6 w12 ++ r →
      (OwnCard s → NoWrap s → openedAt s = 512 * s.host.arg0.toNat) ∧
      ∃ t, exec .readBlocks s = .next t ∧
        Done s.host.arg1.toNat s t
          [{ seq := .xferCmd, app := false, idx := 18#6, arg := wireAddr s.desc s.host.arg0, kind := .r1 },
            { seq := .xferStop, app := false, idx := 12#6, arg := 0#32, kind := .r1b }] r ∧
        (realBytes s = true → ∀ j k, j < s.host.arg1.toNat → k < 512 →
          t.mem.read (s.host.buf + 512 * j + k) = s.card.mem.read (openedAt s + 512 * j + k)) ∧
        t.card.mem = s.card.mem ∧
        (realBytes s = true → s.host.op = 3#32 →
          observation t =
            { result := 0#8, value := s.host.arg1, desc := s.desc,
              buffer := s.card.mem.readRange (openedAt s) (512 * s.host.arg1.toNat) })

/-- WRITE_BLOCK completes: one CMD24, the buffer's 512 bytes in the block in order, no CMD12, Ok(1) (44_block_transfer R412,
R420-R423; 20_memory R95). Where the block lies, and when the bytes are the buffer's own, is as for READ_BLOCK (70 R616, R617; log
entries 29 and 31). -/
def Obligations.WriteBlockOk : Prop :=
  ∀ (w : Word) (r : List (List Ev)) (s : State),
    Ready .tx 1 false s → w &&& 0xFDFFE008#32 = 0#32 →
    s.inp.sched = checkBatches .tx s.cfg ++ prompt 24#6 w ++ dataDone ++ r →
      (OwnCard s → NoWrap s → openedAt s = 512 * s.host.arg0.toNat) ∧
      ∃ t, exec .writeBlock s = .next t ∧
        Done 1 s t
          [{ seq := .xferCmd, app := false, idx := 24#6, arg := wireAddr s.desc s.host.arg0, kind := .r1 }] r ∧
        (realBytes s = true → ∀ k, k < 512 → t.card.mem.read (openedAt s + k) = s.mem.read (s.host.buf + k)) ∧
        t.mem = s.mem

/-- WRITE_BLOCKS on an SD card completes: CMD55 and ACMD23 with the count, CMD25, the data, CMD12, Ok(count)
(44_block_transfer R413, R420-R423; 20_memory R95). The blocks the card pre-erases are those that are then written (41_command_issuer
R271; log entry 27). Where they begin, and when the bytes are the buffer's own, is as for READ_BLOCK (70 R616, R617; log entries 29 and
31). -/
def Obligations.WriteBlocksSdOk : Prop :=
  ∀ (w55 w23 w25 w12 : Word) (r : List (List Ev)) (s : State),
    Ready .tx s.host.arg1.toNat true s → s.desc.cardType ≠ .mmc →
    (∀ w ∈ [w55, w23, w25, w12], w &&& 0xFDFFE008#32 = 0#32) →
    s.inp.sched =
      checkBatches .tx s.cfg ++ prompt 55#6 w55 ++ prompt 23#6 w23 ++ prompt 25#6 w25 ++ dataDone ++ prompt 12#6 w12 ++ r →
      (OwnCard s → NoWrap s → openedAt s = 512 * s.host.arg0.toNat) ∧
      ∃ t, exec .writeBlocks s = .next t ∧
        Done s.host.arg1.toNat s t
          [{ seq := .xferCmd, app := false, idx := 55#6, arg := s.desc.rca ++ 0#16, kind := .r1 },
            { seq := .xferCmd, app := true, idx := 23#6, arg := s.host.arg1, kind := .r1 },
            { seq := .xferCmd, app := false, idx := 25#6, arg := wireAddr s.desc s.host.arg0, kind := .r1 },
            { seq := .xferStop, app := false, idx := 12#6, arg := 0#32, kind := .r1b }] r ∧
        (realBytes s = true → ∀ j k, j < s.host.arg1.toNat → k < 512 →
          t.card.mem.read (openedAt s + 512 * j + k) = s.mem.read (s.host.buf + 512 * j + k)) ∧
        t.mem = s.mem

/-- WRITE_BLOCKS on an MMC card completes with CMD25 alone: neither ACMD23 nor CMD12 (44_block_transfer R413, R422). Where the blocks
begin, and when the bytes are the buffer's own, is as for READ_BLOCK (70 R616, R617; log entries 29 and 31). -/
def Obligations.WriteBlocksMmcOk : Prop :=
  ∀ (w : Word) (r : List (List Ev)) (s : State),
    Ready .tx s.host.arg1.toNat true s → s.desc.cardType = .mmc → w &&& 0xFDFFE008#32 = 0#32 →
    s.inp.sched = checkBatches .tx s.cfg ++ prompt 25#6 w ++ dataDone ++ r →
      (OwnCard s → NoWrap s → openedAt s = 512 * s.host.arg0.toNat) ∧
      ∃ t, exec .writeBlocks s = .next t ∧
        Done s.host.arg1.toNat s t
          [{ seq := .xferCmd, app := false, idx := 25#6, arg := wireAddr s.desc s.host.arg0, kind := .r1 }] r ∧
        (realBytes s = true → ∀ j k, j < s.host.arg1.toNat → k < 512 →
          t.card.mem.read (openedAt s + 512 * j + k) = s.mem.read (s.host.buf + 512 * j + k)) ∧
        t.mem = s.mem

/-- What was written is what is read: a block that WRITE_BLOCK wrote is read back byte for byte by a READ_BLOCK of the same block
on any later machine that holds the same card, its storage and the descriptor (20_memory R92, an assumption on the CARD agent
which this model builds in: log entry 10; also past the card's physical end: log entry 32), where both transfers move the real
bytes (70 R616; log entry 31). -/
def Obligations.WriteThenRead : Prop :=
  ∀ (w w' : Word) (r r' : List (List Ev)) (s t s' : State),
    Ready .tx 1 false s → realBytes s = true → w &&& 0xFDFFE008#32 = 0#32 →
    s.inp.sched = checkBatches .tx s.cfg ++ prompt 24#6 w ++ dataDone ++ r →
    exec .writeBlock s = .next t →
    Ready .rx 1 false s' → realBytes s' = true → s'.card.mem = t.card.mem → s'.card.byBlock = t.card.byBlock → s'.desc = t.desc →
    s'.host.arg0 = t.host.arg0 →
    w' &&& 0xFDFFE008#32 = 0#32 → s'.inp.sched = checkBatches .rx s'.cfg ++ prompt 17#6 w' ++ dataDone ++ r' →
      ∃ t', exec .readBlock s' = .next t' ∧ t.host.result = 0#8 ∧ t'.host.result = 0#8 ∧
        ∀ k, k < 512 → t'.mem.read (s'.host.buf + k) = s.mem.read (s.host.buf + k)

/-- A transfer whose count, buffer or range breaks a check ends with InvalidParameter (code 29): no command, no DMA, nothing
else written (44_block_transfer R401, R402; 20_memory R98). The write-protect input is no matter here, but to a write with
ENGINE_CHECKS_WP; and with ENGINE_CHECKS_WP and the write-protect input set, a write ends
with WriteProtected (code 32), before the checks of its arguments (44 R402; 60_exceptions R545). -/
def Obligations.ChecksFail : Prop :=
  (∀ (i : Instr) (dir : Dir) (multi : Bool) (s : State),
    (i, dir, multi) ∈
      [(Instr.readBlock, Dir.rx, false), (.readBlocks, .rx, true), (.writeBlock, .tx, false), (.writeBlocks, .tx, true)] →
    s.host.hbusy = false → s.inp.cardPresent = true → s.desc.valid = true →
    (dir = .tx → s.cfg.engineChecksWp = true → s.inp.writeProtect = false) → s.inp.sched = checkBatches dir s.cfg →
    let count := if multi then s.host.arg1.toNat else 1
    ((multi = true ∧ (count < 2 ∨ max 2 s.cfg.maxCount.toNat < count)) ∨ s.host.buf % 2 ^ s.cfg.bufAlignLog2 ≠ 0 ∨
        s.host.buflen.toNat < count * 512 ∨
        (s.cfg.rangeCheck = true ∧ s.desc.capacity.toNat < s.host.arg0.toNat + count)) →
      exec i s =
        .next
          { s with
            seq := .idle
            host := { s.host with hbusy := false, result := 29#8, value := 0#32 }
            inp := { s.inp with sched := [] } }) ∧
  ∀ (i : Instr) (s : State), i ∈ [Instr.writeBlock, .writeBlocks] →
    s.host.hbusy = false → s.inp.cardPresent = true → s.desc.valid = true → s.cfg.engineChecksWp = true →
    s.inp.writeProtect = true → s.inp.sched = [] →
      exec i s = .next { s with seq := .idle, host := { s.host with hbusy := false, result := 32#8, value := 0#32 } }

/-- A command error ends an operation before the next command and before DMA is touched, with the error's own code: no answer, a bad
CRC, another index, an error bit, or silence until the deadline. It holds for each command of the four transfers (a failed CMD55 or
ACMD23 means that CMD25 is not sent) and of ERASE, for each status query of ERASE that follows any number of busy ones within the
budget, and for QUERY_STATUS, where an error bit is the result and not a state. A transfer then leaves host memory and the cells alone
(44_block_transfer R410-R413, R424, R430, R431; 45_status_poller R470; 60_exceptions R502). INITIALIZE ends the same way, with nothing
published, for each command of each step but the probe and the bus-width step, after any number of busy OCRs (42_negotiation R313; the
first CMD55 without an answer means an MMC card where CMD8 had none either, R303; exact pauses: log entry 20; the card's own CSD and
mode: log entry 29), and where the CSD it fetched cannot be parsed or its capacity does not fit (R306; 43_register_parser R351,
R361). -/
def Obligations.CommandErrorAborts : Prop :=
  (∀ (i : Instr) (p : Plan) (ws : List Word) (c : Sent) (fails r : List (List Ev)) (e : TransferError) (s : State),
    (i, p) ∈ plans s → Ready p.dir p.count p.multi s → p.opens[ws.length]? = some c →
    (∀ w ∈ ws, w &&& 0xFDFFE008#32 = 0#32) → CommandFails c.kind c.idx fails r e →
    s.inp.sched = checkBatches p.dir s.cfg ++ answers p.opens ws ++ fails ++ r →
      ∃ t, exec i s = .next t ∧ t.host.result = e.code ∧ t.host.value = 0#32 ∧ t.seq = .idle ∧ t.host.hbusy = false ∧
        t.inp.sched = r ∧ t.xfer = s.xfer ∧ t.wire = s.wire ++ p.opens.take (ws.length + 1) ∧ t.mem = s.mem) ∧
  (∀ (fails r : List (List Ev)) (e : TransferError) (s : State),
    s.host.hbusy = false → s.inp.cardPresent = true → s.desc.valid = true → s.app = false → CommandFails .r1 13#6 fails r e →
    s.inp.sched = [] :: (fails ++ r) →
      ∃ t, exec .queryStatus s = .next t ∧ t.host.result = e.code ∧ t.host.value = 0#32 ∧ t.seq = .idle ∧
        t.host.hbusy = false ∧ t.inp.sched = r ∧ t.wire = s.wire ++ [querySent .statusQuery s]) ∧
  (∀ (ws : List Word) (fails r : List (List Ev)) (e : TransferError) (s : State),
    s.host.hbusy = false → s.inp.cardPresent = true → s.desc.valid = true → s.desc.csd.ccc.getLsbD 5 = true →
    s.host.arg0.toNat ≤ s.host.arg1.toNat → (s.cfg.rangeCheck = true → s.host.arg1.toNat < s.desc.capacity.toNat) →
    s.app = false →
    (∀ w ∈ ws, w &&& 0xFDFFE008#32 = 0#32) →
      (∀ c, (eraseSent s)[ws.length]? = some c → CommandFails c.kind c.idx fails r e →
        s.inp.sched = [] :: (answers (eraseSent s) ws ++ fails ++ r) →
          ∃ t, exec .erase s = .next t ∧ t.host.result = e.code ∧ t.host.value = 0#32 ∧ t.seq = .idle ∧ t.host.hbusy = false ∧
            t.inp.sched = r ∧ t.wire = s.wire ++ (eraseSent s).take (ws.length + 1)) ∧
      ∀ (busy : List (BitVec 4 × Word)), ws.length = 3 → busy.length < max 1 s.cfg.erasePollBudget →
        (∀ b ∈ busy, (b.1 = 6#4 ∨ b.1 = 7#4) ∧ b.2 &&& 0xFDFFE008#32 = 0#32) → CommandFails .r1 13#6 fails r e →
        s.inp.sched = [] :: (answers (eraseSent s) ws ++ busy.flatMap (fun b => polled b.1 b.2) ++ fails ++ r) →
          ∃ t, exec .erase s = .next t ∧ t.host.result = e.code ∧ t.host.value = 0#32 ∧ t.seq = .idle ∧ t.host.hbusy = false ∧
            t.inp.sched = r ∧
            t.wire = s.wire ++ eraseSent s ++ List.replicate (busy.length + 1) (querySent .erasePoll s)) ∧
  (∀ (x : NegAnswers) (pre post : List (Sent × List (List Ev))) (c : Sent) (b fails r : List (List Ev)) (e : TransferError)
      (s : State),
    s.host.hbusy = false → s.inp.cardPresent = true → s.app = false → NegOk x s → negScript x s = pre ++ (c, b) :: post →
    c.seq ≠ .negProbe → c.seq ≠ .negWidth →
    (c.seq = .negSelect ∨ c.seq = .negBlklen → ∃ d n, parseCsd x.csd x.cardType = .ok d ∧ capacity d x.cardType = .ok n) →
    (pre.length = 2 → x.v2 = true ∨ e ≠ .cmdResponseTimeout) → CommandFails c.kind c.idx fails r e →
    s.inp.sched = [] :: (pre.flatMap (·.2) ++ fails ++ r) →
      ∃ t, exec .initializeCard s = .next t ∧ t.host.result = e.code ∧ t.host.value = 0#32 ∧ t.seq = .idle ∧
        t.host.hbusy = false ∧ t.desc.valid = false ∧ t.log = s.log ∧ t.inp.sched = r ∧
        t.wire = s.wire ++ pre.map (·.1) ++ [c]) ∧
  ∀ (x : NegAnswers) (pre post : List (Sent × List (List Ev))) (c : Sent) (b r : List (List Ev)) (e : TransferError) (s : State),
    s.host.hbusy = false → s.inp.cardPresent = true → s.app = false → NegOk x s → negScript x s = pre ++ (c, b) :: post →
    c.seq = .negRegfetch →
    (parseCsd x.csd x.cardType = .err e ∨ ∃ d, parseCsd x.csd x.cardType = .ok d ∧ capacity d x.cardType = .err e) →
    s.inp.sched = [] :: (pre.flatMap (·.2) ++ b ++ r) →
      ∃ t, exec .initializeCard s = .next t ∧ t.host.result = e.code ∧ t.host.value = 0#32 ∧ t.seq = .idle ∧
        t.host.hbusy = false ∧ t.desc.valid = false ∧ t.log = s.log ∧ t.inp.sched = r ∧
        t.wire = s.wire ++ pre.map (·.1) ++ [c]

/-- A data phase that nothing ends, of each of the four transfers: DataTimeout (code 4); READ_BLOCKS, and WRITE_BLOCKS on an SD card,
still send their CMD12, whose own timeout does not count, WRITE_BLOCKS on MMC sends none; DMA is disarmed, the interrupt masked, the
static flags and the cells clear (44_block_transfer R420-R422, R461). -/
def Obligations.DataTimeoutCleansUp : Prop :=
  ∀ (i : Instr) (p : Plan) (ws : List Word) (s : State),
    (i, p) ∈ plans s → Ready p.dir p.count p.multi s → ws.length = p.opens.length → (∀ w ∈ ws, w &&& 0xFDFFE008#32 = 0#32) →
    s.inp.sched = checkBatches p.dir s.cfg ++ answers p.opens ws →
      ∃ t, exec i s = .next t ∧ t.host.result = 4#8 ∧ t.host.value = 0#32 ∧
        t.xfer = { pendErr := none, done := false, multi := false } ∧ t.bc.dma = none ∧ t.bc.mask = 0#32 ∧
        t.bc.sta.extractLsb' 0 11 = 0#11 ∧ t.wire = s.wire ++ p.opens ++ if p.stop then [stopSent] else []

/-- The order of the errors of a data phase, for each of the four transfers. An error the handler latched wins over everything after
it: it is the result whether the CMD12 that follows is answered, in whatever way, or not. Where the handler latched none, every byte
having moved, a CMD12 that fails is the result (44_block_transfer R421, R423; 60_exceptions R513, R520). CMD12 is sent by READ_BLOCKS
and by WRITE_BLOCKS on an SD card (44 R422). -/
def Obligations.LatchedErrorWins : Prop :=
  (∀ (i : Instr) (p : Plan) (ws : List Word) (flags : Word) (e : TransferError) (after r : List (List Ev)) (s : State),
    (i, p) ∈ plans s → Ready p.dir p.count p.multi s → ws.length = p.opens.length → (∀ w ∈ ws, w &&& 0xFDFFE008#32 = 0#32) →
    (flags, e) ∈
      [(0x00000002#32, TransferError.dataCrcFail), (0x00000008#32, .dataTimeout), (0x00000010#32, .txUnderrun),
        (0x00000020#32, .rxOverrun), (0x00000200#32, .startBitError), (0x00000102#32, .dataCrcFail),
        (0x0000022A#32, .dataCrcFail), (0x00000228#32, .dataTimeout), (0x00000220#32, .rxOverrun)] →
    ((p.stop = true ∧ ∃ a rc w, after = promptly a rc w 0#32 0#32 0#32) ∨ (after = [] ∧ (p.stop = true → r = []))) →
    s.inp.sched = checkBatches p.dir s.cfg ++ answers p.opens ws ++ [[.data flags, .isr]] ++ after ++ r →
      ∃ t, exec i s = .next t ∧ t.host.result = e.code ∧ t.host.value = 0#32 ∧
        t.xfer = { pendErr := none, done := false, multi := false } ∧ t.bc.dma = none ∧ t.bc.mask = 0#32 ∧ t.inp.sched = r ∧
        t.wire = s.wire ++ p.opens ++ if p.stop then [stopSent] else []) ∧
  ∀ (i : Instr) (p : Plan) (ws : List Word) (fails r : List (List Ev)) (e : TransferError) (s : State),
    (i, p) ∈ plans s → Ready p.dir p.count p.multi s → p.stop = true → ws.length = p.opens.length →
    (∀ w ∈ ws, w &&& 0xFDFFE008#32 = 0#32) → CommandFails .r1b 12#6 fails r e →
    s.inp.sched = checkBatches p.dir s.cfg ++ answers p.opens ws ++ dataDone ++ fails ++ r →
      ∃ t, exec i s = .next t ∧ t.host.result = e.code ∧ t.host.value = 0#32 ∧
        t.xfer = { pendErr := none, done := false, multi := false } ∧ t.bc.dma = none ∧ t.bc.mask = 0#32 ∧
        t.bc.sta.extractLsb' 0 11 = 0#11 ∧ t.inp.sched = r ∧ t.wire = s.wire ++ p.opens ++ [stopSent]

/-- The frame of READ_BLOCK and READ_BLOCKS, whatever the other agents do: of host memory the buffer alone changes, of card
storage nothing, and no register but those `KeptByOp` leaves out (44_block_transfer R402, R410, R411; 20_memory R93). -/
def Obligations.ReadFrame : Prop :=
  ∀ (i : Instr) (count : Nat) (s t : State),
    (i, count) ∈ [(Instr.readBlock, 1), (.readBlocks, s.host.arg1.toNat)] →
    s.bc.dma = none → exec i s = .next t →
      KeptByOp s t ∧ (∀ x, x < s.host.buf ∨ s.host.buf + count * 512 ≤ x → t.mem.read x = s.mem.read x) ∧
        ∀ x, t.card.mem.read x = s.card.mem.read x

/-- The frame of WRITE_BLOCK and WRITE_BLOCKS, whatever the other agents do: host memory is unchanged; of card storage only the
blocks from the byte address the card opens the command at, and, after an error and then alone, the blocks named and every block
the opened ones touch (44_block_transfer R400, R402, R412, R413; 20_memory R93; 93 U6, U7, log entry 22; the pre-erased blocks of
41_command_issuer R271 are among them, log entry 27, but for those that an SD card in the place of an MMC card still holds from
before: `touched`). That the card takes this address from the command as it reaches it is log entry 11 (DEDUCED). The data command
always reaches the card as a standard command: right after a lone CMD55 no command of the operation is sent (30_encoding R130,
R140; log entry 23). -/
def Obligations.WriteFrame : Prop :=
  ∀ (i : Instr) (count : Nat) (s t : State),
    (i, count) ∈ [(Instr.writeBlock, 1), (.writeBlocks, s.host.arg1.toNat)] →
    s.bc.dma = none → exec i s = .next t →
      KeptByOp s t ∧ (∀ x, t.mem.read x = s.mem.read x) ∧
        ∀ x, (x < openedAt s ∨ openedAt s + touched i count s * 512 ≤ x) →
          (t.host.result ≠ 0#8 → ¬ leftOpen count s x) → t.card.mem.read x = s.card.mem.read x

/-- The frame of QUERY_STATUS and of the three accessors: no byte of host memory or card storage (45_status_poller R470-R475). -/
def Obligations.QueryFrame : Prop :=
  ∀ (i : Instr) (s t : State), i ∈ [Instr.queryStatus, .transferBusy, .capacityBlocks, .blockSize] →
    s.bc.dma = none → exec i s = .next t →
      KeptByOp s t ∧ (∀ x, t.mem.read x = s.mem.read x) ∧ ∀ x, t.card.mem.read x = s.card.mem.read x

/-! ## ERASE -/

/-- ERASE completes: the two selecting commands for the card type with the wire addresses of the first and last block, CMD38, and
one CMD13 of a card that is no longer programming (44_block_transfer R430, R431, R400). The query reports the card's own state (log
entry 13: PRESUMED). -/
def Obligations.EraseOk : Prop :=
  ∀ (w0 w1 w38 w13 : Word) (st : BitVec 4) (r : List (List Ev)) (s : State),
    s.host.hbusy = false → s.inp.cardPresent = true → s.desc.valid = true → s.desc.csd.ccc.getLsbD 5 = true →
    s.host.arg0.toNat ≤ s.host.arg1.toNat → (s.cfg.rangeCheck = true → s.host.arg1.toNat < s.desc.capacity.toNat) →
    s.app = false →
    (∀ w ∈ [w0, w1, w38, w13], w &&& 0xFDFFE008#32 = 0#32) → st ≠ 6#4 → st ≠ 7#4 →
    let i0 := if s.desc.cardType = .mmc then 35#6 else 32#6
    let i1 := if s.desc.cardType = .mmc then 36#6 else 33#6
    s.inp.sched = [] :: (prompt i0 w0 ++ prompt i1 w1 ++ prompt 38#6 w38 ++ polled st w13 ++ r) →
      ∃ t, exec .erase s = .next t ∧ t.host.result = 0#8 ∧ t.host.value = 0#32 ∧ t.seq = .idle ∧ t.host.hbusy = false ∧
        t.inp.sched = r ∧
        t.wire =
          s.wire ++
            [{ seq := .eraseCmd, app := false, idx := i0, arg := wireAddr s.desc s.host.arg0, kind := .r1 },
              { seq := .eraseCmd, app := false, idx := i1, arg := wireAddr s.desc s.host.arg1, kind := .r1 },
              { seq := .eraseCmd, app := false, idx := 38#6, arg := 0#32, kind := .r1b },
              { seq := .erasePoll, app := false, idx := 13#6, arg := s.desc.rca ++ 0#16, kind := .r1 }]

/-- The checks of ERASE, in their order and before any command: UnsupportedFeature (27) without command class 5, then
InvalidParameter (29) for a start above the end or an end at or above the capacity (44_block_transfer R430). -/
def Obligations.EraseChecks : Prop :=
  ∀ (s : State),
    s.host.hbusy = false → s.inp.cardPresent = true → s.desc.valid = true → s.inp.sched = [] →
    (s.desc.csd.ccc.getLsbD 5 = false ∨ s.host.arg1.toNat < s.host.arg0.toNat ∨
      (s.cfg.rangeCheck = true ∧ s.desc.capacity.toNat ≤ s.host.arg1.toNat)) →
      exec .erase s =
        .next
          { s with
            seq := .idle
            host :=
              { s.host with
                hbusy := false
                result := if s.desc.csd.ccc.getLsbD 5 = false then 27#8 else 29#8
                value := 0#32 } }

/-- A card that stays in Programming or Receiving: exactly ERASE_POLL_BUDGET status queries, then BusyTimeout, of the polling loop
and of ERASE as a whole, which then ends with code 30 and VALUE 0 and sends nothing more (44_block_transfer R430, R431;
60_exceptions R500). That a query reports the card's own state and does not change it is log entry 13 (PRESUMED). -/
def Obligations.EraseBudget : Prop :=
  (∀ (n : Nat) (w : Word) (s : State), n = max 1 s.cfg.erasePollBudget →
    s.card.state = 6#4 ∨ s.card.state = 7#4 → w &&& 0xFDFFE008#32 = 0#32 → s.inp.sched = (List.replicate n (prompt 13#6 w)).flatten →
      let r := erasePoll (erasePollBudget s.cfg) s
      r.2 = .err .busyTimeout ∧ r.1.wire.length = s.wire.length + n ∧ r.1.inp.sched = []) ∧
  ∀ (ws : List Word) (busy : List (BitVec 4 × Word)) (r : List (List Ev)) (s : State),
    s.host.hbusy = false → s.inp.cardPresent = true → s.desc.valid = true → s.desc.csd.ccc.getLsbD 5 = true →
    s.host.arg0.toNat ≤ s.host.arg1.toNat → (s.cfg.rangeCheck = true → s.host.arg1.toNat < s.desc.capacity.toNat) →
    s.app = false → ws.length = 3 → (∀ w ∈ ws, w &&& 0xFDFFE008#32 = 0#32) → busy.length = max 1 s.cfg.erasePollBudget →
    (∀ b ∈ busy, (b.1 = 6#4 ∨ b.1 = 7#4) ∧ b.2 &&& 0xFDFFE008#32 = 0#32) →
    s.inp.sched = [] :: (answers (eraseSent s) ws ++ busy.flatMap (fun b => polled b.1 b.2) ++ r) →
      ∃ t, exec .erase s = .next t ∧ t.host.result = 30#8 ∧ t.host.value = 0#32 ∧ t.seq = .idle ∧ t.host.hbusy = false ∧
        t.desc = s.desc ∧ t.inp.sched = r ∧
        t.wire = s.wire ++ eraseSent s ++ List.replicate busy.length (querySent .erasePoll s)

/-- The frame of ERASE, whatever the other agents do: host memory is unchanged, and card storage outside the erase units the
selected range touches, from the first byte of the block in ARG0 to the last byte of the block in ARG1 (44_block_transfer R400, R430;
93 U8, U35; what an erase unit is, and the span where a byte address wraps, is log entry 8; that the card takes the ends of the range
from the selecting commands as they reach it, log entry 11). Its selecting commands always reach the card as standard commands: right
after a lone CMD55 no command of it is sent (30_encoding R130, R140; log entry 23). -/
def Obligations.EraseFrame : Prop :=
  ∀ (s t : State), s.bc.dma = none → exec .erase s = .next t →
    KeptByOp s t ∧ (∀ x, t.mem.read x = s.mem.read x) ∧ ∀ x, ¬ erasedBy s x → t.card.mem.read x = s.card.mem.read x
end

