-- ==== Sys2Proof/Laws/Memory.lean ====
section
/-! SUPPORT. Memory: a read after a write, and the canonical form every operation keeps. -/

namespace Sys2Proof.Machine

open Sys2Proof

@[simp] theorem Memory.read_nil (x : Nat) : Memory.read [] x = blankByte := rfl

theorem Memory.read_of_not_key {l : Memory} {x : Nat} (h : ∀ c ∈ l, c.1 ≠ x) : l.read x = blankByte := by
  induction l with
  | nil => rfl
  | cons c l ih =>
    have hc : c.1 ≠ x := h c (by simp)
    simp [Memory.read, hc, ih fun d hd => h d (by simp [hd])]

theorem Memory.read_append_of_not_key {l m : Memory} {x : Nat} (h : ∀ c ∈ l, c.1 ≠ x) :
    Memory.read (l ++ m) x = m.read x := by
  induction l with
  | nil => rfl
  | cons c l ih =>
    have hc : c.1 ≠ x := h c (by simp)
    simp [Memory.read, hc, ih fun d hd => h d (by simp [hd])]

theorem Memory.read_append_left {l m : Memory} {x : Nat} (h : ∀ c ∈ m, c.1 ≠ x) :
    Memory.read (l ++ m) x = l.read x := by
  induction l with
  | nil => simpa using Memory.read_of_not_key h
  | cons c l ih =>
    by_cases hc : c.1 = x
    · simp [Memory.read, hc]
    · simp [Memory.read, hc, ih]

theorem Memory.read_filter {m : Memory} {p : Nat → Bool} {x : Nat} (h : p x = true) :
    Memory.read (m.filter fun c => p c.1) x = m.read x := by
  induction m with
  | nil => rfl
  | cons c m ih =>
    by_cases hc : c.1 = x
    · simp [Memory.read, hc, h]
    · by_cases hp : p c.1
      · simp [Memory.read, hc, hp, ih]
      · simp [Memory.read, hc, hp, ih]

theorem cellsOf_key {a : Nat} {bs : List Byte} {c : Host.Cell} (h : c ∈ cellsOf a bs) :
    a ≤ c.1 ∧ c.1 < a + bs.length ∧ c.2 ≠ blankByte := by
  induction bs generalizing a with
  | nil => simp [cellsOf] at h
  | cons b bs ih =>
    unfold cellsOf at h
    split at h
    · have := ih h
      simp only [List.length_cons]
      exact ⟨by omega, by omega, this.2.2⟩
    · rcases List.mem_cons.1 h with rfl | h
      · refine ⟨Nat.le_refl _, ?_, by assumption⟩
        simp
      · have := ih h
        simp only [List.length_cons]
        refine ⟨by omega, by omega, this.2.2⟩

theorem cellsOf_pairwise (a : Nat) (bs : List Byte) : (cellsOf a bs).Pairwise (fun x y => x.1 < y.1) := by
  induction bs generalizing a with
  | nil => simp [cellsOf]
  | cons b bs ih =>
    unfold cellsOf
    split
    · exact ih _
    · refine List.pairwise_cons.2 ⟨fun c hc => ?_, ih _⟩
      have := cellsOf_key hc
      simp only
      omega

theorem read_cellsOf (a : Nat) (bs : List Byte) (x : Nat) :
    Memory.read (cellsOf a bs) x = if a ≤ x ∧ x < a + bs.length then bs.getD (x - a) blankByte else blankByte := by
  induction bs generalizing a with
  | nil => simp [cellsOf]
  | cons b bs ih =>
    unfold cellsOf
    by_cases hx : x = a
    · subst hx
      split
      · rename_i hb
        rw [ih]
        simp [hb]
      · simp [Memory.read]
    · have key : (if a + 1 ≤ x ∧ x < a + 1 + bs.length then bs.getD (x - (a + 1)) blankByte else blankByte) =
          (if a ≤ x ∧ x < a + (b :: bs).length then (b :: bs).getD (x - a) blankByte else blankByte) := by
        by_cases h : a + 1 ≤ x ∧ x < a + 1 + bs.length
        · have h2 : a ≤ x ∧ x < a + (b :: bs).length := by simp only [List.length_cons]; omega
          rw [if_pos h, if_pos h2]
          obtain ⟨k, hk⟩ : ∃ k, x - a = k + 1 := ⟨x - a - 1, by omega⟩
          have hk2 : x - (a + 1) = k := by omega
          rw [hk, hk2, List.getD_cons_succ]
        · have h2 : ¬ (a ≤ x ∧ x < a + (b :: bs).length) := by simp only [List.length_cons]; omega
          rw [if_neg h, if_neg h2]
      split
      · rw [ih, key]
      · rw [Memory.read, if_neg (Ne.symm hx), ih, key]

/-- A read after a write: the bytes written where they were written, and what was there before elsewhere. -/
theorem Memory.read_write (m : Memory) (a : Nat) (bs : List Byte) (x : Nat) :
    (m.write a bs).read x = if a ≤ x ∧ x < a + bs.length then bs.getD (x - a) blankByte else m.read x := by
  unfold Memory.write
  by_cases h : a ≤ x ∧ x < a + bs.length
  · rw [if_pos h, Memory.read_append_left, Memory.read_append_of_not_key, read_cellsOf, if_pos h]
    · intro c hc
      have := (List.mem_filter.1 hc).2
      simp at this
      omega
    · intro c hc
      have := (List.mem_filter.1 hc).2
      simp at this
      omega
  · rw [if_neg h]
    by_cases hlt : x < a
    · rw [List.append_assoc, Memory.read_append_left]
      · exact Memory.read_filter (p := fun k => decide (k < a)) (by simpa using hlt)
      · intro c hc
        rcases List.mem_append.1 hc with hc | hc
        · have := cellsOf_key hc
          omega
        · have := (List.mem_filter.1 hc).2
          simp at this
          omega
    · rw [Memory.read_append_of_not_key]
      · exact Memory.read_filter (p := fun k => decide (a + bs.length ≤ k)) (by simp; omega)
      · intro c hc
        rcases List.mem_append.1 hc with hc | hc
        · have := (List.mem_filter.1 hc).2
          simp at this
          omega
        · have := cellsOf_key hc
          omega

theorem Memory.read_write_other (m : Memory) {a : Nat} {bs : List Byte} {x : Nat} (h : x < a ∨ a + bs.length ≤ x) :
    (m.write a bs).read x = m.read x := by
  rw [Memory.read_write, if_neg (by omega)]

theorem Memory.read_write_same (m : Memory) (a : Nat) {bs : List Byte} {k : Nat} (h : k < bs.length) :
    (m.write a bs).read (a + k) = bs.getD k blankByte := by
  rw [Memory.read_write, if_pos (by omega)]
  congr 1
  omega

theorem Memory.write_key {m : Memory} {a : Nat} {bs : List Byte} {c : Host.Cell} (h : c ∈ m.write a bs) :
    c ∈ m ∨ (a ≤ c.1 ∧ c.1 < a + bs.length) := by
  unfold Memory.write at h
  rcases List.mem_append.1 h with h | h
  · rcases List.mem_append.1 h with h | h
    · exact .inl (List.mem_filter.1 h).1
    · exact .inr ⟨(cellsOf_key h).1, (cellsOf_key h).2.1⟩
  · exact .inl (List.mem_filter.1 h).1

/-- The canonical form is kept by a write. -/
theorem Memory.wf_write {m : Memory} (h : m.wf) (a : Nat) (bs : List Byte) : (m.write a bs).wf := by
  unfold Memory.write
  constructor
  · rw [List.pairwise_append, List.pairwise_append]
    refine ⟨⟨h.1.filter _, cellsOf_pairwise a bs, ?_⟩, h.1.filter _, ?_⟩
    · intro c hc d hd
      have h1 := (List.mem_filter.1 hc).2
      have h2 := cellsOf_key hd
      simp at h1
      omega
    · intro c hc d hd
      have h2 := (List.mem_filter.1 hd).2
      simp at h2
      rcases List.mem_append.1 hc with hc | hc
      · have h1 := (List.mem_filter.1 hc).2
        simp at h1
        omega
      · have h1 := cellsOf_key hc
        omega
  · intro c hc
    rcases List.mem_append.1 hc with hc | hc
    · rcases List.mem_append.1 hc with hc | hc
      · exact h.2 c (List.mem_filter.1 hc).1
      · exact (cellsOf_key hc).2.2
    · exact h.2 c (List.mem_filter.1 hc).1

theorem Memory.wf_nil : Memory.wf [] := ⟨List.Pairwise.nil, by simp⟩

@[simp] theorem Memory.length_readRange (m : Memory) (a n : Nat) : (m.readRange a n).length = n := by
  simp [Memory.readRange]

theorem Memory.getD_readRange (m : Memory) (a : Nat) {n k : Nat} (h : k < n) :
    (m.readRange a n).getD k blankByte = m.read (a + k) := by
  simp [Memory.readRange, List.getD_eq_getElem?_getD, h]

@[simp] theorem length_freeBytes (seed n : Nat) : (freeBytes seed n).length = n := by simp [freeBytes]

/-- A block copied by DMA reads at its destination as it read at its source. -/
theorem Memory.read_write_readRange (m src : Memory) (a b : Nat) {n k : Nat} (h : k < n) :
    (m.write a (src.readRange b n)).read (a + k) = src.read (b + k) := by
  rw [Memory.read_write_same _ _ (by simpa using h), Memory.getD_readRange _ _ h]

end Sys2Proof.Machine
end

