-- ==== Sys2Proof/Laws/Canonical.lean ====
section
/-! SUPPORT. The canonical form of both memories: every memory operation keeps it, and reset memory has it. -/

namespace Sys2Proof.Machine

open Sys2Proof

/-- Both memories have their canonical form. -/
abbrev State.memoriesWf (s : State) : Prop := s.mem.wf ∧ s.card.mem.wf

theorem memoriesWf_reset (p : Params) : (State.resetWith p).memoriesWf := ⟨Memory.wf_nil, Memory.wf_nil⟩

theorem memoriesWf_spoilMem {s : State} (h : s.memoriesWf) (a n : Nat) : (spoilMem a n s).memoriesWf :=
  ⟨Memory.wf_write h.1 a _, h.2⟩

theorem memoriesWf_spoilCard {s : State} (h : s.memoriesWf) (a n : Nat) : (spoilCard a n s).memoriesWf :=
  ⟨h.1, Memory.wf_write h.2 a _⟩

theorem memoriesWf_spoilOnCard {s : State} (h : s.memoriesWf) (c : Sent) : (spoilOnCard c s).memoriesWf := by
  unfold spoilOnCard
  dsimp only
  split
  · exact h
  · exact memoriesWf_spoilCard h _ _

/-- The storage of a card put in the slot has its canonical form. -/
theorem wf_storageOf (cells : List (Nat × List Byte)) : (storageOf cells).wf := by
  induction cells with
  | nil => exact Memory.wf_nil
  | cons c cells ih => exact Memory.wf_write ih _ _

theorem memoriesWf_swapCard {s : State} (h : s.memoriesWf) (st : BitVec 4) (byBlock mmc : Bool) (csd : Reg128)
    (len : Word) (cells : List (Nat × List Byte)) : (swapCard st byBlock mmc csd len cells s).memoriesWf :=
  ⟨h.1, wf_storageOf cells⟩

theorem memoriesWf_dmaMove {s : State} (h : s.memoriesWf) (d : Dma) : (dmaMove d s).memoriesWf := by
  unfold dmaMove
  cases d.dir
  · exact ⟨Memory.wf_write h.1 _ _, h.2⟩
  · exact ⟨h.1, Memory.wf_write h.2 _ _⟩

/-- The host's own write of its memory keeps the form; outside the address space it is a fault. -/
theorem memoriesWf_store {s t : State} (h : s.memoriesWf) (a : Nat) (bs : List Byte)
    (ht : hostMove (.store a bs) s = .next t) : t.memoriesWf := by
  unfold hostMove whenIdle at ht
  dsimp only at ht
  split at ht
  · cases ht
  · split at ht
    · cases ht
      exact ⟨Memory.wf_write h.1 a bs, h.2⟩
    · cases ht

end Sys2Proof.Machine
end

