-- ==== Sys2Proof/Laws/Env.lean ====
section
/-! SUPPORT. Everything the other agents can do to the machine, said once: `Moved`. -/

namespace Sys2Proof.Machine

open Sys2Proof

/-- `t` is `s` after moves of agents other than ENGINE and HOST. -/
structure Moved (s t : State) : Prop where
  desc : t.desc = s.desc
  neg : t.neg = s.neg
  seq : t.seq = s.seq
  host : t.host = s.host
  log : t.log = s.log
  app : t.app = s.app
  cfg : t.cfg = s.cfg
  wire : t.wire = s.wire
  cmdResult : t.cmdResult = s.cmdResult
  inbox : t.inp.inbox = s.inp.inbox
  multi : t.xfer.multi = s.xfer.multi
  cmd : t.bc.cmd = s.bc.cmd
  div : t.bc.div = s.bc.div
  width : t.bc.width = s.bc.width
  addr : t.card.addr = s.card.addr
  eraseFirst : t.card.eraseFirst = s.card.eraseFirst
  eraseLast : t.card.eraseLast = s.card.eraseLast
  preErase : t.card.preErase = s.card.preErase
  byBlock : t.card.byBlock = s.card.byBlock
  mmc : t.card.mmc = s.card.mmc
  csd : t.card.csd = s.card.csd
  dma : t.bc.dma = none ∨ t.bc.dma = s.bc.dma
  mask : t.bc.mask = 0#32 ∨ t.bc.mask = s.bc.mask
  free : s.bc.dma = none → t.free = s.free
  mem : (∀ d, s.bc.dma = some d → d.dir = .tx) → t.mem = s.mem
  cardMem : (∀ d, s.bc.dma = some d → d.dir = .rx) → t.card.mem = s.card.mem
  memOutside : ∀ x, (∀ d, s.bc.dma = some d → x < d.buf ∨ d.buf + d.len ≤ x) → t.mem.read x = s.mem.read x
  cardOutside :
    ∀ x, (∀ d, s.bc.dma = some d → x < s.card.addr ∨ s.card.addr + d.len ≤ x) → t.card.mem.read x = s.card.mem.read x
  memKey : ∀ c ∈ t.mem, c ∈ s.mem ∨ ∃ d, s.bc.dma = some d ∧ d.buf ≤ c.1 ∧ c.1 < d.buf + d.len
  memWf : s.mem.wf → t.mem.wf
  cardWf : s.card.mem.wf → t.card.mem.wf
  reserved : s.bc.sta.extractLsb' 14 18 = 0#18 → t.bc.sta.extractLsb' 14 18 = 0#18

theorem Moved.refl (s : State) : Moved s s := by
  constructor <;> first | rfl | exact fun h => h | exact .inr rfl | exact fun _ _ => rfl | exact fun _ => rfl | exact fun _ h => .inl h

theorem Moved.trans {s t u : State} (h : Moved s t) (k : Moved t u) : Moved s u where
  desc := k.desc.trans h.desc
  neg := k.neg.trans h.neg
  seq := k.seq.trans h.seq
  host := k.host.trans h.host
  log := k.log.trans h.log
  app := k.app.trans h.app
  cfg := k.cfg.trans h.cfg
  wire := k.wire.trans h.wire
  cmdResult := k.cmdResult.trans h.cmdResult
  inbox := k.inbox.trans h.inbox
  multi := k.multi.trans h.multi
  cmd := k.cmd.trans h.cmd
  div := k.div.trans h.div
  width := k.width.trans h.width
  addr := k.addr.trans h.addr
  eraseFirst := k.eraseFirst.trans h.eraseFirst
  eraseLast := k.eraseLast.trans h.eraseLast
  preErase := k.preErase.trans h.preErase
  byBlock := k.byBlock.trans h.byBlock
  mmc := k.mmc.trans h.mmc
  csd := k.csd.trans h.csd
  dma := by rcases k.dma with hk | hk
            · exact .inl hk
            · rw [hk]; exact h.dma
  mask := by rcases k.mask with hk | hk
             · exact .inl hk
             · rw [hk]; exact h.mask
  free := fun hs => by
    have ht : t.bc.dma = none := by rcases h.dma with e | e <;> simp [e, hs]
    rw [k.free ht, h.free hs]
  mem := fun hs => by
    rw [k.mem, h.mem hs]
    intro d hd
    rcases h.dma with e | e
    · simp [e] at hd
    · exact hs d (e ▸ hd)
  cardMem := fun hs => by
    rw [k.cardMem, h.cardMem hs]
    intro d hd
    rcases h.dma with e | e
    · simp [e] at hd
    · exact hs d (e ▸ hd)
  memOutside := fun x hs => by
    rw [k.memOutside x, h.memOutside x hs]
    intro d hd
    rcases h.dma with e | e
    · simp [e] at hd
    · exact hs d (e ▸ hd)
  cardOutside := fun x hs => by
    rw [k.cardOutside x, h.cardOutside x hs]
    intro d hd
    rw [h.addr]
    rcases h.dma with e | e
    · simp [e] at hd
    · exact hs d (e ▸ hd)
  memKey := fun c hc => by
    rcases k.memKey c hc with hc | ⟨d, hd, h1, h2⟩
    · exact h.memKey c hc
    · rcases h.dma with e | e
      · simp [e] at hd
      · exact .inr ⟨d, e ▸ hd, h1, h2⟩
  memWf := fun hs => k.memWf (h.memWf hs)
  cardWf := fun hs => k.cardWf (h.cardWf hs)
  reserved := fun hs => k.reserved (h.reserved hs)

/-- Moves that touch no memory, only the bus controller's status, the transfer cells, the card's state and the inputs. -/
theorem Moved.of_plain {s t : State}
    (desc : t.desc = s.desc) (neg : t.neg = s.neg) (seq : t.seq = s.seq) (host : t.host = s.host) (log : t.log = s.log)
    (app : t.app = s.app) (cfg : t.cfg = s.cfg) (wire : t.wire = s.wire) (cmdResult : t.cmdResult = s.cmdResult)
    (inbox : t.inp.inbox = s.inp.inbox) (multi : t.xfer.multi = s.xfer.multi) (cmd : t.bc.cmd = s.bc.cmd)
    (div : t.bc.div = s.bc.div) (width : t.bc.width = s.bc.width) (addr : t.card.addr = s.card.addr)
    (eraseFirst : t.card.eraseFirst = s.card.eraseFirst) (eraseLast : t.card.eraseLast = s.card.eraseLast)
    (preErase : t.card.preErase = s.card.preErase) (byBlock : t.card.byBlock = s.card.byBlock)
    (mmc : t.card.mmc = s.card.mmc) (csd : t.card.csd = s.card.csd)
    (dma : t.bc.dma = none ∨ t.bc.dma = s.bc.dma) (mask : t.bc.mask = 0#32 ∨ t.bc.mask = s.bc.mask)
    (free : t.free = s.free) (mem : t.mem = s.mem) (cardMem : t.card.mem = s.card.mem)
    (reserved : s.bc.sta.extractLsb' 14 18 = 0#18 → t.bc.sta.extractLsb' 14 18 = 0#18) : Moved s t :=
  { desc := desc, neg := neg, seq := seq, host := host, log := log, app := app, cfg := cfg, wire := wire,
    cmdResult := cmdResult, inbox := inbox, multi := multi, cmd := cmd, div := div, width := width, addr := addr,
    eraseFirst := eraseFirst, eraseLast := eraseLast, preErase := preErase, byBlock := byBlock, mmc := mmc, csd := csd, dma := dma, mask := mask, free := fun _ => free,
    mem := fun _ => mem, cardMem := fun _ => cardMem, memOutside := fun _ _ => by rw [mem],
    cardOutside := fun _ _ => by rw [cardMem], memKey := fun _ hc => .inl (mem ▸ hc), memWf := fun h => mem ▸ h,
    cardWf := fun h => cardMem ▸ h, reserved := reserved }

theorem reserved_or_and {w m n : Word} (hw : w.extractLsb' 14 18 = 0#18) (hn : n.extractLsb' 14 18 = 0#18) :
    ((w &&& m) ||| n).extractLsb' 14 18 = 0#18 := by
  rw [BitVec.extractLsb'_or, BitVec.extractLsb'_and, hw, hn]; simp

theorem moved_tick (d : Word) (s : State) : Moved s (tick d s) := by
  apply Moved.of_plain <;> first | rfl | exact .inr rfl | exact fun h => h

theorem moved_setPins (p w : Bool) (s : State) : Moved s (setPins p w s) := by
  apply Moved.of_plain <;> first | rfl | exact .inr rfl | exact fun h => h

theorem moved_setCardState (st : BitVec 4) (s : State) : Moved s (setCardState st s) := by
  apply Moved.of_plain <;> first | rfl | exact .inr rfl | exact fun h => h

/-- Only the bus controller's flags, DMA and interrupt request change. -/
theorem moved_flags {s : State} (b : Bc) (cmd : b.cmd = s.bc.cmd) (div : b.div = s.bc.div) (width : b.width = s.bc.width)
    (dma : b.dma = none ∨ b.dma = s.bc.dma) (mask : b.mask = 0#32 ∨ b.mask = s.bc.mask)
    (reserved : s.bc.sta.extractLsb' 14 18 = 0#18 → b.sta.extractLsb' 14 18 = 0#18) : Moved s { s with bc := b } := by
  apply Moved.of_plain <;> first | rfl | assumption

theorem moved_breach (s : State) : Moved s (breach s) := by
  apply Moved.of_plain <;> first | rfl | exact .inr rfl | exact fun h => h

theorem moved_pathIdle (s : State) : Moved s (pathIdle s) := by
  refine moved_flags _ rfl rfl rfl (.inr rfl) (.inr rfl) fun h => ?_
  rw [BitVec.extractLsb'_and, h, BitVec.zero_and]

theorem moved_isr (s : State) : Moved s (isr s) := by
  unfold isr
  split
  · exact moved_flags _ rfl rfl rfl (.inr rfl) (.inr rfl) fun h => h
  · apply Moved.of_plain <;> first | rfl | exact .inl rfl | exact .inr rfl | exact fun h => h

theorem moved_isrMove (s : State) : Moved s (isrMove s) := by
  unfold isrMove
  split
  · exact moved_isr s
  · exact Moved.refl s

theorem answerFlag_reserved (k : Kind) (a : Answer) : (answerFlag k a).extractLsb' 14 18 = 0#18 := by
  cases k <;> cases a <;> decide

theorem respondBc_frame (a : Answer) (rc : BitVec 6) (x : Word × Word × Word × Word) (b : Bc) :
    (respondBc a rc x b).cmd = b.cmd ∧ (respondBc a rc x b).div = b.div ∧ (respondBc a rc x b).width = b.width ∧
      (respondBc a rc x b).dma = b.dma ∧ (respondBc a rc x b).mask = b.mask ∧ (respondBc a rc x b).irq = b.irq ∧
      (respondBc a rc x b).late = b.late ∧
      (respondBc a rc x b).sta = (b.sta &&& ~~~mCmdact) ||| answerFlag b.cmd.kind a := by
  unfold respondBc
  dsimp only
  split <;> exact ⟨rfl, rfl, rfl, rfl, rfl, rfl, rfl, rfl⟩

/-- An answer changes the card's state, its width and its block length, and nothing else of it. -/
theorem cardAnswers_frame (c : Sent) (a : Answer) (w : Word) (k : Card) :
    cardAnswers c a w k =
      { k with
        state := (cardAnswers c a w k).state
        width := (cardAnswers c a w k).width
        blockLen := (cardAnswers c a w k).blockLen } := by
  unfold cardAnswers cardDoes
  split <;> rfl

theorem moved_respond (a : Answer) (rc : BitVec 6) (w1 w2 w3 w4 : Word) (s : State) :
    Moved s (respond a rc w1 w2 w3 w4 s) := by
  unfold respond
  split
  · dsimp only
    generalize answerWords s.bc.cmd a s.card (w1, w2, w3, w4) = x
    obtain ⟨h1, h2, h3, h4, h5, -, -, h8⟩ := respondBc_frame a rc x s.bc
    rw [cardAnswers_frame s.bc.cmd a x.1 s.card]
    refine Moved.of_plain rfl rfl rfl rfl rfl rfl rfl rfl rfl rfl rfl h1 h2 h3 rfl rfl rfl rfl rfl rfl rfl (.inr h4) (.inr h5) rfl
      rfl rfl ?_
    intro h
    show (respondBc _ _ _ _).sta.extractLsb' 14 18 = 0#18
    rw [h8]
    exact reserved_or_and h (answerFlag_reserved _ _)
  · exact moved_breach s

theorem exchanged_length (bs : List Byte) (s : State) : (exchanged bs s).1.length = bs.length := by
  unfold exchanged
  split <;> simp

/-- A flag of the data path is no reserved bit of BCSTA (10_state R49). -/
theorem path_reserved {f : Word} (h : hasFlag f (~~~mPath) = false) : f.extractLsb' 14 18 = 0#18 := by
  have h0 : f &&& ~~~mPath = 0#32 := by simpa [hasFlag] using h
  have hm : (~~~mPath).extractLsb' 14 18 = BitVec.allOnes 18 := by decide
  have := congrArg (BitVec.extractLsb' 14 18) h0
  rw [BitVec.extractLsb'_and, hm, BitVec.and_allOnes] at this
  rw [this]
  decide

/-- DMA touches the buffer of a read and the blocks of a write, and nothing else. -/
theorem moved_dmaMove {d : Dma} {s : State} (hd : s.bc.dma = some d) : Moved s (dmaMove d s) := by
  unfold dmaMove
  split
  · rename_i hdir
    constructor <;> first | rfl | exact .inr rfl | skip
    · intro h; simp [h] at hd
    · intro h; have := h d hd; simp [hdir] at this
    · exact fun _ => rfl
    · intro x h
      have := h d hd
      exact Memory.read_write_other _ (by rw [exchanged_length]; simpa using this)
    · exact fun _ _ => rfl
    · intro c hc
      rcases Memory.write_key hc with hc | hc
      · exact .inl hc
      · rw [exchanged_length, Memory.length_readRange] at hc
        exact .inr ⟨d, hd, hc⟩
    · exact fun h => Memory.wf_write h _ _
    · exact fun h => h
    · exact fun h => h
  · rename_i hdir
    constructor <;> first | rfl | exact .inr rfl | skip
    · intro h; simp [h] at hd
    · exact fun _ => rfl
    · intro h; have := h d hd; simp [hdir] at this
    · exact fun _ _ => rfl
    · intro x h
      have := h d hd
      exact Memory.read_write_other _ (by rw [exchanged_length]; simpa using this)
    · exact fun c hc => .inl hc
    · exact fun h => h
    · exact fun h => Memory.wf_write h _ _
    · exact fun h => h

theorem dmaMove_bc (d : Dma) (s : State) : (dmaMove d s).bc = s.bc := by
  unfold dmaMove
  split <;> rfl

theorem dmaMove_xfer (d : Dma) (s : State) : (dmaMove d s).xfer = s.xfer := by
  unfold dmaMove
  split <;> rfl

theorem moved_armedMove {f : Word} (hf : hasFlag f (~~~mPath) = false) {d : Dma} {s : State} (hd : s.bc.dma = some d) :
    Moved s (armedMove f d s) := by
  have hr (m : Word) (h : s.bc.sta.extractLsb' 14 18 = 0#18) : ((s.bc.sta ||| f) &&& m).extractLsb' 14 18 = 0#18 := by
    rw [BitVec.extractLsb'_and, BitVec.extractLsb'_or, h, path_reserved hf]
    simp
  unfold armedMove
  dsimp only
  split
  · refine (moved_dmaMove hd).trans (moved_flags _ ?_ ?_ ?_ (.inr ?_) (.inr ?_) ?_) <;> rw [dmaMove_bc]
    exact hr _
  · exact moved_flags _ rfl rfl rfl (.inr rfl) (.inr rfl) (hr _)

theorem moved_dataMove (f : Word) (s : State) : Moved s (dataMove f s) := by
  unfold dataMove
  split
  · exact moved_breach s
  · rename_i hf
    rw [Bool.not_eq_true] at hf
    have hr (h : s.bc.sta.extractLsb' 14 18 = 0#18) : (s.bc.sta ||| f).extractLsb' 14 18 = 0#18 := by
      rw [BitVec.extractLsb'_or, h, path_reserved hf]; rfl
    split
    · exact moved_armedMove hf (by assumption)
    · split
      · exact moved_flags _ rfl rfl rfl (.inr rfl) (.inr rfl) hr
      · exact moved_breach s

/-- One move of another agent. -/
theorem moved_applyEv (e : Ev) (s : State) : Moved s (applyEv e s) := by
  cases e with
  | tick d => exact moved_tick d s
  | pins p w => exact moved_setPins p w s
  | respond a rc w1 w2 w3 w4 => exact moved_respond a rc w1 w2 w3 w4 s
  | data f => exact moved_dataMove f s
  | pathIdle => exact moved_pathIdle s
  | isr => exact moved_isrMove s
  | card st => exact moved_setCardState st s

theorem moved_applyBatch (b : List Ev) (s : State) : Moved s (applyBatch b s) := by
  induction b generalizing s with
  | nil => exact Moved.refl s
  | cons e b ih => exact (moved_applyEv e s).trans (ih _)

theorem moved_setSched (r : List (List Ev)) (s : State) : Moved s (setSched r s) := by
  apply Moved.of_plain <;> first | rfl | exact .inr rfl | exact fun h => h

theorem moved_fairTick (m0 t : Nat) (s : State) : Moved s (fairTick m0 t s) := by
  unfold fairTick
  split
  · exact Moved.refl s
  · apply Moved.of_plain <;> first | rfl | exact .inr rfl | exact fun h => h

theorem moved_sync (s : State) : Moved s (sync s) := by
  unfold sync
  split
  · exact Moved.refl s
  · exact (moved_setSched _ s).trans (moved_applyBatch _ _)

theorem moved_waitLoop (ended : State → Bool) (m0 t : Nat) (l : List (List Ev)) (s : State) :
    Moved s (waitLoop ended m0 t l s).1 := by
  fun_induction waitLoop ended m0 t l s with
  | case1 s _ => exact moved_setSched _ s
  | case2 s _ => exact (moved_setSched _ s).trans (moved_fairTick _ _ _)
  | case3 b s s1 _ => exact (moved_applyBatch b s).trans (moved_setSched _ _)
  | case4 b s s1 _ => exact (moved_applyBatch b s).trans ((moved_setSched _ _).trans (moved_fairTick _ _ _))
  | case5 b c r s s1 _ => exact (moved_applyBatch b s).trans (moved_setSched _ _)
  | case6 b c r s s1 _ s2 _ =>
    exact (moved_applyBatch b s).trans ((moved_applyBatch c _).trans (moved_setSched _ _))
  | case7 b c r s s1 _ s2 _ ih => exact (moved_applyBatch b s).trans ((moved_applyBatch c _).trans ih)

/-- Everything the other agents can do while ENGINE waits. -/
theorem moved_waitFor (ended : State → Bool) (t : Nat) (s : State) : Moved s (waitFor ended t s).1 :=
  moved_waitLoop ended _ t _ s

/-- A wait that did not time out ended by its condition. -/
theorem waitLoop_ended {ended : State → Bool} (hset : ∀ r u, ended (setSched r u) = ended u) (m0 t : Nat)
    (l : List (List Ev)) (s : State) (h : (waitLoop ended m0 t l s).2 = false) :
    ended (waitLoop ended m0 t l s).1 = true := by
  fun_induction waitLoop ended m0 t l s with
  | case1 s he => simpa [hset] using he
  | case2 s _ => simp at h
  | case3 s b s1 he => simpa [hset] using he
  | case4 s b s1 _ => simp at h
  | case5 s b c r s1 he => simpa [hset] using he
  | case6 s b c r s1 _ s2 _ => simp at h
  | case7 s b c r s1 _ s2 _ ih => exact ih h

/-- By the TIMER's fairness the wrapping subtraction never deceives a deadline check: it answers yes exactly where the deadline
has passed in full (00_scope R16, 60_exceptions R535). -/
theorem expired_iff {ms m0 t : Nat} (hm : m0 ≤ ms) (ht : t ≤ 2 ^ 32) : expired ms m0 t = true ↔ m0 + t ≤ ms := by
  unfold expired passed nowAt
  rw [Bool.or_eq_true, decide_eq_true_eq, decide_eq_true_eq, BitVec.toNat_sub, BitVec.toNat_ofNat, BitVec.toNat_ofNat]
  omega

/-- Once the schedule has run out, the deadline passes. -/
theorem expired_fairTick (m0 : Nat) {t : Nat} (ht : t < 2 ^ 32) (s : State) : expired (fairTick m0 t s).inp.ms m0 t = true := by
  unfold fairTick
  split
  · assumption
  · exact (expired_iff (Nat.le_add_right _ _) (Nat.le_of_lt ht)).2 (Nat.le_refl _)

/-- The schedule never grows. -/
theorem waitLoop_sched (ended : State → Bool) (m0 t : Nat) (l : List (List Ev)) (s : State) :
    (waitLoop ended m0 t l s).1.inp.sched.length ≤ l.length := by
  have hf : ∀ (u : State) , (fairTick m0 t u).inp.sched = u.inp.sched := by
    intro u; unfold fairTick; split <;> rfl
  fun_induction waitLoop ended m0 t l s with
  | case1 s _ => simp [setSched]
  | case2 s _ => simp [hf, setSched]
  | case3 s b s1 _ => simp [setSched]
  | case4 s b s1 _ => simp [hf, setSched]
  | case5 s b c r s1 _ => simp [setSched]
  | case6 s b c r s1 _ s2 _ => simp [setSched]; omega
  | case7 s b c r s1 _ s2 _ ih => simp only [List.length_cons]; omega

/-! ## The other agents do not look at the host registers -/

theorem applyEv_host (e : Ev) (h : HostRegs) (s : State) : applyEv e { s with host := h } = { applyEv e s with host := h } := by
  cases e <;> simp only [applyEv]
  · rfl
  · rfl
  · unfold respond
    dsimp only
    split <;> rfl
  · unfold dataMove
    dsimp only
    split
    · rfl
    · split
      · unfold armedMove dmaMove exchanged
        dsimp only
        split
        · split <;> rfl
        · rfl
      · split <;> rfl
  · rfl
  · unfold isrMove isr
    dsimp only
    split
    · split <;> rfl
    · rfl
  · rfl

theorem applyBatch_host (b : List Ev) (h : HostRegs) (s : State) :
    applyBatch b { s with host := h } = { applyBatch b s with host := h } := by
  induction b generalizing s with
  | nil => rfl
  | cons e es ih =>
    unfold applyBatch
    rw [applyEv_host, ih]

/-- What the other agents do next does not depend on the host registers. -/
theorem sync_host (h : HostRegs) (s : State) : sync { s with host := h } = { sync s with host := h } := by
  unfold sync
  dsimp only
  split
  · rfl
  · rename_i b r _
    exact applyBatch_host b h (setSched r s)

/-- The other agents' moves before the checks of an operation are those they would make before it begins. -/
theorem sync_beginOp (s : State) : sync (beginOp s) = { sync s with host := { s.host with hbusy := true } } :=
  sync_host _ s

end Sys2Proof.Machine
end

