-- ==== Sys2Proof/Laws/Flags.lean ====
section
/-! SUPPORT. Flag computations: what the static flags are after a clear and an answer. -/

namespace Sys2Proof.Machine

open Sys2Proof

/-- A mask of one bit tests that bit. -/
theorem hasFlag_bit (s : Word) (n : Nat) (hn : n < 32) (m : Word) (hm : m = 1#32 <<< n) : hasFlag s m = s.getLsbD n := by
  subst hm
  unfold hasFlag
  cases h : s.getLsbD n
  · have : s &&& 1#32 <<< n = 0#32 := by
      apply BitVec.eq_of_getLsbD_eq
      intro i hi
      simp only [BitVec.getLsbD_and, BitVec.getLsbD_shiftLeft, BitVec.getLsbD_one]
      by_cases hin : i = n
      · subst hin; simp [h]
      · simp; intro _ _; omega
    rw [this]; rfl
  · have : s &&& 1#32 <<< n ≠ 0#32 := by
      intro e
      have := congrArg (fun x => x.getLsbD n) e
      simp [hn] at this
      rw [BitVec.getLsbD_eq_getElem hn] at h
      rw [h] at this
      cases this
    simpa [bne_iff_ne] using this

theorem hasFlag_or (a b m : Word) : hasFlag (a ||| b) m = (hasFlag a m || hasFlag b m) := by
  have key : ((a ||| b) &&& m = 0#32) ↔ (a &&& m = 0#32 ∧ b &&& m = 0#32) := by
    have hd : (a ||| b) &&& m = (a &&& m) ||| (b &&& m) := by
      ext i hi
      simp [Bool.and_or_distrib_right]
    rw [hd, BitVec.or_eq_zero_iff]
  unfold hasFlag
  rw [Bool.eq_iff_iff]
  simp only [bne_iff_ne, ne_eq, Bool.or_eq_true, key]
  tauto

/-- The static flags after a clear and a send are those of the answer alone (10_state R52, 60_exceptions R540). -/
theorem hasFlag_answered (sta f m : Word) (hm : m &&& mStatic = m) (hc : m &&& mCmdact = 0#32) :
    hasFlag ((((sta &&& ~~~mStatic) ||| mCmdact) &&& ~~~mCmdact) ||| f) m = hasFlag f m := by
  have h0 : ((sta &&& ~~~mStatic ||| mCmdact) &&& ~~~mCmdact) &&& m = 0#32 := by
    have h1 : ∀ x : Word, x &&& m = x &&& (m &&& mStatic) := by intro x; rw [hm]
    rw [h1]
    ext i hi
    have e : (m &&& mCmdact)[i] = (0#32)[i] := by rw [hc]
    simp only [BitVec.getElem_and, BitVec.getElem_or, BitVec.getElem_not, BitVec.getElem_zero] at e ⊢
    cases mStatic[i] <;> cases mCmdact[i] <;> cases m[i] <;> simp_all
  rw [hasFlag_or]
  unfold hasFlag at *
  rw [h0]
  simp

theorem clear_static (s : Word) : (s &&& ~~~mStatic) &&& mStatic = 0#32 := by
  ext i hi
  simp only [BitVec.getElem_and, BitVec.getElem_not, BitVec.getElem_zero]
  cases mStatic[i] <;> simp

theorem commandEnded_answered (sta : Word) (k : Kind) (a : Answer) :
    commandEnded k ((((sta &&& ~~~mStatic) ||| mCmdact) &&& ~~~mCmdact) ||| answerFlag k a) = true := by
  cases k <;> simp only [commandEnded, hasFlag_answered _ _ mCmdsent (by decide) (by decide),
    hasFlag_answered _ _ mCmdrend (by decide) (by decide), hasFlag_answered _ _ mCcrcfail (by decide) (by decide),
    hasFlag_answered _ _ mCtimeout (by decide) (by decide)] <;> cases a <;> decide

/-- No static flag is seen where none is set. -/
theorem hasFlag_of_static_zero {s m : Word} (hs : s &&& mStatic = 0#32) (hm : m &&& mStatic = m) : hasFlag s m = false := by
  have : s &&& m = 0#32 := by
    rw [← hm, BitVec.and_comm m, ← BitVec.and_assoc, hs, BitVec.zero_and]
  simp [hasFlag, this]

theorem commandEnded_of_static_zero {s : Word} (hs : s &&& mStatic = 0#32) (k : Kind) : commandEnded k s = false := by
  cases k <;> simp [commandEnded, hasFlag_of_static_zero hs (m := mCmdsent) (by decide),
    hasFlag_of_static_zero hs (m := mCmdrend) (by decide), hasFlag_of_static_zero hs (m := mCcrcfail) (by decide),
    hasFlag_of_static_zero hs (m := mCtimeout) (by decide)]

/-- No static flag is set: bits 10:0 are 0 (10_state R52). -/
theorem extract_static {w : Word} (h : w &&& mStatic = 0#32) : w.extractLsb' 0 11 = 0#11 := by
  apply BitVec.eq_of_getLsbD_eq
  intro i hi
  have := congrArg (fun x => x.getLsbD i) h
  simp only [BitVec.getLsbD_and, BitVec.getLsbD_zero] at this
  have hm : mStatic.getLsbD i = true := by interval_cases i <;> rfl
  rw [hm, Bool.and_true] at this
  rw [BitVec.getLsbD_extractLsb']
  simp [this]

end Sys2Proof.Machine
end

