-- ==== Sys2Proof/Laws/State.lean ====
section
/-! SUPPORT. One lemma per field per update of the state, true by definition: what an update writes, and that it leaves the
rest alone. -/

namespace Sys2Proof.Machine

open Sys2Proof

variable (s : State)

/-! ## `setSched` -/

@[simp] theorem setSched_desc (r : List (List Ev)) : (setSched r s).desc = s.desc := rfl
@[simp] theorem setSched_neg (r : List (List Ev)) : (setSched r s).neg = s.neg := rfl
@[simp] theorem setSched_seq (r : List (List Ev)) : (setSched r s).seq = s.seq := rfl
@[simp] theorem setSched_xfer (r : List (List Ev)) : (setSched r s).xfer = s.xfer := rfl
@[simp] theorem setSched_host (r : List (List Ev)) : (setSched r s).host = s.host := rfl
@[simp] theorem setSched_log (r : List (List Ev)) : (setSched r s).log = s.log := rfl
@[simp] theorem setSched_bc (r : List (List Ev)) : (setSched r s).bc = s.bc := rfl
@[simp] theorem setSched_card (r : List (List Ev)) : (setSched r s).card = s.card := rfl
@[simp] theorem setSched_app (r : List (List Ev)) : (setSched r s).app = s.app := rfl
@[simp] theorem setSched_mem (r : List (List Ev)) : (setSched r s).mem = s.mem := rfl
@[simp] theorem setSched_inp (r : List (List Ev)) : (setSched r s).inp = { s.inp with sched := r } := rfl
@[simp] theorem setSched_cfg (r : List (List Ev)) : (setSched r s).cfg = s.cfg := rfl
@[simp] theorem setSched_wire (r : List (List Ev)) : (setSched r s).wire = s.wire := rfl
@[simp] theorem setSched_cmdResult (r : List (List Ev)) : (setSched r s).cmdResult = s.cmdResult := rfl
@[simp] theorem setSched_free (r : List (List Ev)) : (setSched r s).free = s.free := rfl

/-! ## `tick` -/

@[simp] theorem tick_desc (d : Word) : (tick d s).desc = s.desc := rfl
@[simp] theorem tick_neg (d : Word) : (tick d s).neg = s.neg := rfl
@[simp] theorem tick_seq (d : Word) : (tick d s).seq = s.seq := rfl
@[simp] theorem tick_xfer (d : Word) : (tick d s).xfer = s.xfer := rfl
@[simp] theorem tick_host (d : Word) : (tick d s).host = s.host := rfl
@[simp] theorem tick_log (d : Word) : (tick d s).log = s.log := rfl
@[simp] theorem tick_bc (d : Word) : (tick d s).bc = s.bc := rfl
@[simp] theorem tick_card (d : Word) : (tick d s).card = s.card := rfl
@[simp] theorem tick_app (d : Word) : (tick d s).app = s.app := rfl
@[simp] theorem tick_mem (d : Word) : (tick d s).mem = s.mem := rfl
@[simp] theorem tick_inp (d : Word) : (tick d s).inp = { s.inp with ms := s.inp.ms + d.toNat } := rfl
@[simp] theorem tick_cfg (d : Word) : (tick d s).cfg = s.cfg := rfl
@[simp] theorem tick_wire (d : Word) : (tick d s).wire = s.wire := rfl
@[simp] theorem tick_cmdResult (d : Word) : (tick d s).cmdResult = s.cmdResult := rfl
@[simp] theorem tick_free (d : Word) : (tick d s).free = s.free := rfl

/-! ## `setPins` -/

@[simp] theorem setPins_desc (p w : Bool) : (setPins p w s).desc = s.desc := rfl
@[simp] theorem setPins_neg (p w : Bool) : (setPins p w s).neg = s.neg := rfl
@[simp] theorem setPins_seq (p w : Bool) : (setPins p w s).seq = s.seq := rfl
@[simp] theorem setPins_xfer (p w : Bool) : (setPins p w s).xfer = s.xfer := rfl
@[simp] theorem setPins_host (p w : Bool) : (setPins p w s).host = s.host := rfl
@[simp] theorem setPins_log (p w : Bool) : (setPins p w s).log = s.log := rfl
@[simp] theorem setPins_bc (p w : Bool) : (setPins p w s).bc = s.bc := rfl
@[simp] theorem setPins_card (p w : Bool) : (setPins p w s).card = s.card := rfl
@[simp] theorem setPins_app (p w : Bool) : (setPins p w s).app = s.app := rfl
@[simp] theorem setPins_mem (p w : Bool) : (setPins p w s).mem = s.mem := rfl
@[simp] theorem setPins_inp (p w : Bool) :
    (setPins p w s).inp = { s.inp with cardPresent := p, writeProtect := w } := rfl
@[simp] theorem setPins_cfg (p w : Bool) : (setPins p w s).cfg = s.cfg := rfl
@[simp] theorem setPins_wire (p w : Bool) : (setPins p w s).wire = s.wire := rfl
@[simp] theorem setPins_cmdResult (p w : Bool) : (setPins p w s).cmdResult = s.cmdResult := rfl
@[simp] theorem setPins_free (p w : Bool) : (setPins p w s).free = s.free := rfl

/-! ## `breach` -/

@[simp] theorem breach_desc : (breach s).desc = s.desc := rfl
@[simp] theorem breach_neg : (breach s).neg = s.neg := rfl
@[simp] theorem breach_seq : (breach s).seq = s.seq := rfl
@[simp] theorem breach_xfer : (breach s).xfer = s.xfer := rfl
@[simp] theorem breach_host : (breach s).host = s.host := rfl
@[simp] theorem breach_log : (breach s).log = s.log := rfl
@[simp] theorem breach_bc : (breach s).bc = s.bc := rfl
@[simp] theorem breach_card : (breach s).card = s.card := rfl
@[simp] theorem breach_app : (breach s).app = s.app := rfl
@[simp] theorem breach_mem : (breach s).mem = s.mem := rfl
@[simp] theorem breach_inp : (breach s).inp = { s.inp with breaches := s.inp.breaches + 1 } := rfl
@[simp] theorem breach_cfg : (breach s).cfg = s.cfg := rfl
@[simp] theorem breach_wire : (breach s).wire = s.wire := rfl
@[simp] theorem breach_cmdResult : (breach s).cmdResult = s.cmdResult := rfl
@[simp] theorem breach_free : (breach s).free = s.free := rfl

/-! ## `swapCard` -/

section

variable (st : BitVec 4) (byBlock mmc : Bool) (csd : Reg128) (len : Word) (cells : List (Nat × List Byte))

@[simp] theorem swapCard_desc : (swapCard st byBlock mmc csd len cells s).desc = s.desc := rfl
@[simp] theorem swapCard_neg : (swapCard st byBlock mmc csd len cells s).neg = s.neg := rfl
@[simp] theorem swapCard_seq : (swapCard st byBlock mmc csd len cells s).seq = s.seq := rfl
@[simp] theorem swapCard_xfer : (swapCard st byBlock mmc csd len cells s).xfer = s.xfer := rfl
@[simp] theorem swapCard_host : (swapCard st byBlock mmc csd len cells s).host = s.host := rfl
@[simp] theorem swapCard_log : (swapCard st byBlock mmc csd len cells s).log = s.log := rfl
@[simp] theorem swapCard_bc : (swapCard st byBlock mmc csd len cells s).bc = s.bc := rfl
@[simp] theorem swapCard_card : (swapCard st byBlock mmc csd len cells s).card =
      { state := st, addr := 0, eraseFirst := 0, eraseLast := 0, byBlock := byBlock, mmc := mmc, csd := csd, width := 1,
        blockLen := len, preErase := 0, mem := storageOf cells } := rfl
@[simp] theorem swapCard_app : (swapCard st byBlock mmc csd len cells s).app = s.app := rfl
@[simp] theorem swapCard_mem : (swapCard st byBlock mmc csd len cells s).mem = s.mem := rfl
@[simp] theorem swapCard_inp : (swapCard st byBlock mmc csd len cells s).inp = s.inp := rfl
@[simp] theorem swapCard_cfg : (swapCard st byBlock mmc csd len cells s).cfg = s.cfg := rfl
@[simp] theorem swapCard_wire : (swapCard st byBlock mmc csd len cells s).wire = s.wire := rfl
@[simp] theorem swapCard_cmdResult : (swapCard st byBlock mmc csd len cells s).cmdResult = s.cmdResult := rfl
@[simp] theorem swapCard_free : (swapCard st byBlock mmc csd len cells s).free = s.free := rfl

end

/-! ## `setCardState` -/

@[simp] theorem setCardState_desc (st : BitVec 4) : (setCardState st s).desc = s.desc := rfl
@[simp] theorem setCardState_neg (st : BitVec 4) : (setCardState st s).neg = s.neg := rfl
@[simp] theorem setCardState_seq (st : BitVec 4) : (setCardState st s).seq = s.seq := rfl
@[simp] theorem setCardState_xfer (st : BitVec 4) : (setCardState st s).xfer = s.xfer := rfl
@[simp] theorem setCardState_host (st : BitVec 4) : (setCardState st s).host = s.host := rfl
@[simp] theorem setCardState_log (st : BitVec 4) : (setCardState st s).log = s.log := rfl
@[simp] theorem setCardState_bc (st : BitVec 4) : (setCardState st s).bc = s.bc := rfl
@[simp] theorem setCardState_card (st : BitVec 4) : (setCardState st s).card = { s.card with state := st } := rfl
@[simp] theorem setCardState_app (st : BitVec 4) : (setCardState st s).app = s.app := rfl
@[simp] theorem setCardState_mem (st : BitVec 4) : (setCardState st s).mem = s.mem := rfl
@[simp] theorem setCardState_inp (st : BitVec 4) : (setCardState st s).inp = s.inp := rfl
@[simp] theorem setCardState_cfg (st : BitVec 4) : (setCardState st s).cfg = s.cfg := rfl
@[simp] theorem setCardState_wire (st : BitVec 4) : (setCardState st s).wire = s.wire := rfl
@[simp] theorem setCardState_cmdResult (st : BitVec 4) : (setCardState st s).cmdResult = s.cmdResult := rfl
@[simp] theorem setCardState_free (st : BitVec 4) : (setCardState st s).free = s.free := rfl

/-! ## `bcClearStatic` -/

@[simp] theorem bcClearStatic_desc : (bcClearStatic s).desc = s.desc := rfl
@[simp] theorem bcClearStatic_neg : (bcClearStatic s).neg = s.neg := rfl
@[simp] theorem bcClearStatic_seq : (bcClearStatic s).seq = s.seq := rfl
@[simp] theorem bcClearStatic_xfer : (bcClearStatic s).xfer = s.xfer := rfl
@[simp] theorem bcClearStatic_host : (bcClearStatic s).host = s.host := rfl
@[simp] theorem bcClearStatic_log : (bcClearStatic s).log = s.log := rfl
@[simp] theorem bcClearStatic_bc : (bcClearStatic s).bc = { s.bc with sta := s.bc.sta &&& ~~~mStatic } := rfl
@[simp] theorem bcClearStatic_card : (bcClearStatic s).card = s.card := rfl
@[simp] theorem bcClearStatic_app : (bcClearStatic s).app = s.app := rfl
@[simp] theorem bcClearStatic_mem : (bcClearStatic s).mem = s.mem := rfl
@[simp] theorem bcClearStatic_inp : (bcClearStatic s).inp = s.inp := rfl
@[simp] theorem bcClearStatic_cfg : (bcClearStatic s).cfg = s.cfg := rfl
@[simp] theorem bcClearStatic_wire : (bcClearStatic s).wire = s.wire := rfl
@[simp] theorem bcClearStatic_cmdResult : (bcClearStatic s).cmdResult = s.cmdResult := rfl
@[simp] theorem bcClearStatic_free : (bcClearStatic s).free = s.free := rfl

/-! ## `bcConfig` -/

@[simp] theorem bcConfig_desc (d : Nat) (w : BitVec 3) : (bcConfig d w s).desc = s.desc := rfl
@[simp] theorem bcConfig_neg (d : Nat) (w : BitVec 3) : (bcConfig d w s).neg = s.neg := rfl
@[simp] theorem bcConfig_seq (d : Nat) (w : BitVec 3) : (bcConfig d w s).seq = s.seq := rfl
@[simp] theorem bcConfig_xfer (d : Nat) (w : BitVec 3) : (bcConfig d w s).xfer = s.xfer := rfl
@[simp] theorem bcConfig_host (d : Nat) (w : BitVec 3) : (bcConfig d w s).host = s.host := rfl
@[simp] theorem bcConfig_log (d : Nat) (w : BitVec 3) : (bcConfig d w s).log = s.log := rfl
@[simp] theorem bcConfig_bc (d : Nat) (w : BitVec 3) : (bcConfig d w s).bc = { s.bc with div := d, width := w } := rfl
@[simp] theorem bcConfig_card (d : Nat) (w : BitVec 3) : (bcConfig d w s).card = s.card := rfl
@[simp] theorem bcConfig_app (d : Nat) (w : BitVec 3) : (bcConfig d w s).app = s.app := rfl
@[simp] theorem bcConfig_mem (d : Nat) (w : BitVec 3) : (bcConfig d w s).mem = s.mem := rfl
@[simp] theorem bcConfig_inp (d : Nat) (w : BitVec 3) : (bcConfig d w s).inp = s.inp := rfl
@[simp] theorem bcConfig_cfg (d : Nat) (w : BitVec 3) : (bcConfig d w s).cfg = s.cfg := rfl
@[simp] theorem bcConfig_wire (d : Nat) (w : BitVec 3) : (bcConfig d w s).wire = s.wire := rfl
@[simp] theorem bcConfig_cmdResult (d : Nat) (w : BitVec 3) : (bcConfig d w s).cmdResult = s.cmdResult := rfl
@[simp] theorem bcConfig_free (d : Nat) (w : BitVec 3) : (bcConfig d w s).free = s.free := rfl

/-! ## `bcArm` -/

@[simp] theorem bcArm_desc (dir : Dir) (b n : Nat) : (bcArm dir b n s).desc = s.desc := rfl
@[simp] theorem bcArm_neg (dir : Dir) (b n : Nat) : (bcArm dir b n s).neg = s.neg := rfl
@[simp] theorem bcArm_seq (dir : Dir) (b n : Nat) : (bcArm dir b n s).seq = s.seq := rfl
@[simp] theorem bcArm_xfer (dir : Dir) (b n : Nat) : (bcArm dir b n s).xfer = s.xfer := rfl
@[simp] theorem bcArm_host (dir : Dir) (b n : Nat) : (bcArm dir b n s).host = s.host := rfl
@[simp] theorem bcArm_log (dir : Dir) (b n : Nat) : (bcArm dir b n s).log = s.log := rfl
@[simp] theorem bcArm_bc (dir : Dir) (b n : Nat) : (bcArm dir b n s).bc =
      { s.bc with
        sta := (s.bc.sta &&& ~~~(mTxact ||| mRxact)) ||| mAct dir
        mask := mData
        dma := some { dir := dir, buf := b, len := n }
        moved := false
        irq := false
        late := false } := rfl
@[simp] theorem bcArm_card (dir : Dir) (b n : Nat) : (bcArm dir b n s).card = s.card := rfl
@[simp] theorem bcArm_app (dir : Dir) (b n : Nat) : (bcArm dir b n s).app = s.app := rfl
@[simp] theorem bcArm_mem (dir : Dir) (b n : Nat) : (bcArm dir b n s).mem = s.mem := rfl
@[simp] theorem bcArm_inp (dir : Dir) (b n : Nat) : (bcArm dir b n s).inp = s.inp := rfl
@[simp] theorem bcArm_cfg (dir : Dir) (b n : Nat) : (bcArm dir b n s).cfg = s.cfg := rfl
@[simp] theorem bcArm_wire (dir : Dir) (b n : Nat) : (bcArm dir b n s).wire = s.wire := rfl
@[simp] theorem bcArm_cmdResult (dir : Dir) (b n : Nat) : (bcArm dir b n s).cmdResult = s.cmdResult := rfl
@[simp] theorem bcArm_free (dir : Dir) (b n : Nat) : (bcArm dir b n s).free = s.free := rfl

/-! ## `bcDisarm` -/

@[simp] theorem bcDisarm_desc : (bcDisarm s).desc = s.desc := rfl
@[simp] theorem bcDisarm_neg : (bcDisarm s).neg = s.neg := rfl
@[simp] theorem bcDisarm_seq : (bcDisarm s).seq = s.seq := rfl
@[simp] theorem bcDisarm_xfer : (bcDisarm s).xfer = s.xfer := rfl
@[simp] theorem bcDisarm_host : (bcDisarm s).host = s.host := rfl
@[simp] theorem bcDisarm_log : (bcDisarm s).log = s.log := rfl
@[simp] theorem bcDisarm_bc : (bcDisarm s).bc = { s.bc with mask := 0#32, dma := none, late := true } := rfl
@[simp] theorem bcDisarm_card : (bcDisarm s).card = s.card := rfl
@[simp] theorem bcDisarm_app : (bcDisarm s).app = s.app := rfl
@[simp] theorem bcDisarm_mem : (bcDisarm s).mem = s.mem := rfl
@[simp] theorem bcDisarm_inp : (bcDisarm s).inp = s.inp := rfl
@[simp] theorem bcDisarm_cfg : (bcDisarm s).cfg = s.cfg := rfl
@[simp] theorem bcDisarm_wire : (bcDisarm s).wire = s.wire := rfl
@[simp] theorem bcDisarm_cmdResult : (bcDisarm s).cmdResult = s.cmdResult := rfl
@[simp] theorem bcDisarm_free : (bcDisarm s).free = s.free := rfl

/-! ## `setSeq` -/

@[simp] theorem setSeq_desc (q : Seq) : (setSeq q s).desc = s.desc := rfl
@[simp] theorem setSeq_neg (q : Seq) : (setSeq q s).neg = s.neg := rfl
@[simp] theorem setSeq_seq (q : Seq) : (setSeq q s).seq = q := rfl
@[simp] theorem setSeq_xfer (q : Seq) : (setSeq q s).xfer = s.xfer := rfl
@[simp] theorem setSeq_host (q : Seq) : (setSeq q s).host = s.host := rfl
@[simp] theorem setSeq_log (q : Seq) : (setSeq q s).log = s.log := rfl
@[simp] theorem setSeq_bc (q : Seq) : (setSeq q s).bc = s.bc := rfl
@[simp] theorem setSeq_card (q : Seq) : (setSeq q s).card = s.card := rfl
@[simp] theorem setSeq_app (q : Seq) : (setSeq q s).app = s.app := rfl
@[simp] theorem setSeq_mem (q : Seq) : (setSeq q s).mem = s.mem := rfl
@[simp] theorem setSeq_inp (q : Seq) : (setSeq q s).inp = s.inp := rfl
@[simp] theorem setSeq_cfg (q : Seq) : (setSeq q s).cfg = s.cfg := rfl
@[simp] theorem setSeq_wire (q : Seq) : (setSeq q s).wire = s.wire := rfl
@[simp] theorem setSeq_cmdResult (q : Seq) : (setSeq q s).cmdResult = s.cmdResult := rfl
@[simp] theorem setSeq_free (q : Seq) : (setSeq q s).free = s.free := rfl

/-! ## `beginOp` -/

@[simp] theorem beginOp_desc : (beginOp s).desc = s.desc := rfl
@[simp] theorem beginOp_neg : (beginOp s).neg = s.neg := rfl
@[simp] theorem beginOp_seq : (beginOp s).seq = s.seq := rfl
@[simp] theorem beginOp_xfer : (beginOp s).xfer = s.xfer := rfl
@[simp] theorem beginOp_host : (beginOp s).host = { s.host with hbusy := true } := rfl
@[simp] theorem beginOp_log : (beginOp s).log = s.log := rfl
@[simp] theorem beginOp_bc : (beginOp s).bc = s.bc := rfl
@[simp] theorem beginOp_card : (beginOp s).card = s.card := rfl
@[simp] theorem beginOp_app : (beginOp s).app = s.app := rfl
@[simp] theorem beginOp_mem : (beginOp s).mem = s.mem := rfl
@[simp] theorem beginOp_inp : (beginOp s).inp = s.inp := rfl
@[simp] theorem beginOp_cfg : (beginOp s).cfg = s.cfg := rfl
@[simp] theorem beginOp_wire : (beginOp s).wire = s.wire := rfl
@[simp] theorem beginOp_cmdResult : (beginOp s).cmdResult = s.cmdResult := rfl
@[simp] theorem beginOp_free : (beginOp s).free = s.free := rfl

/-! ## `raise` -/

@[simp] theorem raise_desc (e : TransferError) : (raise e s).desc = s.desc := rfl
@[simp] theorem raise_neg (e : TransferError) : (raise e s).neg = s.neg := rfl
@[simp] theorem raise_seq (e : TransferError) : (raise e s).seq = .idle := rfl
@[simp] theorem raise_xfer (e : TransferError) : (raise e s).xfer = s.xfer := rfl
@[simp] theorem raise_host (e : TransferError) :
    (raise e s).host = { s.host with result := e.code, value := 0#32, hbusy := false } := rfl
@[simp] theorem raise_log (e : TransferError) : (raise e s).log = s.log := rfl
@[simp] theorem raise_bc (e : TransferError) : (raise e s).bc = s.bc := rfl
@[simp] theorem raise_card (e : TransferError) : (raise e s).card = s.card := rfl
@[simp] theorem raise_app (e : TransferError) : (raise e s).app = s.app := rfl
@[simp] theorem raise_mem (e : TransferError) : (raise e s).mem = s.mem := rfl
@[simp] theorem raise_inp (e : TransferError) : (raise e s).inp = s.inp := rfl
@[simp] theorem raise_cfg (e : TransferError) : (raise e s).cfg = s.cfg := rfl
@[simp] theorem raise_wire (e : TransferError) : (raise e s).wire = s.wire := rfl
@[simp] theorem raise_cmdResult (e : TransferError) : (raise e s).cmdResult = s.cmdResult := rfl
@[simp] theorem raise_free (e : TransferError) : (raise e s).free = s.free := rfl

/-! ## `finish` -/

@[simp] theorem finish_desc (v : Word) : (finish v s).desc = s.desc := rfl
@[simp] theorem finish_neg (v : Word) : (finish v s).neg = s.neg := rfl
@[simp] theorem finish_seq (v : Word) : (finish v s).seq = .idle := rfl
@[simp] theorem finish_xfer (v : Word) : (finish v s).xfer = s.xfer := rfl
@[simp] theorem finish_host (v : Word) :
    (finish v s).host = { s.host with result := 0#8, value := v, hbusy := false } := rfl
@[simp] theorem finish_log (v : Word) : (finish v s).log = s.log := rfl
@[simp] theorem finish_bc (v : Word) : (finish v s).bc = s.bc := rfl
@[simp] theorem finish_card (v : Word) : (finish v s).card = s.card := rfl
@[simp] theorem finish_app (v : Word) : (finish v s).app = s.app := rfl
@[simp] theorem finish_mem (v : Word) : (finish v s).mem = s.mem := rfl
@[simp] theorem finish_inp (v : Word) : (finish v s).inp = s.inp := rfl
@[simp] theorem finish_cfg (v : Word) : (finish v s).cfg = s.cfg := rfl
@[simp] theorem finish_wire (v : Word) : (finish v s).wire = s.wire := rfl
@[simp] theorem finish_cmdResult (v : Word) : (finish v s).cmdResult = s.cmdResult := rfl
@[simp] theorem finish_free (v : Word) : (finish v s).free = s.free := rfl

/-! ## `setTransfer` -/

@[simp] theorem setTransfer_desc (e : Option TransferError) (d m : Bool) : (setTransfer e d m s).desc = s.desc := rfl
@[simp] theorem setTransfer_neg (e : Option TransferError) (d m : Bool) : (setTransfer e d m s).neg = s.neg := rfl
@[simp] theorem setTransfer_seq (e : Option TransferError) (d m : Bool) : (setTransfer e d m s).seq = s.seq := rfl
@[simp] theorem setTransfer_xfer (e : Option TransferError) (d m : Bool) :
    (setTransfer e d m s).xfer = { pendErr := e, done := d, multi := m } := rfl
@[simp] theorem setTransfer_host (e : Option TransferError) (d m : Bool) : (setTransfer e d m s).host = s.host := rfl
@[simp] theorem setTransfer_log (e : Option TransferError) (d m : Bool) : (setTransfer e d m s).log = s.log := rfl
@[simp] theorem setTransfer_bc (e : Option TransferError) (d m : Bool) : (setTransfer e d m s).bc = s.bc := rfl
@[simp] theorem setTransfer_card (e : Option TransferError) (d m : Bool) : (setTransfer e d m s).card = s.card := rfl
@[simp] theorem setTransfer_app (e : Option TransferError) (d m : Bool) : (setTransfer e d m s).app = s.app := rfl
@[simp] theorem setTransfer_mem (e : Option TransferError) (d m : Bool) : (setTransfer e d m s).mem = s.mem := rfl
@[simp] theorem setTransfer_inp (e : Option TransferError) (d m : Bool) : (setTransfer e d m s).inp = s.inp := rfl
@[simp] theorem setTransfer_cfg (e : Option TransferError) (d m : Bool) : (setTransfer e d m s).cfg = s.cfg := rfl
@[simp] theorem setTransfer_wire (e : Option TransferError) (d m : Bool) : (setTransfer e d m s).wire = s.wire := rfl
@[simp] theorem setTransfer_cmdResult (e : Option TransferError) (d m : Bool) :
    (setTransfer e d m s).cmdResult = s.cmdResult := rfl
@[simp] theorem setTransfer_free (e : Option TransferError) (d m : Bool) : (setTransfer e d m s).free = s.free := rfl

/-! ## `setSdv2` -/

@[simp] theorem setSdv2_desc (v : Bool) : (setSdv2 v s).desc = s.desc := rfl
@[simp] theorem setSdv2_neg (v : Bool) : (setSdv2 v s).neg = { s.neg with sdv2 := v } := rfl
@[simp] theorem setSdv2_seq (v : Bool) : (setSdv2 v s).seq = s.seq := rfl
@[simp] theorem setSdv2_xfer (v : Bool) : (setSdv2 v s).xfer = s.xfer := rfl
@[simp] theorem setSdv2_host (v : Bool) : (setSdv2 v s).host = s.host := rfl
@[simp] theorem setSdv2_log (v : Bool) : (setSdv2 v s).log = s.log := rfl
@[simp] theorem setSdv2_bc (v : Bool) : (setSdv2 v s).bc = s.bc := rfl
@[simp] theorem setSdv2_card (v : Bool) : (setSdv2 v s).card = s.card := rfl
@[simp] theorem setSdv2_app (v : Bool) : (setSdv2 v s).app = s.app := rfl
@[simp] theorem setSdv2_mem (v : Bool) : (setSdv2 v s).mem = s.mem := rfl
@[simp] theorem setSdv2_inp (v : Bool) : (setSdv2 v s).inp = s.inp := rfl
@[simp] theorem setSdv2_cfg (v : Bool) : (setSdv2 v s).cfg = s.cfg := rfl
@[simp] theorem setSdv2_wire (v : Bool) : (setSdv2 v s).wire = s.wire := rfl
@[simp] theorem setSdv2_cmdResult (v : Bool) : (setSdv2 v s).cmdResult = s.cmdResult := rfl
@[simp] theorem setSdv2_free (v : Bool) : (setSdv2 v s).free = s.free := rfl

/-! ## `setOcr` -/

@[simp] theorem setOcr_desc (w : Word) : (setOcr w s).desc = s.desc := rfl
@[simp] theorem setOcr_neg (w : Word) : (setOcr w s).neg = { s.neg with ocr := w } := rfl
@[simp] theorem setOcr_seq (w : Word) : (setOcr w s).seq = s.seq := rfl
@[simp] theorem setOcr_xfer (w : Word) : (setOcr w s).xfer = s.xfer := rfl
@[simp] theorem setOcr_host (w : Word) : (setOcr w s).host = s.host := rfl
@[simp] theorem setOcr_log (w : Word) : (setOcr w s).log = s.log := rfl
@[simp] theorem setOcr_bc (w : Word) : (setOcr w s).bc = s.bc := rfl
@[simp] theorem setOcr_card (w : Word) : (setOcr w s).card = s.card := rfl
@[simp] theorem setOcr_app (w : Word) : (setOcr w s).app = s.app := rfl
@[simp] theorem setOcr_mem (w : Word) : (setOcr w s).mem = s.mem := rfl
@[simp] theorem setOcr_inp (w : Word) : (setOcr w s).inp = s.inp := rfl
@[simp] theorem setOcr_cfg (w : Word) : (setOcr w s).cfg = s.cfg := rfl
@[simp] theorem setOcr_wire (w : Word) : (setOcr w s).wire = s.wire := rfl
@[simp] theorem setOcr_cmdResult (w : Word) : (setOcr w s).cmdResult = s.cmdResult := rfl
@[simp] theorem setOcr_free (w : Word) : (setOcr w s).free = s.free := rfl

/-! ## `setCardType` -/

@[simp] theorem setCardType_desc (t : CardType) : (setCardType t s).desc = { s.desc with cardType := t } := rfl
@[simp] theorem setCardType_neg (t : CardType) : (setCardType t s).neg = s.neg := rfl
@[simp] theorem setCardType_seq (t : CardType) : (setCardType t s).seq = s.seq := rfl
@[simp] theorem setCardType_xfer (t : CardType) : (setCardType t s).xfer = s.xfer := rfl
@[simp] theorem setCardType_host (t : CardType) : (setCardType t s).host = s.host := rfl
@[simp] theorem setCardType_log (t : CardType) : (setCardType t s).log = s.log := rfl
@[simp] theorem setCardType_bc (t : CardType) : (setCardType t s).bc = s.bc := rfl
@[simp] theorem setCardType_card (t : CardType) : (setCardType t s).card = s.card := rfl
@[simp] theorem setCardType_app (t : CardType) : (setCardType t s).app = s.app := rfl
@[simp] theorem setCardType_mem (t : CardType) : (setCardType t s).mem = s.mem := rfl
@[simp] theorem setCardType_inp (t : CardType) : (setCardType t s).inp = s.inp := rfl
@[simp] theorem setCardType_cfg (t : CardType) : (setCardType t s).cfg = s.cfg := rfl
@[simp] theorem setCardType_wire (t : CardType) : (setCardType t s).wire = s.wire := rfl
@[simp] theorem setCardType_cmdResult (t : CardType) : (setCardType t s).cmdResult = s.cmdResult := rfl
@[simp] theorem setCardType_free (t : CardType) : (setCardType t s).free = s.free := rfl

/-! ## `voltPause` -/

@[simp] theorem voltPause_desc : (voltPause s).desc = s.desc := rfl
@[simp] theorem voltPause_neg : (voltPause s).neg = s.neg := rfl
@[simp] theorem voltPause_seq : (voltPause s).seq = s.seq := rfl
@[simp] theorem voltPause_xfer : (voltPause s).xfer = s.xfer := rfl
@[simp] theorem voltPause_host : (voltPause s).host = s.host := rfl
@[simp] theorem voltPause_log : (voltPause s).log = s.log := rfl
@[simp] theorem voltPause_bc : (voltPause s).bc = s.bc := rfl
@[simp] theorem voltPause_card : (voltPause s).card = s.card := rfl
@[simp] theorem voltPause_app : (voltPause s).app = s.app := rfl
@[simp] theorem voltPause_mem : (voltPause s).mem = s.mem := rfl
@[simp] theorem voltPause_inp : (voltPause s).inp = { s.inp with ms := s.inp.ms + s.cfg.voltPollDelay.toNat } := rfl
@[simp] theorem voltPause_cfg : (voltPause s).cfg = s.cfg := rfl
@[simp] theorem voltPause_wire : (voltPause s).wire = s.wire := rfl
@[simp] theorem voltPause_cmdResult : (voltPause s).cmdResult = s.cmdResult := rfl
@[simp] theorem voltPause_free : (voltPause s).free = s.free := rfl

/-! ## `spoilMem` -/

@[simp] theorem spoilMem_desc (a n : Nat) : (spoilMem a n s).desc = s.desc := rfl
@[simp] theorem spoilMem_neg (a n : Nat) : (spoilMem a n s).neg = s.neg := rfl
@[simp] theorem spoilMem_seq (a n : Nat) : (spoilMem a n s).seq = s.seq := rfl
@[simp] theorem spoilMem_xfer (a n : Nat) : (spoilMem a n s).xfer = s.xfer := rfl
@[simp] theorem spoilMem_host (a n : Nat) : (spoilMem a n s).host = s.host := rfl
@[simp] theorem spoilMem_log (a n : Nat) : (spoilMem a n s).log = s.log := rfl
@[simp] theorem spoilMem_bc (a n : Nat) : (spoilMem a n s).bc = s.bc := rfl
@[simp] theorem spoilMem_card (a n : Nat) : (spoilMem a n s).card = s.card := rfl
@[simp] theorem spoilMem_app (a n : Nat) : (spoilMem a n s).app = s.app := rfl
@[simp] theorem spoilMem_mem (a n : Nat) : (spoilMem a n s).mem = s.mem.write a (freeBytes s.free n) := rfl
@[simp] theorem spoilMem_inp (a n : Nat) : (spoilMem a n s).inp = s.inp := rfl
@[simp] theorem spoilMem_cfg (a n : Nat) : (spoilMem a n s).cfg = s.cfg := rfl
@[simp] theorem spoilMem_wire (a n : Nat) : (spoilMem a n s).wire = s.wire := rfl
@[simp] theorem spoilMem_cmdResult (a n : Nat) : (spoilMem a n s).cmdResult = s.cmdResult := rfl
@[simp] theorem spoilMem_free (a n : Nat) : (spoilMem a n s).free = s.free + n := rfl

/-! ## `spoilCard` -/

@[simp] theorem spoilCard_desc (a n : Nat) : (spoilCard a n s).desc = s.desc := rfl
@[simp] theorem spoilCard_neg (a n : Nat) : (spoilCard a n s).neg = s.neg := rfl
@[simp] theorem spoilCard_seq (a n : Nat) : (spoilCard a n s).seq = s.seq := rfl
@[simp] theorem spoilCard_xfer (a n : Nat) : (spoilCard a n s).xfer = s.xfer := rfl
@[simp] theorem spoilCard_host (a n : Nat) : (spoilCard a n s).host = s.host := rfl
@[simp] theorem spoilCard_log (a n : Nat) : (spoilCard a n s).log = s.log := rfl
@[simp] theorem spoilCard_bc (a n : Nat) : (spoilCard a n s).bc = s.bc := rfl
@[simp] theorem spoilCard_card (a n : Nat) :
    (spoilCard a n s).card = { s.card with mem := s.card.mem.write a (freeBytes s.free n) } := rfl
@[simp] theorem spoilCard_app (a n : Nat) : (spoilCard a n s).app = s.app := rfl
@[simp] theorem spoilCard_mem (a n : Nat) : (spoilCard a n s).mem = s.mem := rfl
@[simp] theorem spoilCard_inp (a n : Nat) : (spoilCard a n s).inp = s.inp := rfl
@[simp] theorem spoilCard_cfg (a n : Nat) : (spoilCard a n s).cfg = s.cfg := rfl
@[simp] theorem spoilCard_wire (a n : Nat) : (spoilCard a n s).wire = s.wire := rfl
@[simp] theorem spoilCard_cmdResult (a n : Nat) : (spoilCard a n s).cmdResult = s.cmdResult := rfl
@[simp] theorem spoilCard_free (a n : Nat) : (spoilCard a n s).free = s.free + n := rfl

/-! ## `setInbox` -/

@[simp] theorem setInbox_desc (r : List HostMove) : (setInbox r s).desc = s.desc := rfl
@[simp] theorem setInbox_neg (r : List HostMove) : (setInbox r s).neg = s.neg := rfl
@[simp] theorem setInbox_seq (r : List HostMove) : (setInbox r s).seq = s.seq := rfl
@[simp] theorem setInbox_xfer (r : List HostMove) : (setInbox r s).xfer = s.xfer := rfl
@[simp] theorem setInbox_host (r : List HostMove) : (setInbox r s).host = s.host := rfl
@[simp] theorem setInbox_log (r : List HostMove) : (setInbox r s).log = s.log := rfl
@[simp] theorem setInbox_bc (r : List HostMove) : (setInbox r s).bc = s.bc := rfl
@[simp] theorem setInbox_card (r : List HostMove) : (setInbox r s).card = s.card := rfl
@[simp] theorem setInbox_app (r : List HostMove) : (setInbox r s).app = s.app := rfl
@[simp] theorem setInbox_mem (r : List HostMove) : (setInbox r s).mem = s.mem := rfl
@[simp] theorem setInbox_inp (r : List HostMove) : (setInbox r s).inp = { s.inp with inbox := r } := rfl
@[simp] theorem setInbox_cfg (r : List HostMove) : (setInbox r s).cfg = s.cfg := rfl
@[simp] theorem setInbox_wire (r : List HostMove) : (setInbox r s).wire = s.wire := rfl
@[simp] theorem setInbox_cmdResult (r : List HostMove) : (setInbox r s).cmdResult = s.cmdResult := rfl
@[simp] theorem setInbox_free (r : List HostMove) : (setInbox r s).free = s.free := rfl

/-! ## `setOp` -/

@[simp] theorem setOp_desc (w : Word) : (setOp w s).desc = s.desc := rfl
@[simp] theorem setOp_neg (w : Word) : (setOp w s).neg = s.neg := rfl
@[simp] theorem setOp_seq (w : Word) : (setOp w s).seq = s.seq := rfl
@[simp] theorem setOp_xfer (w : Word) : (setOp w s).xfer = s.xfer := rfl
@[simp] theorem setOp_host (w : Word) : (setOp w s).host = { s.host with op := w } := rfl
@[simp] theorem setOp_log (w : Word) : (setOp w s).log = s.log := rfl
@[simp] theorem setOp_bc (w : Word) : (setOp w s).bc = s.bc := rfl
@[simp] theorem setOp_card (w : Word) : (setOp w s).card = s.card := rfl
@[simp] theorem setOp_app (w : Word) : (setOp w s).app = s.app := rfl
@[simp] theorem setOp_mem (w : Word) : (setOp w s).mem = s.mem := rfl
@[simp] theorem setOp_inp (w : Word) : (setOp w s).inp = s.inp := rfl
@[simp] theorem setOp_cfg (w : Word) : (setOp w s).cfg = s.cfg := rfl
@[simp] theorem setOp_wire (w : Word) : (setOp w s).wire = s.wire := rfl
@[simp] theorem setOp_cmdResult (w : Word) : (setOp w s).cmdResult = s.cmdResult := rfl
@[simp] theorem setOp_free (w : Word) : (setOp w s).free = s.free := rfl

end Sys2Proof.Machine
end

