-- ==== Sys2Proof/Laws/Issuer.lean ====
section
/-! SUPPORT. Everything the Command Issuer can do, said once (`Issued`), and what it does when the answer is prompt or never
comes. -/

namespace Sys2Proof.Machine

open Sys2Proof

/-! ## The send -/

theorem sentAs_eq {s t : State} (hs : t.seq = s.seq) (ha : t.app = s.app) (idx : BitVec 6) (arg : Word) (kind : Kind) :
    sentAs idx arg kind t = sentAs idx arg kind s := by
  simp [sentAs, hs, ha]

/-- The byte range of card storage, first address and length, that this command leaves open when it reaches the card. -/
def openRange (idx : BitVec 6) (arg : Word) (s : State) : Nat × Nat := spoiledRange (sentAs idx arg .rNone s) s.card

theorem openRange_kind (idx : BitVec 6) (arg : Word) (kind : Kind) (s : State) :
    spoiledRange (sentAs idx arg kind s) s.card = openRange idx arg s := rfl

theorem Moved.openRange {s t : State} (h : Moved s t) (idx : BitVec 6) (arg : Word) :
    openRange idx arg t = openRange idx arg s := by
  simp only [Machine.openRange, spoiledRange, sentAs, h.app, eraseRange, eraseUnit, preErased, h.eraseFirst, h.eraseLast, h.preErase,
    h.byBlock, h.mmc, h.csd]

/-- Only CMD38 and CMD25 leave a range of card storage open. -/
theorem openRange_none {idx : BitVec 6} (h38 : idx ≠ 38#6) (h25 : idx ≠ 25#6) (arg : Word) (s : State) :
    openRange idx arg s = (0, 0) := by
  unfold openRange spoiledRange
  have h1 : idx.toNat ≠ 38 := fun h => h38 (BitVec.eq_of_toNat_eq h)
  have h2 : idx.toNat ≠ 25 := fun h => h25 (BitVec.eq_of_toNat_eq h)
  show (match s.app, idx.toNat with | false, 38 => _ | false, 25 => _ | _, _ => (0, 0)) = _
  split
  · rename_i h; exact absurd h h1
  · rename_i h; exact absurd h h2
  · rfl

/-- What reaches the card changes of it only what it keeps of an argument. -/
theorem cardReceives_frame (c : Sent) (k : Card) :
    cardReceives c k =
      { k with
        addr := (cardReceives c k).addr
        eraseFirst := (cardReceives c k).eraseFirst
        eraseLast := (cardReceives c k).eraseLast
        preErase := (cardReceives c k).preErase } := by
  unfold cardReceives
  split <;> rfl

theorem cardReceives_mem (c : Sent) (k : Card) (m : Memory) :
    cardReceives c { k with mem := m } = { cardReceives c k with mem := m } := by
  unfold cardReceives
  split <;> rfl

/-- What every send leaves alone. -/
structure SendFrame (idx : BitVec 6) (arg : Word) (kind : Kind) (s t : State) : Prop where
  desc : t.desc = s.desc
  neg : t.neg = s.neg
  seq : t.seq = s.seq
  host : t.host = s.host
  log : t.log = s.log
  app : t.app = s.app
  cfg : t.cfg = s.cfg
  cmdResult : t.cmdResult = s.cmdResult
  inp : t.inp = s.inp
  xfer : t.xfer = s.xfer
  mem : t.mem = s.mem
  wire : t.wire = s.wire ++ [sentAs idx arg kind s]
  bc : t.bc = { s.bc with sta := s.bc.sta ||| mCmdact, cmd := sentAs idx arg kind s, late := false }
  card : ∃ m, t.card = { cardReceives (sentAs idx arg kind s) s.card with mem := m }
  cardMem : (openRange idx arg s).2 = 0 → t.card.mem = s.card.mem
  free : (openRange idx arg s).2 = 0 → t.free = s.free
  cardOutside :
    ∀ x, x < (openRange idx arg s).1 ∨ (openRange idx arg s).1 + (openRange idx arg s).2 ≤ x →
      t.card.mem.read x = s.card.mem.read x
  cardWf : s.card.mem.wf → t.card.mem.wf

theorem send_frame (idx : BitVec 6) (arg : Word) (kind : Kind) (s : State) :
    SendFrame idx arg kind s (bcSend idx arg kind s) := by
  have hm : (cardReceives (sentAs idx arg kind s) s.card).mem = s.card.mem := by rw [cardReceives_frame]
  unfold bcSend spoilOnCard
  dsimp only
  rw [openRange_kind]
  split
  · constructor <;> first | rfl | skip
    · exact ⟨_, rfl⟩
    · exact fun _ => hm
    · exact fun _ => rfl
    · intro x _
      show Memory.read (cardReceives _ s.card).mem x = _
      rw [hm]
    · intro h
      show Memory.wf (cardReceives _ s.card).mem
      rw [hm]
      exact h
  · rename_i hne
    constructor <;> first | rfl | exact fun h => absurd h hne | skip
    · exact ⟨_, cardReceives_mem _ _ _⟩
    · intro x hx
      show Memory.read (cardReceives _ _).mem x = _
      rw [spoilCard_card, cardReceives_mem]
      exact Memory.read_write_other _ (by rw [length_freeBytes]; exact hx)
    · intro h
      show Memory.wf (cardReceives _ _).mem
      rw [spoilCard_card, cardReceives_mem]
      exact Memory.wf_write h _ _

/-- What a send leaves of the card but for its storage. -/
theorem SendFrame.cardPart {α : Type} {idx : BitVec 6} {arg : Word} {kind : Kind} {s t : State} (h : SendFrame idx arg kind s t)
    (f : Card → α) (hf : ∀ k m, f { k with mem := m } = f k) :
    f t.card = f (cardReceives (sentAs idx arg kind s) s.card) := by
  obtain ⟨m, hm⟩ := h.card
  rw [hm, hf]

/-! ## The whole procedure -/

/-- `t` is `s` after the issuer sent this command and returned `r`: no engine register is written (41_command_issuer R243),
the static flags are clear (R240), and the prefix bit says whether a CMD55 succeeded (30_encoding R130). -/
structure Issued (idx : BitVec 6) (arg : Word) (kind : Kind) (s t : State) (r : Res Fields) : Prop where
  desc : t.desc = s.desc
  neg : t.neg = s.neg
  seq : t.seq = s.seq
  host : t.host = s.host
  log : t.log = s.log
  cfg : t.cfg = s.cfg
  cmdResult : t.cmdResult = s.cmdResult
  inbox : t.inp.inbox = s.inp.inbox
  multi : t.xfer.multi = s.xfer.multi
  app : t.app = prefixOf idx r
  wire : t.wire = s.wire ++ [sentAs idx arg kind s]
  cmd : t.bc.cmd = sentAs idx arg kind s
  div : t.bc.div = s.bc.div
  width : t.bc.width = s.bc.width
  static : t.bc.sta &&& mStatic = 0#32
  addr : t.card.addr = (cardReceives (sentAs idx arg kind s) s.card).addr
  eraseFirst : t.card.eraseFirst = (cardReceives (sentAs idx arg kind s) s.card).eraseFirst
  eraseLast : t.card.eraseLast = (cardReceives (sentAs idx arg kind s) s.card).eraseLast
  preErase : t.card.preErase = (cardReceives (sentAs idx arg kind s) s.card).preErase
  byBlock : t.card.byBlock = s.card.byBlock
  mmc : t.card.mmc = s.card.mmc
  csd : t.card.csd = s.card.csd
  dma : t.bc.dma = none ∨ t.bc.dma = s.bc.dma
  mask : t.bc.mask = 0#32 ∨ t.bc.mask = s.bc.mask
  mem : (∀ d, s.bc.dma = some d → d.dir = .tx) → t.mem = s.mem
  memOutside : ∀ x, (∀ d, s.bc.dma = some d → x < d.buf ∨ d.buf + d.len ≤ x) → t.mem.read x = s.mem.read x
  memKey : ∀ c ∈ t.mem, c ∈ s.mem ∨ ∃ d, s.bc.dma = some d ∧ d.buf ≤ c.1 ∧ c.1 < d.buf + d.len
  memWf : s.mem.wf → t.mem.wf
  cardMem : (∀ d, s.bc.dma = some d → d.dir = .rx) → (openRange idx arg s).2 = 0 → t.card.mem = s.card.mem
  cardOpen :
    s.bc.dma = none →
      ∀ x, x < (openRange idx arg s).1 ∨ (openRange idx arg s).1 + (openRange idx arg s).2 ≤ x →
        t.card.mem.read x = s.card.mem.read x
  cardOutside :
    (openRange idx arg s).2 = 0 → (∀ k, cardReceives (sentAs idx arg kind s) k = k) →
      ∀ x, (∀ d, s.bc.dma = some d → x < s.card.addr ∨ s.card.addr + d.len ≤ x) →
        t.card.mem.read x = s.card.mem.read x
  cardWf : s.card.mem.wf → t.card.mem.wf
  free : s.bc.dma = none → (openRange idx arg s).2 = 0 → t.free = s.free
  reserved : s.bc.sta.extractLsb' 14 18 = 0#18 → t.bc.sta.extractLsb' 14 18 = 0#18

/-- The static flags are cleared: nothing else changes. -/
theorem moved_clear (s : State) : Moved s (bcClearStatic s) := by
  refine moved_flags _ rfl rfl rfl (.inr rfl) (.inr rfl) fun h => ?_
  rw [BitVec.extractLsb'_and, h, BitVec.zero_and]

/-- What the card takes from a command depends only on what it has kept, and on its addressing mode. -/
theorem Moved.receives {s t : State} (h : Moved s t) (c : Sent) :
    (cardReceives c t.card).addr = (cardReceives c s.card).addr ∧
      (cardReceives c t.card).eraseFirst = (cardReceives c s.card).eraseFirst ∧
      (cardReceives c t.card).eraseLast = (cardReceives c s.card).eraseLast ∧
      (cardReceives c t.card).preErase = (cardReceives c s.card).preErase := by
  unfold cardReceives
  rw [h.byBlock]
  split <;> simp only [h.addr, h.eraseFirst, h.eraseLast, h.preErase, and_self]

/-- Moves before the send, the send, and moves after it. -/
theorem issued_of {idx : BitVec 6} {arg : Word} {kind : Kind} {s a b c : State} {r : Res Fields} (h1 : Moved s a)
    (h2 : SendFrame idx arg kind a b) (h3 : Moved b c) (hs : c.bc.sta &&& mStatic = 0#32) :
    Issued idx arg kind s { c with app := prefixOf idx r } r := by
  have hsent : sentAs idx arg kind a = sentAs idx arg kind s := sentAs_eq h1.seq h1.app _ _ _
  have hopen : openRange idx arg a = openRange idx arg s := h1.openRange idx arg
  obtain ⟨g1, g2, g3, g4⟩ := h1.receives (sentAs idx arg kind s)
  have hdma : b.bc.dma = a.bc.dma := by rw [h2.bc]
  have hcmd : b.bc.cmd = sentAs idx arg kind a := by rw [h2.bc]
  have hbd : b.bc.dma = none ∨ b.bc.dma = s.bc.dma := by rw [hdma]; exact h1.dma
  have hcd : c.bc.dma = none ∨ c.bc.dma = s.bc.dma := by
    rcases h3.dma with e | e
    · exact .inl e
    · rw [e]; exact hbd
  have hb (P : Dma → Prop) (h : ∀ d, s.bc.dma = some d → P d) : ∀ d, b.bc.dma = some d → P d := by
    intro d hd
    rcases hbd with e | e
    · simp [e] at hd
    · exact h d (e ▸ hd)
  exact
    { desc := h3.desc.trans (h2.desc.trans h1.desc)
      neg := h3.neg.trans (h2.neg.trans h1.neg)
      seq := h3.seq.trans (h2.seq.trans h1.seq)
      host := h3.host.trans (h2.host.trans h1.host)
      log := h3.log.trans (h2.log.trans h1.log)
      cfg := h3.cfg.trans (h2.cfg.trans h1.cfg)
      cmdResult := h3.cmdResult.trans (h2.cmdResult.trans h1.cmdResult)
      inbox := h3.inbox.trans ((congrArg Inputs.inbox h2.inp).trans h1.inbox)
      multi := h3.multi.trans ((congrArg Transfer.multi h2.xfer).trans h1.multi)
      app := rfl
      wire := by show c.wire = _; rw [h3.wire, h2.wire, h1.wire, hsent]
      cmd := by show c.bc.cmd = _; rw [h3.cmd, hcmd, hsent]
      div := h3.div.trans ((congrArg Bc.div h2.bc).trans h1.div)
      width := h3.width.trans ((congrArg Bc.width h2.bc).trans h1.width)
      static := hs
      addr := by
        show c.card.addr = _
        rw [h3.addr, h2.cardPart (·.addr) (fun _ _ => rfl), hsent]
        exact g1
      eraseFirst := by
        show c.card.eraseFirst = _
        rw [h3.eraseFirst, h2.cardPart (·.eraseFirst) (fun _ _ => rfl), hsent]
        exact g2
      eraseLast := by
        show c.card.eraseLast = _
        rw [h3.eraseLast, h2.cardPart (·.eraseLast) (fun _ _ => rfl), hsent]
        exact g3
      preErase := by
        show c.card.preErase = _
        rw [h3.preErase, h2.cardPart (·.preErase) (fun _ _ => rfl), hsent]
        exact g4
      byBlock := by
        show c.card.byBlock = _
        rw [h3.byBlock, h2.cardPart (·.byBlock) (fun _ _ => rfl), cardReceives_frame]
        exact h1.byBlock
      mmc := by
        show c.card.mmc = _
        rw [h3.mmc, h2.cardPart (·.mmc) (fun _ _ => rfl), cardReceives_frame]
        exact h1.mmc
      csd := by
        show c.card.csd = _
        rw [h3.csd, h2.cardPart (·.csd) (fun _ _ => rfl), cardReceives_frame]
        exact h1.csd
      dma := hcd
      mask := by
        show c.bc.mask = _ ∨ c.bc.mask = _
        rcases h3.mask with e | e
        · exact .inl e
        · rw [e, congrArg Bc.mask h2.bc]; exact h1.mask
      mem := fun h => (h3.mem (hb _ h)).trans (h2.mem.trans (h1.mem h))
      memOutside := fun x h => (h3.memOutside x (hb _ h)).trans ((congrArg (Memory.read · x) h2.mem).trans (h1.memOutside x h))
      memKey := fun k hk => by
        rcases h3.memKey k hk with hk | ⟨d, hd, hk⟩
        · exact h1.memKey k (h2.mem ▸ hk)
        · rcases hbd with e | e
          · simp [e] at hd
          · exact .inr ⟨d, e ▸ hd, hk⟩
      memWf := fun h => h3.memWf (h2.mem ▸ h1.memWf h)
      cardMem := fun h he => (h3.cardMem (hb _ h)).trans ((h2.cardMem (by rw [hopen]; exact he)).trans (h1.cardMem h))
      cardOpen := fun hd x hx => by
        have hs : ∀ d, s.bc.dma = some d → d.dir = .rx := by simp [hd]
        show c.card.mem.read x = _
        rw [h3.cardMem (hb _ hs), h2.cardOutside x (by rw [hopen]; exact hx), h1.cardMem hs]
      cardOutside := fun he hr x hx => by
        show c.card.mem.read x = _
        have hba : b.card.addr = s.card.addr := by
          have := h2.cardPart (·.addr) (fun _ _ => rfl)
          rw [hsent, hr] at this
          rw [this, h1.addr]
        rw [h3.cardOutside x, h2.cardMem (by rw [hopen]; exact he), h1.cardOutside x hx]
        rw [hba]
        exact hb _ hx
      cardWf := fun h => h3.cardWf (h2.cardWf (h1.cardWf h))
      free := fun hd he => by
        have hbn : b.bc.dma = none := by rcases hbd with e | e <;> simp [e, hd]
        exact (h3.free hbn).trans ((h2.free (by rw [hopen]; exact he)).trans (h1.free hd))
      reserved := fun h => h3.reserved <| by
        rw [congrArg Bc.sta h2.bc, BitVec.extractLsb'_or, h1.reserved h]
        decide }

/-- Everything the Command Issuer can do. -/
theorem issueCmd_issued (idx : BitVec 6) (arg : Word) (kind : Kind) (s : State) :
    Issued idx arg kind s (issueCmd idx arg kind s).1 (issueCmd idx arg kind s).2 := by
  unfold issueCmd
  exact issued_of ((moved_clear s).trans (moved_sync _)) (send_frame idx arg kind _)
    ((moved_waitFor _ _ _).trans (moved_clear _)) (clear_static _)

/-! ## A prompt answer -/

/-- The four words a prompt answer to a command sent at this state carries. -/
def answerAt (idx : BitVec 6) (arg : Word) (kind : Kind) (a : Answer) (w : Word × Word × Word × Word) (s : State) :
    Word × Word × Word × Word :=
  answerWords (sentAs idx arg kind s) a s.card w

/-- The state in which a prompt answer leaves the machine, before the decoded flags are cleared. -/
def answeredAt (idx : BitVec 6) (arg : Word) (kind : Kind) (a : Answer) (rc : BitVec 6) (w : Word × Word × Word × Word)
    (r : List (List Ev)) (s : State) : State :=
  let t := bcSend idx arg kind (bcClearStatic s)
  setSched r
    { t with
      bc := respondBc a rc (answerAt idx arg kind a w s) t.bc
      card := cardAnswers (sentAs idx arg kind s) a (answerAt idx arg kind a w s).1 t.card }

theorem hasFlag_cmdact (w : Word) : hasFlag (w ||| mCmdact) mCmdact = true := by
  rw [hasFlag_or]
  have : hasFlag mCmdact mCmdact = true := by decide
  rw [this, Bool.or_true]

theorem spoilOnCard_setSched (c : Sent) (r : List (List Ev)) (s : State) :
    spoilOnCard c (setSched r s) = setSched r (spoilOnCard c s) := by
  unfold spoilOnCard
  show (if (spoiledRange c s.card).2 = 0 then _ else _) = _
  dsimp only
  split <;> rfl

theorem bcSend_setSched (idx : BitVec 6) (arg : Word) (kind : Kind) (r : List (List Ev)) (s : State) :
    bcSend idx arg kind (setSched r s) = setSched r (bcSend idx arg kind s) := by
  unfold bcSend
  dsimp only
  rw [spoilOnCard_setSched]
  rfl

theorem bcSend_inp (idx : BitVec 6) (arg : Word) (kind : Kind) (s : State) : (bcSend idx arg kind s).inp = s.inp :=
  (send_frame idx arg kind s).inp

/-- What the card answers depends on its state, its CSD and its addressing mode, not on the rest of it. -/
theorem answerWords_congr {k k' : Card} (hs : k'.state = k.state) (hc : k'.csd = k.csd) (hb : k'.byBlock = k.byBlock) (c : Sent)
    (a : Answer) (w : Word × Word × Word × Word) : answerWords c a k' w = answerWords c a k w := by
  unfold answerWords readsCsd
  rw [hs, hc, hb]

theorem bcSend_answers (idx : BitVec 6) (arg : Word) (kind : Kind) (a : Answer) (w : Word × Word × Word × Word) (s : State) :
    answerWords (sentAs idx arg kind s) a (bcSend idx arg kind (bcClearStatic s)).card w = answerAt idx arg kind a w s := by
  have f := send_frame idx arg kind (bcClearStatic s)
  refine answerWords_congr ?_ ?_ ?_ _ _ _
  · rw [f.cardPart (·.state) fun _ _ => rfl, cardReceives_frame]; rfl
  · rw [f.cardPart (·.csd) fun _ _ => rfl, cardReceives_frame]; rfl
  · rw [f.cardPart (·.byBlock) fun _ _ => rfl, cardReceives_frame]; rfl

theorem respond_sent (idx : BitVec 6) (arg : Word) (kind : Kind) (a : Answer) (rc : BitVec 6) (w1 w2 w3 w4 : Word)
    (r : List (List Ev)) (s : State) :
    setSched r (respond a rc w1 w2 w3 w4 (bcSend idx arg kind (bcClearStatic s))) =
      answeredAt idx arg kind a rc (w1, w2, w3, w4) r s := by
  have f := send_frame idx arg kind (bcClearStatic s)
  have hcmd : (bcSend idx arg kind (bcClearStatic s)).bc.cmd = sentAs idx arg kind s := congrArg Bc.cmd f.bc
  have hsta : hasFlag (bcSend idx arg kind (bcClearStatic s)).bc.sta mCmdact = true := by
    rw [congrArg Bc.sta f.bc]
    exact hasFlag_cmdact _
  unfold respond answeredAt
  rw [if_pos hsta, hcmd, bcSend_answers]

/-- The wait of a command answered in the next batch ends with that answer. -/
theorem waitLoop_first {ended : State → Bool} {m0 t : Nat} {b : List Ev} {r : List (List Ev)} {s : State}
    (h : ended (applyBatch b s) = true) : waitLoop ended m0 t (b :: r) s = (setSched r (applyBatch b s), false) := by
  cases r with
  | nil => simp [waitLoop, h]
  | cons c r => simp [waitLoop, h]

theorem answeredAt_sta (idx : BitVec 6) (arg : Word) (kind : Kind) (a : Answer) (rc : BitVec 6)
    (w : Word × Word × Word × Word) (r : List (List Ev)) (s : State) :
    (answeredAt idx arg kind a rc w r s).bc.sta =
      ((((s.bc.sta &&& ~~~mStatic) ||| mCmdact) &&& ~~~mCmdact) ||| answerFlag kind a) := by
  have f := send_frame idx arg kind (bcClearStatic s)
  show (respondBc a rc (answerAt idx arg kind a w s) (bcSend idx arg kind (bcClearStatic s)).bc).sta = _
  rw [(respondBc_frame a rc _ _).2.2.2.2.2.2.2, congrArg Bc.sta f.bc, congrArg Bc.cmd f.bc]
  rfl

/-- A command answered promptly: its wait ends at once, and its result is the decoded answer (41_command_issuer R240). -/
theorem issueCmd_prompt (idx : BitVec 6) (arg : Word) (kind : Kind) (a : Answer) (rc : BitVec 6) (w1 w2 w3 w4 : Word)
    (r : List (List Ev)) (s : State) (hs : s.inp.sched = [] :: [.respond a rc w1 w2 w3 w4] :: r) :
    issueCmd idx arg kind s =
      ({ bcClearStatic (answeredAt idx arg kind a rc (w1, w2, w3, w4) r s) with
          app := prefixOf idx (decodeResponse kind idx (answeredAt idx arg kind a rc (w1, w2, w3, w4) r s).bc) },
        decodeResponse kind idx (answeredAt idx arg kind a rc (w1, w2, w3, w4) r s).bc) := by
  have hsync : sync (bcClearStatic s) = setSched ([.respond a rc w1 w2 w3 w4] :: r) (bcClearStatic s) := by
    unfold sync
    show (match s.inp.sched with | [] => _ | b :: r => _) = _
    rw [hs]
    rfl
  have hbatch : ∀ r', setSched r' (applyBatch [.respond a rc w1 w2 w3 w4]
      (setSched ([.respond a rc w1 w2 w3 w4] :: r) (bcSend idx arg kind (bcClearStatic s)))) =
      answeredAt idx arg kind a rc (w1, w2, w3, w4) r' s := by
    intro r'
    show setSched r' (respond a rc w1 w2 w3 w4 (setSched _ _)) = _
    rw [← respond_sent]
    unfold respond
    show setSched r' (if hasFlag (bcSend idx arg kind (bcClearStatic s)).bc.sta mCmdact = true then _ else _) = _
    split <;> rfl
  have hend : waitEnded kind (applyBatch [.respond a rc w1 w2 w3 w4]
      (setSched ([.respond a rc w1 w2 w3 w4] :: r) (bcSend idx arg kind (bcClearStatic s)))) = true := by
    have h1 : waitEnded kind (setSched r (applyBatch [.respond a rc w1 w2 w3 w4]
        (setSched ([.respond a rc w1 w2 w3 w4] :: r) (bcSend idx arg kind (bcClearStatic s))))) = true := by
      rw [hbatch r]
      unfold waitEnded
      rw [answeredAt_sta]
      exact commandEnded_answered _ _ _
    exact h1
  unfold issueCmd waitFor
  dsimp only
  rw [hsync, bcSend_setSched]
  have hl : (setSched ([.respond a rc w1 w2 w3 w4] :: r) (bcSend idx arg kind (bcClearStatic s))).inp.sched =
      [.respond a rc w1 w2 w3 w4] :: r := rfl
  rw [hl, waitLoop_first hend, hbatch r]
  rfl

/-! ## No answer at all -/

/-- With no move of any other agent left, a command times out by the TIMER's fairness (41_command_issuer R240,
60_exceptions R535). -/
theorem issueCmd_silent_eq (idx : BitVec 6) (arg : Word) (kind : Kind) (s : State) (hs : s.inp.sched = []) :
    issueCmd idx arg kind s =
      ({ bcClearStatic
            (fairTick s.inp.ms (commandTimeoutMs s.cfg idx) (setSched [] (bcSend idx arg kind (bcClearStatic s)))) with
          app := false },
        .err .cmdResponseTimeout) := by
  have hsync : sync (bcClearStatic s) = bcClearStatic s := by
    unfold sync
    show (match s.inp.sched with | [] => _ | b :: r => _) = _
    rw [hs]
  have hend : waitEnded kind (bcSend idx arg kind (bcClearStatic s)) = false := by
    unfold waitEnded
    rw [congrArg Bc.sta (send_frame idx arg kind (bcClearStatic s)).bc]
    apply commandEnded_of_static_zero
    show ((s.bc.sta &&& ~~~mStatic) ||| mCmdact) &&& mStatic = 0#32
    ext i hi
    have e : (mCmdact &&& mStatic)[i] = (0#32)[i] := by
      have : mCmdact &&& mStatic = 0#32 := by decide
      rw [this]
    simp only [BitVec.getElem_and, BitVec.getElem_or, BitVec.getElem_not, BitVec.getElem_zero] at e ⊢
    revert e
    generalize mStatic[i] = p
    generalize mCmdact[i] = q
    cases p <;> cases q <;> simp
  unfold issueCmd waitFor
  dsimp only
  rw [hsync]
  have hl : (bcSend idx arg kind (bcClearStatic s)).inp.sched = [] := by rw [bcSend_inp]; exact hs
  rw [hl]
  have hn : (bcSend idx arg kind (bcClearStatic s)).inp.ms = s.inp.ms := by rw [bcSend_inp]; rfl
  rw [hn]
  simp [waitLoop, hend, prefixOf]

theorem issueCmd_silent (idx : BitVec 6) (arg : Word) (kind : Kind) (s : State) (hs : s.inp.sched = []) :
    (issueCmd idx arg kind s).2 = .err .cmdResponseTimeout := by
  rw [issueCmd_silent_eq idx arg kind s hs]

theorem fairTick_sched (m0 t : Nat) (s : State) :
    (fairTick m0 t s).inp.sched = s.inp.sched ∧ (fairTick m0 t s).inp.breaches = s.inp.breaches := by
  unfold fairTick
  split <;> exact ⟨rfl, rfl⟩

/-- Where no move of another agent is left, none is made: BC leaves no duty. -/
def Calm (s t : State) : Prop := s.inp.sched = [] → t.inp.sched = [] ∧ t.inp.breaches = s.inp.breaches

theorem Calm.refl (s : State) : Calm s s := fun h => ⟨h, rfl⟩

theorem Calm.trans {s t u : State} (h : Calm s t) (k : Calm t u) : Calm s u := fun e =>
  ⟨(k (h e).1).1, (k (h e).1).2.trans (h e).2⟩

theorem Calm.of_inp {s t : State} (h : t.inp = s.inp) : Calm s t := fun e => ⟨by rw [h]; exact e, by rw [h]⟩

theorem calm_sync (s : State) : Calm s (sync s) := fun h => by
  unfold sync
  rw [h]
  exact ⟨h, rfl⟩

theorem calm_waitFor (ended : State → Bool) (t : Nat) (s : State) : Calm s (waitFor ended t s).1 := fun h => by
  unfold waitFor
  rw [h]
  unfold waitLoop
  split
  · exact ⟨rfl, rfl⟩
  · exact fairTick_sched _ _ _

theorem calm_issueCmd (idx : BitVec 6) (arg : Word) (kind : Kind) (s : State) : Calm s (issueCmd idx arg kind s).1 := fun h => by
  rw [issueCmd_silent_eq idx arg kind s h]
  have hf := fairTick_sched s.inp.ms (commandTimeoutMs s.cfg idx) (setSched [] (bcSend idx arg kind (bcClearStatic s)))
  refine ⟨hf.1, hf.2.trans ?_⟩
  show (bcSend idx arg kind (bcClearStatic s)).inp.breaches = _
  rw [bcSend_inp]
  rfl

theorem applyEv_sched (e : Ev) (u : State) : (applyEv e u).inp.sched = u.inp.sched := by
  cases e <;> unfold applyEv
  · rfl
  · rfl
  · dsimp only [respond]; split <;> rfl
  · dsimp only [dataMove]
    split
    · rfl
    · split
      · dsimp only [armedMove, dmaMove]
        split
        · split <;> rfl
        · rfl
      · split <;> rfl
  · rfl
  · dsimp only [isrMove, isr]; split
    · split <;> rfl
    · rfl
  · rfl

theorem applyBatch_sched (b : List Ev) (u : State) : (applyBatch b u).inp.sched = u.inp.sched := by
  induction b generalizing u with
  | nil => rfl
  | cons e b ih => rw [applyBatch, ih, applyEv_sched]

/-- One batch is taken. -/
theorem sync_sched (s : State) : (sync s).inp.sched = s.inp.sched.tail := by
  unfold sync
  split
  · rename_i h
    simp [h]
  · rename_i b r h
    rw [applyBatch_sched, h]
    rfl

/-- The schedule never grows under a command, and a non-empty one shrinks. -/
theorem issueCmd_sched (idx : BitVec 6) (arg : Word) (kind : Kind) (s : State) :
    (issueCmd idx arg kind s).1.inp.sched.length ≤ s.inp.sched.length - 1 := by
  unfold issueCmd waitFor
  show (waitLoop _ _ _ _ _).1.inp.sched.length ≤ _
  refine Nat.le_trans (waitLoop_sched _ _ _ _ _) ?_
  rw [bcSend_inp, sync_sched]
  show s.inp.sched.tail.length ≤ _
  rw [List.length_tail]

/-- A command that succeeds was answered by a move of the schedule. -/
theorem issueCmd_ok_sched {idx : BitVec 6} {arg : Word} {kind : Kind} {s : State} {f : Fields}
    (h : (issueCmd idx arg kind s).2 = .ok f) :
    (issueCmd idx arg kind s).1.inp.sched.length < s.inp.sched.length := by
  have h1 := issueCmd_sched idx arg kind s
  have h2 : s.inp.sched ≠ [] := by
    intro e
    rw [issueCmd_silent idx arg kind s e] at h
    cases h
  have := List.length_pos_iff.2 h2
  omega

end Sys2Proof.Machine
end

