-- ==== Sys2Proof/Laws/Prompt.lean ====
section
/-! SUPPORT. A command that is answered at once: what the issuer returns and what state it leaves (41_command_issuer R240). -/

namespace Sys2Proof.Machine

open Sys2Proof

/-- What the decoder makes of one answer (40_response_decoder R201-R210): `x` holds the response words as they arrive. -/
def answerOf (kind : Kind) (idx : BitVec 6) (a : Answer) (rc : BitVec 6) (x : Word × Word × Word × Word) : Res Fields :=
  match kind, a with
  | .rNone, _ => .ok .empty
  | .r3, .crcGood | .r3, .crcBad => .ok (.ocr x.1)
  | .r7, .crcGood | .r7, .crcBad => .ok .empty
  | _, .noResponse => .err .cmdResponseTimeout
  | _, .crcBad => .err .cmdCrcFail
  | .r1, .crcGood | .r1b, .crcGood => statusChecks idx rc x.1 r1Table (.status x.1)
  | .r2, .crcGood => .ok (.reg (regOf x))
  | .r6, .crcGood => statusChecks idx rc x.1 r6Table (.rca (x.1.extractLsb' 16 16) (x.1.extractLsb' 0 16))

theorem decode_answered (kind : Kind) (idx : BitVec 6) (a : Answer) (rc : BitVec 6) (x : Word × Word × Word × Word) (b : Bc)
    (sta : Word) (hk : b.cmd.kind = kind) (hb : b.sta = (sta &&& ~~~mStatic) ||| mCmdact) :
    decodeResponse kind idx (respondBc a rc x b) = answerOf kind idx a rc x := by
  have h1 := fun f => hasFlag_answered sta f mCmdsent (by decide) (by decide)
  have h2 := fun f => hasFlag_answered sta f mCmdrend (by decide) (by decide)
  have h3 := fun f => hasFlag_answered sta f mCcrcfail (by decide) (by decide)
  have h4 := fun f => hasFlag_answered sta f mCtimeout (by decide) (by decide)
  have hs := (respondBc_frame a rc x b).2.2.2.2.2.2.2
  rw [hb, hk] at hs
  have hr : loadsResponse kind a = true →
      (respondBc a rc x b).respcmd = rc ∧ (respondBc a rc x b).resp1 = x.1 ∧ longReg (respondBc a rc x b) = regOf x := by
    intro h
    unfold respondBc longReg regOf
    rw [hk]
    simp only [h, if_true, and_self]
  generalize respondBc a rc x b = b2 at hs hr ⊢
  cases kind <;> cases a <;>
    first
    | (obtain ⟨r1, r2, r3⟩ := hr rfl
       simp only [decodeResponse, crcChecks, arrivalChecks, hs, h2, h3, h4, answerFlag, r1, r2, r3]
       rfl)
    | (simp only [decodeResponse, crcChecks, arrivalChecks, hs, h1, h2, h3, h4, answerFlag]
       rfl)

/-- What a prompt answer leaves: `t` is `s` after the command was sent, answered by `a` with the words `x`, decoded to
`answerOf`, and the schedule went on to `r`. -/
structure Prompted (idx : BitVec 6) (arg : Word) (kind : Kind) (a : Answer) (x : Word × Word × Word × Word) (r : List (List Ev))
    (res : Res Fields) (s t : State) : Prop where
  issued : Issued idx arg kind s t res
  xfer : t.xfer = s.xfer
  mem : t.mem = s.mem
  inp : t.inp = { s.inp with sched := r }
  dma : t.bc.dma = s.bc.dma
  mask : t.bc.mask = s.bc.mask
  irq : t.bc.irq = s.bc.irq
  late : t.bc.late = false
  sta : t.bc.sta = (((((s.bc.sta &&& ~~~mStatic) ||| mCmdact) &&& ~~~mCmdact) ||| answerFlag kind a) &&& ~~~mStatic)
  cardMem : (openRange idx arg s).2 = 0 → t.card.mem = s.card.mem
  free : (openRange idx arg s).2 = 0 → t.free = s.free
  state :
    t.card.state = if cardAccepts kind a x.1 then cardNext (sentAs idx arg kind s) x.1 s.card.state else s.card.state
  width :
    t.card.width =
      if cardAccepts kind a x.1 then cardWidth (sentAs idx arg kind s) s.card.state s.card.width else s.card.width
  blockLen : t.card.blockLen = if cardAccepts kind a x.1 then cardBlockLen (sentAs idx arg kind s) s.card else s.card.blockLen

/-- What an answer makes of the card. -/
theorem cardAnswers_parts (c : Sent) (a : Answer) (w : Word) (k : Card) :
    (cardAnswers c a w k).state = (if cardAccepts c.kind a w then cardNext c w k.state else k.state) ∧
      (cardAnswers c a w k).width = (if cardAccepts c.kind a w then cardWidth c k.state k.width else k.width) ∧
      (cardAnswers c a w k).blockLen = (if cardAccepts c.kind a w then cardBlockLen c k else k.blockLen) := by
  unfold cardAnswers cardDoes
  split <;> exact ⟨rfl, rfl, rfl⟩

/-- Only CMD16 and CMD0 set the card's block length (41_command_issuer R259). -/
theorem cardBlockLen_other {c : Sent} (h : c.app = false → c.idx ≠ 16#6 ∧ c.idx ≠ 0#6) (k : Card) : cardBlockLen c k = k.blockLen := by
  unfold cardBlockLen
  split
  · rename_i ha hi
    exact absurd (BitVec.eq_of_toNat_eq hi) (h ha).1
  · rename_i ha hi
    exact absurd (BitVec.eq_of_toNat_eq hi) (h ha).2
  · rfl

/-- What a send leaves of the card's block length depends on its state, its mode and the length it had. -/
theorem cardBlockLen_congr {k k' : Card} (c : Sent) (h1 : k.state = k'.state) (h2 : k.byBlock = k'.byBlock) (h3 : k.blockLen = k'.blockLen) :
    cardBlockLen c k = cardBlockLen c k' := by
  unfold cardBlockLen
  rw [h1, h2, h3]

/-- A prompt answer, whole. -/
theorem issueCmd_prompted (idx : BitVec 6) (arg : Word) (kind : Kind) (a : Answer) (rc : BitVec 6) (w1 w2 w3 w4 : Word)
    (r : List (List Ev)) (s : State) (hs : s.inp.sched = [] :: [.respond a rc w1 w2 w3 w4] :: r) :
    ∃ t, issueCmd idx arg kind s = (t, answerOf kind idx a rc (answerAt idx arg kind a (w1, w2, w3, w4) s)) ∧
      Prompted idx arg kind a (answerAt idx arg kind a (w1, w2, w3, w4) s) r
        (answerOf kind idx a rc (answerAt idx arg kind a (w1, w2, w3, w4) s)) s t := by
  have f := send_frame idx arg kind (bcClearStatic s)
  have he := issueCmd_prompt idx arg kind a rc w1 w2 w3 w4 r s hs
  have hsta := answeredAt_sta idx arg kind a rc (w1, w2, w3, w4) r s
  have hdec : decodeResponse kind idx (answeredAt idx arg kind a rc (w1, w2, w3, w4) r s).bc =
      answerOf kind idx a rc (answerAt idx arg kind a (w1, w2, w3, w4) s) :=
    decode_answered kind idx a rc _ (bcSend idx arg kind (bcClearStatic s)).bc s.bc.sta
      (congrArg (fun b => b.cmd.kind) f.bc) (congrArg Bc.sta f.bc)
  rw [hdec] at he
  have hi := issueCmd_issued idx arg kind s
  rw [he] at hi
  refine ⟨_, he, ?_⟩
  have hb := respondBc_frame a rc (answerAt idx arg kind a (w1, w2, w3, w4) s) (bcSend idx arg kind (bcClearStatic s)).bc
  have hf := cardAnswers_frame (sentAs idx arg kind s) a (answerAt idx arg kind a (w1, w2, w3, w4) s).1
    (bcSend idx arg kind (bcClearStatic s)).card
  have hp := cardAnswers_parts (sentAs idx arg kind s) a (answerAt idx arg kind a (w1, w2, w3, w4) s).1
    (bcSend idx arg kind (bcClearStatic s)).card
  have k1 : (bcSend idx arg kind (bcClearStatic s)).card.state = s.card.state := by
    rw [f.cardPart (·.state) fun _ _ => rfl, cardReceives_frame]; rfl
  have k2 : (bcSend idx arg kind (bcClearStatic s)).card.width = s.card.width := by
    rw [f.cardPart (·.width) fun _ _ => rfl, cardReceives_frame]; rfl
  have k3 : (bcSend idx arg kind (bcClearStatic s)).card.blockLen = s.card.blockLen := by
    rw [f.cardPart (·.blockLen) fun _ _ => rfl, cardReceives_frame]; rfl
  have k4 : (bcSend idx arg kind (bcClearStatic s)).card.byBlock = s.card.byBlock := by
    rw [f.cardPart (·.byBlock) fun _ _ => rfl, cardReceives_frame]; rfl
  rw [k1, k2, k3, cardBlockLen_congr _ k1 k4 k3] at hp
  exact
    { issued := hi
      xfer := f.xfer
      mem := f.mem
      inp := by
        show ({ (bcSend idx arg kind (bcClearStatic s)).inp with sched := r } : Inputs) = _
        rw [f.inp]; rfl
      dma := hb.2.2.2.1.trans (by rw [f.bc]; rfl)
      mask := hb.2.2.2.2.1.trans (by rw [f.bc]; rfl)
      irq := hb.2.2.2.2.2.1.trans (by rw [f.bc]; rfl)
      late := hb.2.2.2.2.2.2.1.trans (congrArg Bc.late f.bc)
      sta := by
        show (answeredAt idx arg kind a rc (w1, w2, w3, w4) r s).bc.sta &&& ~~~mStatic = _
        rw [hsta]
      cardMem := fun hne => (congrArg Card.mem hf).trans (f.cardMem hne)
      free := fun hne => f.free hne
      state := hp.1
      width := hp.2.1
      blockLen := hp.2.2 }

/-! ## The words the card sends -/

/-- The addressing mode is no matter but in the answer to an ACMD41. -/
theorem ocrOf_other {c : Sent} (h : c.kind ≠ .r3 ∨ c.idx ≠ 41#6) (b : Bool) (w : Word) : ocrOf c b w = w := by
  unfold ocrOf
  rw [if_neg fun e => h.elim (fun h => h e.1) fun h => h e.2.1]

/-- An ACMD41 that is not ready is answered as drawn. -/
theorem ocrOf_busy {w : Word} (h : w.getLsbD 31 = false) (c : Sent) (b : Bool) : ocrOf c b w = w := by
  unfold ocrOf
  rw [if_neg fun e => by rw [h] at e; exact Bool.noConfusion e.2.2]

/-- Bit 31 of an OCR is as drawn. -/
theorem ocrOf_ready (c : Sent) (b : Bool) (w : Word) : (ocrOf c b w).getLsbD 31 = w.getLsbD 31 := by
  unfold ocrOf
  split
  · split
    · rw [BitVec.getLsbD_or, show (0x40000000#32).getLsbD 31 = false from rfl, Bool.or_false]
    · rw [BitVec.getLsbD_and, show (0xBFFFFFFF#32).getLsbD 31 = true from rfl, Bool.and_true]
  · rfl

/-- A ready OCR that names the card's own addressing mode is as drawn. -/
theorem ocrOf_own {w : Word} {b : Bool} (h : b = w.getLsbD 30) (c : Sent) : ocrOf c b w = w := by
  unfold ocrOf
  split
  · subst h
    apply BitVec.eq_of_getLsbD_eq
    intro i hi
    split
    · rename_i hb
      by_cases e : i = 30
      · subst e; rw [BitVec.getLsbD_or, hb]; rfl
      · have : (0x40000000#32).getLsbD i = false := by
          revert e; interval_cases i <;> first | (intro e; exact absurd rfl e) | (intro _; rfl)
        rw [BitVec.getLsbD_or, this, Bool.or_false]
    · rename_i hb
      by_cases e : i = 30
      · subst e; rw [BitVec.getLsbD_and, Bool.eq_false_iff.2 hb]; rfl
      · have : (0xBFFFFFFF#32).getLsbD i = true := by
          revert e; interval_cases i <;> first | (intro e; exact absurd rfl e) | (intro _; rfl)
        rw [BitVec.getLsbD_and, this, Bool.and_true]
  · rfl

/-- Any command but CMD9 in Standby: the first word of a good answer is the card's own, the others are as drawn. -/
theorem answerAt_good {idx : BitVec 6} (h : idx ≠ 9#6) (arg : Word) {kind : Kind} (hk : kind ≠ .r3) (w : Word × Word × Word × Word)
    (s : State) : answerAt idx arg kind .crcGood w s = (statusWordOf (sentAs idx arg kind s) s.card.state w.1, w.2) := by
  have : readsCsd (sentAs idx arg kind s) .crcGood s.card = false := by
    unfold readsCsd
    show (!s.app && idx == 9#6 && _ && _) = false
    simp [h]
  unfold answerAt answerWords
  rw [if_neg (by simp [this]), if_pos rfl, ocrOf_other (.inl hk)]

/-- An OCR: as drawn but for the card's own addressing mode, whatever its CRC. -/
theorem answerAt_r3 {idx : BitVec 6} (h9 : idx ≠ 9#6) (h55 : idx ≠ 55#6) (arg : Word) (a : Answer) (w : Word × Word × Word × Word)
    (s : State) : answerAt idx arg .r3 a w s = (ocrOf (sentAs idx arg .r3 s) s.card.byBlock w.1, w.2) := by
  have : readsCsd (sentAs idx arg .r3 s) a s.card = false := by
    unfold readsCsd
    show (!s.app && idx == 9#6 && _ && _) = false
    simp [h9]
  unfold answerAt answerWords
  rw [if_neg (by simp [this])]
  have hp : statusWordOf (sentAs idx arg .r3 s) s.card.state w.1 = w.1 := by
    unfold statusWordOf
    dsimp only
    rw [if_neg fun e => h55 e.2.1]
    rfl
  rw [hp, ite_self]

/-- Every other answer is as drawn. -/
theorem answerAt_bad {a : Answer} (h : a ≠ .crcGood) (idx : BitVec 6) (arg : Word) {kind : Kind} (hk : kind ≠ .r3)
    (w : Word × Word × Word × Word) (s : State) : answerAt idx arg kind a w s = w := by
  have : readsCsd (sentAs idx arg kind s) a s.card = false := by
    unfold readsCsd
    simp [h]
  unfold answerAt answerWords
  rw [if_neg (by simp [this]), if_neg h, ocrOf_other (.inl hk)]

/-- Only a CMD55 has its APP_CMD bit set by the card. -/
theorem statusWordOf_other {c : Sent} (h : c.idx ≠ 55#6) (st : BitVec 4) (w : Word) :
    statusWordOf c st w = reportState c.kind st w := by
  unfold statusWordOf
  dsimp only
  rw [if_neg fun e => h e.2.1]

/-- A kind without a state field: the word is as drawn, but for a CMD55. -/
theorem statusWordOf_plain {c : Sent} (h : c.idx ≠ 55#6) (hk : c.kind = .rNone ∨ c.kind = .r2 ∨ c.kind = .r3 ∨ c.kind = .r7)
    (st : BitVec 4) (w : Word) : statusWordOf c st w = w := by
  rw [statusWordOf_other h]
  rcases hk with h | h | h | h <;> rw [h] <;> rfl

/-- A CMD9 in Standby: the words of the card's CSD, whatever was drawn (20_memory R101). -/
theorem answerAt_csd {arg : Word} {kind : Kind} {w : Word × Word × Word × Word} {s : State} (ha : s.app = false)
    (hst : s.card.state = 3#4) : answerAt 9#6 arg kind .crcGood w s = wordsOf s.card.csd := by
  have : readsCsd (sentAs 9#6 arg kind s) .crcGood s.card = true := by
    unfold readsCsd
    show (!s.app && _ && _ && s.card.state == 3#4) = true
    rw [ha, hst]
    rfl
  unfold answerAt answerWords
  rw [if_pos this]

/-- A card that changes its state before the command is sent is as one that had that state all along. -/
theorem issueCmd_card (idx : BitVec 6) (arg : Word) (kind : Kind) (st : BitVec 4) (l : List (List Ev)) {s : State}
    (hs : s.inp.sched = [.card st] :: l) :
    issueCmd idx arg kind s = issueCmd idx arg kind (setSched ([] :: l) (setCardState st s)) := by
  have h1 : sync (bcClearStatic s) = setCardState st (setSched l (bcClearStatic s)) := by
    unfold sync
    show (match s.inp.sched with | [] => _ | b :: r => _ : State) = _
    rw [hs]
    rfl
  have h2 : sync (bcClearStatic (setSched ([] :: l) (setCardState st s))) = setCardState st (setSched l (bcClearStatic s)) :=
    rfl
  unfold issueCmd
  dsimp only
  rw [h1, h2]
  rfl

/-! ## Status words -/

theorem hasFlag_and_or {w a b m : Word} (ha : a &&& m = m) (hb : b &&& m = 0#32) :
    hasFlag ((w &&& a) ||| b) m = hasFlag w m := by
  unfold hasFlag
  have : ((w &&& a) ||| b) &&& m = w &&& m := by
    have e1 : ∀ i (h : i < 32), (a &&& m)[i] = m[i] := by intro i h; rw [ha]
    have e2 : ∀ i (h : i < 32), (b &&& m)[i] = false := by intro i h; rw [hb]; simp
    ext i hi
    have e1 := e1 i hi
    have e2 := e2 i hi
    simp only [BitVec.getElem_and, BitVec.getElem_or] at *
    revert e1 e2
    generalize a[i] = p
    generalize m[i] = q
    generalize w[i] = y
    generalize b[i] = z
    cases p <;> cases q <;> cases y <;> cases z <;> simp
  rw [this]

/-- The state the card reports is no error (30_encoding R125, R141). -/
theorem reported_r1Errors (kind : Kind) (st : BitVec 4) (w : Word) : hasFlag (reportState kind st w) r1Errors = hasFlag w r1Errors := by
  have hb : (st.setWidth 32 <<< 9) &&& r1Errors = 0#32 := by revert st; decide
  cases kind <;> first | rfl | exact hasFlag_and_or (by decide) hb

theorem reported_r6Errors (kind : Kind) (st : BitVec 4) (w : Word) : hasFlag (reportState kind st w) r6Errors = hasFlag w r6Errors := by
  have hb : (st.setWidth 32 <<< 9) &&& r6Errors = 0#32 := by revert st; decide
  cases kind <;> first | rfl | exact hasFlag_and_or (by decide) hb

/-- The first error of a table is there exactly where the word meets the table's mask. -/
theorem firstError_none_of {w m : Word} {t : List (Nat × TransferError)}
    (hm : ∀ p ∈ t, p.1 < 32 ∧ m.getLsbD p.1 = true) (h : hasFlag w m = false) : firstError w t = none := by
  have h0 : w &&& m = 0#32 := by simpa [hasFlag] using h
  induction t with
  | nil => rfl
  | cons p t ih =>
    obtain ⟨b, e⟩ := p
    have hb := hm (b, e) (by simp)
    have : w.getLsbD b = false := by
      have hz : (w &&& m).getLsbD b = false := by rw [h0]; simp
      rw [BitVec.getLsbD_and, hb.2, Bool.and_true] at hz
      exact hz
    rw [firstError, this]
    exact ih fun q hq => hm q (by simp [hq])

theorem firstError_r1 {w : Word} (h : hasFlag w r1Errors = false) : firstError w r1Table = none :=
  firstError_none_of (by decide) h

theorem firstError_r6 {w : Word} (h : hasFlag w r6Errors = false) : firstError w r6Table = none :=
  firstError_none_of (by decide) h

/-- The status word reports no error exactly where it meets the error mask in nothing (30_encoding R125). -/
theorem firstError_r1_iff (w : Word) : firstError w r1Table = none ↔ w &&& 0xFDFFE008#32 = 0#32 := by
  constructor
  · intro h
    have key : ∀ (t : List (Nat × TransferError)) (w : Word), firstError w t = none → ∀ p ∈ t, w.getLsbD p.1 = false := by
      intro t
      induction t with
      | nil => intro w _ p hp; cases hp
      | cons a t ih =>
        intro w h p hp
        obtain ⟨b, e⟩ := a
        unfold firstError at h
        cases hb : w.getLsbD b
        · rw [hb] at h
          simp at h
          rcases List.mem_cons.1 hp with rfl | hp
          · exact hb
          · exact ih w h p hp
        · rw [hb] at h; simp at h
    have h2 := key _ _ h
    apply BitVec.eq_of_getLsbD_eq
    intro i hi
    rw [BitVec.getLsbD_and]
    by_cases hm : (0xFDFFE008#32).getLsbD i = true
    · have : ∃ p ∈ r1Table, p.1 = i := by
        revert hm; interval_cases i <;> first | (intro h; exact absurd h (by decide)) | (intro _; decide)
      obtain ⟨p, hp, rfl⟩ := this
      rw [h2 _ hp]; simp
    · rw [Bool.not_eq_true] at hm; rw [hm]; simp
  · intro h
    exact firstError_r1 (by unfold hasFlag; simp [r1Errors, h])

/-- APP_CMD is no error (30_encoding R125, R141). -/
theorem statusWordOf_r1Errors (c : Sent) (st : BitVec 4) (w : Word) :
    hasFlag (statusWordOf c st w) r1Errors = hasFlag w r1Errors := by
  unfold statusWordOf
  dsimp only
  split
  · rw [hasFlag_or, reported_r1Errors]
    have : hasFlag 0x00000020#32 r1Errors = false := by decide
    rw [this, Bool.or_false]
  · exact reported_r1Errors _ _ _

/-- A prompt R1 or R1b without an error bit: what a step that goes on learns of it. -/
theorem issueCmd_r1 {kind : Kind} (hk : kind = .r1 ∨ kind = .r1b) {idx : BitVec 6} (h9 : idx ≠ 9#6) (arg : Word) {w : Word}
    {r : List (List Ev)} {s : State} (hs : s.inp.sched = [] :: [.respond .crcGood idx w 0#32 0#32 0#32] :: r)
    (hw : hasFlag w r1Errors = false) :
    ∃ t x, x.1 = statusWordOf (sentAs idx arg kind s) s.card.state w ∧ issueCmd idx arg kind s = (t, .ok (.status x.1)) ∧
      Prompted idx arg kind .crcGood x r (.ok (.status x.1)) s t := by
  obtain ⟨t, he, hp⟩ := issueCmd_prompted idx arg kind .crcGood idx w 0#32 0#32 0#32 r s hs
  rw [answerAt_good h9 arg (by rcases hk with rfl | rfl <;> decide)] at he hp
  have hf : firstError (statusWordOf (sentAs idx arg kind s) s.card.state w) r1Table = none :=
    firstError_r1 (by rw [statusWordOf_r1Errors]; exact hw)
  have hr : answerOf kind idx .crcGood idx (statusWordOf (sentAs idx arg kind s) s.card.state w, 0#32, 0#32, 0#32) =
      .ok (.status (statusWordOf (sentAs idx arg kind s) s.card.state w)) := by
    rcases hk with rfl | rfl <;> simp [answerOf, statusChecks, hf]
  rw [hr] at he hp
  exact ⟨t, _, rfl, he, hp⟩

/-! ## Registers and addresses -/

/-- The four response words of a register, put together again (10_state R50). -/
theorem append_words (reg : Reg128) :
    reg.extractLsb' 96 32 ++ reg.extractLsb' 64 32 ++ reg.extractLsb' 32 32 ++ reg.extractLsb' 0 32 = reg := by
  apply BitVec.eq_of_getLsbD_eq
  intro i hi
  rw [show (reg.extractLsb' 96 32 ++ reg.extractLsb' 64 32 ++ reg.extractLsb' 32 32 ++ reg.extractLsb' 0 32 :
    BitVec (32 + 32 + 32 + 32)).getLsbD i = _ from BitVec.getLsbD_append]
  rw [show (reg.extractLsb' 96 32 ++ reg.extractLsb' 64 32 ++ reg.extractLsb' 32 32 :
    BitVec (32 + 32 + 32)).getLsbD (i - 32) = _ from BitVec.getLsbD_append]
  rw [show (reg.extractLsb' 96 32 ++ reg.extractLsb' 64 32 : BitVec (32 + 32)).getLsbD (i - 32 - 32) = _ from
    BitVec.getLsbD_append]
  simp only [BitVec.getLsbD_extractLsb']
  split
  · simp [*]
  · split
    · have : 32 + (i - 32) = i := by omega
      simp [*]
    · split
      · have : 64 + (i - 32 - 32) = i := by omega
        simp [*]
      · have : 96 + (i - 32 - 32 - 32) = i := by omega
        have h2 : i - 32 - 32 - 32 < 32 := by omega
        simp [*]

theorem regOf_wordsOf (reg : Reg128) : regOf (wordsOf reg) = reg := append_words reg

/-- The words of a register arrive, of the card's own CSD for a CMD9. -/
theorem answerAt_reg {idx : BitVec 6} (h55 : idx ≠ 55#6) (arg : Word) {reg : Reg128} {s : State}
    (hc : idx = 9#6 → s.card.csd = reg) : answerAt idx arg .r2 .crcGood (wordsOf reg) s = wordsOf reg := by
  unfold answerAt answerWords
  split
  · rename_i hr
    have : idx = 9#6 := by
      unfold readsCsd at hr
      have h : (!s.app && idx == 9#6 && _ && _) = true := hr
      simp at h
      exact h.1.2
    rw [hc this]
  · rw [if_pos rfl, statusWordOf_plain h55 (.inr (.inl rfl)), ocrOf_other (.inl (by show Kind.r2 ≠ .r3; decide))]

/-- A prompt long response: the register the decoder returns. -/
theorem issueCmd_r2 {idx : BitVec 6} (h55 : idx ≠ 55#6) (arg : Word) {rc : BitVec 6} {reg : Reg128} {r : List (List Ev)} {s : State}
    (hs : s.inp.sched =
      [] :: [.respond .crcGood rc (reg.extractLsb' 96 32) (reg.extractLsb' 64 32) (reg.extractLsb' 32 32)
        (reg.extractLsb' 0 32)] :: r)
    (hc : idx = 9#6 → s.card.csd = reg) :
    ∃ t, issueCmd idx arg .r2 s = (t, .ok (.reg reg)) ∧
      Prompted idx arg .r2 .crcGood (wordsOf reg) r (.ok (.reg reg)) s t := by
  obtain ⟨t, he, hp⟩ := issueCmd_prompted idx arg .r2 .crcGood rc _ _ _ _ r s hs
  rw [show (reg.extractLsb' 96 32, reg.extractLsb' 64 32, reg.extractLsb' 32 32, reg.extractLsb' 0 32) = wordsOf reg from rfl,
    answerAt_reg h55 arg hc] at he hp
  have hr : answerOf .r2 idx .crcGood rc (wordsOf reg) = .ok (.reg reg) := congrArg (fun x => Res.ok (Fields.reg x)) (regOf_wordsOf reg)
  rw [hr] at he hp
  exact ⟨t, he, hp⟩

/-- The published address of an R6 is not touched by the card's state field (30_encoding R128). -/
theorem reported_rca (kind : Kind) (st : BitVec 4) (w : Word) :
    (reportState kind st w).extractLsb' 16 16 = w.extractLsb' 16 16 := by
  have key : ((w &&& 0xFFFFE1FF#32) ||| (st.setWidth 32 <<< 9)).extractLsb' 16 16 = w.extractLsb' 16 16 := by
    apply BitVec.eq_of_getLsbD_eq
    intro i hi
    simp only [BitVec.getLsbD_extractLsb', BitVec.getLsbD_or, BitVec.getLsbD_and, BitVec.getLsbD_shiftLeft,
      BitVec.getLsbD_setWidth]
    have h1 : (0xFFFFE1FF#32).getLsbD (16 + i) = true := by interval_cases i <;> rfl
    have h2 : st.getLsbD (16 + i - 9) = false := BitVec.getLsbD_of_ge _ _ (by omega)
    rw [h1, h2]
    simp
  cases kind <;> first | exact key | rfl

/-- The state field of a status word is the card's own state (30_encoding R125). -/
theorem reported_state {kind : Kind} (hk : kind = .r1 ∨ kind = .r1b) (st : BitVec 4) (w : Word) :
    (reportState kind st w).extractLsb' 9 4 = st := by
  have : reportState kind st w = (w &&& 0xFFFFE1FF#32) ||| (st.setWidth 32 <<< 9) := by rcases hk with rfl | rfl <;> rfl
  rw [this]
  apply BitVec.eq_of_getLsbD_eq
  intro i hi
  simp only [BitVec.getLsbD_extractLsb', BitVec.getLsbD_or, BitVec.getLsbD_and, BitVec.getLsbD_shiftLeft,
    BitVec.getLsbD_setWidth]
  interval_cases i <;> simp

/-- A prompt R6 without an error bit: the address the decoder returns. -/
theorem issueCmd_r6 {idx : BitVec 6} (h9 : idx ≠ 9#6) (h55 : idx ≠ 55#6) (arg : Word) {w : Word} {r : List (List Ev)} {s : State}
    (hs : s.inp.sched = [] :: [.respond .crcGood idx w 0#32 0#32 0#32] :: r) (hw : hasFlag w r6Errors = false) :
    ∃ t x, issueCmd idx arg .r6 s = (t, .ok (.rca (w.extractLsb' 16 16) (x.1.extractLsb' 0 16))) ∧
      Prompted idx arg .r6 .crcGood x r (.ok (.rca (w.extractLsb' 16 16) (x.1.extractLsb' 0 16))) s t := by
  obtain ⟨t, he, hp⟩ := issueCmd_prompted idx arg .r6 .crcGood idx w 0#32 0#32 0#32 r s hs
  rw [answerAt_good h9 arg (by decide), statusWordOf_other (by exact h55)] at he hp
  have hf : firstError (reportState .r6 s.card.state w) r6Table = none :=
    firstError_r6 (by rw [reported_r6Errors]; exact hw)
  have hr : answerOf .r6 idx .crcGood idx (reportState .r6 s.card.state w, 0#32, 0#32, 0#32) =
      .ok (.rca (w.extractLsb' 16 16) ((reportState .r6 s.card.state w).extractLsb' 0 16)) := by
    show statusChecks _ _ _ _ _ = _
    unfold statusChecks
    rw [if_pos rfl, hf, reported_rca]
  have hk : (sentAs idx arg .r6 s).kind = .r6 := rfl
  rw [hk, hr] at he hp
  exact ⟨t, _, he, hp⟩

end Sys2Proof.Machine
end

