-- ==== Sys2Proof/Laws/Run.lean ====
section
/-! SUPPORT. Everything the body of a host operation can do, said once: `Ran`. -/

namespace Sys2Proof.Machine

open Sys2Proof

/-- `t` is `s` after a part of a host operation's body. `init` says that the operation is INITIALIZE; `M` and `C` hold of the
addresses of host memory and of card storage that this part may write. -/
structure Ran (init : Bool) (M C : Nat → Prop) (s t : State) : Prop where
  host : t.host = s.host
  cfg : t.cfg = s.cfg
  cmdResult : t.cmdResult = s.cmdResult
  inbox : t.inp.inbox = s.inp.inbox
  wire : ∃ cs, t.wire = s.wire ++ cs
  logGrows : ∃ l, t.log = s.log ++ l
  desc : init = false → t.desc = { s.desc with valid := t.desc.valid }
  valid : init = false → t.desc.valid = true → s.desc.valid = true
  neg : init = false → t.neg = s.neg
  log : init = false → t.log = s.log
  div : init = false → t.bc.div = s.bc.div
  width : init = false → t.bc.width = s.bc.width
  dma : s.bc.dma = none → t.bc.dma = none
  mask : s.bc.mask = 0#32 → t.bc.mask = 0#32
  multi : s.xfer.multi = false → t.xfer.multi = false
  mem : s.bc.dma = none → ∀ x, ¬ M x → t.mem.read x = s.mem.read x
  card : s.bc.dma = none → ∀ x, ¬ C x → t.card.mem.read x = s.card.mem.read x
  memKey : s.bc.dma = none → ∀ c ∈ t.mem, c ∈ s.mem ∨ M c.1
  memWf : s.mem.wf → t.mem.wf
  cardWf : s.card.mem.wf → t.card.mem.wf
  byBlock : t.card.byBlock = s.card.byBlock
  reserved : s.bc.sta.extractLsb' 14 18 = 0#18 → t.bc.sta.extractLsb' 14 18 = 0#18
  calm : Calm s t

/-- No address. -/
def noAddr : Nat → Prop := fun _ => False

theorem Ran.refl (i : Bool) (M C : Nat → Prop) (s : State) : Ran i M C s s where
  host := rfl
  cfg := rfl
  cmdResult := rfl
  inbox := rfl
  wire := ⟨[], by simp⟩
  logGrows := ⟨[], by simp⟩
  desc := fun _ => rfl
  valid := fun _ h => h
  neg := fun _ => rfl
  log := fun _ => rfl
  div := fun _ => rfl
  width := fun _ => rfl
  dma := fun h => h
  mask := fun h => h
  multi := fun h => h
  mem := fun _ _ _ => rfl
  card := fun _ _ _ => rfl
  memKey := fun _ _ h => .inl h
  memWf := fun h => h
  cardWf := fun h => h
  byBlock := rfl
  reserved := fun h => h
  calm := Calm.refl s

theorem Ran.trans {i : Bool} {M C : Nat → Prop} {s t u : State} (h : Ran i M C s t) (k : Ran i M C t u) :
    Ran i M C s u where
  host := k.host.trans h.host
  cfg := k.cfg.trans h.cfg
  cmdResult := k.cmdResult.trans h.cmdResult
  inbox := k.inbox.trans h.inbox
  wire := by
    obtain ⟨a, ha⟩ := h.wire
    obtain ⟨b, hb⟩ := k.wire
    exact ⟨a ++ b, by rw [hb, ha, List.append_assoc]⟩
  logGrows := by
    obtain ⟨a, ha⟩ := h.logGrows
    obtain ⟨b, hb⟩ := k.logGrows
    exact ⟨a ++ b, by rw [hb, ha, List.append_assoc]⟩
  desc := fun hi => by rw [k.desc hi, h.desc hi]
  valid := fun hi hv => h.valid hi (k.valid hi hv)
  neg := fun hi => (k.neg hi).trans (h.neg hi)
  log := fun hi => (k.log hi).trans (h.log hi)
  div := fun hi => (k.div hi).trans (h.div hi)
  width := fun hi => (k.width hi).trans (h.width hi)
  dma := fun hd => k.dma (h.dma hd)
  mask := fun hd => k.mask (h.mask hd)
  multi := fun hd => k.multi (h.multi hd)
  mem := fun hd x hx => (k.mem (h.dma hd) x hx).trans (h.mem hd x hx)
  card := fun hd x hx => (k.card (h.dma hd) x hx).trans (h.card hd x hx)
  memKey := fun hd c hc => (k.memKey (h.dma hd) c hc).elim (h.memKey hd c) .inr
  memWf := fun hw => k.memWf (h.memWf hw)
  cardWf := fun hw => k.cardWf (h.cardWf hw)
  byBlock := k.byBlock.trans h.byBlock
  reserved := fun hw => k.reserved (h.reserved hw)
  calm := h.calm.trans k.calm

theorem Ran.mono {i j : Bool} {M C M' C' : Nat → Prop} {s t : State} (h : Ran i M C s t) (hi : j = false → i = false)
    (hM : ∀ x, M x → M' x) (hC : ∀ x, C x → C' x) : Ran j M' C' s t :=
  { h with
    desc := fun e => h.desc (hi e)
    valid := fun e => h.valid (hi e)
    neg := fun e => h.neg (hi e)
    log := fun e => h.log (hi e)
    div := fun e => h.div (hi e)
    width := fun e => h.width (hi e)
    mem := fun hd x hx => h.mem hd x fun hm => hx (hM x hm)
    card := fun hd x hx => h.card hd x fun hm => hx (hC x hm)
    memKey := fun hd c hc => (h.memKey hd c hc).imp_right (hM _) }

/-- The other agents alone. -/
theorem Moved.ran {s t : State} (h : Moved s t) (hc : Calm s t) (i : Bool) (M C : Nat → Prop) : Ran i M C s t where
  host := h.host
  cfg := h.cfg
  cmdResult := h.cmdResult
  inbox := h.inbox
  wire := ⟨[], by rw [h.wire, List.append_nil]⟩
  logGrows := ⟨[], by rw [h.log, List.append_nil]⟩
  desc := fun _ => by rw [h.desc]
  valid := fun _ hv => by rwa [h.desc] at hv
  neg := fun _ => h.neg
  log := fun _ => h.log
  div := fun _ => h.div
  width := fun _ => h.width
  dma := fun hd => by rcases h.dma with e | e <;> simp [e, hd]
  mask := fun hd => by rcases h.mask with e | e <;> simp [e, hd]
  multi := fun hd => h.multi.trans hd
  mem := fun hd x _ => by rw [h.mem (by simp [hd])]
  card := fun hd x _ => by rw [h.cardMem (by simp [hd])]
  memKey := fun hd c hc => .inl (by rwa [h.mem (by simp [hd])] at hc)
  memWf := h.memWf
  cardWf := h.cardWf
  byBlock := h.byBlock
  reserved := h.reserved
  calm := hc

/-- A change of the engine's own registers, of the bus controller's configuration, of the log or of the timer. -/
theorem Ran.of_plain {s t : State} (i : Bool) (M C : Nat → Prop) (host : t.host = s.host) (cfg : t.cfg = s.cfg)
    (cmdResult : t.cmdResult = s.cmdResult) (inbox : t.inp.inbox = s.inp.inbox) (wire : t.wire = s.wire)
    (logGrows : ∃ l, t.log = s.log ++ l) (desc : i = false → t.desc = { s.desc with valid := t.desc.valid })
    (valid : i = false → t.desc.valid = true → s.desc.valid = true) (neg : i = false → t.neg = s.neg)
    (log : i = false → t.log = s.log) (div : i = false → t.bc.div = s.bc.div)
    (width : i = false → t.bc.width = s.bc.width) (dma : s.bc.dma = none → t.bc.dma = none)
    (mask : s.bc.mask = 0#32 → t.bc.mask = 0#32) (multi : s.xfer.multi = false → t.xfer.multi = false)
    (mem : t.mem = s.mem) (card : t.card.mem = s.card.mem)
    (byBlock : t.card.byBlock = s.card.byBlock)
    (reserved : s.bc.sta.extractLsb' 14 18 = 0#18 → t.bc.sta.extractLsb' 14 18 = 0#18)
    (calm : s.inp.sched = [] → t.inp.sched = [] ∧ t.inp.breaches = s.inp.breaches) : Ran i M C s t :=
  { host := host, cfg := cfg, cmdResult := cmdResult, inbox := inbox, wire := ⟨[], by rw [wire, List.append_nil]⟩,
    logGrows := logGrows, desc := desc, valid := valid, neg := neg, log := log, div := div, width := width, dma := dma,
    mask := mask, multi := multi, mem := fun _ _ _ => by rw [mem], card := fun _ _ _ => by rw [card],
    memKey := fun _ _ hc => .inl (mem ▸ hc), memWf := fun h => mem ▸ h, cardWf := fun h => card ▸ h,
    byBlock := byBlock, reserved := reserved, calm := calm }

/-- The other agents' moves before one access of ENGINE. -/
theorem ran_sync (i : Bool) (M C : Nat → Prop) (s : State) : Ran i M C s (sync s) := (moved_sync s).ran (calm_sync s) i M C

theorem ran_setSeq (q : Seq) (i : Bool) (M C : Nat → Prop) (s : State) : Ran i M C s (setSeq q s) := by
  apply Ran.of_plain <;> first | rfl | exact ⟨[], by simp⟩ | exact fun _ => rfl | exact fun h => h | exact fun _ h => h |
    exact fun h => ⟨h, rfl⟩

/-- The addresses of card storage a command sent now leaves open: the erase units of a CMD38, the pre-erased blocks of a CMD25
(93 U8, U35; 41_command_issuer R271). -/
def opens (idx : BitVec 6) (arg : Word) (s : State) : Nat → Prop := fun x =>
  (openRange idx arg s).1 ≤ x ∧ x < (openRange idx arg s).1 + (openRange idx arg s).2

/-- One command. -/
theorem Issued.ran {idx : BitVec 6} {arg : Word} {kind : Kind} {s t : State} {r : Res Fields}
    (h : Issued idx arg kind s t r) (hc : Calm s t) (i : Bool) (M : Nat → Prop) : Ran i M (opens idx arg s) s t where
  host := h.host
  cfg := h.cfg
  cmdResult := h.cmdResult
  inbox := h.inbox
  wire := ⟨_, h.wire⟩
  logGrows := ⟨[], by rw [h.log, List.append_nil]⟩
  desc := fun _ => by rw [h.desc]
  valid := fun _ hv => by rwa [h.desc] at hv
  neg := fun _ => h.neg
  log := fun _ => h.log
  div := fun _ => h.div
  width := fun _ => h.width
  dma := fun hd => by rcases h.dma with e | e <;> simp [e, hd]
  mask := fun hd => by rcases h.mask with e | e <;> simp [e, hd]
  multi := fun hd => h.multi.trans hd
  mem := fun hd x _ => by rw [h.mem (by simp [hd])]
  card := fun hd x hx => h.cardOpen hd x (by unfold opens at hx; omega)
  memKey := fun hd c hc => .inl (by rwa [h.mem (by simp [hd])] at hc)
  memWf := h.memWf
  cardWf := h.cardWf
  byBlock := h.byBlock
  reserved := h.reserved
  calm := hc

/-- The Command Issuer's run, with the addresses its command leaves open. -/
theorem issueCmd_ran (idx : BitVec 6) (arg : Word) (kind : Kind) (i : Bool) (M : Nat → Prop) (s : State) :
    Ran i M (opens idx arg s) s (issueCmd idx arg kind s).1 :=
  (issueCmd_issued idx arg kind s).ran (calm_issueCmd idx arg kind s) i M

/-- One command that leaves no range of card storage open. -/
theorem ran_issueCmd {idx : BitVec 6} (hne : idx ≠ 38#6 ∧ idx ≠ 25#6) (arg : Word) (kind : Kind) (i : Bool) (M C : Nat → Prop)
    (s : State) : Ran i M C s (issueCmd idx arg kind s).1 :=
  (issueCmd_ran idx arg kind i M s).mono (fun h => h) (fun _ h => h) fun x h => by
    unfold opens at h
    rw [openRange_none hne.1 hne.2] at h
    omega

theorem ran_andThen {α β : Type} {i : Bool} {M C : Nat → Prop} {s : State} {r : State × Res α}
    {k : α → State → State × Res β} (h : Ran i M C s r.1) (hk : ∀ v, r.2 = .ok v → Ran i M C r.1 (k v r.1).1) :
    Ran i M C s (andThen r k).1 := by
  unfold andThen
  split
  · exact h.trans (hk _ (by assumption))
  · exact h

/-- A command behind its prefix. -/
theorem ran_issueApp {idx : BitVec 6} (hne : idx ≠ 38#6 ∧ idx ≠ 25#6) (arg : Word) (kind : Kind) (i : Bool) (M C : Nat → Prop) (s : State) :
    Ran i M C s (issueApp idx arg kind s).1 :=
  ran_andThen (ran_issueCmd (by decide) _ _ _ _ _ _) fun _ _ => ran_issueCmd hne _ _ _ _ _ _

theorem ran_cardCheck (i : Bool) (M C : Nat → Prop) (s : State) : Ran i M C s (cardCheck s).1 := by
  unfold cardCheck
  dsimp only
  split
  · exact ran_sync i M C s
  · refine (ran_sync i M C s).trans ?_
    apply Ran.of_plain <;>
      first | rfl | exact ⟨[], by simp⟩ | exact fun _ => rfl | exact fun h => h | (intro _ h; cases h) | exact fun h => ⟨h, rfl⟩

theorem ran_descCheck (i : Bool) (M C : Nat → Prop) (s : State) : Ran i M C s (descCheck s).1 := by
  unfold descCheck
  split <;> exact Ran.refl i M C s

theorem ran_protectCheck (dir : Dir) (i : Bool) (M C : Nat → Prop) (s : State) : Ran i M C s (protectCheck dir s).1 := by
  unfold protectCheck
  split
  · dsimp only
    split <;> exact ran_sync i M C s
  · exact Ran.refl i M C s

theorem ran_checks (dir : Dir) (count : Nat) (multi : Bool) (i : Bool) (M C : Nat → Prop) (s : State) :
    Ran i M C s (checks dir count multi s).1 := by
  unfold checks
  refine ran_andThen (ran_cardCheck _ _ _ _) fun _ _ => ran_andThen (ran_descCheck _ _ _ _) fun _ _ =>
    ran_andThen (ran_protectCheck _ _ _ _ _) fun _ _ => ?_
  split <;> exact Ran.refl i M C _

theorem ran_eraseChecks (i : Bool) (M C : Nat → Prop) (s : State) : Ran i M C s (eraseChecks s).1 := by
  unfold eraseChecks
  refine ran_andThen (ran_cardCheck _ _ _ _) fun _ _ => ran_andThen (ran_descCheck _ _ _ _) fun _ _ => ?_
  repeat' split
  all_goals exact Ran.refl i M C _

/-! ## The checks that come before any command -/

@[simp] theorem andThen_ok {α β : Type} (s : State) (v : α) (k : α → State → State × Res β) :
    andThen (s, .ok v) k = k v s := rfl

@[simp] theorem andThen_err {α β : Type} (s : State) (e : TransferError) (k : α → State → State × Res β) :
    andThen (s, .err e) k = (s, .err e) := rfl

/-- An absent card invalidates the descriptor (44 R462). -/
def absent (s : State) : State := { s with desc := { s.desc with valid := false } }

theorem cardCheck_eq (s : State) :
    cardCheck s = if (sync s).inp.cardPresent then (sync s, .ok ()) else (absent (sync s), .err .notReady) := rfl

/-- The state the write-protect check leaves: the input is sampled for a write with ENGINE_CHECKS_WP alone. -/
def sampled (dir : Dir) (s : State) : State := if dir = .tx ∧ s.cfg.engineChecksWp = true then sync s else s

/-- The checks of a transfer in their order (44 R402): the state they leave, and the first that fails. -/
theorem checks_eq (dir : Dir) (count : Nat) (multi : Bool) (s : State) :
    checks dir count multi s =
      if (sync s).inp.cardPresent = false then (absent (sync s), .err .notReady)
      else if (sync s).desc.valid = false then (sync s, .err .notReady)
      else
        (sampled dir (sync s),
          if (dir = .tx ∧ (sync s).cfg.engineChecksWp = true) ∧ (sampled dir (sync s)).inp.writeProtect = true then
            .err .writeProtected
          else if argsOk (sampled dir (sync s)).cfg (sampled dir (sync s)).desc (sampled dir (sync s)).host count multi then
            .ok ()
          else .err .invalidParameter) := by
  unfold checks
  rw [cardCheck_eq]
  cases (sync s).inp.cardPresent
  · simp
  · simp only [if_true, andThen_ok, descCheck, Bool.true_eq_false, if_false]
    cases (sync s).desc.valid
    · simp
    · simp only [if_true, andThen_ok, protectCheck, sampled, Bool.true_eq_false, if_false]
      by_cases hw : dir = .tx ∧ (sync s).cfg.engineChecksWp = true
      · simp only [hw, and_self, if_true, true_and]
        cases (sync (sync s)).inp.writeProtect
        · simp only [Bool.false_eq_true, if_false, andThen_ok]
          split <;> rfl
        · simp
      · simp only [hw, if_false, false_and, andThen_ok]
        split <;> rfl

theorem moved_sampled (dir : Dir) (s : State) : Moved s (sampled dir s) := by
  unfold sampled
  split
  · exact moved_sync s
  · exact Moved.refl s

/-- Checks that pass leave everything but the moves of other agents, and nothing they test was against the transfer. -/
theorem checks_ok {dir : Dir} {count : Nat} {multi : Bool} {s : State} (h : (checks dir count multi s).2 = .ok ()) :
    Moved s (checks dir count multi s).1 ∧ (checks dir count multi s).1 = sampled dir (sync s) ∧
      (sync s).inp.cardPresent = true ∧ s.desc.valid = true ∧ argsOk s.cfg s.desc s.host count multi = true := by
  rw [checks_eq] at h ⊢
  have m := moved_sync s
  have m2 := m.trans (moved_sampled dir (sync s))
  cases hp : (sync s).inp.cardPresent
  · simp [hp] at h
  · cases hv : (sync s).desc.valid
    · simp [hp, hv] at h
    · simp only [hp, hv, Bool.true_eq_false, if_false] at h ⊢
      refine ⟨m2, trivial, trivial, by rw [← m.desc]; exact hv, ?_⟩
      rw [m2.cfg, m2.desc, m2.host] at h
      split at h
      · simp at h
      · split at h
        · assumption
        · simp at h

theorem checks_calm {dir : Dir} {count : Nat} {multi : Bool} {s : State} (h : (checks dir count multi s).2 = .ok ()) :
    Calm s (checks dir count multi s).1 := by
  rw [(checks_ok h).2.1]
  unfold sampled
  split
  · exact (calm_sync s).trans (calm_sync _)
  · exact calm_sync s

/-- The checks of an erase in their order (44 R430). -/
theorem eraseChecks_eq (s : State) :
    eraseChecks s =
      if (sync s).inp.cardPresent = false then (absent (sync s), .err .notReady)
      else
        (sync s,
          if s.desc.valid = false then .err .notReady
          else if hasEraseClass s.desc.csd = false then .err .unsupportedFeature
          else if s.host.arg1.toNat < s.host.arg0.toNat then .err .invalidParameter
          else if s.cfg.rangeCheck = true ∧ s.desc.capacity.toNat ≤ s.host.arg1.toNat then .err .invalidParameter
          else .ok ()) := by
  have m := moved_sync s
  unfold eraseChecks
  rw [cardCheck_eq, ← m.desc, ← m.host, ← m.cfg]
  cases (sync s).inp.cardPresent
  · simp
  · simp only [if_true, andThen_ok, descCheck, Bool.true_eq_false, if_false]
    cases (sync s).desc.valid
    · simp
    · simp only [if_true, andThen_ok, Bool.true_eq_false, if_false]
      repeat' split
      all_goals rfl

/-- A passed check of an erase leaves everything but the moves of other agents. -/
theorem eraseChecks_ok {s : State} (h : (eraseChecks s).2 = .ok ()) : Moved s (eraseChecks s).1 := by
  rw [eraseChecks_eq] at h ⊢
  split at h
  · simp at h
  · rename_i hp
    rw [if_neg hp]
    exact moved_sync s

/-- The argument of an addressed command is the RCA above sixteen zeros (30_encoding R126). -/
theorem rcaArg_eq (s : State) : rcaArg s = s.desc.rca ++ 0#16 := by
  apply BitVec.eq_of_getLsbD_eq
  intro i hi
  unfold rcaArg
  rw [show (s.desc.rca ++ 0#16 : BitVec 32).getLsbD i = _ from BitVec.getLsbD_append]
  simp only [BitVec.getLsbD_shiftLeft, BitVec.getLsbD_setWidth]
  by_cases h : i < 16
  · simp [h]
  · simp [h, hi]
    intro _
    omega

end Sys2Proof.Machine
end

