-- ==== Sys2Proof/Laws/Transfer.lean ====
section
/-! SUPPORT. Everything the status query, the data phase, the transfers and the erase can do to the machine. -/

namespace Sys2Proof.Machine

open Sys2Proof Sys2Proof.Safety

/-! ## The end of an operation -/

/-- `t` is how an operation ends after its body left `u`, with result `r`. -/
theorem endWith_eq (u : State) (r : Res Word) :
    endWith (u, r) = match r with | .ok v => finish v u | .err e => raise e u := by
  unfold endWith
  cases r <;> rfl

theorem code_pos (e : TransferError) : 1 ≤ e.code.toNat ∧ e.code.toNat ≤ 32 := by
  cases e <;> decide

/-- What every operation leaves, whatever its result (60_exceptions R510, 10_state R46). -/
theorem endWith_host (r : State × Res Word) :
    (endWith r).seq = .idle ∧ (endWith r).host.hbusy = false ∧ (endWith r).host.result.toNat ≤ 32 ∧
      ((endWith r).host.result ≠ 0#8 → (endWith r).host.value = 0#32) ∧
      (endWith r).host.op = r.1.host.op ∧ (endWith r).host.arg0 = r.1.host.arg0 ∧ (endWith r).host.arg1 = r.1.host.arg1 ∧
      (endWith r).host.buf = r.1.host.buf ∧ (endWith r).host.buflen = r.1.host.buflen := by
  obtain ⟨u, r⟩ := r
  rw [endWith_eq]
  cases r with
  | ok v => exact ⟨rfl, rfl, by simp, fun h => absurd rfl h, rfl, rfl, rfl, rfl, rfl⟩
  | err e => exact ⟨rfl, rfl, (code_pos e).2, fun _ => rfl, rfl, rfl, rfl, rfl, rfl⟩

/-- The end of an operation writes SEQ, RESULT, VALUE and HBUSY alone. -/
theorem endWith_rest (r : State × Res Word) :
    endWith r = { r.1 with seq := (endWith r).seq, host := (endWith r).host } := by
  obtain ⟨u, r⟩ := r
  rw [endWith_eq]
  cases r <;> rfl

theorem inDuty_next {s t u : State} : inDuty s t = .next u ↔ u = t ∧ t.inp.breaches = s.inp.breaches := by
  unfold inDuty
  split
  · rename_i h
    exact ⟨fun e => ⟨(Host.Outcome.next.inj e).symm, h⟩, fun e => by rw [e.1]⟩
  · rename_i h
    exact ⟨fun e => (by cases e), fun e => absurd e.2 h⟩

/-- What `settle` answers a next state for: no breach of BC's duties, and no command sent under a pending prefix. -/
theorem settle_next {s t u : State} :
    settle s t = .next u ↔
      u = t ∧ t.inp.breaches = s.inp.breaches ∧ (s.app = true → t.wire.drop s.wire.length = []) := by
  unfold settle
  cases s.app
  · rw [if_neg (by decide), inDuty_next]
    simp
  · rw [if_pos rfl]
    split
    · rename_i h
      rw [inDuty_next]
      simp [h]
    · rename_i h
      exact ⟨fun e => (by cases e), fun e => absurd (e.2.2 rfl) (by rw [h]; simp)⟩

/-- `settle` always answers: a next state, or one of its two refusals, each for its own reason. -/
theorem settle_cases (s t : State) :
    settle s t = .next t ∨ (settle s t = .refused .dutyBroken ∧ t.inp.breaches ≠ s.inp.breaches) ∨
      ∃ c l, settle s t = .refused (.outsideCommandSet true c.idx) ∧ s.app = true ∧ t.wire.drop s.wire.length = c :: l := by
  unfold settle inDuty
  cases hs : s.app
  · simp only [Bool.false_eq_true, if_false]
    split
    · exact .inl rfl
    · exact .inr (.inl ⟨rfl, by assumption⟩)
  · simp only [if_true]
    split
    · split
      · exact .inl rfl
      · exact .inr (.inl ⟨rfl, by assumption⟩)
    · rename_i c l h
      exact .inr (.inr ⟨c, l, rfl, trivial, h⟩)

/-- An operation goes on to its end where no prefix is pending and BC keeps its duties. -/
theorem settle_ok {s t : State} (ha : s.app = false) (hb : t.inp.breaches = s.inp.breaches) : settle s t = .next t :=
  settle_next.2 ⟨rfl, hb, by simp [ha]⟩

/-- A host operation that answers a next state ran its body to the end. -/
theorem hostOp_next {body : State → State × Res Word} {s t : State} :
    hostOp body s = .next t ↔
      s.host.hbusy = false ∧ t = endWith (body (beginOp s)) ∧ t.inp.breaches = s.inp.breaches ∧
        (s.app = true → t.wire.drop s.wire.length = []) := by
  unfold hostOp
  cases h : s.host.hbusy
  · simp only [Bool.false_eq_true, if_false, settle_next, true_and]
    exact and_congr_right fun e => by rw [e]
  · simp

/-! ## The status query -/

theorem ran_statusQuery (i : Bool) (M C : Nat → Prop) (s : State) : Ran i M C s (statusQuery s).1 :=
  ran_andThen (ran_issueCmd (by decide) _ _ _ _ _ _) fun _ _ => Ran.refl _ _ _ _

theorem ran_queryBody (i : Bool) (M C : Nat → Prop) (s : State) : Ran i M C s (queryBody s).1 := by
  unfold queryBody
  exact ran_andThen (ran_cardCheck _ _ _ _) fun _ _ => ran_andThen (ran_descCheck _ _ _ _) fun _ _ =>
    ran_andThen ((ran_setSeq _ _ _ _ _).trans (ran_statusQuery _ _ _ _)) fun _ _ => Ran.refl _ _ _ _

/-! ## The data phase -/

/-- The bytes of host memory a data phase writes: the buffer of a read. -/
def bufferOf (dir : Dir) (s : State) (n : Nat) : Nat → Prop := fun x => dir = .rx ∧ s.host.buf ≤ x ∧ x < s.host.buf + n

/-- The bytes of card storage a data phase writes: the blocks at the address the card took, for a write. -/
def blocksFrom (dir : Dir) (a n : Nat) : Nat → Prop := fun x => dir = .tx ∧ a ≤ x ∧ x < a + n

theorem cardReceives_12 {c : Sent} (h : c.idx = 12#6) (k : Card) : cardReceives c k = k := by
  unfold cardReceives
  rw [h]
  cases c.app <;> rfl

/-- The data phase: DMA writes the buffer of a read or the blocks of a write; DMA is disarmed, the interrupt masked, the
static flags and the transfer cells clear afterwards (44 R420, R421). -/
theorem dataPhase_ran (dir : Dir) (count : Nat) (multi : Bool) (i : Bool) (s : State) :
    Ran i (bufferOf dir s (count * blockSize)) (blocksFrom dir s.card.addr (count * blockSize)) s
      (dataPhase dir count multi s).1 := by
  obtain ⟨s1, h1⟩ : ∃ s1, s1 = bcArm dir s.host.buf (count * blockSize)
    (setTransfer none false multi (setSeq .xferData s)) := ⟨_, rfl⟩
  have hd1 : s1.bc.dma = some { dir := dir, buf := s.host.buf, len := count * blockSize } := by rw [h1]; rfl
  have hw : Moved s1 (dataWait dir count multi s).1 := by
    unfold dataWait
    rw [← h1]
    exact moved_waitFor _ _ _
  have hcw : Calm s1 (dataWait dir count multi s).1 := by
    unfold dataWait
    rw [← h1]
    exact calm_waitFor _ _ _
  have hcp : Calm (dataWait dir count multi s).1 (dataStop (dataWait dir count multi s).1).1 := by
    unfold dataStop
    split
    · exact calm_issueCmd _ _ _ (setSeq .xferStop _)
    · exact Calm.refl _
  have hp : (dataWait dir count multi s).1 = (dataStop (dataWait dir count multi s).1).1 ∨
      ∃ r, Issued 12#6 0#32 .r1b (setSeq .xferStop (dataWait dir count multi s).1)
        (dataStop (dataWait dir count multi s).1).1 r := by
    unfold dataStop
    split
    · exact .inr ⟨_, issueCmd_issued _ _ _ _⟩
    · exact .inl rfl
  unfold dataPhase dataCleanup
  dsimp only
  generalize (dataWait dir count multi s).1 = w at hw hp hcw hcp
  generalize (dataStop w).1 = p at hp hcp
  have e (P : Dma → Prop) (h : P { dir := dir, buf := s.host.buf, len := count * blockSize }) :
      ∀ d, s1.bc.dma = some d → P d := by
    intro d hd
    rw [hd1] at hd
    cases hd
    exact h
  have ew (P : Dma → Prop) (h : P { dir := dir, buf := s.host.buf, len := count * blockSize }) :
      ∀ d, w.bc.dma = some d → P d := by
    intro d hd
    rcases hw.dma with e1 | e1
    · simp [e1] at hd
    · exact e P h d (e1 ▸ hd)
  have key : Ran i (bufferOf dir s (count * blockSize)) (blocksFrom dir s.card.addr (count * blockSize)) s
      { w with bc := { w.bc with dma := none, mask := 0#32 }, seq := s.seq, xfer := { w.xfer with multi := false } } := by
    have hs1 : s1.host = s.host ∧ s1.cfg = s.cfg ∧ s1.cmdResult = s.cmdResult ∧ s1.inp = s.inp ∧ s1.wire = s.wire ∧
      s1.log = s.log ∧ s1.desc = s.desc ∧ s1.neg = s.neg ∧ s1.bc.div = s.bc.div ∧ s1.bc.width = s.bc.width ∧
      s1.mem = s.mem ∧ s1.card = s.card := by subst h1; exact ⟨rfl, rfl, rfl, rfl, rfl, rfl, rfl, rfl, rfl, rfl, rfl, rfl⟩
    obtain ⟨a1, a2, a3, a4, a5, a6, a7, a8, a9, a10, a11, a12⟩ := hs1
    exact
      { host := hw.host.trans a1
        cfg := hw.cfg.trans a2
        cmdResult := hw.cmdResult.trans a3
        inbox := hw.inbox.trans (congrArg Inputs.inbox a4)
        wire := ⟨[], by rw [List.append_nil]; exact hw.wire.trans a5⟩
        logGrows := ⟨[], by rw [List.append_nil]; exact hw.log.trans a6⟩
        desc := fun _ => by show w.desc = _; rw [hw.desc, a7]
        valid := fun _ hv => by
          have : w.desc.valid = true := hv
          rwa [hw.desc, a7] at this
        neg := fun _ => hw.neg.trans a8
        log := fun _ => hw.log.trans a6
        div := fun _ => hw.div.trans a9
        width := fun _ => hw.width.trans a10
        dma := fun _ => rfl
        mask := fun _ => rfl
        multi := fun _ => rfl
        mem := fun _ x hx => by
          show w.mem.read x = _
          rw [← a11]
          cases hdir : dir with
          | tx => rw [hw.mem (e (fun d => d.dir = .tx) hdir)]
          | rx =>
            refine hw.memOutside x (e (fun d => x < d.buf ∨ d.buf + d.len ≤ x) ?_)
            by_contra hn
            simp only [not_or, Nat.not_lt, Nat.not_le] at hn
            exact hx ⟨hdir, hn.1, hn.2⟩
        card := fun _ x hx => by
          show w.card.mem.read x = _
          rw [← a12]
          cases hdir : dir with
          | rx => rw [hw.cardMem (e (fun d => d.dir = .rx) hdir)]
          | tx =>
            refine hw.cardOutside x (e (fun d => x < s1.card.addr ∨ s1.card.addr + d.len ≤ x) ?_)
            by_contra hn
            simp only [not_or, Nat.not_lt, Nat.not_le, a12] at hn
            exact hx ⟨hdir, hn.1, hn.2⟩
        memKey := fun _ c hc => by
          have hc : c ∈ w.mem := hc
          cases hdir : dir with
          | tx => exact .inl (by rwa [hw.mem (e (fun d => d.dir = .tx) hdir), a11] at hc)
          | rx =>
            rcases hw.memKey c hc with hc | ⟨d, hd, hb, hl⟩
            · exact .inl (a11 ▸ hc)
            · rw [hd1] at hd
              cases hd
              exact .inr ⟨rfl, hb, hl⟩
        memWf := fun h => hw.memWf (a11 ▸ h)
        cardWf := fun h => hw.cardWf (a12 ▸ h)
        byBlock := hw.byBlock.trans (congrArg Card.byBlock a12)
        reserved := fun h => hw.reserved <| by
          subst h1
          show (((s.bc.sta &&& ~~~(mTxact ||| mRxact)) ||| mAct dir).extractLsb' 14 18) = _
          exact reserved_or_and h (by cases dir <;> decide)
        calm := fun h => by
          have := hcw (by rw [a4]; exact h)
          rw [a4] at this
          exact this }
  have stop : Ran i (bufferOf dir s (count * blockSize)) (blocksFrom dir s.card.addr (count * blockSize))
      { w with bc := { w.bc with dma := none, mask := 0#32 }, seq := s.seq, xfer := { w.xfer with multi := false } }
      { p with bc := { p.bc with dma := none, mask := 0#32 }, seq := s.seq, xfer := { p.xfer with multi := false } } := by
    have hwa : w.card.addr = s.card.addr := by
      have := hw.addr
      subst h1
      exact this
    rcases hp with hp | ⟨r, hp⟩
    · subst hp
      exact Ran.refl _ _ _ _
    · exact
        { host := hp.host
          cfg := hp.cfg
          cmdResult := hp.cmdResult
          inbox := hp.inbox
          wire := ⟨_, hp.wire⟩
          logGrows := ⟨[], by rw [List.append_nil]; exact hp.log⟩
          desc := fun _ => by show p.desc = _; rw [hp.desc]; rfl
          valid := fun _ hv => by
            have : p.desc.valid = true := hv
            rwa [hp.desc] at this
          neg := fun _ => hp.neg
          log := fun _ => hp.log
          div := fun _ => hp.div
          width := fun _ => hp.width
          dma := fun _ => rfl
          mask := fun _ => rfl
          multi := fun _ => rfl
          mem := fun _ x hx => by
            show p.mem.read x = w.mem.read x
            cases hdir : dir with
            | tx => rw [hp.mem (ew (fun d => d.dir = .tx) hdir)]; rfl
            | rx =>
              refine hp.memOutside x (ew (fun d => x < d.buf ∨ d.buf + d.len ≤ x) ?_)
              by_contra hn
              simp only [not_or, Nat.not_lt, Nat.not_le] at hn
              exact hx ⟨hdir, hn.1, hn.2⟩
          card := fun _ x hx => by
            show p.card.mem.read x = w.card.mem.read x
            have hne : (openRange 12#6 0#32 (setSeq .xferStop w)).2 = 0 := by
              rw [openRange_none (by decide) (by decide)]
            cases hdir : dir with
            | rx => rw [hp.cardMem (ew (fun d => d.dir = .rx) hdir) hne]; rfl
            | tx =>
              refine hp.cardOutside hne (fun k => cardReceives_12 rfl k) x
                (ew (fun d => x < w.card.addr ∨ w.card.addr + d.len ≤ x) ?_)
              by_contra hn
              simp only [not_or, Nat.not_lt, Nat.not_le, hwa] at hn
              exact hx ⟨hdir, hn.1, hn.2⟩
          memKey := fun _ c hc => by
            have hc : c ∈ p.mem := hc
            cases hdir : dir with
            | tx => exact .inl (by rwa [hp.mem (ew (fun d => d.dir = .tx) hdir)] at hc)
            | rx =>
              rcases hp.memKey c hc with hc | ⟨d, hd, hb, hl⟩
              · exact .inl hc
              · have := ew (fun d => d.buf ≤ c.1 → c.1 < d.buf + d.len → bufferOf dir s (count * blockSize) c.1)
                  (fun h1 h2 => ⟨hdir, h1, h2⟩) d hd hb hl
                exact .inr (hdir ▸ this)
          memWf := hp.memWf
          cardWf := hp.cardWf
          byBlock := hp.byBlock
          reserved := hp.reserved
          calm := hcp }
  refine (key.trans stop).trans ?_
  apply Ran.of_plain <;>
    first | rfl | exact ⟨[], by simp⟩ | exact fun _ => rfl | exact fun h => h | exact fun _ h => h |
      exact fun h => ⟨h, rfl⟩ | skip
  intro h
  show (p.bc.sta &&& ~~~mStatic).extractLsb' 14 18 = 0#18
  rw [BitVec.extractLsb'_and, h, BitVec.zero_and]

/-- After every data phase DMA is disarmed, the interrupt masked and the cells clear (44 R421). -/
theorem dataPhase_clean (dir : Dir) (count : Nat) (multi : Bool) (s : State) :
    (dataPhase dir count multi s).1.bc.dma = none ∧ (dataPhase dir count multi s).1.bc.mask = 0#32 ∧
      (dataPhase dir count multi s).1.xfer = { pendErr := none, done := false, multi := false } ∧
      (dataPhase dir count multi s).1.bc.sta &&& mStatic = 0#32 :=
  ⟨rfl, rfl, rfl, clear_static _⟩

/-! ## The four transfers -/

/-- The blocks of a transfer whose content a failed write leaves open (93 U6, U7): those it names, and those the bytes touch that
lie where the card opens its data command (70 R617; log entry 22). -/
def namedBlocks (dir : Dir) (s : State) (count : Nat) : Nat → Prop := fun x =>
  blocksFrom dir (s.host.arg0.toNat * blockSize) (count * blockSize) x ∨
    blocksFrom dir (openedBlocks count s).1 (openedBlocks count s).2 x

theorem ran_spoilCard {a n : Nat} {C : Nat → Prop} (h : ∀ x, a ≤ x → x < a + n → C x) (i : Bool) (M : Nat → Prop)
    (s : State) : Ran i M C s (spoilCard a n s) :=
  { Ran.refl i M C s with
    card := fun _ x hx => by
      refine Memory.read_write_other _ ?_
      rw [length_freeBytes]
      by_contra hn
      exact hx (h x (by omega) (by omega))
    cardWf := fun hw => Memory.wf_write hw _ _ }

theorem ran_spoilMem {a n : Nat} {M : Nat → Prop} (h : ∀ x, a ≤ x → x < a + n → M x) (i : Bool) (C : Nat → Prop)
    (s : State) : Ran i M C s (spoilMem a n s) :=
  { Ran.refl i M C s with
    mem := fun _ x hx => by
      refine Memory.read_write_other _ ?_
      rw [length_freeBytes]
      by_contra hn
      exact hx (h x (by omega) (by omega))
    memKey := fun _ c hc => by
      rcases Memory.write_key hc with hc | ⟨h1, h2⟩
      · exact .inl hc
      · rw [length_freeBytes] at h2
        exact .inr (h c.1 h1 h2)
    memWf := fun hw => Memory.wf_write hw _ _ }

theorem ran_spoilBlocks (dir : Dir) (count : Nat) {C : Nat → Prop} (s : State)
    (h : ∀ x, namedBlocks dir s count x → C x) (i : Bool) (M : Nat → Prop) :
    Ran i M C s (spoilBlocks dir count s) := by
  cases dir with
  | rx => exact Ran.refl _ _ _ _
  | tx =>
    exact (ran_spoilCard (fun x h1 h2 => h x (.inl ⟨rfl, h1, h2⟩)) i M s).trans
      (ran_spoilCard (fun x h1 h2 => h x (.inr ⟨rfl, h1, h2⟩)) i M _)

theorem ran_spoilTransfer (dir : Dir) (count : Nat) {M C : Nat → Prop} (s : State)
    (hM : ∀ x, bufferOf dir s (count * blockSize) x → M x) (hC : ∀ x, namedBlocks dir s count x → C x)
    (i : Bool) : Ran i M C s (spoilTransfer dir count s) := by
  cases dir with
  | rx => exact ran_spoilMem (fun x h1 h2 => hM x ⟨rfl, h1, h2⟩) i C s
  | tx => exact ran_spoilBlocks .tx count s hC i M

/-- What a failed write leaves open is settled by what no part of a transfer changes. -/
theorem Ran.named {M C : Nat → Prop} {s t : State} (h : Ran false M C s t) (dir : Dir) (count : Nat) :
    namedBlocks dir t count = namedBlocks dir s count := by
  have ho : openedAt t = openedAt s := by
    unfold openedAt wireAddr blockAddressed
    rw [h.byBlock, h.host, h.desc rfl]
  funext x
  unfold namedBlocks openedBlocks
  rw [ho, h.host]

/-- The blocks move: host memory changes in the buffer of a read alone, card storage in the blocks of a write alone: those
at the address `A` the card took, and, after an error alone, those it leaves open. -/
theorem ran_moveBlocks (dir : Dir) {count n : Nat} (hn : count ≤ n) (stop : Bool) {command : State → State × Res Fields} {A : Nat} (s : State)
    (hc : ∀ M, Ran false M (blocksFrom dir A (n * blockSize)) (setSeq .xferCmd s) (command (setSeq .xferCmd s)).1)
    (hA : ∀ f, (command (setSeq .xferCmd s)).2 = .ok f → (command (setSeq .xferCmd s)).1.card.addr = A) :
    Ran false (bufferOf dir s (count * blockSize))
      (fun x => blocksFrom dir A (n * blockSize) x ∨
        (∃ e, (moveBlocks dir count stop command s).2 = .err e) ∧ namedBlocks dir s count x) s
      (moveBlocks dir count stop command s).1 := by
  unfold moveBlocks
  dsimp only
  have h0 := fun M C (hC : ∀ x, blocksFrom dir A (n * blockSize) x → C x) =>
    (ran_setSeq .xferCmd false M C s).trans ((hc M).mono (fun h => h) (fun _ h => h) hC)
  generalize command (setSeq .xferCmd s) = c at hc hA h0
  have hh : c.1.host = s.host := (h0 noAddr _ fun _ h => h).host
  have hk := (h0 noAddr _ fun _ h => h).named dir count
  split
  · rename_i e _
    refine (h0 _ _ fun _ => .inl).trans (ran_spoilBlocks dir count _ (fun x hx => .inr ⟨⟨e, rfl⟩, ?_⟩) _ _)
    rwa [hk] at hx
  · rename_i f hf
    have hA := hA f hf
    have hd := dataPhase_ran dir count stop false c.1
    rw [hA] at hd
    have hd' (C : Nat → Prop) (hC : ∀ x, blocksFrom dir A (n * blockSize) x → C x) :
        Ran false (bufferOf dir s (count * blockSize)) C c.1 (dataPhase dir count stop c.1).1 :=
      hd.mono (fun h => h) (fun x hx => by simpa [bufferOf, hh] using hx) fun x hx =>
        hC x ⟨hx.1, hx.2.1, Nat.lt_of_lt_of_le hx.2.2 (Nat.add_le_add_left (Nat.mul_le_mul_right _ hn) _)⟩
    have hh2 : (dataPhase dir count stop c.1).1.host = s.host := hd.host.trans hh
    have hk2 := (hd.named dir count).trans hk
    split
    · rename_i e _
      refine ((h0 _ _ fun _ => .inl).trans (hd' _ fun _ => .inl)).trans
        (ran_spoilTransfer dir count _ (fun x hx => ?_) (fun x hx => .inr ⟨⟨e, rfl⟩, ?_⟩) _)
      · simpa [bufferOf, hh2] using hx
      · rwa [hk2] at hx
    · exact (h0 _ _ fun _ => .inl).trans (hd' _ fun _ => .inl)

/-! ## The commands of a transfer -/

/-- A command procedure of a transfer for the block in ARG0, run at `u` with no prefix pending: it leaves open only blocks of
the transfer, and once it succeeds the card has opened the command at the block's address. -/
structure OpensBlocks (dir : Dir) (count : Nat) (u t : State) (r : Res Fields) : Prop where
  ran : ∀ i M, Ran i M (blocksFrom dir (openedAt u) (count * blockSize)) u t
  addr : ∀ f, r = .ok f → t.card.addr = openedAt u
  sends : ∃ c cs, t.wire = u.wire ++ c :: cs

theorem dataCommand_addr {idx : BitVec 6} (hi : idx = 17#6 ∨ idx = 18#6 ∨ idx = 24#6 ∨ idx = 25#6) {u : State} (ha : u.app = false) :
    (dataCommand idx u).1.card.addr = openedAt u := by
  rw [show (dataCommand idx u).1.card.addr = _ from (issueCmd_issued idx (wireAddr u.desc u.host.arg0) .r1 u).addr]
  unfold cardReceives sentAs
  rw [ha]
  rcases hi with rfl | rfl | rfl | rfl <;> rfl

/-- CMD17, CMD18 and CMD24. -/
theorem dataCommand_opens {idx : BitVec 6} (hi : idx = 17#6 ∨ idx = 18#6 ∨ idx = 24#6) (dir : Dir) (count : Nat) {u : State}
    (ha : u.app = false) : OpensBlocks dir count u (dataCommand idx u).1 (dataCommand idx u).2 where
  ran := fun i M => ran_issueCmd (by rcases hi with rfl | rfl | rfl <;> decide) _ _ _ _ _ _
  addr := fun _ _ => dataCommand_addr (by rcases hi with h | h | h <;> simp [h]) ha
  sends := ⟨_, [], (issueCmd_issued _ _ _ _).wire⟩

/-- CMD25 of a card that was told of no more blocks to pre-erase than the write has. -/
theorem write25_opens {count : Nat} {u : State} (ha : u.app = false)
    (hp : u.card.mmc = false → u.card.preErase ≤ count) :
    OpensBlocks .tx count u (dataCommand 25#6 u).1 (dataCommand 25#6 u).2 where
  ran := fun i M =>
    (issueCmd_ran _ _ _ i M u).mono (fun h => h) (fun _ h => h) fun x hx => by
      have e : openRange 25#6 (wireAddr u.desc u.host.arg0) u = preErased (wireAddr u.desc u.host.arg0) u.card := by
        unfold openRange spoiledRange sentAs
        rw [ha]
        rfl
      unfold opens at hx
      rw [e] at hx
      have hl : (preErased (wireAddr u.desc u.host.arg0) u.card).2 ≤ count * blockSize := by
        unfold preErased
        dsimp only
        split
        · omega
        · rename_i hm
          exact Nat.mul_le_mul_right _ (hp (by simpa using hm))
      exact ⟨rfl, hx.1, Nat.lt_of_lt_of_le hx.2 (Nat.add_le_add_left hl _)⟩
  addr := fun _ _ => dataCommand_addr (by simp) ha
  sends := ⟨_, [], (issueCmd_issued _ _ _ _).wire⟩

theorem prefix_ok {idx : BitVec 6} {f : Fields} (h : idx ≠ 55#6) : prefixOf idx (.ok f) = false := by
  simpa [prefixOf] using h

/-- ACMD23 and CMD25 on an SD card, CMD25 alone on MMC (44 R413): the card pre-erases the blocks of this write alone, or `touched`
ones. -/
theorem writeBlocksCommand_opens {u : State} (ha : u.app = false) :
    OpensBlocks .tx (touched .writeBlocks u.host.arg1.toNat u) u (writeBlocksCommand u).1 (writeBlocksCommand u).2 := by
  unfold writeBlocksCommand
  cases hsd : isSd u.desc
  · rw [if_neg (by decide)]
    refine write25_opens ha fun h => ?_
    simp [isSd] at hsd
    unfold touched
    rw [if_pos ⟨rfl, hsd, h⟩]
    exact Nat.le_max_right _ _
  · rw [if_pos rfl]
    have htouch : touched .writeBlocks u.host.arg1.toNat u = u.host.arg1.toNat := by
      unfold touched
      rw [if_neg]
      simp [isSd] at hsd
      exact fun e => hsd e.2.1
    rw [htouch]
    unfold issueApp
    have h1 := issueCmd_issued 55#6 (rcaArg u) .r1 u
    have r1 := fun i M C => ran_issueCmd (idx := 55#6) (by decide) (rcaArg u) .r1 i M C u
    generalize issueCmd 55#6 (rcaArg u) .r1 u = a at h1 r1
    obtain ⟨a, ra⟩ := a
    cases ra with
    | err e => exact ⟨fun i M => r1 i M _, fun f h => (by cases h), ⟨_, [], h1.wire⟩⟩
    | ok fa =>
      simp only [andThen_ok]
      have h2 := issueCmd_issued 23#6 u.host.arg1 .r1 a
      have r2 := fun i M C => ran_issueCmd (idx := 23#6) (by decide) u.host.arg1 .r1 i M C a
      have hw2 : (issueCmd 23#6 u.host.arg1 .r1 a).1.wire = u.wire ++ sentAs 55#6 (rcaArg u) .r1 u :: [sentAs 23#6 u.host.arg1 .r1 a] := by
        rw [h2.wire, h1.wire, List.append_assoc]
        rfl
      generalize issueCmd 23#6 u.host.arg1 .r1 a = b at h2 r2 hw2
      obtain ⟨b, rb⟩ := b
      cases rb with
      | err e => exact ⟨fun i M => (r1 i M _).trans (r2 i M _), fun f h => (by cases h), ⟨_, _, hw2⟩⟩
      | ok fb =>
        simp only [andThen_ok]
        have hd : b.desc = u.desc := h2.desc.trans h1.desc
        have hh : b.host = u.host := h2.host.trans h1.host
        have hopen : openedAt b = openedAt u := by
          have hbb : b.card.byBlock = u.card.byBlock := h2.byBlock.trans h1.byBlock
          simp only [openedAt, hd, hh, hbb]
        have hb : b.app = false := h2.app.trans (prefix_ok (by decide))
        have hpre : b.card.preErase ≤ u.host.arg1.toNat := by
          rw [h2.preErase]
          have : a.app = true := h1.app
          unfold cardReceives sentAs
          rw [this]
          show (u.host.arg1.extractLsb' 0 23).toNat ≤ _
          rw [BitVec.extractLsb'_toNat]
          simp only [Nat.shiftRight_zero]
          exact Nat.mod_le _ _
        have h3 := write25_opens (count := u.host.arg1.toNat) hb fun _ => hpre
        obtain ⟨c, cs, hw⟩ := h3.sends
        have h4 := h3.ran
        rw [hopen] at h4
        refine ⟨fun i M => ((r1 i M _).trans (r2 i M _)).trans (h4 i M), ?_, ?_⟩
        · exact fun f h => (h3.addr f h).trans hopen
        · exact ⟨sentAs 55#6 (rcaArg u) .r1 u, sentAs 23#6 u.host.arg1 .r1 a :: c :: cs, by rw [hw, hw2]; simp⟩

theorem wire_grows {s : List Sent} {t : List Sent} {c : Sent} {cs : List Sent} (h : t = s ++ c :: cs) : t.drop s.length ≠ [] := by
  rw [h, List.drop_left]
  simp

/-- Blocks that move were announced by a command. -/
theorem moveBlocks_sends {dir : Dir} {count : Nat} {stop : Bool} {command : State → State × Res Fields} {s : State}
    (hs : ∃ c cs, (command (setSeq .xferCmd s)).1.wire = s.wire ++ c :: cs) :
    ∃ c cs, (moveBlocks dir count stop command s).1.wire = s.wire ++ c :: cs := by
  obtain ⟨c, cs, h⟩ := hs
  have sb (u : State) : (spoilBlocks dir count u).wire = u.wire := by cases dir <;> rfl
  have st (u : State) : (spoilTransfer dir count u).wire = u.wire := by cases dir <;> rfl
  obtain ⟨ds, hd⟩ := (dataPhase_ran dir count stop false (command (setSeq .xferCmd s)).1).wire
  rw [h] at hd
  unfold moveBlocks
  dsimp only
  split
  · exact ⟨c, cs, (sb _).trans h⟩
  · split
    · exact ⟨c, cs ++ ds, by rw [st, hd]; simp⟩
    · exact ⟨c, cs ++ ds, by rw [hd]; simp⟩

/-- Any transfer that answers a next state: ended by its checks, or run to the end of its blocks. -/
theorem transferOp_next {dir : Dir} {count : Nat} {multi : Bool} {stop : Descriptor → Bool}
    {command : State → State × Res Fields} {s t : State} (h : transferOp dir count multi stop command s = .next t) :
    s.host.hbusy = false ∧ t.inp.breaches = s.inp.breaches ∧ (s.app = true → t.wire.drop s.wire.length = []) ∧
      ((∃ e, (checks dir count multi (beginOp s)).2 = .err e ∧ t = raise e (checks dir count multi (beginOp s)).1) ∨
        ((checks dir count multi (beginOp s)).2 = .ok () ∧
          reachable s.cfg s.host.buf (count * blockSize) = true ∧
          t = endWith (moveBlocks dir count (stop (checks dir count multi (beginOp s)).1.desc) command
            (checks dir count multi (beginOp s)).1))) := by
  have hr := ran_checks dir count multi false noAddr noAddr (beginOp s)
  unfold transferOp at h
  cases hb : s.host.hbusy with
  | true => simp [hb] at h
  | false =>
    refine ⟨rfl, ?_⟩
    simp only [hb, Bool.false_eq_true, if_false] at h
    split at h
    · rename_i e he
      obtain ⟨ht, h1, h2⟩ := settle_next.1 h
      exact ⟨ht ▸ h1, fun ha => ht ▸ h2 ha, .inl ⟨e, he, ht⟩⟩
    · rename_i he
      split at h
      · rename_i hre
        obtain ⟨ht, h1, h2⟩ := settle_next.1 h
        rw [hr.cfg, hr.host] at hre
        exact ⟨ht ▸ h1, fun ha => ht ▸ h2 ha, .inr ⟨he, hre, ht⟩⟩
      · exact absurd h (by simp)

/-! ## ERASE -/

theorem ran_erasePoll (n : Nat) (i : Bool) (M C : Nat → Prop) (s : State) : Ran i M C s (erasePoll n s).1 := by
  induction n generalizing s with
  | zero => exact Ran.refl i M C s
  | succ n ih =>
    unfold erasePoll
    refine ran_andThen (ran_statusQuery i M C s) fun st _ => ?_
    split
    · exact ih _
    · exact Ran.refl _ _ _ _

/-- The other agents change nothing of what an ERASE erases. -/
theorem Moved.erasedBy {s t : State} (h : Moved s t) : erasedBy t = erasedBy s := by
  funext x
  unfold Safety.erasedBy
  have : eraseRange (selectedCard t) = eraseRange (selectedCard s) := by
    unfold eraseRange eraseUnit selectedCard
    rw [h.desc, h.host, h.byBlock, h.mmc, h.csd]
  rw [this]

/-- The state after the checks of an ERASE, and the commands that follow them. -/
theorem eraseBody_passed {s : State} (h : (eraseChecks s).2 = .ok ()) (i : Bool) (M C : Nat → Prop)
    (hC : (eraseChecks s).1.app = false → ∀ x, erasedBy (eraseChecks s).1 x → C x) (hall : (eraseChecks s).1.app = true → ∀ x, C x) :
    Ran i M C (eraseChecks s).1 (eraseBody s).1 ∧ ∃ c cs, (eraseBody s).1.wire = (eraseChecks s).1.wire ++ c :: cs := by
  unfold eraseBody
  generalize eraseChecks s = q at h hC hall
  obtain ⟨u, q⟩ := q
  subst h
  simp only [andThen_ok]
  have hne : ((eraseIndices u.desc).1 ≠ 38#6 ∧ (eraseIndices u.desc).1 ≠ 25#6) ∧
      ((eraseIndices u.desc).2 ≠ 38#6 ∧ (eraseIndices u.desc).2 ≠ 25#6) ∧ (eraseIndices u.desc).1 ≠ 55#6 := by
    unfold eraseIndices
    split <;> decide
  have h1 := issueCmd_issued (eraseIndices u.desc).1 (wireAddr u.desc u.host.arg0) .r1 (setSeq .eraseCmd u)
  have hr1 : Ran i M C u (issueCmd (eraseIndices u.desc).1 (wireAddr u.desc u.host.arg0) .r1 (setSeq .eraseCmd u)).1 :=
    (ran_setSeq _ _ _ _ _).trans (ran_issueCmd hne.1 _ _ _ _ _ _)
  generalize issueCmd (eraseIndices u.desc).1 (wireAddr u.desc u.host.arg0) .r1 (setSeq .eraseCmd u) = a at h1 hr1
  obtain ⟨a, ra⟩ := a
  have done {t : State} (h : Ran i M C a t) : Ran i M C u t ∧ ∃ c cs, t.wire = u.wire ++ c :: cs := by
    refine ⟨hr1.trans h, ?_⟩
    obtain ⟨cs, hw⟩ := h.wire
    exact ⟨_, cs, by rw [hw, h1.wire, List.append_assoc]; rfl⟩
  cases ra with
  | err e => exact done (Ran.refl _ _ _ _)
  | ok f =>
    simp only [andThen_ok]
    apply done
    have hd1 : a.desc = u.desc := h1.desc
    have hh1 : a.host = u.host := h1.host
    have hb1 : a.card.byBlock = u.card.byBlock := h1.byBlock
    have happ : a.app = false := h1.app.trans (prefix_ok hne.2.2)
    rw [hd1, hh1]
    have h2 := issueCmd_issued (eraseIndices u.desc).2 (wireAddr u.desc u.host.arg1) .r1 a
    refine ran_andThen (ran_issueCmd hne.2.1 _ _ _ _ _ _) fun f2 hf2 => ?_
    generalize issueCmd (eraseIndices u.desc).2 (wireAddr u.desc u.host.arg1) .r1 a = b at h2 hf2
    refine ran_andThen ((issueCmd_ran _ _ _ i M b.1).mono (fun h => h) (fun _ h => h) fun x hx => ?_) fun _ _ => ?_
    · cases hu : u.app with
      | true => exact hall hu x
      | false =>
        refine hC hu x ?_
        have happ2 : b.1.app = false := by
          rw [h2.app, hf2]
          refine prefix_ok ?_
          unfold eraseIndices
          split <;> decide
        have e1 : b.1.card.eraseFirst = (selectedCard u).eraseFirst := by
          rw [h2.eraseFirst]
          have : (cardReceives (sentAs (eraseIndices u.desc).2 (wireAddr u.desc u.host.arg1) .r1 a) a.card).eraseFirst =
              a.card.eraseFirst := by
            unfold cardReceives sentAs eraseIndices
            rw [happ]
            by_cases hm : u.desc.cardType = .mmc <;> simp [hm]
          rw [this, h1.eraseFirst]
          unfold cardReceives sentAs eraseIndices selectedCard
          rw [show (setSeq .eraseCmd u).app = false from hu]
          by_cases hm : u.desc.cardType = .mmc <;> simp [hm]
        have e2 : b.1.card.eraseLast = (selectedCard u).eraseLast := by
          rw [h2.eraseLast]
          unfold cardReceives sentAs eraseIndices selectedCard
          rw [happ, hb1]
          by_cases hm : u.desc.cardType = .mmc <;> simp [hm]
        have hrange : openRange 38#6 0#32 b.1 = eraseRange (selectedCard u) := by
          unfold openRange spoiledRange sentAs
          rw [happ2]
          show eraseRange b.1.card = _
          unfold eraseRange eraseUnit
          rw [e1, e2, h2.mmc, h2.csd, h1.mmc, h1.csd]
          rfl
        unfold opens at hx
        rw [hrange] at hx
        exact hx
    · exact ran_andThen ((ran_setSeq _ _ _ _ _).trans (ran_erasePoll _ _ _ _ _)) fun _ _ => Ran.refl _ _ _ _

/-- ERASE: it writes the units it erases, and nothing where it sends no command. -/
theorem ran_eraseBody (i : Bool) (M : Nat → Prop) (s : State)
    (hs : s.app = true → (eraseBody s).1.wire.drop s.wire.length = []) : Ran i M (erasedBy s) s (eraseBody s).1 := by
  have h0 := ran_eraseChecks i M (erasedBy s) s
  cases hk : (eraseChecks s).2 with
  | err e =>
    have : (eraseBody s).1 = (eraseChecks s).1 := by
      unfold eraseBody andThen
      rw [hk]
    rw [this]
    exact h0
  | ok v =>
    have m := eraseChecks_ok hk
    cases ha : s.app with
    | true =>
      obtain ⟨-, c, cs, hw⟩ := eraseBody_passed hk i M (fun _ => True) (fun _ _ _ => trivial) fun _ _ => trivial
      rw [m.wire] at hw
      exact absurd (hs ha) (wire_grows hw)
    | false =>
      refine h0.trans (eraseBody_passed hk i M _ (fun _ x hx => ?_) fun h => ?_).1
      · exact m.erasedBy ▸ hx
      · rw [m.app, ha] at h
        cases h

end Sys2Proof.Machine
end

