-- ==== Sys2Proof/Laws/Data.lean ====
section
/-! SUPPORT. A data phase that ends at once, by its handler, and one in which nothing ever happens (44 R420, R421; 60_exceptions
R520). -/

namespace Sys2Proof.Machine

open Sys2Proof Sys2Proof.Safety

/-- The static flags after BC raised some on a clear status word. -/
theorem flags_raised (x f m : Word) (hx : x &&& mStatic = 0#32) (hm : m &&& mStatic = m) :
    ((x ||| f) &&& ~~~(mTxact ||| mRxact)) &&& m = f &&& m := by
  have hd : (mTxact ||| mRxact) &&& mStatic = 0#32 := by decide
  have e1 : ∀ i (h : i < 32), (m &&& mStatic)[i] = m[i] := by intro i h; rw [hm]
  have e2 : ∀ i (h : i < 32), (x &&& mStatic)[i] = false := by intro i h; rw [hx]; simp
  have e3 : ∀ i (h : i < 32), ((mTxact ||| mRxact) &&& mStatic)[i] = false := by intro i h; rw [hd]; simp
  generalize mTxact ||| mRxact = a at *
  ext i hi
  have e1 := e1 i hi
  have e2 := e2 i hi
  have e3 := e3 i hi
  simp only [BitVec.getElem_and, BitVec.getElem_or, BitVec.getElem_not] at *
  revert e1 e2 e3
  generalize mStatic[i] = p
  generalize m[i] = q
  generalize x[i] = y
  generalize a[i] = z
  generalize f[i] = w
  cases p <;> cases q <;> cases y <;> cases z <;> cases w <;> simp

theorem hasFlag_raised (x f m : Word) (hx : x &&& mStatic = 0#32) (hm : m &&& mStatic = m) :
    hasFlag ((x ||| f) &&& ~~~(mTxact ||| mRxact)) m = hasFlag f m := by
  unfold hasFlag
  rw [flags_raised x f m hx hm]

/-- What the handler records depends on the data flags alone. -/
theorem isrError_raised (x f : Word) (hx : x &&& mStatic = 0#32) :
    isrError ((x ||| f) &&& ~~~(mTxact ||| mRxact)) = isrError f := by
  unfold isrError
  rw [hasFlag_raised x f mDcrcfail hx (by decide), hasFlag_raised x f mDtimeout hx (by decide),
    hasFlag_raised x f mTxunderr hx (by decide), hasFlag_raised x f mRxoverr hx (by decide),
    hasFlag_raised x f mStbiterr hx (by decide)]

theorem armed_static {x : Word} (hx : x &&& mStatic = 0#32) (dir : Dir) :
    ((x &&& ~~~(mTxact ||| mRxact)) ||| mAct dir) &&& mStatic = 0#32 := by
  have hact : mAct dir &&& mStatic = 0#32 := by cases dir <;> decide
  have e1 : ∀ i (h : i < 32), (x &&& mStatic)[i] = false := by intro i h; rw [hx]; simp
  have e2 : ∀ i (h : i < 32), (mAct dir &&& mStatic)[i] = false := by intro i h; rw [hact]; simp
  ext i hi
  have e1 := e1 i hi
  have e2 := e2 i hi
  simp only [BitVec.getElem_and, BitVec.getElem_or, BitVec.getElem_not, BitVec.getElem_zero] at *
  revert e1 e2
  generalize mStatic[i] = p
  generalize x[i] = y
  generalize (mAct dir)[i] = z
  cases p <;> cases y <;> cases z <;> simp

/-- A status word whose act bits are taken down. -/
theorem act_cleared (x : Word) : transferActive (x &&& ~~~(mTxact ||| mRxact)) = false := by
  have h (m : Word) (hm : ~~~(mTxact ||| mRxact) &&& m = 0#32) : hasFlag (x &&& ~~~(mTxact ||| mRxact)) m = false := by
    unfold hasFlag
    rw [BitVec.and_assoc, hm, BitVec.and_zero]
    rfl
  unfold transferActive
  rw [h mTxact (by decide), h mRxact (by decide)]
  rfl

/-- The state in which a data phase waits. -/
def armedFor (dir : Dir) (count : Nat) (multi : Bool) (s : State) : State :=
  bcArm dir s.host.buf (count * blockSize) (setTransfer none false multi (setSeq .xferData s))

/-- BC sets data flags while a transfer is armed, and the handler runs: the cells hold what R520 says. -/
theorem raised_eq {flags : Word} {s : State} {d : Dma} (hd : s.bc.dma = some d) (hmv : s.bc.moved = false) (hm : s.bc.mask = mData)
    (hs : s.bc.sta &&& mStatic = 0#32) (hpath : hasFlag flags (~~~mPath) = false) (hf : hasFlag flags mData = true) :
    applyBatch [.data flags, .isr] s =
      { (if hasFlag flags mDataend then dmaMove d s else s) with
        bc :=
          { s.bc with
            sta := (s.bc.sta ||| flags) &&& ~~~(mTxact ||| mRxact)
            mask := 0#32
            moved := hasFlag flags mDataend
            irq := false }
        xfer := { s.xfer with pendErr := isrError flags, done := true } } := by
  have hp : ((s.bc.sta ||| flags) &&& ~~~(mTxact ||| mRxact)) &&& mData ≠ 0#32 := by
    rw [flags_raised _ _ _ hs (by decide)]
    simpa [hasFlag] using hf
  have he := isrError_raised s.bc.sta flags hs
  have h1 : applyEv (.data flags) s =
      { (if hasFlag flags mDataend then dmaMove d s else s) with
        bc :=
          { s.bc with
            sta := (s.bc.sta ||| flags) &&& ~~~(mTxact ||| mRxact)
            moved := hasFlag flags mDataend
            irq := true } } := by
    show dataMove flags s = _
    have hne : ((s.bc.sta ||| flags) &&& ~~~(mTxact ||| mRxact)) &&& s.bc.mask != 0#32 := by
      rw [hm]; simpa using hp
    unfold dataMove
    rw [if_neg (by rw [hpath]; decide), hd]
    dsimp only
    unfold armedMove
    rw [hmv, if_pos hf]
    dsimp only
    rw [hne, Bool.or_true, Bool.false_or, Bool.not_false, Bool.and_true]
    split
    · rw [dmaMove_bc]
    · rfl
  show applyEv .isr (applyEv (.data flags) s) = _
  rw [h1]
  show isrMove _ = _
  unfold isrMove isr
  rw [if_pos (by simp), if_neg hp]
  dsimp only
  rw [he]
  have hx : ∀ b : Bool, (if b then dmaMove d s else s).xfer = s.xfer := by
    intro b
    cases b
    · rfl
    · exact dmaMove_xfer d s
  rw [hx]

/-- A data phase whose flags and handler come in the next batch. -/
theorem dataWait_raised (dir : Dir) (count : Nat) (multi : Bool) {flags : Word} {r : List (List Ev)} {s : State}
    (hsch : s.inp.sched = [.data flags, .isr] :: r) (hs : s.bc.sta &&& mStatic = 0#32)
    (hpath : hasFlag flags (~~~mPath) = false) (hf : hasFlag flags mData = true) :
    dataWait dir count multi s = (setSched r (applyBatch [.data flags, .isr] (armedFor dir count multi s)), false) := by
  unfold dataWait waitFor
  dsimp only
  have hl : (bcArm dir s.host.buf (count * blockSize) (setTransfer none false multi (setSeq .xferData s))).inp.sched =
      [.data flags, .isr] :: r := hsch
  rw [hl]
  refine waitLoop_first ?_
  have := raised_eq (flags := flags) (s := armedFor dir count multi s) (d := _) rfl rfl rfl (armed_static hs dir) hpath hf
  show (applyBatch [.data flags, .isr] (armedFor dir count multi s)).xfer.done = true
  rw [this]

/-- The data bytes DMA moves where they are the real ones. -/
theorem exchanged_real {bs : List Byte} {s : State} (h : realBytes s = true) : exchanged bs s = (bs, s.free) := if_pos h

/-- Host memory and card storage after a data phase that moved every byte (20_memory R95): a read leaves the card's, a write the
host's, and the other holds the bytes moved where they are the real ones. -/
theorem dataDone_mem (dir : Dir) (count : Nat) (multi : Bool) {s : State} (hs : s.bc.sta &&& mStatic = 0#32) :
    let u := applyBatch [.data mDataend, .isr] (armedFor dir count multi s)
    (realBytes s = true → u.mem = (match dir with
      | .rx => s.mem.write s.host.buf (s.card.mem.readRange s.card.addr (count * blockSize))
      | .tx => s.mem)) ∧
    (realBytes s = true → u.card.mem = (match dir with
      | .rx => s.card.mem
      | .tx => s.card.mem.write s.card.addr (s.mem.readRange s.host.buf (count * blockSize)))) ∧
    (match dir with
      | .rx => u.card.mem = s.card.mem
      | .tx => u.mem = s.mem) ∧
    u.xfer = { pendErr := none, done := true, multi := multi } ∧
    u.card.state = cardAfterData s.card.mmc s.bc.cmd s.card.state ∧ u.bc.mask = 0#32 ∧
    u.inp = s.inp ∧ u.bc.irq = false ∧ transferActive u.bc.sta = false ∧ u.bc.sta &&& mStatic = mDataend := by
  have h := raised_eq (flags := mDataend) (s := armedFor dir count multi s) (d := _) rfl rfl rfl (armed_static hs dir)
    (by decide) (by decide)
  have hend : hasFlag mDataend mDataend = true := by decide
  have herr : isrError mDataend = none := by decide
  rw [hend, if_pos rfl, herr] at h
  dsimp only
  rw [h]
  have ex (hc : realBytes s = true) : ∀ bs, exchanged bs (armedFor dir count multi s) = (bs, s.free) := fun bs =>
    exchanged_real (s := armedFor dir count multi s) hc
  cases dir <;> simp only [dmaMove] <;>
    refine ⟨fun hc => ?_, fun hc => ?_, ?_, ?_, ?_, ?_, ?_, ?_, act_cleared _, flags_raised _ _ _ (armed_static hs _) (by decide)⟩ <;>
    first | trivial | (rw [ex hc]; rfl)

/-- With no move of any other agent left, the data wait ends by its deadline (60_exceptions R535). -/
theorem dataWait_silent (dir : Dir) (count : Nat) (multi : Bool) {s : State} (hs : s.inp.sched = []) :
    (dataWait dir count multi s).2 = true ∧ (dataWait dir count multi s).1.inp.sched = [] ∧
      Moved (armedFor dir count multi s) (dataWait dir count multi s).1 := by
  have hl : (bcArm dir s.host.buf (count * blockSize) (setTransfer none false multi (setSeq .xferData s))).inp.sched = [] := hs
  refine ⟨?_, ?_, moved_waitFor _ _ _⟩
  · unfold dataWait waitFor
    dsimp only
    rw [hl]
    simp [waitLoop]
  · have := waitLoop_sched (fun t => t.xfer.done) (armedFor dir count multi s).inp.ms
      (dataDeadlineMs (armedFor dir count multi s).cfg (armedFor dir count multi s).neg.clkdiv count) []
      (armedFor dir count multi s)
    have he : (dataWait dir count multi s).1 = (waitLoop (fun t => t.xfer.done) (armedFor dir count multi s).inp.ms
      (dataDeadlineMs (armedFor dir count multi s).cfg (armedFor dir count multi s).neg.clkdiv count) []
      (armedFor dir count multi s)).1 := by
      unfold dataWait waitFor
      dsimp only
      rw [hl]
      rfl
    rw [he]
    simpa using this

end Sys2Proof.Machine
end

