-- ==== Sys2Proof/Laws/Negotiation.lean ====
section
/-! SUPPORT. Card negotiation: everything it can do, what it puts on the bus, when it publishes, and that the fuel of the
voltage loop is never used up. -/

namespace Sys2Proof.Machine

open Sys2Proof

/-! ## What negotiation can do -/

theorem ran_negClear (M C : Nat → Prop) (s : State) : Ran true M C s (negClear s) := by
  apply Ran.of_plain <;> first | rfl | exact ⟨[], by simp [negClear]⟩ | exact fun h => h | exact fun h => ⟨h, rfl⟩ | (intro h; cases h)

theorem ran_configure (div : Nat) (width : BitVec 3) (M C : Nat → Prop) (s : State) :
    Ran true M C s (configure div width s) := by
  apply Ran.of_plain <;> first | rfl | exact ⟨[], by simp [configure]⟩ | exact fun h => h | exact fun h => ⟨h, rfl⟩ | (intro h; cases h)

theorem ran_negReset (M C : Nat → Prop) (s : State) : Ran true M C s (negReset s).1 :=
  ran_andThen (((ran_setSeq _ _ _ _ _).trans (ran_configure _ _ _ _ _)).trans (ran_issueCmd (by decide) _ _ _ _ _ _))
    fun _ _ => Ran.refl _ _ _ _

theorem ran_setSdv2 (v : Bool) (M C : Nat → Prop) (s : State) : Ran true M C s (setSdv2 v s) := by
  apply Ran.of_plain <;> first | rfl | exact ⟨[], by simp⟩ | exact fun h => h | exact fun h => ⟨h, rfl⟩ | (intro h; cases h)

theorem ran_negProbe (M C : Nat → Prop) (s : State) : Ran true M C s (negProbe s).1 :=
  ((ran_setSeq _ _ _ _ _).trans (ran_issueCmd (by decide) _ _ _ _ _ _)).trans (ran_setSdv2 _ _ _ _)

theorem ran_setOcr (w : Word) (M C : Nat → Prop) (s : State) : Ran true M C s (setOcr w s) := by
  apply Ran.of_plain <;> first | rfl | exact ⟨[], by simp⟩ | exact fun h => h | exact fun h => ⟨h, rfl⟩ | (intro h; cases h)

theorem ran_voltPause (M C : Nat → Prop) (s : State) : Ran true M C s (voltPause s) := by
  apply Ran.of_plain <;> first | rfl | exact ⟨[], by simp⟩ | exact fun h => h | exact fun h => ⟨h, rfl⟩ | (intro h; cases h)

theorem ran_setCardType (t : CardType) (M C : Nat → Prop) (s : State) : Ran true M C s (setCardType t s) := by
  apply Ran.of_plain <;> first | rfl | exact ⟨[], by simp⟩ | exact fun h => h | exact fun h => ⟨h, rfl⟩ | (intro h; cases h)

theorem ran_voltAttempt (mmc first : Bool) (arg : Word) (M C : Nat → Prop) (s : State) :
    Ran true M C s (voltAttempt mmc first arg s).1 := by
  unfold voltAttempt
  dsimp only
  split
  · exact ran_issueCmd (by decide) _ _ _ _ _ _
  · split
    · split <;> exact ran_issueCmd (by decide) _ _ _ _ _ _
    · exact (ran_issueCmd (by decide) _ _ _ _ _ _).trans (ran_issueCmd (by decide) _ _ _ _ _ _)

theorem ran_voltLoop (m0 : Nat) (arg : Word) (n : Nat) (mmc first : Bool) (M C : Nat → Prop) (s : State) :
    Ran true M C s (voltLoop m0 arg n mmc first s).1 := by
  induction n generalizing mmc first s with
  | zero => exact Ran.refl _ _ _ _
  | succ n ih =>
    have h := ran_voltAttempt mmc first arg M C s
    unfold voltLoop
    dsimp only
    split
    · exact h.trans (ih _ _ _)
    · exact h
    · rename_i ocr _
      have h2 := h.trans (ran_setOcr ocr M C _)
      split
      · exact h2
      · split
        · exact h2.trans (ran_sync _ _ _ _)
        · exact (h2.trans (ran_sync _ _ _ _)).trans ((ran_voltPause _ _ _).trans (ih _ _ _))

theorem ran_negVoltage (M C : Nat → Prop) (s : State) : Ran true M C s (negVoltage s).1 :=
  ran_andThen ((ran_setSeq _ _ _ _ _).trans (ran_voltLoop _ _ _ _ _ _ _ _)) fun _ _ => ran_setCardType _ _ _ _

/-- A change of the descriptor alone. -/
theorem ran_desc (d : Descriptor) (M C : Nat → Prop) (s : State) : Ran true M C s { s with desc := d } := by
  apply Ran.of_plain <;> first | rfl | exact ⟨[], by simp⟩ | exact fun h => h | exact fun h => ⟨h, rfl⟩ | (intro h; cases h)

theorem ran_negIdentCid (M C : Nat → Prop) (s : State) : Ran true M C s (negIdentCid s).1 :=
  ran_andThen ((ran_setSeq _ _ _ _ _).trans (ran_issueCmd (by decide) _ _ _ _ _ _)) fun _ _ => ran_desc _ _ _ _

theorem ran_negIdentRca (M C : Nat → Prop) (s : State) : Ran true M C s (negIdentRca s).1 :=
  ran_andThen (ran_issueCmd (by decide) _ _ _ _ _ _) fun _ _ => ran_desc _ _ _ _

/-- Parsing writes the descriptor alone. -/
theorem negParse_desc (s : State) : ∃ d, (negParse s).1 = { s with desc := d } ∧ d.valid = s.desc.valid := by
  unfold negParse
  dsimp only
  split
  · exact ⟨_, rfl, rfl⟩
  · split <;> exact ⟨_, rfl, rfl⟩

theorem ran_negRegfetch (M C : Nat → Prop) (s : State) : Ran true M C s (negRegfetch s).1 := by
  refine ran_andThen ((ran_setSeq _ _ _ _ _).trans (ran_issueCmd (by decide) _ _ _ _ _ _)) fun f _ => ?_
  obtain ⟨d, hd, -⟩ := negParse_desc
    { (issueCmd 9#6 (rcaArg s) .r2 (setSeq .negRegfetch s)).1 with
      desc := { (issueCmd 9#6 (rcaArg s) .r2 (setSeq .negRegfetch s)).1.desc with csdRaw := f.register } }
  rw [hd]
  exact ran_desc d M C _

theorem ran_negSelect (M C : Nat → Prop) (s : State) : Ran true M C s (negSelect s).1 := by
  refine ran_andThen ((ran_setSeq _ _ _ _ _).trans (ran_issueCmd (by decide) _ _ _ _ _ _)) fun _ _ => ?_
  apply Ran.of_plain <;> first | rfl | exact ⟨[], by simp⟩ | exact fun h => h | exact fun h => ⟨h, rfl⟩ | (intro h; cases h)

theorem ran_negWidth (M C : Nat → Prop) (s : State) : Ran true M C s (negWidth s).1 := by
  have h := (ran_setSeq .negWidth true M C s).trans (ran_issueApp (idx := 6#6) (by decide) 2#32 .r1 true M C _)
  unfold negWidth
  dsimp only
  split
  · exact ran_setSeq _ _ _ _ _
  · split
    · refine h.trans ?_
      apply Ran.of_plain <;> first | rfl | exact ⟨[], by simp⟩ | exact fun h => h | exact fun h => ⟨h, rfl⟩ | (intro h; cases h)
    · refine h.trans ?_
      apply Ran.of_plain <;> first | rfl | exact ⟨_, rfl⟩ | exact fun h => h | exact fun h => ⟨h, rfl⟩ | (intro h; cases h)

theorem ran_negBlklen (M C : Nat → Prop) (s : State) : Ran true M C s (negBlklen s).1 :=
  ran_andThen ((ran_setSeq _ _ _ _ _).trans (ran_issueCmd (by decide) _ _ _ _ _ _)) fun _ _ => Ran.refl _ _ _ _

/-- Everything negotiation can do: it writes no byte of host memory and none of card storage. -/
theorem ran_negotiate (M C : Nat → Prop) (s : State) : Ran true M C s (negotiate s).1 := by
  unfold negotiate
  refine ran_andThen ((ran_negClear _ _ _).trans (ran_cardCheck _ _ _ _)) fun _ _ => ?_
  refine ran_andThen (ran_negReset _ _ _) fun _ _ => ran_andThen (ran_negProbe _ _ _) fun _ _ => ?_
  refine ran_andThen (ran_negVoltage _ _ _) fun _ _ => ran_andThen (ran_negIdentCid _ _ _) fun _ _ => ?_
  refine ran_andThen (ran_negIdentRca _ _ _) fun _ _ => ran_andThen (ran_negRegfetch _ _ _) fun _ _ => ?_
  refine ran_andThen (ran_negSelect _ _ _) fun _ _ => ran_andThen (ran_negWidth _ _ _) fun _ _ => ?_
  exact ran_andThen (ran_negBlklen _ _ _) fun _ _ => ran_desc _ _ _ _

/-! ## When it publishes -/

theorem andThen_post {α β : Type} {Q : State → Res β → Prop} {r : State × Res α} {k : α → State → State × Res β}
    (herr : ∀ e, r.2 = .err e → Q r.1 (.err e)) (hok : ∀ v, r.2 = .ok v → Q (k v r.1).1 (k v r.1).2) :
    Q (andThen r k).1 (andThen r k).2 := by
  unfold andThen
  split
  · exact hok _ (by assumption)
  · exact herr _ (by assumption)

/-- One attempt of the voltage loop writes neither the descriptor nor the working registers. -/
theorem voltAttempt_keeps (mmc first : Bool) (arg : Word) (s : State) :
    (voltAttempt mmc first arg s).1.desc = s.desc ∧ (voltAttempt mmc first arg s).1.neg = s.neg := by
  have h (idx : BitVec 6) (a : Word) (k : Kind) (u : State) := issueCmd_issued idx a k u
  unfold voltAttempt
  dsimp only
  split
  · exact ⟨(h _ _ _ _).desc, (h _ _ _ _).neg⟩
  · split
    · split <;> exact ⟨(h _ _ _ _).desc, (h _ _ _ _).neg⟩
    · exact ⟨(h _ _ _ _).desc.trans (h _ _ _ _).desc, (h _ _ _ _).neg.trans (h _ _ _ _).neg⟩

/-- The voltage loop leaves the descriptor and SDV2; it succeeds only with an OCR whose bit 31 is 1 (42_negotiation R303). -/
theorem voltLoop_post (m0 : Nat) (arg : Word) (n : Nat) (mmc first : Bool) (s : State) :
    (voltLoop m0 arg n mmc first s).1.desc = s.desc ∧ (voltLoop m0 arg n mmc first s).1.neg.sdv2 = s.neg.sdv2 ∧
      ∀ b, (voltLoop m0 arg n mmc first s).2 = .ok b → (voltLoop m0 arg n mmc first s).1.neg.ocr.getLsbD 31 = true := by
  induction n generalizing mmc first s with
  | zero => exact ⟨rfl, rfl, fun _ h => by cases h⟩
  | succ n ih =>
    obtain ⟨hd, hn⟩ := voltAttempt_keeps mmc first arg s
    unfold voltLoop
    dsimp only
    split
    · obtain ⟨h1, h2, h3⟩ := ih true false (voltAttempt mmc first arg s).1
      exact ⟨h1.trans hd, h2.trans (by rw [hn]), h3⟩
    · exact ⟨hd, by rw [hn], fun _ h => by cases h⟩
    · rename_i ocr _
      split
      · rename_i hocr
        exact ⟨hd, by show (voltAttempt mmc first arg s).1.neg.sdv2 = _; rw [hn], fun _ _ => hocr⟩
      · have m := moved_sync (setOcr ocr (voltAttempt mmc first arg s).1)
        have hmd : (sync (setOcr ocr (voltAttempt mmc first arg s).1)).desc = s.desc := m.desc.trans hd
        have hmn : (sync (setOcr ocr (voltAttempt mmc first arg s).1)).neg.sdv2 = s.neg.sdv2 := by
          rw [m.neg]
          show (voltAttempt mmc first arg s).1.neg.sdv2 = _
          rw [hn]
        split
        · exact ⟨hmd, hmn, fun _ h => by cases h⟩
        · obtain ⟨h1, h2, h3⟩ := ih mmc false (voltPause (sync (setOcr ocr (voltAttempt mmc first arg s).1)))
          exact ⟨h1.trans hmd, h2.trans hmn, h3⟩

/-- The card type follows the OCR that ended the voltage loop (42_negotiation R303). -/
def Typed (s : State) : Prop :=
  s.desc.valid = false ∧ s.neg.ocr.getLsbD 31 = true ∧ ∃ mmc, s.desc.cardType = cardTypeOf mmc s.neg.ocr s.neg.sdv2

/-- The descriptor is the one its raw registers and card type give (42_negotiation R306). -/
def Parsed (s : State) : Prop :=
  Typed s ∧ parseCsd s.desc.csdRaw s.desc.cardType = .ok s.desc.csd ∧ s.desc.cid = parseCid s.desc.cidRaw ∧
    capacity s.desc.csd s.desc.cardType = .ok s.desc.capacity

theorem typed_congr {s t : State} (hd : t.desc = s.desc) (ho : t.neg.ocr = s.neg.ocr) (hs : t.neg.sdv2 = s.neg.sdv2)
    (h : Typed s) : Typed t := by
  unfold Typed at *
  rw [hd, ho, hs]
  exact h

theorem parsed_congr {s t : State} (hd : t.desc = s.desc) (ho : t.neg.ocr = s.neg.ocr) (hs : t.neg.sdv2 = s.neg.sdv2)
    (h : Parsed s) : Parsed t := by
  refine ⟨typed_congr hd ho hs h.1, ?_⟩
  rw [hd]
  exact h.2

/-- A step with result `r` that goes on only where `P` holds, and leaves the descriptor unpublished in every case. -/
def Post {α : Type} (P : State → Prop) (s : State) (r : Res α) : Prop :=
  s.desc.valid = false ∧ ∀ v, r = .ok v → P s

theorem post_andThen {α β : Type} {P Q : State → Prop} {r : State × Res α} {k : α → State → State × Res β}
    (h : Post P r.1 r.2) (hk : ∀ v, P r.1 → r.1.desc.valid = false → Post Q (k v r.1).1 (k v r.1).2) :
    Post Q (andThen r k).1 (andThen r k).2 :=
  andThen_post (fun _ _ => ⟨h.1, fun _ hv => by cases hv⟩) fun v hv => hk v (h.2 v hv) h.1

theorem post_issueCmd {P : State → Prop} {idx : BitVec 6} {arg : Word} {kind : Kind} {s : State}
    (hv : s.desc.valid = false)
    (hP : ∀ t : State, t.desc = s.desc → t.neg = s.neg → P t) :
    Post P (issueCmd idx arg kind s).1 (issueCmd idx arg kind s).2 := by
  have h := issueCmd_issued idx arg kind s
  exact ⟨by rw [h.desc]; exact hv, fun _ _ => hP _ h.desc h.neg⟩

theorem post_negReset {s : State} (h : s.desc.valid = false) : Post (fun _ => True) (negReset s).1 (negReset s).2 :=
  post_andThen (post_issueCmd h fun _ _ _ => trivial) fun _ _ hv => ⟨hv, fun _ _ => trivial⟩

theorem post_negProbe {s : State} (h : s.desc.valid = false) : Post (fun _ => True) (negProbe s).1 (negProbe s).2 := by
  refine ⟨?_, fun _ _ => trivial⟩
  show (issueCmd 8#6 s.cfg.ifCondArg .r7 (setSeq .negProbe s)).1.desc.valid = false
  rw [(issueCmd_issued _ _ _ _).desc]
  exact h

theorem post_negVoltage {s : State} (h : s.desc.valid = false) : Post Typed (negVoltage s).1 (negVoltage s).2 := by
  obtain ⟨h1, h2, h3⟩ := voltLoop_post (setSeq .negVoltage s).inp.ms (opCondArg (setSeq .negVoltage s))
    ((setSeq .negVoltage s).inp.sched.length + 2) false true (setSeq .negVoltage s)
  unfold negVoltage
  refine post_andThen (P := fun u => u.neg.ocr.getLsbD 31 = true) ⟨by rw [h1]; exact h, h3⟩ fun mmc ho hv => ?_
  exact ⟨hv, fun _ _ => ⟨hv, ho, mmc, rfl⟩⟩

theorem post_negIdentCid {s : State} (h : Typed s) : Post Typed (negIdentCid s).1 (negIdentCid s).2 := by
  refine post_andThen (P := Typed) (post_issueCmd h.1 fun t hd hn => ?_) fun f ht hv => ⟨hv, fun _ _ => ht⟩
  exact typed_congr (s := s) hd (by rw [hn]; rfl) (by rw [hn]; rfl) h

theorem post_negIdentRca {s : State} (h : Typed s) : Post Typed (negIdentRca s).1 (negIdentRca s).2 := by
  refine post_andThen (P := Typed) (post_issueCmd h.1 fun t hd hn => ?_) fun f ht hv => ⟨hv, fun _ _ => ht⟩
  exact typed_congr (s := s) hd (by rw [hn]) (by rw [hn]) h

theorem post_negRegfetch {s : State} (h : Typed s) : Post Parsed (negRegfetch s).1 (negRegfetch s).2 := by
  refine post_andThen (P := Typed) (post_issueCmd h.1 fun t hd hn => ?_) fun f ht hv => ?_
  · exact typed_congr (s := s) hd (by rw [hn]; rfl) (by rw [hn]; rfl) h
  · generalize (issueCmd 9#6 (rcaArg s) .r2 (setSeq .negRegfetch s)).1 = u at ht hv ⊢
    unfold negParse
    dsimp only
    split
    · exact ⟨hv, fun _ hr => by cases hr⟩
    · rename_i c hc
      split
      · exact ⟨hv, fun _ hr => by cases hr⟩
      · rename_i n hn
        exact ⟨hv, fun _ _ => ⟨ht, hc, rfl, hn⟩⟩

theorem post_negSelect {s : State} (h : Parsed s) : Post Parsed (negSelect s).1 (negSelect s).2 := by
  refine post_andThen (P := Parsed) (post_issueCmd h.1.1 fun t hd hn => ?_) fun f ht hv => ⟨hv, fun _ _ => ht⟩
  exact parsed_congr (s := s) hd (by rw [hn]; rfl) (by rw [hn]; rfl) h

theorem post_negWidth {s : State} (h : Parsed s) : Post Parsed (negWidth s).1 (negWidth s).2 := by
  have hk : (issueApp 6#6 2#32 .r1 (setSeq .negWidth s)).1.desc = s.desc ∧
      (issueApp 6#6 2#32 .r1 (setSeq .negWidth s)).1.neg = s.neg := by
    unfold issueApp andThen
    split
    · exact ⟨(issueCmd_issued _ _ _ _).desc.trans (issueCmd_issued _ _ _ _).desc,
        (issueCmd_issued _ _ _ _).neg.trans (issueCmd_issued _ _ _ _).neg⟩
    · exact ⟨(issueCmd_issued _ _ _ _).desc, (issueCmd_issued _ _ _ _).neg⟩
  unfold negWidth
  dsimp only
  split
  · exact ⟨h.1.1, fun _ _ => h⟩
  · split
    · refine ⟨?_, fun _ _ => parsed_congr (s := s) hk.1 ?_ ?_ h⟩
      · show (issueApp _ _ _ _).1.desc.valid = false
        rw [hk.1]; exact h.1.1
      · show (issueApp _ _ _ _).1.neg.ocr = _
        rw [hk.2]
      · show (issueApp _ _ _ _).1.neg.sdv2 = _
        rw [hk.2]
    · refine ⟨?_, fun _ _ => parsed_congr (s := s) hk.1 ?_ ?_ h⟩
      · show (issueApp _ _ _ _).1.desc.valid = false
        rw [hk.1]; exact h.1.1
      · show (issueApp _ _ _ _).1.neg.ocr = _
        rw [hk.2]
      · show (issueApp _ _ _ _).1.neg.sdv2 = _
        rw [hk.2]

theorem post_negBlklen {s : State} (h : Parsed s) : Post Parsed (negBlklen s).1 (negBlklen s).2 := by
  refine post_andThen (P := Parsed) (post_issueCmd h.1.1 fun t hd hn => ?_) fun f ht hv => ⟨hv, fun _ _ => ht⟩
  exact parsed_congr (s := s) hd (by rw [hn]; rfl) (by rw [hn]; rfl) h

theorem post_negEntry (s : State) : Post (fun _ => True) (negEntry s).1 (negEntry s).2 := by
  refine ⟨?_, fun _ _ => trivial⟩
  unfold negEntry
  rw [cardCheck_eq]
  split
  · rw [(moved_sync _).desc]; rfl
  · rfl

/-- What negotiation comes to: a published, consistent descriptor and the value 0, or none published. -/
def Published0 (x : State × Res Word) : Prop :=
  match x.2 with
  | .ok v => v = 0#32 ∧ ∃ u, Parsed u ∧ x.1 = { u with desc := { u.desc with valid := true } }
  | .err _ => x.1.desc.valid = false

theorem post_chain {α : Type} {r : State × Res α} {P : State → Prop} {k : α → State → State × Res Word}
    (h : Post P r.1 r.2) (hk : ∀ v, P r.1 → r.1.desc.valid = false → Published0 (k v r.1)) :
    Published0 (andThen r k) := by
  unfold andThen
  split
  · exact hk _ (h.2 _ (by assumption)) h.1
  · exact h.1

theorem published0_publish {u : State} (h : Parsed u) : Published0 (publish u) := ⟨rfl, u, h, rfl⟩

/-! The rest of negotiation from each step on. -/

def tailBlklen (u : State) : State × Res Word := andThen (negBlklen u) fun _ s => publish s
def tailWidth (u : State) : State × Res Word := andThen (negWidth u) fun _ s => tailBlklen s
def tailSelect (u : State) : State × Res Word := andThen (negSelect u) fun _ s => tailWidth s
def tailFetch (u : State) : State × Res Word := andThen (negRegfetch u) fun _ s => tailSelect s
def tailRca (u : State) : State × Res Word := andThen (negIdentRca u) fun _ s => tailFetch s
def tailCid (u : State) : State × Res Word := andThen (negIdentCid u) fun _ s => tailRca s
def tailVoltage (u : State) : State × Res Word := andThen (negVoltage u) fun _ s => tailCid s
def tailProbe (u : State) : State × Res Word := andThen (negProbe u) fun _ s => tailVoltage s
def tailReset (u : State) : State × Res Word := andThen (negReset u) fun _ s => tailProbe s
def tailEntry (u : State) : State × Res Word := andThen (negEntry u) fun _ s => tailReset s

theorem post_tailBlklen {u : State} (h : Parsed u) : Published0 (tailBlklen u) :=
  post_chain (post_negBlklen h) fun _ h _ => published0_publish h

theorem post_tailWidth {u : State} (h : Parsed u) : Published0 (tailWidth u) :=
  post_chain (post_negWidth h) fun _ h _ => post_tailBlklen h

theorem post_tailSelect {u : State} (h : Parsed u) : Published0 (tailSelect u) :=
  post_chain (post_negSelect h) fun _ h _ => post_tailWidth h

theorem post_tailFetch {u : State} (h : Typed u) : Published0 (tailFetch u) :=
  post_chain (post_negRegfetch h) fun _ h _ => post_tailSelect h

theorem post_tailRca {u : State} (h : Typed u) : Published0 (tailRca u) :=
  post_chain (post_negIdentRca h) fun _ h _ => post_tailFetch h

theorem post_tailCid {u : State} (h : Typed u) : Published0 (tailCid u) :=
  post_chain (post_negIdentCid h) fun _ h _ => post_tailRca h

theorem post_tailVoltage {u : State} (h : u.desc.valid = false) : Published0 (tailVoltage u) :=
  post_chain (post_negVoltage h) fun _ h _ => post_tailCid h

theorem post_tailProbe {u : State} (h : u.desc.valid = false) : Published0 (tailProbe u) :=
  post_chain (post_negProbe h) fun _ _ h => post_tailVoltage h

theorem post_tailReset {u : State} (h : u.desc.valid = false) : Published0 (tailReset u) :=
  post_chain (post_negReset h) fun _ _ h => post_tailProbe h

theorem negotiate_eq (s : State) : negotiate s = tailEntry s := rfl

/-- Negotiation succeeds with the value 0 and a published, consistent descriptor, or fails and leaves none published
(42_negotiation R311, R313). -/
theorem negotiate_post (s : State) : Published0 (negotiate s) := by
  rw [negotiate_eq]
  exact post_chain (post_negEntry s) fun _ _ h => post_tailReset h

/-! ## The fuel of the voltage loop -/

/-- An attempt that ends with an answer, or with the switch to MMC, takes from the schedule what it must. -/
theorem voltAttempt_sched (mmc first : Bool) (arg : Word) (s : State) :
    (voltAttempt mmc first arg s).1.inp.sched.length ≤ s.inp.sched.length - 1 ∧
      (∀ w, (voltAttempt mmc first arg s).2 = .answered w →
        (voltAttempt mmc first arg s).1.inp.sched.length < s.inp.sched.length) ∧
      ((voltAttempt mmc first arg s).2 = .isMmc → mmc = false ∧ first = true) := by
  have h1 (idx : BitVec 6) (a : Word) (k : Kind) (u : State) := issueCmd_sched idx a k u
  unfold voltAttempt
  dsimp only
  split
  · refine ⟨h1 _ _ _ _, fun w hw => ?_, fun hw => ?_⟩
    · unfold attemptOf at hw
      split at hw
      · exact issueCmd_ok_sched (by assumption)
      · cases hw
    · unfold attemptOf at hw
      split at hw <;> cases hw
  · split
    · split
      · rename_i hf
        exact ⟨h1 _ _ _ _, fun _ hw => (by cases hw), fun _ => ⟨by simpa using ‹¬mmc = true›, hf.1⟩⟩
      · exact ⟨h1 _ _ _ _, fun _ hw => (by cases hw), fun hw => (by cases hw)⟩
    · rename_i f hf
      have a := issueCmd_ok_sched hf
      have c := h1 55#6 (rcaArg s) .r1 s
      have b := h1 41#6 arg .r3 (issueCmd 55#6 (rcaArg s) .r1 s).1
      refine ⟨?_, fun _ _ => ?_, fun hw => ?_⟩
      · show (issueCmd 41#6 arg .r3 _).1.inp.sched.length ≤ _
        omega
      · show (issueCmd 41#6 arg .r3 _).1.inp.sched.length < _
        omega
      · unfold attemptOf at hw
        split at hw <;> cases hw

/-- One turn of the voltage loop. -/
theorem voltLoop_succ (m0 : Nat) (arg : Word) (n : Nat) (mmc first : Bool) (s : State) :
    voltLoop m0 arg (n + 1) mmc first s =
      match (voltAttempt mmc first arg s).2 with
      | .isMmc => voltLoop m0 arg n true false (voltAttempt mmc first arg s).1
      | .failed e => ((voltAttempt mmc first arg s).1, .err e)
      | .answered ocr =>
        if ocr.getLsbD 31 then (setOcr ocr (voltAttempt mmc first arg s).1, .ok mmc)
        else if expired (sync (setOcr ocr (voltAttempt mmc first arg s).1)).inp.ms m0
            (voltageDeadlineMs (sync (setOcr ocr (voltAttempt mmc first arg s).1)).cfg) then
          (sync (setOcr ocr (voltAttempt mmc first arg s).1), .err .invalidVoltageRange)
        else voltLoop m0 arg n mmc false (voltPause (sync (setOcr ocr (voltAttempt mmc first arg s).1))) := rfl

/-- With at least as much fuel as the schedule allows attempts, more fuel changes nothing: the loop ends by a success, an
error or the deadline, never by its fuel (42_negotiation R303, 60_exceptions R535). -/
theorem voltLoop_fuel (m0 : Nat) (arg : Word) (n : Nat) (mmc first : Bool) (s : State)
    (hn : s.inp.sched.length + (if first = true ∧ mmc = false then 2 else 1) ≤ n) :
    voltLoop m0 arg (n + 1) mmc first s = voltLoop m0 arg n mmc first s := by
  induction n generalizing mmc first s with
  | zero => split at hn <;> omega
  | succ n ih =>
    obtain ⟨h1, h2, h3⟩ := voltAttempt_sched mmc first arg s
    have e1 := voltLoop_succ m0 arg (n + 1) mmc first s
    have e2 := voltLoop_succ m0 arg n mmc first s
    rw [e1, e2]
    split
    · rename_i ha
      refine ih _ _ _ ?_
      rw [if_pos (h3 ha).symm] at hn
      simp only [Bool.false_eq_true, false_and, if_false]
      omega
    · rfl
    · rename_i w ha
      have := h2 w ha
      split
      · rfl
      · split
        · rfl
        · refine ih _ _ _ ?_
          simp only [Bool.false_eq_true, false_and, if_false]
          show (sync _).inp.sched.length + 1 ≤ n
          rw [sync_sched, List.length_tail]
          show (voltAttempt mmc first arg s).1.inp.sched.length - 1 + 1 ≤ n
          split at hn <;> omega

end Sys2Proof.Machine
end

