-- ==== Sys2Proof/Laws/Exec.lean ====
section
/-! SUPPORT. What one instruction can do to the machine, said once for the ten host operations and once for the 23 bus
commands. -/

namespace Sys2Proof.Machine

open Sys2Proof Sys2Proof.Safety

/-- A bus command run by itself is one call of `busCommand`, with its index and kind. -/
theorem exec_frame {i : Instr} {app : Bool} {idx : BitVec 6} {arg : Word} {crc : BitVec 7}
    (h : frameParts i = some (app, idx, arg, crc)) (s : State) : exec i s = busCommand app idx arg (kindOf i) s := by
  cases i <;> simp only [frameParts, Option.some.injEq, Prod.mk.injEq, reduceCtorEq] at h <;>
    (obtain ⟨rfl, rfl, rfl, rfl⟩ := h; rfl)

/-- A bus command that answers a next state was sent with the right prefix bit, and BC kept its duties. -/
theorem busCommand_next {app : Bool} {idx : BitVec 6} {arg : Word} {kind : Kind} {s t : State} :
    busCommand app idx arg kind s = .next t ↔
      s.host.hbusy = false ∧ s.app = app ∧
        t = { (issueCmd idx arg kind s).1 with cmdResult := some (issueCmd idx arg kind s).2 } ∧
          (issueCmd idx arg kind s).1.inp.breaches = s.inp.breaches := by
  unfold busCommand
  cases s.host.hbusy
  · by_cases ha : s.app = app
    · simp only [ha, Bool.false_eq_true, if_false, if_true, true_and]
      exact inDuty_next
    · simp [ha]
  · simp

/-- The addresses of host memory an instruction may write: the buffer of a read. -/
def memWritten (i : Instr) (s : State) : Nat → Prop :=
  match i with
  | .readBlock => bufferOf .rx s blockSize
  | .readBlocks => bufferOf .rx s (s.host.arg1.toNat * blockSize)
  | _ => noAddr

/-- The addresses of card storage an instruction that comes to `t` may have written: the blocks of a write, with what it leaves open
after an error, and the units of an erase. -/
def cardWritten (i : Instr) (s t : State) : Nat → Prop :=
  match i with
  | .writeBlock => fun x => blocksFrom .tx (openedAt s) blockSize x ∨ t.host.result ≠ 0#8 ∧ namedBlocks .tx s 1 x
  | .writeBlocks => fun x =>
    blocksFrom .tx (openedAt s) (touched .writeBlocks s.host.arg1.toNat s * blockSize) x ∨
      t.host.result ≠ 0#8 ∧ namedBlocks .tx s s.host.arg1.toNat x
  | .erase => erasedBy s
  | _ => noAddr

/-- A transfer, as far as the other state goes. -/
theorem transferOp_ran {dir : Dir} {count n : Nat} (hn : count ≤ n) {multi : Bool} {stop : Descriptor → Bool} {command : State → State × Res Fields}
    {s t : State} (h : transferOp dir count multi stop command s = .next t)
    (hs : ∀ u, ∃ c cs, (command u).1.wire = u.wire ++ c :: cs)
    (hc : ∀ u, u.app = false → u.host.arg1 = s.host.arg1 → touched .writeBlocks s.host.arg1.toNat u = touched .writeBlocks s.host.arg1.toNat s →
      OpensBlocks dir n u (command u).1 (command u).2) :
    s.host.hbusy = false ∧ ∃ u r M, t = endWith (u, r) ∧ (∀ x, M x → bufferOf dir s (count * blockSize) x ∧ x < hostSpace s.cfg) ∧
      Ran false M (fun x => blocksFrom dir (openedAt s) (n * blockSize) x ∨ t.host.result ≠ 0#8 ∧ namedBlocks dir s count x) (beginOp s) u := by
  obtain ⟨hb, -, hw, h⟩ := transferOp_next h
  refine ⟨hb, ?_⟩
  rcases h with ⟨e, he, ht⟩ | ⟨hk, hr, ht⟩
  · exact ⟨_, .err e, noAddr, by rw [ht, endWith_eq], fun _ hx => hx.elim, ran_checks _ _ _ _ _ _ _⟩
  · obtain ⟨m, -⟩ := checks_ok hk
    have hcalm := checks_calm hk
    generalize (checks dir count multi (beginOp s)).1 = c at m ht hcalm
    have hh : c.host = { s.host with hbusy := true } := m.host
    have ho : openedAt (setSeq .xferCmd c) = openedAt s := by
      unfold openedAt
      show cardByteAddr c.card.byBlock (wireAddr c.desc c.host.arg0) = _
      rw [m.desc, hh, m.byBlock]
      rfl
    have ha : s.app = false := by
      cases ha : s.app with
      | false => rfl
      | true =>
        obtain ⟨d, ds, hd⟩ := moveBlocks_sends (dir := dir) (count := count) (stop := stop c.desc) (hs (setSeq .xferCmd c))
        have hwt : t.wire = s.wire ++ d :: ds := by
          rw [ht, endWith_rest]
          exact hd.trans (by rw [m.wire]; rfl)
        exact absurd (hw ha) (wire_grows hwt)
    have hop := hc (setSeq .xferCmd c) (m.app.trans ha) (by show c.host.arg1 = _; rw [hh]) (by
      have e1 : (setSeq .xferCmd c).desc = s.desc := m.desc
      have e2 : (setSeq .xferCmd c).card.mmc = s.card.mmc := m.mmc
      have e3 : (setSeq .xferCmd c).card.preErase = s.card.preErase := m.preErase
      unfold touched
      rw [e1, e2, e3])
    have h1 := hop.ran
    have h2 := hop.addr
    rw [ho] at h1 h2
    have hm := ran_moveBlocks dir hn (stop c.desc) (command := command) (A := openedAt s) c (h1 false) h2
    refine ⟨_, _, bufferOf dir s (count * blockSize), ht, fun x hx => ⟨hx, ?_⟩, ?_⟩
    · have h1 : s.host.buf + count * blockSize ≤ hostSpace s.cfg := by
        unfold reachable at hr
        simp only [Bool.and_eq_true, decide_eq_true_eq] at hr
        exact hr.1
      have := hx.2.2
      omega
    · refine (m.ran hcalm false _ _).trans (hm.mono (fun h => h) (fun x hx => ?_) fun x hx => ?_)
      · simpa [bufferOf, hh] using hx
      · refine hx.imp_right fun ⟨⟨e, he⟩, hx⟩ => ⟨?_, ?_⟩
        · rw [ht, endWith_eq, he]
          show e.code ≠ 0#8
          cases e <;> decide
        · have : namedBlocks dir c count = namedBlocks dir s count := (m.ran hcalm false noAddr noAddr).named dir count
          rwa [this] at hx

/-- A host operation that answers a next state ran a body to the end: it wrote the addresses named and, in host memory, none
past the end of the address space. -/
def OpRan (i : Instr) (s t : State) : Prop :=
  s.host.hbusy = false ∧ ∃ u r M, t = endWith (u, r) ∧ (∀ x, M x → memWritten i s x ∧ x < hostSpace s.cfg) ∧
    Ran (decide (i = .initializeCard)) M (cardWritten i s t) (beginOp s) u ∧
    (i = .initializeCard → (u, r) = negotiate (beginOp s))

/-- An operation whose body writes no host memory, and of card storage what the instruction may write. -/
theorem opRan_plain {i : Instr} {body : State → State × Res Word} {s t : State} (h : hostOp body s = .next t)
    (hi : i = .initializeCard → body = negotiate)
    (hr : (s.app = true → (body (beginOp s)).1.wire.drop s.wire.length = []) →
      Ran (decide (i = .initializeCard)) noAddr (cardWritten i s t) (beginOp s) (body (beginOp s)).1) : OpRan i s t := by
  obtain ⟨hb, ht, -, hw⟩ := hostOp_next.1 h
  refine ⟨hb, _, _, noAddr, ht, fun _ hx => hx.elim, hr fun ha => ?_, fun e => by rw [hi e]⟩
  have := hw ha
  rw [ht, endWith_rest] at this
  exact this

/-- One command is one command more on the bus. -/
theorem dataCommand_sends (idx : BitVec 6) (u : State) : ∃ c cs, (dataCommand idx u).1.wire = u.wire ++ c :: cs :=
  ⟨_, [], (issueCmd_issued _ _ _ _).wire⟩

theorem issueApp_sends (idx : BitVec 6) (arg : Word) (kind : Kind) (u : State) :
    ∃ c cs, (issueApp idx arg kind u).1.wire = u.wire ++ c :: cs := by
  have h1 := issueCmd_issued 55#6 (rcaArg u) .r1 u
  unfold issueApp
  generalize issueCmd 55#6 (rcaArg u) .r1 u = a at h1
  obtain ⟨a, r⟩ := a
  cases r with
  | err e => exact ⟨_, [], h1.wire⟩
  | ok f =>
    refine ⟨sentAs 55#6 (rcaArg u) .r1 u, [sentAs idx arg kind a], ?_⟩
    show (issueCmd idx arg kind a).1.wire = _
    rw [(issueCmd_issued idx arg kind a).wire, h1.wire, List.append_assoc]
    rfl

theorem writeBlocksCommand_sends (u : State) : ∃ c cs, (writeBlocksCommand u).1.wire = u.wire ++ c :: cs := by
  unfold writeBlocksCommand
  split
  · obtain ⟨c, cs, h⟩ := issueApp_sends 23#6 u.host.arg1 .r1 u
    generalize issueApp 23#6 u.host.arg1 .r1 u = a at h
    obtain ⟨a, r⟩ := a
    cases r with
    | err e => exact ⟨c, cs, h⟩
    | ok f =>
      obtain ⟨d, ds, hd⟩ := dataCommand_sends 25#6 a
      exact ⟨c, cs ++ d :: ds, by show (dataCommand 25#6 a).1.wire = _; rw [hd, h]; simp⟩
  · exact dataCommand_sends _ _

theorem opRan_readBlock {s t : State} (h : execReadBlock s = .next t) : OpRan .readBlock s t := by
  obtain ⟨hb, u, r, M, ht, hM, hr⟩ := transferOp_ran (Nat.le_refl _) h (dataCommand_sends _) fun u ha _ _ => dataCommand_opens (by simp) _ _ ha
  refine ⟨hb, u, r, M, ht, hM, hr.mono (fun h => h) (fun _ h => h) fun x hx => ?_, fun h => (by cases h)⟩
  simp [blocksFrom, namedBlocks] at hx

theorem opRan_readBlocks {s t : State} (h : execReadBlocks s = .next t) : OpRan .readBlocks s t := by
  obtain ⟨hb, u, r, M, ht, hM, hr⟩ := transferOp_ran (Nat.le_refl _) h (dataCommand_sends _) fun u ha _ _ => dataCommand_opens (by simp) _ _ ha
  refine ⟨hb, u, r, M, ht, hM, hr.mono (fun h => h) (fun _ h => h) fun x hx => ?_, fun h => (by cases h)⟩
  simp [blocksFrom, namedBlocks] at hx

theorem opRan_writeBlock {s t : State} (h : execWriteBlock s = .next t) : OpRan .writeBlock s t := by
  obtain ⟨hb, u, r, M, ht, hM, hr⟩ := transferOp_ran (Nat.le_refl _) h (dataCommand_sends _) fun u ha _ _ => dataCommand_opens (by simp) _ _ ha
  refine ⟨hb, u, r, M, ht, fun x hx => absurd (hM x hx).1.1 (by decide), ?_, fun h => (by cases h)⟩
  exact hr.mono (fun h => h) (fun _ h => h) fun x hx => by simpa only [cardWritten, Nat.one_mul] using hx

theorem opRan_writeBlocks {s t : State} (h : execWriteBlocks s = .next t) : OpRan .writeBlocks s t := by
  obtain ⟨hb, u, r, M, ht, hM, hr⟩ := transferOp_ran (n := touched .writeBlocks s.host.arg1.toNat s) (by
      unfold touched
      split
      · exact Nat.le_max_left _ _
      · exact Nat.le_refl _) h writeBlocksCommand_sends
    fun u ha he ht => by
      have := writeBlocksCommand_opens ha
      rw [he, ht] at this
      exact this
  exact ⟨hb, u, r, M, ht, fun x hx => absurd (hM x hx).1.1 (by decide), hr, fun h => (by cases h)⟩

theorem exec_op {i : Instr} (hi : frameParts i = none) {s t : State} (h : exec i s = .next t) : OpRan i s t := by
  cases i with
  | initializeCard => exact opRan_plain (body := negotiate) h (fun _ => rfl) fun _ => ran_negotiate _ _ _
  | readBlock => exact opRan_readBlock h
  | readBlocks => exact opRan_readBlocks h
  | writeBlock => exact opRan_writeBlock h
  | writeBlocks => exact opRan_writeBlocks h
  | erase => exact opRan_plain (body := eraseBody) h (fun e => (by cases e)) fun hw => (ran_eraseBody _ _ _ hw).mono (fun h => h) (fun _ h => h) fun x hx => (show erasedBy s x from hx)
  | queryStatus => exact opRan_plain (body := queryBody) h (fun e => (by cases e)) fun _ => ran_queryBody _ _ _ _
  | transferBusy => exact opRan_plain (body := fun s => (sync s, .ok (if transferActive (sync s).bc.sta then 1#32 else 0#32))) h (fun e => (by cases e)) fun _ => ran_sync _ _ _ _
  | capacityBlocks => exact opRan_plain (body := fun s => (s, .ok (if s.desc.valid then s.desc.capacity else 0#32))) h (fun e => (by cases e)) fun _ => Ran.refl _ _ _ _
  | blockSize => exact opRan_plain (body := fun s => (s, .ok (BitVec.ofNat 32 Machine.blockSize))) h (fun e => (by cases e)) fun _ => Ran.refl _ _ _ _
  | _ => cases hi

end Sys2Proof.Machine
end

