-- ==== Sys2Proof/Laws/Complete.lean ====
section
/-! SUPPORT. How the parts of an operation complete: checks that pass, a data phase whose bytes all moved, one that failed, one
nothing ended. -/

namespace Sys2Proof.Machine

open Sys2Proof Sys2Proof.Safety

/-- An empty batch: nothing happens at this point. -/
theorem sync_cons {s : State} {r} (h : s.inp.sched = [] :: r) : sync s = setSched r s := by
  unfold sync; rw [h]; rfl

/-- The checks of a transfer that meets `Ready` pass (44 R402). -/
theorem checks_ready {dir count multi rest} {s : State} (hr : Ready dir count multi s)
    (hs : s.inp.sched = checkBatches dir s.cfg ++ rest) :
    checks dir count multi (beginOp s) = (setSched rest (beginOp s), .ok ()) := by
  have hargs : argsOk s.cfg s.desc s.host count multi = true := by
    unfold argsOk
    have h1 : (!multi || decide (2 ≤ count ∧ count ≤ maxCount s.cfg)) = true := by
      cases multi
      · rfl
      · simpa using hr.countOk rfl
    have h2 := hr.aligned
    have h3 := hr.long
    have h4 : (!s.cfg.rangeCheck || decide (s.host.arg0.toNat + count ≤ s.desc.capacity.toNat)) = true := by
      cases hc : s.cfg.rangeCheck
      · rfl
      · simpa using hr.inRange hc
    rw [h1, h4]
    simp [h2, blockSize, h3]
  rw [checks_eq]
  unfold checkBatches at hs
  have hp := hr.present
  have hv := hr.valid
  have hw := hr.unprotected
  by_cases hd : dir = .tx ∧ s.cfg.engineChecksWp = true
  · rw [if_pos hd] at hs
    have e1 : sync (beginOp s) = setSched ([] :: rest) (beginOp s) := sync_cons hs
    have e2 : sampled dir (sync (beginOp s)) = setSched rest (beginOp s) := by
      unfold sampled
      rw [e1, if_pos (show dir = .tx ∧ (setSched ([] :: rest) (beginOp s)).cfg.engineChecksWp = true from hd)]
      exact sync_cons rfl
    rw [e2, e1]
    rw [if_neg (by show ¬ s.inp.cardPresent = false; rw [hp]; decide), if_neg (by show ¬ s.desc.valid = false; rw [hv]; decide)]
    rw [if_neg (by rintro ⟨-, h⟩; exact absurd ((hw hd.1 hd.2).symm.trans h) (by decide)), if_pos]
    exact hargs
  · rw [if_neg hd] at hs
    have e1 : sync (beginOp s) = setSched rest (beginOp s) := sync_cons hs
    have e2 : sampled dir (sync (beginOp s)) = setSched rest (beginOp s) := by
      unfold sampled
      rw [e1, if_neg (show ¬ (dir = .tx ∧ (setSched rest (beginOp s)).cfg.engineChecksWp = true) from hd)]
    rw [e2, e1]
    rw [if_neg (by show ¬ s.inp.cardPresent = false; rw [hp]; decide), if_neg (by show ¬ s.desc.valid = false; rw [hv]; decide)]
    rw [if_neg (by rintro ⟨h, -⟩; exact hd h), if_pos]
    exact hargs

/-- A transfer that meets `Ready` runs its commands and its data phase to the end (44 R410-R413). -/
theorem transferOp_ready {dir count multi stop command rest} {s : State} (hr : Ready dir count multi s)
    (hs : s.inp.sched = checkBatches dir s.cfg ++ rest) :
    transferOp dir count multi stop command s =
      settle s (endWith (moveBlocks dir count (stop s.desc) command (setSched rest (beginOp s)))) := by
  unfold transferOp
  rw [hr.notBusy, checks_ready hr hs]
  dsimp only
  rw [if_neg (by decide)]
  exact if_pos (show reachable s.cfg s.host.buf (count * blockSize) = true from hr.reach)

/-- A data phase without CMD12 whose bytes all moved (44 R420, R421). -/
theorem dataPhase_done {dir count r} {c : State} (hsch : c.inp.sched = [.data mDataend, .isr] :: r) (hs : c.bc.sta &&& mStatic = 0#32) :
    dataPhase dir count false c = (dataCleanup (setSched r (applyBatch [.data mDataend, .isr] (armedFor dir count false c))), .ok ()) := by
  unfold dataPhase
  rw [dataWait_raised dir count false hsch hs (by decide) (by decide)]
  obtain ⟨-, -, -, hx, -⟩ := dataDone_mem dir count false hs
  generalize applyBatch [.data mDataend, .isr] (armedFor dir count false c) = u at hx ⊢
  have hx' : (setSched r u).xfer = { pendErr := none, done := true, multi := false } := hx
  dsimp only
  unfold dataStop
  rw [hx']
  rfl

/-- A data phase with a CMD12 that is answered without an error bit (44 R421, R422). -/
theorem dataPhase_stopped {dir count r w12} {c : State} (hsch : c.inp.sched = [.data mDataend, .isr] :: (prompt 12#6 w12 ++ r)) (hs : c.bc.sta &&& mStatic = 0#32)
    (hw : w12 &&& 0xFDFFE008#32 = 0#32) :
    ∃ v x, dataPhase dir count true c = (dataCleanup v, .ok ()) ∧ hasFlag x.1 r1Errors = false ∧
      Prompted 12#6 0#32 .r1b .crcGood x r (.ok (.status x.1)) (setSeq .xferStop (setSched (prompt 12#6 w12 ++ r) (applyBatch [.data mDataend, .isr] (armedFor dir count true c)))) v := by
  unfold dataPhase
  rw [dataWait_raised dir count true hsch hs (by decide) (by decide)]
  obtain ⟨-, -, -, hx, -⟩ := dataDone_mem dir count true hs
  generalize applyBatch [.data mDataend, .isr] (armedFor dir count true c) = u at hx ⊢
  have hx' : (setSched (prompt 12#6 w12 ++ r) u).xfer = { pendErr := none, done := true, multi := true } := hx
  have hf : hasFlag w12 r1Errors = false := by simp [hasFlag, r1Errors, hw]
  obtain ⟨v, x, hx1, he, hp⟩ := issueCmd_r1 (.inr rfl) (idx := 12#6) (by decide) 0#32 (w := w12) (r := r) (s := setSeq .xferStop (setSched (prompt 12#6 w12 ++ r) u)) rfl hf
  refine ⟨v, _, ?_, by rw [hx1, statusWordOf_r1Errors]; exact hf, hp⟩
  dsimp only
  unfold dataStop
  rw [hx']
  dsimp only
  rw [if_pos rfl, he]
  rfl

/-- A data phase that nothing ends (44 R420, R421). -/
theorem dataPhase_silent {dir count multi} {c : State} (hs : c.inp.sched = []) :
    (dataPhase dir count multi c).2 = .err .dataTimeout ∧
      (c.app = false → (dataPhase dir count multi c).1.wire = c.wire ++ if multi then [{ seq := .xferStop, app := false, idx := 12#6, arg := 0#32, kind := .r1b }] else []) := by
  obtain ⟨h1, h2, h3⟩ := dataWait_silent dir count multi hs
  unfold dataPhase
  generalize dataWait dir count multi c = w at *
  obtain ⟨w, b⟩ := w
  dsimp only at h1 h2 h3 ⊢
  subst h1
  refine ⟨rfl, fun ha => ?_⟩
  show (dataStop w).1.wire = _
  unfold dataStop
  have hm : w.xfer.multi = multi := h3.multi
  rw [hm]
  cases multi
  · rw [if_neg (by decide), if_neg (by decide), List.append_nil]
    exact h3.wire
  · rw [if_pos rfl, if_pos rfl]
    rw [(issueCmd_issued 12#6 0#32 .r1b (setSeq .xferStop w)).wire]
    show w.wire ++ [{ seq := .xferStop, app := w.app, idx := 12#6, arg := 0#32, kind := .r1b }] = _
    rw [show w.app = false from h3.app.trans ha, h3.wire]
    rfl

/-- A transfer whose data phase ended with an error (44 R421, 60 R510). -/
theorem moveBlocks_failed {dir count stop command} {b0 c : State} {f : Fields} {e : TransferError} (hcmd : command (setSeq .xferCmd b0) = (c, .ok f))
    (hd : (dataPhase dir count stop c).2 = .err e) :
    let t := endWith (moveBlocks dir count stop command b0)
    t.host.result = e.code ∧ t.host.value = 0#32 ∧ t.xfer = { pendErr := none, done := false, multi := false } ∧ t.bc.dma = none ∧ t.bc.mask = 0#32 ∧
     t.bc.sta.extractLsb' 0 11 = 0#11 ∧ t.wire = (dataPhase dir count stop c).1.wire := by
  have h : moveBlocks dir count stop command b0 = (spoilTransfer dir count (dataPhase dir count stop c).1, .err e) := by
    unfold moveBlocks; rw [hcmd]; dsimp only; rw [hd]
  intro t
  have ht : t = raise e (spoilTransfer dir count (dataPhase dir count stop c).1) := by
    show endWith (moveBlocks dir count stop command b0) = _
    rw [h, endWith_eq]
  obtain ⟨h1, h2, h3, h4⟩ := dataPhase_clean dir count stop c
  generalize (dataPhase dir count stop c).1 = d at *
  have sp : (spoilTransfer dir count d).bc = d.bc ∧ (spoilTransfer dir count d).xfer = d.xfer ∧ (spoilTransfer dir count d).wire = d.wire := by
    cases dir <;> exact ⟨rfl, rfl, rfl⟩
  rw [ht]
  refine ⟨rfl, rfl, sp.2.1.trans h3, ?_, ?_, ?_, sp.2.2⟩
  · show (spoilTransfer dir count d).bc.dma = _; rw [sp.1]; exact h1
  · show (spoilTransfer dir count d).bc.mask = _; rw [sp.1]; exact h2
  · show (spoilTransfer dir count d).bc.sta.extractLsb' 0 11 = _; rw [sp.1]; exact extract_static h4

/-- With no move of another agent left, CMD12 leaves BC within its duties. -/
theorem calm_dataStop (s : State) : Calm s (dataStop s).1 := by
  unfold dataStop
  split
  · exact (Calm.of_inp (t := setSeq .xferStop s) rfl).trans (calm_issueCmd _ _ _ _)
  · exact Calm.refl _

/-- With no move of another agent left, a data phase leaves BC within its duties. -/
theorem calm_dataPhase (dir : Dir) (count : Nat) (multi : Bool) (s : State) : Calm s (dataPhase dir count multi s).1 := by
  have h1 : Calm s (dataWait dir count multi s).1 := by
    unfold dataWait
    exact Calm.trans (t := armedFor dir count multi s) (Calm.of_inp rfl) (calm_waitFor _ _ (armedFor dir count multi s))
  have h2 : Calm (dataStop (dataWait dir count multi s).1).1 (dataPhase dir count multi s).1 := Calm.of_inp rfl
  exact h1.trans ((calm_dataStop _).trans h2)

/-- An operation that sent no command and during which BC left its duties is refused, whatever the prefix bit (60 R546). -/
theorem settle_breached {s t : State} (hb : t.inp.breaches ≠ s.inp.breaches) (hw : t.wire = s.wire) :
    settle s t = .refused .dutyBroken := by
  unfold settle inDuty
  rw [hw, List.drop_length, if_neg hb]
  simp

/-- The run is over where nothing is in progress, no interrupt is left and the data path is idle (70 R603). -/
theorem runEnded_of {t : State} (h1 : t.host.hbusy = false) (h2 : t.seq = .idle) (h3 : t.bc.mask = 0#32)
    (h4 : t.bc.irq = false) (h5 : transferActive t.bc.sta = false) : runEnded t = true := by
  simp [runEnded, isrIdle, irqPending, h1, h2, h3, h4, h5]

/-- The byte address at which a card opens the block number in ARG0, where the address does not wrap: by its own addressing mode and
the one the descriptor names (44 R400, 41 R260-R263; 70 R617). -/
theorem openedAt_cases {s : State} (hw : NoWrap s) :
    openedAt s =
      (if s.desc.cardType = .highCapacity then 1 else 512) * (if s.card.byBlock then 512 else 1) * s.host.arg0.toNat := by
  unfold openedAt cardByteAddr wireAddr blockAddressed
  by_cases h : s.desc.cardType = .highCapacity
  · cases s.card.byBlock <;> simp [h, blockSize, Nat.mul_comm]
  · have := hw.resolve_left h
    have hm : s.host.arg0.toNat * 512 % 4294967296 = s.host.arg0.toNat * 512 := Nat.mod_eq_of_lt this
    cases s.card.byBlock <;> simp [h, blockSize, hm] <;> omega

theorem openedAt_eq {s : State} (hb : s.card.byBlock = decide (s.desc.cardType = .highCapacity)) (hw : NoWrap s) :
    openedAt s = 512 * s.host.arg0.toNat := by
  rw [openedAt_cases hw, hb]
  by_cases h : s.desc.cardType = .highCapacity <;> simp [h]

/-- The end of an operation makes no move of another agent. -/
theorem endWith_inp (r : State × Res Word) : (endWith r).inp = r.1.inp := by rw [endWith_rest]

/-- The card's state field is no error bit (30_encoding R125). -/
theorem firstError_reported (st : BitVec 4) (w : Word) :
    firstError (reportState .r1 st w) r1Table = firstError w r1Table ∧ firstError (reportState .r6 st w) r6Table = firstError w r6Table := by
  have key : ∀ (t : List (Nat × TransferError)), (∀ p ∈ t, (0xFFFFE1FF#32).getLsbD p.1 = true) → firstError (reportState .r1 st w) t = firstError w t := by
    intro t
    induction t with
    | nil => intro _; rfl
    | cons a t ih =>
      intro h
      obtain ⟨b, e⟩ := a
      unfold firstError
      rw [ih (fun p hp => h p (by simp [hp]))]
      have h1 : (0xFFFFE1FF#32).getLsbD b = true := h (b, e) (by simp)
      have : (reportState .r1 st w).getLsbD b = w.getLsbD b := by
        show ((w &&& 0xFFFFE1FF#32) ||| (st.setWidth 32 <<< 9)).getLsbD b = _
        rw [BitVec.getLsbD_or, BitVec.getLsbD_and, h1, BitVec.getLsbD_shiftLeft, BitVec.getLsbD_setWidth]
        have hb : b < 9 ∨ 13 ≤ b := by
          by_contra hn
          have : b = 9 ∨ b = 10 ∨ b = 11 ∨ b = 12 := by omega
          rcases this with rfl | rfl | rfl | rfl <;> exact absurd (h1 : (0xFFFFE1FF#32).getLsbD _ = true) (by decide)
        rcases hb with hb | hb
        · simp [hb]
        · rw [BitVec.getLsbD_of_ge st (b - 9) (by omega)]; simp
      rw [this]
  exact ⟨key _ (by decide), key _ (by decide)⟩

end Sys2Proof.Machine
end

