-- ==== Sys2Proof/Laws/Encoding.lean ====
section
/-! SUPPORT. The bits of a command frame. -/

namespace Sys2Proof

/-- Each bit of a frame by the field it lies in (30_encoding R122). -/
theorem frame_bit (idx : BitVec 6) (arg : Word) (crc : BitVec 7) (i : Nat) :
    (frameWith idx arg crc).getLsbD i =
      if i < 1 then (1#1).getLsbD i else if i - 1 < 7 then crc.getLsbD (i - 1) else
      if i - 1 - 7 < 32 then arg.getLsbD (i - 1 - 7) else if i - 1 - 7 - 32 < 6 then idx.getLsbD (i - 1 - 7 - 32) else
        (0b01#2).getLsbD (i - 1 - 7 - 32 - 6) := by
  unfold frameWith frameHead
  rw [show ((0b01#2 ++ idx ++ arg ++ crc ++ 1#1 : BitVec (2+6+32+7+1))).getLsbD i = _ from BitVec.getLsbD_append]
  rw [show ((0b01#2 ++ idx ++ arg ++ crc : BitVec (2+6+32+7))).getLsbD (i-1) = _ from BitVec.getLsbD_append]
  rw [show ((0b01#2 ++ idx ++ arg : BitVec (2+6+32))).getLsbD (i-1-7) = _ from BitVec.getLsbD_append]
  rw [show ((0b01#2 ++ idx : BitVec (2+6))).getLsbD (i-1-7-32) = _ from BitVec.getLsbD_append]

/-- The fields of a frame read back (30_encoding R122). -/
theorem frame_fields (idx : BitVec 6) (arg : Word) (crc : BitVec 7) :
    (frameWith idx arg crc).extractLsb' 46 2 = 0b01#2 ∧ (frameWith idx arg crc).extractLsb' 0 1 = 1#1 ∧
    (frameWith idx arg crc).extractLsb' 40 6 = idx ∧ (frameWith idx arg crc).extractLsb' 8 32 = arg ∧
    (frameWith idx arg crc).extractLsb' 1 7 = crc := by
  refine ⟨?_, ?_, ?_, ?_, ?_⟩ <;> (apply BitVec.eq_of_getLsbD_eq; intro i hi; rw [BitVec.getLsbD_extractLsb', frame_bit])
  · have : i = 0 ∨ i = 1 := by omega
    rcases this with rfl | rfl <;> simp
  · have : i = 0 := by omega
    subst this; simp
  · have h1 : ¬ 40 + i < 1 := by omega
    have h2 : ¬ 40 + i - 1 < 7 := by omega
    have h3 : ¬ 40 + i - 1 - 7 < 32 := by omega
    have h4 : 40 + i - 1 - 7 - 32 = i := by omega
    rw [if_neg h1, if_neg h2, if_neg h3, h4, if_pos hi]; simp [hi]
  · have h1 : ¬ 8 + i < 1 := by omega
    have h2 : ¬ 8 + i - 1 < 7 := by omega
    have h4 : 8 + i - 1 - 7 = i := by omega
    rw [if_neg h1, if_neg h2, h4, if_pos hi]; simp [hi]
  · have h1 : ¬ 1 + i < 1 := by omega
    have h4 : 1 + i - 1 = i := by omega
    rw [if_neg h1, h4, if_pos hi]; simp [hi]

/-- A frame with the start, transmission and end bits of R122 is the one its fields give. -/
theorem frame_of_fields {f : Frame} (h1 : f.extractLsb' 46 2 = 0b01#2) (h2 : f.extractLsb' 0 1 = 1#1) :
    frameWith (f.extractLsb' 40 6) (f.extractLsb' 8 32) (f.extractLsb' 1 7) = f := by
  apply BitVec.eq_of_getLsbD_eq
  intro i hi
  rw [frame_bit]
  simp only [BitVec.getLsbD_extractLsb']
  have e1 : ∀ k, k < 2 → f.getLsbD (46 + k) = (0b01#2).getLsbD k := by
    intro k hk
    rw [← h1, BitVec.getLsbD_extractLsb']; simp [hk]
  have e2 : f.getLsbD 0 = true := by
    have := congrArg (fun x => x.getLsbD 0) h2
    simpa using this
  split
  · have : i = 0 := by omega
    subst this
    simpa using e2.symm
  · split
    · have : 1 + (i - 1) = i := by omega
      simp [*]
    · split
      · have : 8 + (i - 1 - 7) = i := by omega
        simp [*]
      · split
        · have : 40 + (i - 1 - 7 - 32) = i := by omega
          simp [*]
        · rw [← e1 _ (by omega)]
          congr 1
          omega

/-- The start and transmission bits, the index and the end bit of a frame, the argument and the CRC field masked away. -/
theorem frame_masked (idx : BitVec 6) (arg : Word) (crc : BitVec 7) :
    frameWith idx arg crc &&& 0xFF0000000001#48 = frameWith idx 0#32 0#7 := by
  apply BitVec.eq_of_getLsbD_eq
  intro i hi
  rw [BitVec.getLsbD_and, frame_bit, frame_bit]
  interval_cases i <;> simp

end Sys2Proof
end

