-- ==== Sys2Proof/Laws/NegotiationOrder.lean ====
section
/-! SUPPORT. What negotiation puts on the bus: commands of its steps, in their fixed order, and none of a step left out
(42_negotiation R310, R314). -/

namespace Sys2Proof.Machine

open Sys2Proof Sys2Proof.Safety

/-- From `s` on, `r` put on the bus commands of steps `lo` to `hi` in order; where `r` is a success, every step of `need` sent
one. -/
def Stage {α : Type} (lo hi : Nat) (need : List Seq) (s : State) (r : State × Res α) : Prop :=
  ∃ cs, r.1.wire = s.wire ++ cs ∧ InOrder cs ∧ (∀ c ∈ cs, lo ≤ c.seq.code.toNat ∧ c.seq.code.toNat ≤ hi) ∧
    ∀ v, r.2 = .ok v → ∀ q ∈ need, ∃ c ∈ cs, c.seq = q

theorem stage_nothing {α : Type} (lo hi : Nat) {s t : State} (h : t.wire = s.wire) (r : Res α) : Stage lo hi [] s (t, r) :=
  ⟨[], by simp [h], ⟨List.Pairwise.nil, by simp⟩, by simp, by simp⟩

theorem stage_andThen {α β : Type} {lo mid lo2 hi : Nat} {n1 n2 : List Seq} {s : State} {r : State × Res α}
    {k : α → State → State × Res β} (h : Stage lo mid n1 s r) (hk : ∀ v, r.2 = .ok v → Stage lo2 hi n2 r.1 (k v r.1))
    (hm : mid ≤ lo2) (hl : lo ≤ lo2) (hh : mid ≤ hi) {n : List Seq} (hn12 : n = n1 ++ n2) :
    Stage lo hi n s (andThen r k) := by
  subst hn12
  obtain ⟨cs, hw, hin, hb, hn⟩ := h
  unfold andThen
  split
  · rename_i v hv
    obtain ⟨ds, hw2, hin2, hb2, hn2⟩ := hk v hv
    refine ⟨cs ++ ds, by rw [hw2, hw, List.append_assoc], ⟨?_, ?_⟩, ?_, ?_⟩
    · refine List.pairwise_append.2 ⟨hin.1, hin2.1, fun a ha b hbm => ?_⟩
      have := hb a ha
      have := hb2 b hbm
      omega
    · intro c hc
      rcases List.mem_append.1 hc with hc | hc
      · exact hin.2 c hc
      · exact hin2.2 c hc
    · intro c hc
      rcases List.mem_append.1 hc with hc | hc
      · have := hb c hc
        omega
      · have := hb2 c hc
        omega
    · intro w hw q hq
      rcases List.mem_append.1 hq with hq | hq
      · obtain ⟨c, hc, he⟩ := hn v hv q hq
        exact ⟨c, List.mem_append.2 (.inl hc), he⟩
      · obtain ⟨c, hc, he⟩ := hn2 w hw q hq
        exact ⟨c, List.mem_append.2 (.inr hc), he⟩
  · exact ⟨cs, hw, hin, fun c hc => by have := hb c hc; omega, fun v hv => by cases hv⟩

theorem stage_issueCmd {idx : BitVec 6} (q : Seq) (arg : Word) (kind : Kind) {s : State} (hq : s.seq = q)
    (hi : idx ∈ stepCommands q) : Stage q.code.toNat q.code.toNat [q] s (issueCmd idx arg kind s) := by
  have h := issueCmd_issued idx arg kind s
  refine ⟨[sentAs idx arg kind s], h.wire, ⟨by simp, ?_⟩, ?_, ?_⟩
  · intro c hc
    rw [List.mem_singleton] at hc
    subst hc
    show idx ∈ stepCommands s.seq
    rw [hq]; exact hi
  · intro c hc
    rw [List.mem_singleton] at hc
    subst hc
    show _ ≤ s.seq.code.toNat ∧ s.seq.code.toNat ≤ _
    rw [hq]
    exact ⟨Nat.le_refl _, Nat.le_refl _⟩
  · intro _ _ p hp
    rw [List.mem_singleton] at hp
    subst hp
    exact ⟨_, List.mem_singleton.2 rfl, hq⟩

/-- The same stage from a state with the same commands sent, to a state with the same commands sent. -/
theorem stage_congr {α β : Type} {lo hi : Nat} {need : List Seq} {s s' : State} {r : State × Res α} {r' : State × Res β}
    (h : Stage lo hi need s r) (hs : s'.wire = s.wire) (hr : r'.1.wire = r.1.wire)
    (hv : ∀ v, r'.2 = .ok v → ∃ w, r.2 = .ok w) : Stage lo hi need s' r' := by
  obtain ⟨cs, hw, hin, hb, hn⟩ := h
  refine ⟨cs, by rw [hr, hw, hs], hin, hb, fun v h => ?_⟩
  obtain ⟨w, hw⟩ := hv v h
  exact hn w hw

/-- Two stages of one step, one after the other. -/
theorem stage_two {α β γ : Type} {q : Seq} {n1 n2 : List Seq} {s : State} {r : State × Res α} {r' : State × Res β}
    (h : Stage q.code.toNat q.code.toNat n1 s r) (hk : Stage q.code.toNat q.code.toNat n2 r.1 r')
    (x : Res γ) : Stage q.code.toNat q.code.toNat [] s (r'.1, x) := by
  obtain ⟨cs, hw, hin, hb, -⟩ := h
  obtain ⟨ds, hw2, hin2, hb2, -⟩ := hk
  refine ⟨cs ++ ds, by rw [hw2, hw, List.append_assoc], ⟨?_, ?_⟩, ?_, by simp⟩
  · refine List.pairwise_append.2 ⟨hin.1, hin2.1, fun a ha b hbm => ?_⟩
    have := hb a ha
    have := hb2 b hbm
    omega
  · intro c hc
    rcases List.mem_append.1 hc with hc | hc
    · exact hin.2 c hc
    · exact hin2.2 c hc
  · intro c hc
    rcases List.mem_append.1 hc with hc | hc
    · exact hb c hc
    · exact hb2 c hc

theorem voltAttempt_seq (mmc first : Bool) (arg : Word) (s : State) : (voltAttempt mmc first arg s).1.seq = s.seq := by
  have h (idx : BitVec 6) (a : Word) (k : Kind) (u : State) := (issueCmd_issued idx a k u).seq
  unfold voltAttempt
  dsimp only
  split
  · exact h _ _ _ _
  · split
    · split <;> exact h _ _ _ _
    · exact (h _ _ _ _).trans (h _ _ _ _)

/-- An attempt of the voltage loop sends commands of its step, and at least one. -/
theorem stage_voltAttempt (mmc first : Bool) (arg : Word) {s : State} (hq : s.seq = .negVoltage) :
    ∃ cs, (voltAttempt mmc first arg s).1.wire = s.wire ++ cs ∧ cs ≠ [] ∧
      ∀ c ∈ cs, c.seq = .negVoltage ∧ c.idx ∈ stepCommands .negVoltage := by
  have h (idx : BitVec 6) (a : Word) (k : Kind) (u : State) := issueCmd_issued idx a k u
  have one (idx : BitVec 6) (hidx : idx ∈ stepCommands .negVoltage) (a : Word) (k : Kind) (u : State) (hu : u.seq = .negVoltage) :
      ∀ c ∈ [sentAs idx a k u], c.seq = .negVoltage ∧ c.idx ∈ stepCommands .negVoltage := by
    intro c hc
    rw [List.mem_singleton] at hc
    subst hc
    exact ⟨hu, hidx⟩
  unfold voltAttempt
  dsimp only
  split
  · exact ⟨_, (h _ _ _ _).wire, by simp, one _ (by decide) _ _ _ hq⟩
  · split
    · split <;> exact ⟨_, (h _ _ _ _).wire, by simp, one _ (by decide) _ _ _ hq⟩
    · refine ⟨[sentAs 55#6 (rcaArg s) .r1 s, sentAs 41#6 arg .r3 (issueCmd 55#6 (rcaArg s) .r1 s).1], ?_, by simp, ?_⟩
      · show (issueCmd 41#6 arg .r3 _).1.wire = _
        rw [(h _ _ _ _).wire, (h _ _ _ _).wire, List.append_assoc]
        rfl
      · intro c hc
        rcases List.mem_cons.1 hc with hc | hc
        · exact one 55#6 (by decide) _ _ s hq c (by rw [hc]; exact List.mem_singleton.2 rfl)
        · refine one 41#6 (by decide) _ _ _ ?_ c hc
          rw [(h _ _ _ _).seq]
          exact hq

theorem stage_voltLoop (m0 : Nat) (arg : Word) (n : Nat) (mmc first : Bool) {s : State} (hq : s.seq = .negVoltage) :
    ∃ cs, (voltLoop m0 arg n mmc first s).1.wire = s.wire ++ cs ∧ (0 < n → cs ≠ []) ∧
      ∀ c ∈ cs, c.seq = .negVoltage ∧ c.idx ∈ stepCommands .negVoltage := by
  induction n generalizing mmc first s with
  | zero => exact ⟨[], by simp [voltLoop], by simp, by simp⟩
  | succ n ih =>
    obtain ⟨cs, hw, hne, hc⟩ := stage_voltAttempt mmc first arg hq
    have more {u : State} (hu : u.seq = .negVoltage) (hw2 : u.wire = (voltAttempt mmc first arg s).1.wire) (m : Bool) :
        ∃ cs, (voltLoop m0 arg n m false u).1.wire = s.wire ++ cs ∧ (0 < n + 1 → cs ≠ []) ∧
          ∀ c ∈ cs, c.seq = .negVoltage ∧ c.idx ∈ stepCommands .negVoltage := by
      obtain ⟨ds, hwd, -, hcd⟩ := ih m false hu
      refine ⟨cs ++ ds, by rw [hwd, hw2, hw, List.append_assoc], fun _ h => hne (List.append_eq_nil_iff.1 h).1, ?_⟩
      intro c hcm
      rcases List.mem_append.1 hcm with h | h
      · exact hc c h
      · exact hcd c h
    have hseq := (voltAttempt_seq mmc first arg s).trans hq
    rw [voltLoop_succ]
    split
    · exact more hseq rfl true
    · exact ⟨cs, hw, fun _ => hne, hc⟩
    · rename_i ocr _
      have m := moved_sync (setOcr ocr (voltAttempt mmc first arg s).1)
      split
      · exact ⟨cs, hw, fun _ => hne, hc⟩
      · split
        · exact ⟨cs, m.wire.trans hw, fun _ => hne, hc⟩
        · exact more (u := voltPause (sync (setOcr ocr (voltAttempt mmc first arg s).1))) (m.seq.trans hseq) m.wire mmc

theorem stage_negVoltage (s : State) : Stage 3 3 [.negVoltage] s (negVoltage s) := by
  unfold negVoltage
  dsimp only
  obtain ⟨cs, hw, hne, hc⟩ := stage_voltLoop (setSeq .negVoltage s).inp.ms (opCondArg (setSeq .negVoltage s))
    ((setSeq .negVoltage s).inp.sched.length + 2) false true (s := setSeq .negVoltage s) rfl
  have base : Stage 3 3 [.negVoltage] s (voltLoop (setSeq .negVoltage s).inp.ms (opCondArg (setSeq .negVoltage s))
      ((setSeq .negVoltage s).inp.sched.length + 2) false true (setSeq .negVoltage s)) := by
    refine ⟨cs, hw, ⟨?_, ?_⟩, ?_, ?_⟩
    · refine List.pairwise_of_forall_mem_list fun a ha b hb => ?_
      rw [(hc a ha).1, (hc b hb).1]
    · intro c hcm
      rw [(hc c hcm).1]
      exact (hc c hcm).2
    · intro c hcm
      rw [(hc c hcm).1]
      decide
    · intro _ _ q hq
      rw [List.mem_singleton] at hq
      subst hq
      obtain ⟨c, hcm⟩ := List.exists_mem_of_ne_nil cs (hne (by omega))
      exact ⟨c, hcm, (hc c hcm).1⟩
  generalize voltLoop (setSeq .negVoltage s).inp.ms (opCondArg (setSeq .negVoltage s))
      ((setSeq .negVoltage s).inp.sched.length + 2) false true (setSeq .negVoltage s) = r at base
  unfold andThen
  split
  · exact stage_congr base rfl rfl fun _ _ => ⟨_, by assumption⟩
  · exact stage_congr base rfl rfl fun _ h => by cases h

/-- One step that sends one command and then goes on without a command. -/
theorem stage_step {α : Type} {idx : BitVec 6} {q : Seq} {arg : Word} {kind : Kind} {s u : State}
    {k : Fields → State → State × Res α} (hu : u.wire = s.wire) (hq : u.seq = q) (hi : idx ∈ stepCommands q)
    (hk : ∀ f t, (k f t).1.wire = t.wire) :
    Stage q.code.toNat q.code.toNat [q] s (andThen (issueCmd idx arg kind u) k) := by
  have h := stage_congr (stage_issueCmd q arg kind hq hi) (s' := s) (r' := issueCmd idx arg kind u) hu.symm rfl
    fun v hv => ⟨v, hv⟩
  unfold andThen
  split
  · exact stage_congr h rfl (hk _ _) fun _ _ => ⟨_, by assumption⟩
  · exact stage_congr h rfl rfl fun _ h => by cases h

theorem stage_negReset (s : State) : Stage 1 1 [.negReset] s (negReset s) :=
  stage_step (q := .negReset) rfl rfl (by decide) fun _ _ => rfl

theorem stage_negProbe (s : State) : Stage 2 2 [.negProbe] s (negProbe s) := by
  have h := stage_issueCmd (idx := 8#6) .negProbe s.cfg.ifCondArg .r7 (s := setSeq .negProbe s) rfl (by decide)
  obtain ⟨cs, hw, hin, hb, -⟩ := h
  have hi := issueCmd_issued 8#6 s.cfg.ifCondArg .r7 (setSeq .negProbe s)
  refine ⟨[sentAs 8#6 s.cfg.ifCondArg .r7 (setSeq .negProbe s)], hi.wire, ⟨by simp, ?_⟩, ?_, ?_⟩
  · intro c hc
    rw [List.mem_singleton] at hc
    subst hc
    exact List.mem_singleton.2 rfl
  · intro c hc
    rw [List.mem_singleton] at hc
    subst hc
    exact ⟨Nat.le_refl _, Nat.le_refl _⟩
  · intro _ _ q hq
    rw [List.mem_singleton] at hq
    subst hq
    exact ⟨_, List.mem_singleton.2 rfl, rfl⟩

theorem stage_negIdentCid (s : State) : Stage 4 4 [.negIdent] s (negIdentCid s) :=
  stage_step (q := .negIdent) rfl rfl (by decide) fun _ _ => rfl

theorem negIdentCid_seq (s : State) : (negIdentCid s).1.seq = .negIdent := by
  have h := (issueCmd_issued 2#6 0#32 .r2 (setSeq .negIdent s)).seq
  unfold negIdentCid andThen
  split <;> exact h

theorem stage_negIdentRca {s : State} (hq : s.seq = .negIdent) : Stage 4 4 [.negIdent] s (negIdentRca s) :=
  stage_step (q := .negIdent) rfl hq (by decide) fun _ _ => rfl

theorem stage_negRegfetch (s : State) : Stage 5 5 [.negRegfetch] s (negRegfetch s) := by
  refine stage_step (q := .negRegfetch) rfl rfl (by decide) fun f t => ?_
  obtain ⟨d, hd, -⟩ := negParse_desc { t with desc := { t.desc with csdRaw := f.register } }
  show (negParse _).1.wire = _
  rw [hd]

theorem stage_negSelect (s : State) : Stage 6 6 [.negSelect] s (negSelect s) :=
  stage_step (q := .negSelect) rfl rfl (by decide) fun _ _ => rfl

theorem stage_negWidth (s : State) : Stage 7 7 [] s (negWidth s) := by
  have happ : Stage 7 7 [] s (issueApp 6#6 2#32 .r1 (setSeq .negWidth s)) := by
    have h1 := stage_issueCmd (idx := 55#6) .negWidth (rcaArg (setSeq .negWidth s)) .r1 (s := setSeq .negWidth s) rfl
      (by decide)
    unfold issueApp andThen
    split
    · have hseq := (issueCmd_issued 55#6 (rcaArg (setSeq .negWidth s)) .r1 (setSeq .negWidth s)).seq
      have h2 := stage_issueCmd (idx := 6#6) .negWidth 2#32 .r1
        (s := (issueCmd 55#6 (rcaArg (setSeq .negWidth s)) .r1 (setSeq .negWidth s)).1) hseq (by decide)
      exact stage_congr (stage_two h1 h2 (Res.ok ())) rfl rfl fun _ _ => ⟨(), rfl⟩
    · obtain ⟨cs, hw, hin, hb, -⟩ := h1
      exact ⟨cs, hw, hin, hb, by simp⟩
  unfold negWidth
  dsimp only
  split
  · exact stage_nothing _ _ rfl _
  · split
    · exact stage_congr happ rfl rfl fun _ _ => ⟨_, by assumption⟩
    · obtain ⟨cs, hw, hin, hb, -⟩ := happ
      exact ⟨cs, hw, hin, hb, by simp⟩

theorem stage_negBlklen (s : State) : Stage 8 8 [.negBlklen] s (negBlklen s) :=
  stage_step (q := .negBlklen) rfl rfl (by decide) fun _ _ => rfl

theorem stage_negEntry (s : State) : Stage 1 1 [] s (negEntry s) := by
  have h : (negEntry s).1.wire = s.wire := by
    unfold negEntry
    rw [cardCheck_eq]
    split
    · exact (moved_sync _).wire
    · exact (moved_sync _).wire
  exact stage_nothing _ _ h (negEntry s).2

/-- The steps every successful negotiation sends a command of; the bus-width step is skipped for MMC (42_negotiation
R308). -/
def everyStep : List Seq :=
  [.negReset, .negProbe, .negVoltage, .negIdent, .negIdent, .negRegfetch, .negSelect, .negBlklen]

theorem stage_tailBlklen (u : State) : Stage 8 8 [.negBlklen] u (tailBlklen u) :=
  stage_andThen (lo2 := 8) (n1 := [.negBlklen]) (n2 := []) (stage_negBlklen u) (fun _ _ => stage_nothing 8 8 rfl _)
    (by decide) (by decide) (by decide) rfl

theorem stage_tailWidth (u : State) : Stage 7 8 [.negBlklen] u (tailWidth u) :=
  stage_andThen (lo2 := 8) (n1 := []) (n2 := [.negBlklen]) (stage_negWidth u) (fun _ _ => stage_tailBlklen _)
    (by decide) (by decide) (by decide) rfl

theorem stage_tailSelect (u : State) : Stage 6 8 [.negSelect, .negBlklen] u (tailSelect u) :=
  stage_andThen (lo2 := 7) (n1 := [.negSelect]) (n2 := [.negBlklen]) (stage_negSelect u) (fun _ _ => stage_tailWidth _)
    (by decide) (by decide) (by decide) rfl

theorem stage_tailFetch (u : State) : Stage 5 8 [.negRegfetch, .negSelect, .negBlklen] u (tailFetch u) :=
  stage_andThen (lo2 := 6) (n1 := [.negRegfetch]) (n2 := [.negSelect, .negBlklen]) (stage_negRegfetch u) (fun _ _ => stage_tailSelect _)
    (by decide) (by decide) (by decide) rfl

theorem stage_tailRca (u : State) (hq : u.seq = .negIdent) : Stage 4 8 [.negIdent, .negRegfetch, .negSelect, .negBlklen] u (tailRca u) :=
  stage_andThen (lo2 := 5) (n1 := [.negIdent]) (n2 := [.negRegfetch, .negSelect, .negBlklen]) (stage_negIdentRca hq) (fun _ _ => stage_tailFetch _)
    (by decide) (by decide) (by decide) rfl

theorem stage_tailCid (u : State) : Stage 4 8 [.negIdent, .negIdent, .negRegfetch, .negSelect, .negBlklen] u (tailCid u) :=
  stage_andThen (lo2 := 4) (n1 := [.negIdent]) (n2 := [.negIdent, .negRegfetch, .negSelect, .negBlklen]) (stage_negIdentCid u) (fun _ _ => stage_tailRca _ (negIdentCid_seq _))
    (by decide) (by decide) (by decide) rfl

theorem stage_tailVoltage (u : State) : Stage 3 8 [.negVoltage, .negIdent, .negIdent, .negRegfetch, .negSelect, .negBlklen] u (tailVoltage u) :=
  stage_andThen (lo2 := 4) (n1 := [.negVoltage]) (n2 := [.negIdent, .negIdent, .negRegfetch, .negSelect, .negBlklen]) (stage_negVoltage u) (fun _ _ => stage_tailCid _)
    (by decide) (by decide) (by decide) rfl

theorem stage_tailProbe (u : State) : Stage 2 8 [.negProbe, .negVoltage, .negIdent, .negIdent, .negRegfetch, .negSelect, .negBlklen] u (tailProbe u) :=
  stage_andThen (lo2 := 3) (n1 := [.negProbe]) (n2 := [.negVoltage, .negIdent, .negIdent, .negRegfetch, .negSelect, .negBlklen]) (stage_negProbe u) (fun _ _ => stage_tailVoltage _)
    (by decide) (by decide) (by decide) rfl

theorem stage_tailReset (u : State) : Stage 1 8 [.negReset, .negProbe, .negVoltage, .negIdent, .negIdent, .negRegfetch, .negSelect, .negBlklen] u (tailReset u) :=
  stage_andThen (lo2 := 2) (n1 := [.negReset]) (n2 := [.negProbe, .negVoltage, .negIdent, .negIdent, .negRegfetch, .negSelect, .negBlklen]) (stage_negReset u) (fun _ _ => stage_tailProbe _)
    (by decide) (by decide) (by decide) rfl

theorem stage_tailEntry (u : State) : Stage 1 8 [.negReset, .negProbe, .negVoltage, .negIdent, .negIdent, .negRegfetch, .negSelect, .negBlklen] u (tailEntry u) :=
  stage_andThen (lo2 := 1) (n1 := []) (n2 := [.negReset, .negProbe, .negVoltage, .negIdent, .negIdent, .negRegfetch, .negSelect, .negBlklen]) (stage_negEntry u) (fun _ _ => stage_tailReset _)
    (by decide) (by decide) (by decide) rfl

theorem stage_negotiate (s : State) : Stage 1 8 everyStep s (negotiate s) := stage_tailEntry s

end Sys2Proof.Machine
end

