-- ==== Sys2Proof/Laws/Params.lean ====
section
/-! SUPPORT. Which buffers DMA can reach: those of which every byte lies in some region (20_memory R102). -/

namespace Sys2Proof.Machine

open Sys2Proof

/-- An address lies in some interval [first, end). -/
def inSome (is : List (Nat × Nat)) (x : Nat) : Prop := ∃ i ∈ is, i.1 ≤ x ∧ x < i.2

theorem inSome_cutRegion (r i : Nat × Nat) (x : Nat) :
    inSome (cutRegion r i) x ↔ (i.1 ≤ x ∧ x < i.2) ∧ ¬ (r.1 ≤ x ∧ x < r.1 + r.2) := by
  unfold inSome cutRegion
  simp only [List.mem_filter, List.mem_cons, List.not_mem_nil, or_false, decide_eq_true_eq]
  constructor
  · rintro ⟨j, ⟨rfl | rfl, hj⟩, h1, h2⟩ <;> dsimp only at * <;> omega
  · rintro ⟨⟨h1, h2⟩, h3⟩
    rcases Nat.lt_or_ge x r.1 with h | h
    · exact ⟨_, ⟨.inl rfl, by dsimp only; omega⟩, by dsimp only; omega, by dsimp only; omega⟩
    · exact ⟨_, ⟨.inr rfl, by dsimp only; omega⟩, by dsimp only; omega, by dsimp only; omega⟩

theorem inSome_cutRegions (rs is : List (Nat × Nat)) (x : Nat) :
    inSome (cutRegions rs is) x ↔ inSome is x ∧ ∀ r ∈ rs, ¬ (r.1 ≤ x ∧ x < r.1 + r.2) := by
  induction rs generalizing is with
  | nil => simp [cutRegions]
  | cons r rs ih =>
    unfold cutRegions
    rw [ih]
    have h : inSome (is.flatMap (cutRegion r)) x ↔ inSome is x ∧ ¬ (r.1 ≤ x ∧ x < r.1 + r.2) := by
      constructor
      · rintro ⟨j, hj, hx⟩
        obtain ⟨i, hi, hji⟩ := List.mem_flatMap.1 hj
        obtain ⟨h1, h2⟩ := (inSome_cutRegion r i x).1 ⟨j, hji, hx⟩
        exact ⟨⟨i, hi, h1⟩, h2⟩
      · rintro ⟨⟨i, hi, h1⟩, h2⟩
        obtain ⟨j, hj, hx⟩ := (inSome_cutRegion r i x).2 ⟨h1, h2⟩
        exact ⟨j, List.mem_flatMap.2 ⟨i, hi, hj⟩, hx⟩
    rw [h]
    simp only [List.mem_cons, forall_eq_or_imp, and_assoc]

/-- A buffer is reachable exactly where it lies in the host address space and every byte of it in some region. -/
theorem reachable_iff (p : Params) (a n : Nat) :
    reachable p a n = true ↔
      a + n ≤ hostSpace p ∧ ∀ x, a ≤ x → x < a + n → ∃ r ∈ p.dmaReach, r.1 ≤ x ∧ x < r.1 + r.2 := by
  unfold reachable
  rw [Bool.and_eq_true, decide_eq_true_eq, List.all_eq_true]
  refine and_congr_right fun _ => ?_
  constructor
  · intro h x h1 h2
    by_contra hn
    have hx : inSome (cutRegions p.dmaReach [(a, a + n)]) x :=
      (inSome_cutRegions _ _ _).2 ⟨⟨_, List.mem_singleton.2 rfl, h1, h2⟩, fun r hr hx => hn ⟨r, hr, hx⟩⟩
    obtain ⟨i, hi, hx⟩ := hx
    have := of_decide_eq_true (h i hi)
    omega
  · intro h i hi
    by_contra hn
    have hlt : i.1 < i.2 := by simpa using hn
    obtain ⟨⟨j, hj, h1, h2⟩, h3⟩ := (inSome_cutRegions _ _ i.1).1 ⟨i, hi, Nat.le_refl _, hlt⟩
    rw [List.mem_singleton] at hj
    subst hj
    obtain ⟨r, hr, hx⟩ := h i.1 h1 h2
    exact h3 r hr hx

end Sys2Proof.Machine
end

