-- ==== Sys2Proof/Laws/PerInstr.lean ====
section
/-! SUPPORT. One statement per instruction: the words of every instruction agree with its row of the opcode table
(spec/opcode_table.json), bit by bit of the row's mask. -/

namespace Sys2Proof.Laws

open Sys2Proof

/-- The two lengths of the table's encodings (30_encoding R120). -/
inductive RowLength where
  | op | frame
  deriving DecidableEq, Repr

/-- The opcode table, row by row: the length, the mask and the match of spec/opcode_table.json. -/
def tableRow : Instr → RowLength × BitVec 48 × BitVec 48
  | .initializeCard => (.op, 0xFFFFFFFF#48, 0x00000001#48)
  | .readBlock => (.op, 0xFFFFFFFF#48, 0x00000002#48)
  | .readBlocks => (.op, 0xFFFFFFFF#48, 0x00000003#48)
  | .writeBlock => (.op, 0xFFFFFFFF#48, 0x00000004#48)
  | .writeBlocks => (.op, 0xFFFFFFFF#48, 0x00000005#48)
  | .erase => (.op, 0xFFFFFFFF#48, 0x00000006#48)
  | .queryStatus => (.op, 0xFFFFFFFF#48, 0x00000007#48)
  | .transferBusy => (.op, 0xFFFFFFFF#48, 0x00000008#48)
  | .capacityBlocks => (.op, 0xFFFFFFFF#48, 0x00000009#48)
  | .blockSize => (.op, 0xFFFFFFFF#48, 0x0000000A#48)
  | .cmd0 _ _ => (.frame, 0xFF0000000001#48, 0x400000000001#48)
  | .cmd1 _ _ => (.frame, 0xFF0000000001#48, 0x410000000001#48)
  | .cmd2 _ _ => (.frame, 0xFF0000000001#48, 0x420000000001#48)
  | .cmd3 _ _ => (.frame, 0xFF0000000001#48, 0x430000000001#48)
  | .cmd7 _ _ => (.frame, 0xFF0000000001#48, 0x470000000001#48)
  | .cmd8 _ _ => (.frame, 0xFF0000000001#48, 0x480000000001#48)
  | .cmd9 _ _ => (.frame, 0xFF0000000001#48, 0x490000000001#48)
  | .cmd12 _ _ => (.frame, 0xFF0000000001#48, 0x4C0000000001#48)
  | .cmd13 _ _ => (.frame, 0xFF0000000001#48, 0x4D0000000001#48)
  | .cmd16 _ _ => (.frame, 0xFF0000000001#48, 0x500000000001#48)
  | .cmd17 _ _ => (.frame, 0xFF0000000001#48, 0x510000000001#48)
  | .cmd18 _ _ => (.frame, 0xFF0000000001#48, 0x520000000001#48)
  | .cmd24 _ _ => (.frame, 0xFF0000000001#48, 0x580000000001#48)
  | .cmd25 _ _ => (.frame, 0xFF0000000001#48, 0x590000000001#48)
  | .cmd32 _ _ => (.frame, 0xFF0000000001#48, 0x600000000001#48)
  | .cmd33 _ _ => (.frame, 0xFF0000000001#48, 0x610000000001#48)
  | .cmd35 _ _ => (.frame, 0xFF0000000001#48, 0x630000000001#48)
  | .cmd36 _ _ => (.frame, 0xFF0000000001#48, 0x640000000001#48)
  | .cmd38 _ _ => (.frame, 0xFF0000000001#48, 0x660000000001#48)
  | .cmd55 _ _ => (.frame, 0xFF0000000001#48, 0x770000000001#48)
  | .acmd6 _ _ => (.frame, 0xFF0000000001#48, 0x460000000001#48)
  | .acmd23 _ _ => (.frame, 0xFF0000000001#48, 0x570000000001#48)
  | .acmd41 _ _ => (.frame, 0xFF0000000001#48, 0x690000000001#48)

/-- The length of an instruction's words. -/
def lengthOf : Words → RowLength
  | .op _ => .op
  | .frame _ _ => .frame

/-- The bits of an instruction's words, as the table numbers them. -/
def bitsOf : Words → BitVec 48
  | .op w => w.setWidth 48
  | .frame _ f => f

/-- The words of `i` have the length of its row, and its row's fixed bits. -/
def EncodeMatchesTable.Statement (i : Instr) : Prop :=
  lengthOf (encode i) = (tableRow i).1 ∧
    bitsOf (encode i) &&& (tableRow i).2.1 = (tableRow i).2.2

theorem EncodeMatchesTable.initializeCard : EncodeMatchesTable.Statement .initializeCard := ⟨rfl, by decide⟩

theorem EncodeMatchesTable.readBlock : EncodeMatchesTable.Statement .readBlock := ⟨rfl, by decide⟩

theorem EncodeMatchesTable.readBlocks : EncodeMatchesTable.Statement .readBlocks := ⟨rfl, by decide⟩

theorem EncodeMatchesTable.writeBlock : EncodeMatchesTable.Statement .writeBlock := ⟨rfl, by decide⟩

theorem EncodeMatchesTable.writeBlocks : EncodeMatchesTable.Statement .writeBlocks := ⟨rfl, by decide⟩

theorem EncodeMatchesTable.erase : EncodeMatchesTable.Statement .erase := ⟨rfl, by decide⟩

theorem EncodeMatchesTable.queryStatus : EncodeMatchesTable.Statement .queryStatus := ⟨rfl, by decide⟩

theorem EncodeMatchesTable.transferBusy : EncodeMatchesTable.Statement .transferBusy := ⟨rfl, by decide⟩

theorem EncodeMatchesTable.capacityBlocks : EncodeMatchesTable.Statement .capacityBlocks := ⟨rfl, by decide⟩

theorem EncodeMatchesTable.blockSize : EncodeMatchesTable.Statement .blockSize := ⟨rfl, by decide⟩

theorem EncodeMatchesTable.cmd0 (arg : Word) (crc : BitVec 7) :
    EncodeMatchesTable.Statement (.cmd0 arg crc) :=
  ⟨rfl, (frame_masked 0#6 arg crc).trans (show frameWith 0#6 0#32 0#7 = 0x400000000001#48 by decide)⟩

theorem EncodeMatchesTable.cmd1 (arg : Word) (crc : BitVec 7) :
    EncodeMatchesTable.Statement (.cmd1 arg crc) :=
  ⟨rfl, (frame_masked 1#6 arg crc).trans (show frameWith 1#6 0#32 0#7 = 0x410000000001#48 by decide)⟩

theorem EncodeMatchesTable.cmd2 (arg : Word) (crc : BitVec 7) :
    EncodeMatchesTable.Statement (.cmd2 arg crc) :=
  ⟨rfl, (frame_masked 2#6 arg crc).trans (show frameWith 2#6 0#32 0#7 = 0x420000000001#48 by decide)⟩

theorem EncodeMatchesTable.cmd3 (arg : Word) (crc : BitVec 7) :
    EncodeMatchesTable.Statement (.cmd3 arg crc) :=
  ⟨rfl, (frame_masked 3#6 arg crc).trans (show frameWith 3#6 0#32 0#7 = 0x430000000001#48 by decide)⟩

theorem EncodeMatchesTable.cmd7 (arg : Word) (crc : BitVec 7) :
    EncodeMatchesTable.Statement (.cmd7 arg crc) :=
  ⟨rfl, (frame_masked 7#6 arg crc).trans (show frameWith 7#6 0#32 0#7 = 0x470000000001#48 by decide)⟩

theorem EncodeMatchesTable.cmd8 (arg : Word) (crc : BitVec 7) :
    EncodeMatchesTable.Statement (.cmd8 arg crc) :=
  ⟨rfl, (frame_masked 8#6 arg crc).trans (show frameWith 8#6 0#32 0#7 = 0x480000000001#48 by decide)⟩

theorem EncodeMatchesTable.cmd9 (arg : Word) (crc : BitVec 7) :
    EncodeMatchesTable.Statement (.cmd9 arg crc) :=
  ⟨rfl, (frame_masked 9#6 arg crc).trans (show frameWith 9#6 0#32 0#7 = 0x490000000001#48 by decide)⟩

theorem EncodeMatchesTable.cmd12 (arg : Word) (crc : BitVec 7) :
    EncodeMatchesTable.Statement (.cmd12 arg crc) :=
  ⟨rfl, (frame_masked 12#6 arg crc).trans (show frameWith 12#6 0#32 0#7 = 0x4C0000000001#48 by decide)⟩

theorem EncodeMatchesTable.cmd13 (arg : Word) (crc : BitVec 7) :
    EncodeMatchesTable.Statement (.cmd13 arg crc) :=
  ⟨rfl, (frame_masked 13#6 arg crc).trans (show frameWith 13#6 0#32 0#7 = 0x4D0000000001#48 by decide)⟩

theorem EncodeMatchesTable.cmd16 (arg : Word) (crc : BitVec 7) :
    EncodeMatchesTable.Statement (.cmd16 arg crc) :=
  ⟨rfl, (frame_masked 16#6 arg crc).trans (show frameWith 16#6 0#32 0#7 = 0x500000000001#48 by decide)⟩

theorem EncodeMatchesTable.cmd17 (arg : Word) (crc : BitVec 7) :
    EncodeMatchesTable.Statement (.cmd17 arg crc) :=
  ⟨rfl, (frame_masked 17#6 arg crc).trans (show frameWith 17#6 0#32 0#7 = 0x510000000001#48 by decide)⟩

theorem EncodeMatchesTable.cmd18 (arg : Word) (crc : BitVec 7) :
    EncodeMatchesTable.Statement (.cmd18 arg crc) :=
  ⟨rfl, (frame_masked 18#6 arg crc).trans (show frameWith 18#6 0#32 0#7 = 0x520000000001#48 by decide)⟩

theorem EncodeMatchesTable.cmd24 (arg : Word) (crc : BitVec 7) :
    EncodeMatchesTable.Statement (.cmd24 arg crc) :=
  ⟨rfl, (frame_masked 24#6 arg crc).trans (show frameWith 24#6 0#32 0#7 = 0x580000000001#48 by decide)⟩

theorem EncodeMatchesTable.cmd25 (arg : Word) (crc : BitVec 7) :
    EncodeMatchesTable.Statement (.cmd25 arg crc) :=
  ⟨rfl, (frame_masked 25#6 arg crc).trans (show frameWith 25#6 0#32 0#7 = 0x590000000001#48 by decide)⟩

theorem EncodeMatchesTable.cmd32 (arg : Word) (crc : BitVec 7) :
    EncodeMatchesTable.Statement (.cmd32 arg crc) :=
  ⟨rfl, (frame_masked 32#6 arg crc).trans (show frameWith 32#6 0#32 0#7 = 0x600000000001#48 by decide)⟩

theorem EncodeMatchesTable.cmd33 (arg : Word) (crc : BitVec 7) :
    EncodeMatchesTable.Statement (.cmd33 arg crc) :=
  ⟨rfl, (frame_masked 33#6 arg crc).trans (show frameWith 33#6 0#32 0#7 = 0x610000000001#48 by decide)⟩

theorem EncodeMatchesTable.cmd35 (arg : Word) (crc : BitVec 7) :
    EncodeMatchesTable.Statement (.cmd35 arg crc) :=
  ⟨rfl, (frame_masked 35#6 arg crc).trans (show frameWith 35#6 0#32 0#7 = 0x630000000001#48 by decide)⟩

theorem EncodeMatchesTable.cmd36 (arg : Word) (crc : BitVec 7) :
    EncodeMatchesTable.Statement (.cmd36 arg crc) :=
  ⟨rfl, (frame_masked 36#6 arg crc).trans (show frameWith 36#6 0#32 0#7 = 0x640000000001#48 by decide)⟩

theorem EncodeMatchesTable.cmd38 (arg : Word) (crc : BitVec 7) :
    EncodeMatchesTable.Statement (.cmd38 arg crc) :=
  ⟨rfl, (frame_masked 38#6 arg crc).trans (show frameWith 38#6 0#32 0#7 = 0x660000000001#48 by decide)⟩

theorem EncodeMatchesTable.cmd55 (arg : Word) (crc : BitVec 7) :
    EncodeMatchesTable.Statement (.cmd55 arg crc) :=
  ⟨rfl, (frame_masked 55#6 arg crc).trans (show frameWith 55#6 0#32 0#7 = 0x770000000001#48 by decide)⟩

theorem EncodeMatchesTable.acmd6 (arg : Word) (crc : BitVec 7) :
    EncodeMatchesTable.Statement (.acmd6 arg crc) :=
  ⟨rfl, (frame_masked 6#6 arg crc).trans (show frameWith 6#6 0#32 0#7 = 0x460000000001#48 by decide)⟩

theorem EncodeMatchesTable.acmd23 (arg : Word) (crc : BitVec 7) :
    EncodeMatchesTable.Statement (.acmd23 arg crc) :=
  ⟨rfl, (frame_masked 23#6 arg crc).trans (show frameWith 23#6 0#32 0#7 = 0x570000000001#48 by decide)⟩

theorem EncodeMatchesTable.acmd41 (arg : Word) (crc : BitVec 7) :
    EncodeMatchesTable.Statement (.acmd41 arg crc) :=
  ⟨rfl, (frame_masked 41#6 arg crc).trans (show frameWith 41#6 0#32 0#7 = 0x690000000001#48 by decide)⟩

end Sys2Proof.Laws
end

