-- ==== Sys2Proof/Laws/Plan.lean ====
section
/-! SUPPORT. The command phase of a transfer, whole: every command answered at once, or one of them failing (44_block_transfer
R410-R413; 40_response_decoder R201-R203). -/

namespace Sys2Proof.Machine

open Sys2Proof Sys2Proof.Safety

/-! ## A command that fails -/

/-- An error bit of the table that a word shows is one of its mask. -/
theorem hasFlag_of_firstError {w : Word} {e : TransferError} (h : firstError w r1Table = some e) : hasFlag w r1Errors = true := by
  by_contra hc
  rw [firstError_r1 (by simpa using hc)] at h
  cases h

/-- A status word with an error bit, or the echo of another index, is decoded to its error (40 R202, R203). -/
theorem answerOf_r1_fails {kind : Kind} (hk : kind = .r1 ∨ kind = .r1b) {idx : BitVec 6} (h9 : idx ≠ 9#6) (arg : Word) {rc : BitVec 6}
    {w : Word} {e : TransferError} (hf : if rc = idx then firstError w r1Table = some e else e = .illegalCommand) (s : State) :
    answerOf kind idx .crcGood rc (answerAt idx arg kind .crcGood (w, 0#32, 0#32, 0#32) s) = .err e := by
  rw [answerAt_good h9 arg (by rcases hk with rfl | rfl <;> decide)]
  have he (v : Word) : answerOf kind idx .crcGood rc (v, 0#32, 0#32, 0#32) = statusChecks idx rc v r1Table (.status v) := by
    rcases hk with rfl | rfl <;> rfl
  rw [he]
  unfold statusChecks
  by_cases h : rc = idx
  · rw [if_pos h] at hf ⊢
    have hne := hasFlag_of_firstError hf
    have hs : statusWordOf (sentAs idx arg kind s) s.card.state w = reportState .r1 s.card.state w := by
      unfold statusWordOf
      dsimp only
      rw [if_neg]
      · rcases hk with rfl | rfl <;> rfl
      · rintro ⟨-, -, h3⟩
        rw [reported_r1Errors, hne] at h3
        cases h3
    rw [hs, (firstError_reported _ _).1, hf]
  · rw [if_neg h] at hf ⊢
    rw [hf]

/-- A prompt answer with which a command fails is decoded to its error (40 R201-R210). -/
theorem answerOf_fails {kind : Kind} {idx : BitVec 6} (h9 : idx = 9#6 → kind = .r2) (h55 : idx = 55#6 → kind = .r1) (arg : Word) {a : Answer}
    {rc : BitVec 6} {w : Word} {e : TransferError} (hf : AnswerFails kind idx a rc w e) (s : State) :
    answerOf kind idx a rc (answerAt idx arg kind a (w, 0#32, 0#32, 0#32) s) = .err e := by
  have n9 (h : kind ≠ .r2) : idx ≠ 9#6 := fun e => h (h9 e)
  have n55 (h : kind ≠ .r1) : idx ≠ 55#6 := fun e => h (h55 e)
  cases kind <;> cases a <;> first | exact False.elim hf | skip
  all_goals first | (cases (show e = .cmdResponseTimeout from hf); rfl) | (cases (show e = .cmdCrcFail from hf); rfl) | skip
  · exact answerOf_r1_fails (.inl rfl) (n9 (by decide)) arg hf s
  · exact answerOf_r1_fails (.inr rfl) (n9 (by decide)) arg hf s
  · have hf : if rc = idx then firstError w r6Table = some e else e = .illegalCommand := hf
    rw [answerAt_good (n9 (by decide)) arg (by decide), statusWordOf_other (by exact n55 (by decide))]
    show statusChecks idx rc (reportState .r6 s.card.state w) r6Table _ = _
    unfold statusChecks
    by_cases h : rc = idx
    · rw [if_pos h] at hf ⊢
      rw [(firstError_reported _ _).2, hf]
    · rw [if_neg h] at hf ⊢
      rw [hf]

/-- A command that fails, by its answer or by silence: what a step that gives up learns of it (41_command_issuer R240). -/
theorem issueCmd_fails {kind : Kind} {idx : BitVec 6} (h9 : idx = 9#6 → kind = .r2) (h55 : idx = 55#6 → kind = .r1) (arg : Word)
    {b r : List (List Ev)} {e : TransferError} (hf : CommandFails kind idx b r e) {s : State} (hs : s.inp.sched = b ++ r) :
    ∃ t, issueCmd idx arg kind s = (t, .err e) ∧ Issued idx arg kind s t (.err e) ∧ t.inp.sched = r ∧
      t.inp.breaches = s.inp.breaches ∧ t.xfer = s.xfer ∧ t.mem = s.mem := by
  rcases hf with ⟨a, rc, w, rfl, hf⟩ | ⟨rfl, rfl, rfl⟩
  · obtain ⟨t, he, hp⟩ := issueCmd_prompted idx arg kind a rc w 0#32 0#32 0#32 r s hs
    rw [answerOf_fails h9 h55 arg hf] at he hp
    exact ⟨t, he, hp.issued, by rw [hp.inp], by rw [hp.inp], hp.xfer, hp.mem⟩
  · have hi := issueCmd_issued idx arg kind s
    have hc := calm_issueCmd idx arg kind s hs
    have h2 := issueCmd_silent idx arg kind s hs
    have f := send_frame idx arg kind (bcClearStatic s)
    have ht (m0 t : Nat) (u : State) : (fairTick m0 t u).xfer = u.xfer ∧ (fairTick m0 t u).mem = u.mem := by
      unfold fairTick
      split <;> exact ⟨rfl, rfl⟩
    refine ⟨(issueCmd idx arg kind s).1, Prod.ext rfl h2, h2 ▸ hi, hc.1, hc.2, ?_, ?_⟩ <;>
      rw [issueCmd_silent_eq idx arg kind s hs]
    · exact (ht _ _ _).1.trans f.xfer
    · exact (ht _ _ _).2.trans f.mem

/-! ## The commands of a transfer -/

/-- A transfer begun at `s` has sent `cs` and goes on at `b`: of the machine nothing but the commands has changed. -/
structure Begun (s : State) (cs : List Sent) (app : Bool) (b : State) (r : List (List Ev)) : Prop where
  inp : b.inp = { s.inp with sched := r }
  cfg : b.cfg = s.cfg
  host : b.host = { s.host with hbusy := true }
  wire : b.wire = s.wire ++ cs
  mem : b.mem = s.mem
  cardMem : b.card.mem = s.card.mem
  desc : b.desc = s.desc
  xfer : b.xfer = s.xfer
  byBlock : b.card.byBlock = s.card.byBlock
  blockLen : b.card.blockLen = s.card.blockLen
  mmc : b.card.mmc = s.card.mmc
  state : b.card.state = s.card.state
  seq : b.seq = .xferCmd
  app : b.app = app

/-- A transfer begins with nothing sent. -/
theorem begun_start {s : State} (ha : s.app = false) (r : List (List Ev)) :
    Begun s [] false (setSeq .xferCmd (setSched r (beginOp s))) r :=
  ⟨rfl, rfl, rfl, (List.append_nil _).symm, rfl, rfl, rfl, rfl, rfl, rfl, rfl, rfl, rfl, ha⟩

/-- A prefix or an ACMD23 that is answered without an error bit (41_command_issuer R269, R271). -/
theorem Begun.next {s b : State} {cs : List Sent} {app : Bool} {idx : BitVec 6} {w : Word} {r : List (List Ev)}
    (h : Begun s cs app b (prompt idx w ++ r)) (hi : (app, idx) ∈ [(false, 55#6), (true, 23#6)]) (arg : Word)
    (hw : w &&& 0xFDFFE008#32 = 0#32) :
    ∃ t f, issueCmd idx arg .r1 b = (t, .ok f) ∧ Begun s (cs ++ [opening app idx arg]) (idx == 55#6) t r := by
  have hne : idx ≠ 9#6 ∧ idx ≠ 38#6 ∧ idx ≠ 25#6 ∧ idx ≠ 16#6 ∧ idx ≠ 0#6 := by
    simp only [List.mem_cons, List.not_mem_nil, or_false, Prod.mk.injEq] at hi
    rcases hi with ⟨-, rfl⟩ | ⟨-, rfl⟩ <;> decide
  obtain ⟨t, x, -, he, hp⟩ := issueCmd_r1 (.inl rfl) hne.1 arg (w := w) (r := r) (s := b) (by rw [h.inp]; rfl)
    (by simp [hasFlag, r1Errors, hw])
  have k := hp.issued
  refine ⟨t, _, he, ⟨hp.inp.trans (by rw [h.inp]), k.cfg.trans h.cfg, k.host.trans h.host, ?_, hp.mem.trans h.mem, ?_,
    k.desc.trans h.desc, hp.xfer.trans h.xfer, k.byBlock.trans h.byBlock, ?_, k.mmc.trans h.mmc, ?_, k.seq.trans h.seq, k.app⟩⟩
  · rw [k.wire, h.wire, List.append_assoc]
    unfold sentAs opening
    rw [h.app, h.seq]
  · rw [hp.cardMem (by rw [openRange_none hne.2.1 hne.2.2.1]), h.cardMem]
  · rw [hp.blockLen, cardBlockLen_other (fun _ => ⟨hne.2.2.2.1, hne.2.2.2.2⟩), ite_self, h.blockLen]
  · rw [hp.state]
    split
    · unfold cardNext sentAs
      rw [h.app]
      simp only [List.mem_cons, List.not_mem_nil, or_false, Prod.mk.injEq] at hi
      rcases hi with ⟨rfl, rfl⟩ | ⟨rfl, rfl⟩ <;> exact h.state
    · exact h.state

/-- The index of the data command of a transfer (44 R410-R413). -/
def dataIndex (p : Plan) : BitVec 6 :=
  match p.dir, p.multi with
  | .rx, false => 17#6
  | .rx, true => 18#6
  | .tx, false => 24#6
  | .tx, true => 25#6

/-- The command phase is over: the data command is the last sent, and the card has opened the transfer. -/
structure Opened (s : State) (p : Plan) (c : State) (r : List (List Ev)) : Prop where
  inp : c.inp = { s.inp with sched := r }
  cfg : c.cfg = s.cfg
  host : c.host = { s.host with hbusy := true }
  wire : c.wire = s.wire ++ p.opens
  mem : c.mem = s.mem
  /-- A CMD25 may find blocks pre-erased (41_command_issuer R271). -/
  cardMem : dataIndex p ≠ 25#6 → c.card.mem = s.card.mem
  static : c.bc.sta &&& mStatic = 0#32
  app : c.app = false
  desc : c.desc = s.desc
  addr : c.card.addr = openedAt s
  byBlock : c.card.byBlock = s.card.byBlock
  blockLen : c.card.blockLen = s.card.blockLen
  mmc : c.card.mmc = s.card.mmc
  xfer : c.xfer = s.xfer
  state : s.card.state = 4#4 → c.card.state = if p.dir = .rx then 5#4 else 6#4
  idx : c.bc.cmd.idx = dataIndex p

/-- The bytes the data phase will move are the real ones where they were when the transfer began. -/
theorem Opened.realBytes {s c : State} {p : Plan} {r : List (List Ev)} (h : Opened s p c r) : realBytes c = realBytes s := by
  unfold Machine.realBytes movesBlocks
  rw [h.cfg, h.inp, h.byBlock, h.blockLen]

/-- The data command that is answered without an error bit (41_command_issuer R260-R263). -/
theorem Begun.data {s b : State} {cs : List Sent} {p : Plan} {w : Word} {r : List (List Ev)}
    (h : Begun s cs false b (prompt (dataIndex p) w ++ r)) (hw : w &&& 0xFDFFE008#32 = 0#32)
    (hp : p.opens = cs ++ [opening false (dataIndex p) (wireAddr s.desc s.host.arg0)]) :
    ∃ c f, dataCommand (dataIndex p) b = (c, .ok f) ∧ Opened s p c r := by
  have hne : dataIndex p ≠ 9#6 ∧ dataIndex p ≠ 38#6 ∧ dataIndex p ≠ 55#6 ∧ dataIndex p ≠ 16#6 ∧ dataIndex p ≠ 0#6 := by
    unfold dataIndex
    split <;> decide
  have hf : hasFlag w r1Errors = false := by simp [hasFlag, r1Errors, hw]
  obtain ⟨t, x, hx, he, hpr⟩ := issueCmd_r1 (.inl rfl) hne.1 (wireAddr b.desc b.host.arg0) (w := w) (r := r) (s := b)
    (by rw [h.inp]; rfl) hf
  have k := hpr.issued
  have hacc : cardAccepts .r1 .crcGood x.1 = true := by
    rw [hx]
    show (true && !hasFlag _ r1Errors) = true
    rw [statusWordOf_r1Errors, hf]
    rfl
  refine ⟨t, _, he, ⟨hpr.inp.trans (by rw [h.inp]), k.cfg.trans h.cfg, k.host.trans h.host, ?_, hpr.mem.trans h.mem, fun h25 => ?_,
    k.static, k.app.trans ?_, k.desc.trans h.desc, ?_, k.byBlock.trans h.byBlock,
    by rw [hpr.blockLen, cardBlockLen_other (fun _ => hne.2.2.2), ite_self, h.blockLen], k.mmc.trans h.mmc, hpr.xfer.trans h.xfer,
    fun h4 => ?_, by rw [k.cmd]; rfl⟩⟩
  · rw [k.wire, h.wire, hp, List.append_assoc]
    unfold sentAs opening
    rw [h.app, h.desc, h.host, h.seq]
  · rw [hpr.cardMem (by rw [openRange_none hne.2.1 h25]), h.cardMem]
  · exact beq_false_of_ne hne.2.2.1
  · have ha : cardByteAddr b.card.byBlock (wireAddr b.desc b.host.arg0) = openedAt s := by
      unfold openedAt
      rw [h.byBlock, h.desc, h.host]
    rw [k.addr, ← ha]
    unfold cardReceives sentAs
    rw [h.app]
    cases hd : p.dir <;> cases hm : p.multi <;> simp only [dataIndex, hd, hm] <;> rfl
  · rw [hpr.state, hacc, if_pos rfl, h.state, h4]
    unfold cardNext sentAs
    rw [h.app]
    cases hd : p.dir <;> cases hm : p.multi <;> simp only [dataIndex, hd, hm] <;> rfl

/-- Answers to the first command, then to the others. -/
theorem answers_cons (c : Sent) (cs : List Sent) (w : Word) (ws : List Word) :
    answers (c :: cs) (w :: ws) = prompt c.idx w ++ answers cs ws := rfl

/-- The commands of WRITE_BLOCKS on an SD card (44 R413). -/
theorem writeBlocksCommand_sd {b : State} (h : isSd b.desc = true) :
    writeBlocksCommand b =
      andThen (andThen (issueCmd 55#6 (rcaArg b) .r1 b) fun _ s => issueCmd 23#6 b.host.arg1 .r1 s) fun _ s => dataCommand 25#6 s := by
  unfold writeBlocksCommand issueApp
  rw [if_pos h]

/-- The one command of WRITE_BLOCKS on MMC (44 R413). -/
theorem writeBlocksCommand_mmc {b : State} (h : isSd b.desc = false) : writeBlocksCommand b = dataCommand 25#6 b := by
  unfold writeBlocksCommand
  rw [h, if_neg (by decide)]

/-- A transfer of one command: the data command (44 R410-R413). -/
theorem Begun.one {s b : State} {p : Plan} {ws : List Word} {rest : List (List Ev)} (g : Begun s [] false b (answers p.opens ws ++ rest))
    (ho : p.opens = [opening false (dataIndex p) (wireAddr s.desc s.host.arg0)]) (hl : ws.length = p.opens.length)
    (hw : ∀ w ∈ ws, w &&& 0xFDFFE008#32 = 0#32) : ∃ c f, dataCommand (dataIndex p) b = (c, .ok f) ∧ Opened s p c rest := by
  rw [ho] at g hl
  obtain ⟨w, rfl⟩ := List.length_eq_one_iff.1 hl
  rw [answers_cons] at g
  exact Begun.data g (hw w (by simp)) ho

/-- The three commands of WRITE_BLOCKS on an SD card (44 R413). -/
theorem Begun.announced {s b : State} {p : Plan} {ws : List Word} {rest : List (List Ev)} (g : Begun s [] false b (answers p.opens ws ++ rest))
    (hi : dataIndex p = 25#6)
    (ho : p.opens =
      [opening false 55#6 (s.desc.rca ++ 0#16), opening true 23#6 s.host.arg1, opening false 25#6 (wireAddr s.desc s.host.arg0)])
    (hsd : isSd s.desc = true) (hl : ws.length = p.opens.length) (hw : ∀ w ∈ ws, w &&& 0xFDFFE008#32 = 0#32) :
    ∃ c f, writeBlocksCommand b = (c, .ok f) ∧ Opened s p c rest := by
  have hb := writeBlocksCommand_sd (b := b) (by rw [g.desc]; exact hsd)
  rw [rcaArg_eq, g.desc, g.host] at hb
  rw [ho] at g hl
  obtain ⟨w1, w2, w3, rfl⟩ := List.length_eq_three.1 hl
  rw [answers_cons, answers_cons, answers_cons, List.append_assoc, List.append_assoc, List.append_assoc] at g
  obtain ⟨c1, f1, he1, g1⟩ := Begun.next g (by simp [opening]) (s.desc.rca ++ 0#16) (hw w1 (by simp))
  obtain ⟨c2, f2, he2, g2⟩ := Begun.next g1 (by simp [opening]) s.host.arg1 (hw w2 (by simp))
  obtain ⟨c, f, he, hc⟩ := Begun.data (p := p) (by rw [hi]; exact g2) (hw w3 (by simp)) (by rw [ho, hi]; rfl)
  rw [hi] at he
  refine ⟨c, f, ?_, hc⟩
  rw [hb]
  dsimp only [opening] at he1 he2
  rw [he1, andThen_ok, he2, andThen_ok, he]

/-- A transfer that meets `Ready` and whose commands are all answered without an error bit comes to its data phase. -/
theorem plan_opened {i : Instr} {p : Plan} {ws : List Word} {rest : List (List Ev)} {s : State} (hi : (i, p) ∈ plans s)
    (hr : Ready p.dir p.count p.multi s) (hl : ws.length = p.opens.length) (hw : ∀ w ∈ ws, w &&& 0xFDFFE008#32 = 0#32)
    (hs : s.inp.sched = checkBatches p.dir s.cfg ++ (answers p.opens ws ++ rest)) :
    ∃ b command c f, exec i s = settle s (endWith (moveBlocks p.dir p.count p.stop command b)) ∧
      command (setSeq .xferCmd b) = (c, .ok f) ∧ Opened s p c rest := by
  have g := begun_start hr.app (answers p.opens ws ++ rest)
  unfold plans at hi
  simp only [List.mem_cons, List.not_mem_nil, or_false, Prod.mk.injEq] at hi
  rcases hi with ⟨rfl, rfl⟩ | ⟨rfl, rfl⟩ | ⟨rfl, rfl⟩ | ⟨rfl, rfl⟩
  · obtain ⟨c, f, he, ho⟩ := Begun.one g rfl hl hw
    exact ⟨_, dataCommand 17#6, c, f, (show execReadBlock s = _ from transferOp_ready hr hs), he, ho⟩
  · obtain ⟨c, f, he, ho⟩ := Begun.one g rfl hl hw
    exact ⟨_, dataCommand 18#6, c, f, (show execReadBlocks s = _ from transferOp_ready hr hs), he, ho⟩
  · obtain ⟨c, f, he, ho⟩ := Begun.one g rfl hl hw
    exact ⟨_, dataCommand 24#6, c, f, (show execWriteBlock s = _ from transferOp_ready hr hs), he, ho⟩
  · have hx : exec .writeBlocks s = _ := (show execWriteBlocks s = _ from transferOp_ready hr hs)
    by_cases hm : s.desc.cardType = .mmc
    · obtain ⟨c, f, he, ho⟩ := Begun.one g (if_pos hm) hl hw
      exact ⟨_, writeBlocksCommand, c, f, hx, (writeBlocksCommand_mmc (by rw [g.desc]; simp [isSd, hm])).trans he, ho⟩
    · obtain ⟨c, f, he, ho⟩ := Begun.announced g rfl (if_neg hm) (by simp [isSd, hm]) hl hw
      exact ⟨_, writeBlocksCommand, c, f, hx, he, ho⟩

end Sys2Proof.Machine
end

