-- ==== Sys2Proof/Tests/Slice0.lean ====
section
/-! SUPPORT. Tests. Every expected value comes from the spec's own vectors (95_test_vectors, sections 2 to 10) or from the rule
named. After them, for each statement of Certificates/Slice0/Obligations.lean with hypotheses, a witness that meets them. -/

namespace Sys2Proof.Tests

set_option Elab.async false

open Sys2Proof Sys2Proof.Machine Sys2Proof.Safety

/-! ## Words (95 section 3; 30_encoding R150, R151) -/

/-- Six bytes decode to an instruction, are its words, and the instruction is well formed. -/
def reads (app : Bool) (bs : List Byte) (i : Instr) : Bool :=
  decide (decodeBytes app bs = .ok i) && decide ((frameOfBytes bs).map (Words.frame app) = some (encode i)) &&
    decide i.WellFormed

theorem test_frames_negotiation :
    reads false [0x40, 0x00, 0x00, 0x00, 0x00, 0x95] (.cmd0 0 0x4A) ∧
    reads false [0x41, 0x80, 0xFF, 0x80, 0x00, 0xAF] (.cmd1 0x80FF8000 0x57) ∧
    reads false [0x42, 0x00, 0x00, 0x00, 0x00, 0x4D] (.cmd2 0 0x26) ∧
    reads false [0x43, 0x00, 0x00, 0x00, 0x00, 0x21] (.cmd3 0 0x10) ∧
    reads false [0x47, 0x12, 0x34, 0x00, 0x00, 0x59] (.cmd7 0x12340000 0x2C) ∧
    reads false [0x48, 0x00, 0x00, 0x01, 0xAA, 0x87] (.cmd8 0x1AA 0x43) ∧
    reads false [0x49, 0x12, 0x34, 0x00, 0x00, 0x75] (.cmd9 0x12340000 0x3A) ∧
    reads false [0x50, 0x00, 0x00, 0x02, 0x00, 0x15] (.cmd16 0x200 0x0A) := by decide +kernel

theorem test_frames_data :
    reads false [0x4C, 0x00, 0x00, 0x00, 0x00, 0x61] (.cmd12 0 0x30) ∧
    reads false [0x4D, 0x12, 0x34, 0x00, 0x00, 0xD7] (.cmd13 0x12340000 0x6B) ∧
    reads false [0x51, 0x00, 0x03, 0xFE, 0x00, 0x99] (.cmd17 0x3FE00 0x4C) ∧
    reads false [0x52, 0x00, 0x00, 0x00, 0x64, 0x05] (.cmd18 0x64 0x02) ∧
    reads false [0x58, 0x00, 0x00, 0x00, 0x08, 0xFF] (.cmd24 8 0x7F) ∧
    reads false [0x59, 0x00, 0x00, 0x00, 0x64, 0xE7] (.cmd25 0x64 0x73) := by decide +kernel

theorem test_frames_erase :
    reads false [0x60, 0x00, 0x00, 0x00, 0x64, 0x3B] (.cmd32 0x64 0x1D) ∧
    reads false [0x61, 0x00, 0x00, 0x00, 0xC7, 0x87] (.cmd33 0xC7 0x43) ∧
    reads false [0x63, 0x00, 0x00, 0x00, 0x00, 0x6B] (.cmd35 0 0x35) ∧
    reads false [0x64, 0x00, 0x00, 0x00, 0x00, 0x7D] (.cmd36 0 0x3E) ∧
    reads false [0x66, 0x00, 0x00, 0x00, 0x00, 0xA5] (.cmd38 0 0x52) := by decide +kernel

theorem test_frames_application :
    reads false [0x77, 0x12, 0x34, 0x00, 0x00, 0xBF] (.cmd55 0x12340000 0x5F) ∧
    reads true [0x46, 0x00, 0x00, 0x00, 0x02, 0xCB] (.acmd6 2 0x65) ∧
    reads true [0x57, 0x00, 0x00, 0x00, 0x02, 0x0B] (.acmd23 2 0x05) ∧
    reads true [0x69, 0xC0, 0x10, 0x00, 0x00, 0xFB] (.acmd41 0xC0100000 0x7D) := by decide +kernel

/-- The ten words of 30_encoding R150, and the reserved ones of R151. -/
theorem test_op_words :
    [1, 2, 3, 4, 5, 6, 7, 8, 9, 10].map (fun w => (decodeOp w).toOption) =
      [some .initializeCard, some .readBlock, some .readBlocks, some .writeBlock, some .writeBlocks, some .erase,
        some .queryStatus, some .transferBusy, some .capacityBlocks, some .blockSize] ∧
    [0, 0xB, 0xC, 0xD, 0xE, 0xF, 0x12, 0x80000001].all fun w => decodeOp w = .error (.reservedOp w) := by decide +kernel

/-- A frame outside the command set, and one that is no frame (30_encoding R122, R140). -/
theorem test_frames_refused :
    decodeBytes false [0x4A, 0, 0, 0, 0, 1] = .error (.outsideCommandSet false 10) ∧
    decodeBytes false [0x46, 0, 0, 0, 2, 0xCB] = .error (.outsideCommandSet false 6) ∧
    decodeBytes true [0x40, 0, 0, 0, 0, 0x95] = .error (.outsideCommandSet true 0) ∧
    decodeBytes false [0x40, 0, 0, 0, 0, 0x94] = .error .malformedFrame ∧
    decodeBytes false [0x00, 0, 0, 0, 0, 0x95] = .error .malformedFrame ∧
    decodeBytes false [0xC0, 0, 0, 0, 0, 0x95] = .error .malformedFrame ∧
    decodeBytes false [0x40, 0, 0, 0, 0x95] = .error .malformedFrame := by decide +kernel

/-- Rows of the opcode table, as the host lays them out: 32 bits for an OP word, 48 for a frame with byte 0 uppermost. -/
theorem test_table_words :
    decodeTableWord 32 1 = some .initializeCard ∧ decodeTableWord 32 11 = none ∧
    decodeTableWord 48 0x480000000001 = some (.cmd8 0 0) ∧ decodeTableWord 48 0x690000000001 = some (.acmd41 0 0) ∧
    decodeTableWord 48 0x400000000000 = none ∧ decodeTableWord 40 1 = none := by decide +kernel

/-! ## Well-formedness: an ill-formed term for each check (30_encoding R122, R126, R131, R142) -/

/-- `i arg` is well formed with the CRC7 of its frame, and neither with another CRC nor with the argument `bad`. -/
def checked (i : Word → BitVec 7 → Instr) (idx : BitVec 6) (good bad : Word) : Bool :=
  decide (i good (frameCrc idx good)).WellFormed && !decide (i good (frameCrc idx good ^^^ 1)).WellFormed &&
    !decide (i bad (frameCrc idx bad)).WellFormed

theorem test_wellformed_zero_argument :
    checked .cmd0 0 0 1 ∧ checked .cmd2 2 0 0x80000000 ∧ checked .cmd3 3 0 0x10000 ∧ checked .cmd12 12 0 1 ∧
      checked .cmd38 38 0 1 := by decide +kernel

theorem test_wellformed_rca_argument :
    checked .cmd7 7 0x12340000 0x12340001 ∧ checked .cmd9 9 0x12340000 0x12348000 ∧ checked .cmd13 13 0xFFFF0000 0xFFFF ∧
      checked .cmd55 55 0 1 := by decide +kernel

theorem test_wellformed_fixed_argument :
    checked .cmd16 16 512 513 ∧ checked .acmd6 6 2 0 ∧ checked .acmd23 23 0x7FFFFF 0x800000 := by decide +kernel

theorem test_wellformed_crc :
    ∀ i ∈ [Instr.cmd1, .cmd8, .cmd17, .cmd18, .cmd24, .cmd25, .cmd32, .cmd33, .cmd35, .cmd36, .acmd41], ¬ (i 0 0x7F).WellFormed := by
  decide +kernel

/-! ## Response decoder (95 section 2) -/

/-- The registers of BC as a decode sees them. -/
def seen (sta : Word) (rc : BitVec 6) (w : Word) : Bc := { State.reset.bc with sta := sta, respcmd := rc, resp1 := w }

/-- Table 2.1: the 26 single-bit words of kind R1. -/
theorem test_r1_single_bits :
    [31, 30, 29, 28, 27, 26, 24, 23, 22, 21, 20, 19, 18, 17, 16, 15, 14, 13, 3].map
        (fun n => decodeResponse .r1 17 (seen 0x40 17 (1#32 <<< n))) =
      [.addressOutOfRange, .addressMisaligned, .blockLengthError, .eraseSequenceError, .badEraseParam, .writeProtectViolation,
        .lockUnlockFailed, .cmdCrcFail, .illegalCommand, .cardEccFailed, .controllerError, .unknownError, .streamUnderrun,
        .streamOverrun, .registerOverwrite, .partialErase, .eccDisabled, .eraseReset, .authSequenceError].map .err ∧
    ∀ n ∈ [25, 12, 11, 10, 9, 8, 5],
      decodeResponse .r1 17 (seen 0x40 17 (1#32 <<< n)) = .ok (.status (1#32 <<< n)) := by decide +kernel

/-- Table 2.2. -/
theorem test_r1_vectors :
    decodeResponse .r1 17 (seen 0x40 17 0) = .ok (.status 0) ∧
    decodeResponse .r1 17 (seen 0x40 18 0) = .err .illegalCommand ∧
    decodeResponse .r1 17 (seen 0x40 18 0x80000000) = .err .illegalCommand ∧
    decodeResponse .r1 17 (seen 0x40 17 0xFDFFE008) = .err .addressOutOfRange ∧
    decodeResponse .r1 17 (seen 0x40 17 0x80000008) = .err .addressOutOfRange ∧
    decodeResponse .r1 13 (seen 0x40 13 0x00C00000) = .err .cmdCrcFail ∧
    decodeResponse .r1 13 (seen 0x40 13 0x00400100) = .err .illegalCommand ∧
    decodeResponse .r1 13 (seen 0x40 13 0x02000900) = .ok (.status 0x02000900) ∧
    decodeResponse .r1 17 (seen 0x01 17 0) = .err .cmdCrcFail ∧
    decodeResponse .r1 17 (seen 0x05 17 0) = .err .cmdResponseTimeout ∧
    decodeResponse .r1 17 (seen 0x00 17 0) = .err .cmdResponseTimeout ∧
    decodeResponse .r1b 7 (seen 0x40 7 0x700) = .ok (.status 0x700) ∧
    decodeResponse .r1 6 (seen 0x40 6 0x920) = .ok (.status 0x920) ∧
    decodeResponse .r1 6 (seen 0x40 55 0x920) = .err .illegalCommand := by decide +kernel

/-- Table 2.3: R6, R3, R7 and RNone. -/
theorem test_other_kinds :
    decodeResponse .r6 3 (seen 0x40 3 0x12340500) = .ok (.rca 0x1234 0x0500) ∧
    decodeResponse .r6 3 (seen 0x40 3 0x1234E500) = .err .cmdCrcFail ∧
    decodeResponse .r6 3 (seen 0x40 3 0x12346500) = .err .illegalCommand ∧
    decodeResponse .r6 3 (seen 0x40 3 0x12342500) = .err .unknownError ∧
    decodeResponse .r6 3 (seen 0x40 3 0x00001F00) = .ok (.rca 0 0x1F00) ∧
    decodeResponse .r6 3 (seen 0x40 2 0x12340500) = .err .illegalCommand ∧
    decodeResponse .r6 3 (seen 0x01 3 0) = .err .cmdCrcFail ∧
    decodeResponse .r3 41 (seen 0x40 63 0xC0FF8000) = .ok (.ocr 0xC0FF8000) ∧
    decodeResponse .r3 41 (seen 0x01 63 0x00FF8000) = .ok (.ocr 0x00FF8000) ∧
    decodeResponse .r3 41 (seen 0x05 63 0) = .err .cmdResponseTimeout ∧
    decodeResponse .r7 8 (seen 0x40 63 0xFFFFFFFF) = .ok .empty ∧
    decodeResponse .r7 8 (seen 0x01 8 0) = .ok .empty ∧
    decodeResponse .r7 8 (seen 0x04 8 0) = .err .cmdResponseTimeout ∧
    decodeResponse .rNone 0 (seen 0x80 0 0) = .ok .empty ∧
    decodeResponse .rNone 0 (seen 0x00 0 0) = .err .cmdResponseTimeout := by decide +kernel

/-- Table 2.3: R2. -/
theorem test_r2 :
    (let b := { seen 0x40 63 0x400E0032 with resp2 := 0x5B590000, resp3 := 0xEE7F7F80, resp4 := 0x0A40009D }
    decodeResponse .r2 9 b = .ok (.reg 0x400E00325B590000EE7F7F800A40009D) ∧
      decodeResponse .r2 9 { b with resp4 := 0x0A400000 } = .ok (.reg 0x400E00325B590000EE7F7F800A400000)) ∧
    decodeResponse .r2 9 (seen 0x01 63 0) = .err .cmdCrcFail := by decide +kernel

/-! ## Register parser (95 section 4) -/

def csd1 : Reg128 := 0x002600325B5A83FFEEBBFF8016800039
def csd2 : Reg128 := 0x400E00325B590000EE7F7F800A40009D
def csd3 : Reg128 := 0x0026003219598003FFB5808012400069
def csd4 : Reg128 := 0x800E00325B590000EE7F7F800A400051
def csd5 : Reg128 := 0x400E00325B59003FFFFF7F800A400039
def csd5Less : Reg128 := 0x400E00325B59003FFFFE7F800A40004D
def cid1 : Reg128 := 0x0353445355303247801234567800A687

/-- The parsed CSD and its capacity. -/
def parsed (raw : Reg128) (t : CardType) : Res (Layout × Nat × Word) :=
  match parseCsd raw t with
  | .err e => .err e
  | .ok c =>
    match capacity c t with
    | .err e => .err e
    | .ok n => .ok (c.layout, c.cSize.toNat, n)

/-- Table 4.2. -/
theorem test_parse_and_capacity :
    parsed csd1 .standardV1 = .ok (.v1, 0xFFF, 2097152) ∧ parsed csd1 .standardV2 = .ok (.v1, 0xFFF, 4194304) ∧
    parsed csd1 .mmc = .ok (.v1, 0xFFF, 2097152) ∧ parsed csd1 .highCapacity = .ok (.v2, 0x3FEEBB, 4290441216) := by
  decide +kernel

theorem test_parse_and_capacity_more :
    parsed csd2 .highCapacity = .ok (.v2, 0xEE7F, 62521344) ∧ parsed csd2 .standardV2 = .ok (.v1, 3, 2048) ∧
    parsed csd3 .standardV1 = .ok (.v1, 15, 512) ∧ parsed csd3 .standardV2 = .ok (.v1, 15, 1024) := by
  decide +kernel

theorem test_parse_refused :
    parsed csd4 .standardV1 = .err .unsupportedHardware ∧ parsed csd4 .standardV2 = .err .unsupportedHardware ∧
    parsed csd4 .highCapacity = .err .unsupportedHardware ∧ parsed csd4 .mmc = .ok (.v1, 3, 1024) ∧
    parsed csd5 .highCapacity = .err .unsupportedHardware ∧
    parsed csd5Less .highCapacity = .ok (.v2, 0x3FFFFE, 4294966272) := by decide +kernel

/-- Table 4.1, columns CSD1 and CSD3 (layout V1) and CSD2 (layout V2). -/
theorem test_csd_fields :
    parseCsd csd1 .standardV1 =
      .ok
        { Csd.zero with
          layout := .v1, taac := 0x26, tranSpeed := 0x32, ccc := 0x5B5, readBlLen := 0xA, readBlPartial := 1, cSize := 0xFFF,
          vddRCurrMin := 5, vddRCurrMax := 6, vddWCurrMin := 5, vddWCurrMax := 6, cSizeMult := 7, eraseBlkEn := 1,
          sectorSize := 0x7F, r2wFactor := 5, writeBlLen := 0xA, crc := 0x1C } ∧
    parseCsd csd2 .highCapacity =
      .ok
        { Csd.zero with
          layout := .v2, csdStructure := 1, taac := 0x0E, tranSpeed := 0x32, ccc := 0x5B5, readBlLen := 9, cSize := 0xEE7F,
          eraseBlkEn := 1, sectorSize := 0x7F, r2wFactor := 2, writeBlLen := 9, crc := 0x4E } ∧
    parseCsd csd3 .standardV1 =
      .ok
        { Csd.zero with
          layout := .v1, taac := 0x26, tranSpeed := 0x32, ccc := 0x195, readBlLen := 9, readBlPartial := 1, cSize := 0xF,
          vddRCurrMin := 7, vddRCurrMax := 7, vddWCurrMin := 5, vddWCurrMax := 5, cSizeMult := 3, sectorSize := 1,
          r2wFactor := 4, writeBlLen := 9, crc := 0x34 } := by decide +kernel

/-- Section 4.3. -/
theorem test_cid_fields :
    parseCid cid1 =
      { mid := 0x03, oid := 0x5344, pnm := 0x5355303247, prv := 0x80, psn := 0x12345678, mdt := 0x0A6, crc := 0x43 } := by
  decide +kernel

/-! ## Addresses, states, the handler, the timer (95 sections 5, 8, 9) -/

/-- A descriptor published from a CSD. -/
def published (t : CardType) (raw : Reg128) (rca : BitVec 16) : Descriptor :=
  match parseCsd raw t with
  | .ok c =>
    match capacity c t with
    | .ok n =>
      { valid := true, cardType := t, rca := rca, csdRaw := raw, cidRaw := cid1, csd := c, cid := parseCid cid1, capacity := n }
    | .err _ => State.reset.desc
  | .err _ => State.reset.desc

/-- Section 5. -/
theorem test_wire_addresses :
    let ask (t : CardType) (a : Word) := wireAddr { State.reset.desc with cardType := t } a
    ask .highCapacity 100 = 0x64 ∧ ask .highCapacity 62521343 = 0x03B9FFFF ∧ ask .standardV1 100 = 0xC800 ∧
    ask .standardV2 0x10 = 0x2000 ∧ ask .mmc 1 = 0x200 ∧ ask .standardV1 511 = 0x3FE00 ∧
    ask .standardV2 4194303 = 0x7FFFFE00 := by decide +kernel

/-- Section 8. -/
theorem test_state_codes :
    [0x00000000, 0x00000300, 0x00000500, 0x00000700, 0x00000900, 0x00000B00, 0x00000D00, 0x00000E00, 0x00001100, 0x00001200,
        0x00001E00].map (fun w : Word => (stateOf (w.extractLsb' 9 4)).code) =
      [0xFF, 1, 2, 3, 4, 5, 6, 7, 8, 0xFF, 0xFF] := by decide +kernel

/-- Section 9.1. -/
theorem test_handler :
    let run (sta : Word) :=
      let t := isr { State.reset with bc := { State.reset.bc with sta := sta, mask := 0x33A } }
      (pendErrCode t.xfer, t.xfer.done, t.bc.mask)
    run 0x00000100 = (0, true, 0) ∧ run 0x00000102 = (2, true, 0) ∧ run 0x00000008 = (4, true, 0) ∧
    run 0x00000010 = (5, true, 0) ∧ run 0x00000020 = (6, true, 0) ∧ run 0x00000200 = (7, true, 0) ∧
    run 0x0000003A = (2, true, 0) ∧ run 0x00000038 = (4, true, 0) ∧ run 0x00000440 = (0, false, 0x33A) := by decide +kernel

/-- Section 9.3. -/
theorem test_timer :
    passed 0x1F 0 0x20 = false ∧ passed 0x20 0 0x20 = true ∧ passed 0xF 0xFFFFFFF0 0x20 = false ∧
    passed 0x10 0xFFFFFFF0 0x20 = true := by decide +kernel

/-! ## Instructions: one step each (95 sections 6, 7, 9 and 10) -/

/-- The outcome is a next state of which `p` holds. -/
def ran (o : Host.Outcome State Fault Refusal) (p : State → Bool) : Bool :=
  match o with
  | .next t => p t
  | .fault _ => false
  | .refused _ => false

/-- RESULT, VALUE, SEQ and HBUSY after an operation, and the commands it sent. -/
def ended (s : State) (result : BitVec 8) (value : Word) (cmds : List (Bool × BitVec 6 × Word)) (t : State) : Bool :=
  t.host.result == result && t.host.value == value && decide (t.seq = .idle) && !t.host.hbusy &&
    decide (t.wire = s.wire ++ t.wire.drop s.wire.length) &&
    decide ((t.wire.drop s.wire.length).map (fun c => (c.app, c.idx, c.arg)) = cmds)

/-- The card a descriptor tells of, just put in. -/
def cardOf (d : Descriptor) : Card :=
  { State.reset.card with
    byBlock := decide (d.cardType = .highCapacity), mmc := decide (d.cardType = .mmc), csd := d.csdRaw }

/-- Section 6's machine with the card of a given descriptor in it, its state Transfer. -/
def withCard (d : Descriptor) : State :=
  { State.reset with
    desc := d
    host := { State.reset.host with buf := 0x20000000, buflen := 0x10000 }
    card := { cardOf d with state := 4 }
    inp := { State.reset.inp with cardPresent := true }
    cfg := { Params.least with maxCount := 1024, erasePollBudget := 8 } }

/-- The high-capacity card of sections 6 and 10. -/
def sdhc : State := withCard (published .highCapacity csd2 0x1234)

/-- The byte-addressed cards: CSD3 as version 1, CSD1 as MMC. -/
def sdsc : State := withCard (published .standardV1 csd3 1)
def mmc : State := withCard (published .mmc csd1 1)

/-- The outcome is a next state. -/
def completes (o : Host.Outcome State Fault Refusal) : Bool := ran o fun _ => true

/-- `Ready` as one Boolean. -/
def readyCheck (dir : Dir) (count : Nat) (multi : Bool) (s : State) : Bool :=
  !s.host.hbusy && s.inp.cardPresent && (!(decide (dir = .tx) && s.cfg.engineChecksWp) || !s.inp.writeProtect) && s.desc.valid &&
    !s.app && (!multi || decide (2 ≤ count ∧ count ≤ maxCount s.cfg)) && decide (s.host.buf % bufAlign s.cfg = 0) &&
    decide (count * 512 ≤ s.host.buflen.toNat) && (!s.cfg.rangeCheck || decide (s.host.arg0.toNat + count ≤ s.desc.capacity.toNat)) &&
    reachable s.cfg s.host.buf (count * 512)

theorem ready_of {dir : Dir} {count : Nat} {multi : Bool} {s : State} (h : readyCheck dir count multi s = true) :
    Ready dir count multi s := by
  simp only [readyCheck, Bool.and_eq_true, Bool.or_eq_true, Bool.not_eq_true', decide_eq_true_eq, Bool.and_eq_false_iff,
    decide_eq_false_iff_not] at h
  obtain ⟨⟨⟨⟨⟨⟨⟨⟨⟨h1, h2⟩, h3⟩, h4⟩, h5⟩, h6⟩, h7⟩, h8⟩, h9⟩, h10⟩ := h
  exact
    { notBusy := h1, present := h2, valid := h4, countOk := fun hm => h6.resolve_left (by simp [hm])
      unprotected := fun hd he => h3.resolve_left (by simp [hd, he])
      aligned := h7, long := h8, inRange := fun hr => h9.resolve_left (by simp [hr]), reach := h10, app := h5 }

/-- `OwnCard` as one Boolean. -/
def ownCheck (s : State) : Bool :=
  decide (s.card.byBlock = decide (s.desc.cardType = .highCapacity)) && decide (s.card.mmc = decide (s.desc.cardType = .mmc))

/-- A machine with these operands and this schedule. -/
def given (s : State) (arg0 arg1 : Word) (sched : List (List Ev)) : State :=
  { s with host := { s.host with arg0 := arg0, arg1 := arg1 }, inp := { s.inp with sched := sched } }

/-- The operation of an OP word at these arguments, the other agents moving as in `sched`. -/
def ask (s : State) (op arg0 arg1 : Word) (sched : List (List Ev)) : State :=
  { s with
    host := { s.host with arg0 := arg0, arg1 := arg1 }
    inp := { s.inp with inbox := [.writeOp op], sched := sched } }

/-- An R3 answer as BC shows it: its CRC field is all ones. -/
def answersOcr (w : Word) : List (List Ev) := promptly .crcBad 63 w 0 0 0

/-- No answer within the window of BC. -/
def silent : List (List Ev) := promptly .noResponse 0 0 0 0 0

/-- CMD0 is sent; it has no response. -/
def idleSent : List (List Ev) := promptly .crcGood 0 0 0 0 0

/-- Program P1: a high-capacity card, its OCR busy once. -/
theorem test_initialize_sdhc :
    let s :=
      ask { State.reset with card := cardOf sdhc.desc, inp := { State.reset.inp with cardPresent := true } } 1 0 0
        ([] :: (idleSent ++ prompt 8 0x1AA ++ prompt 55 0x120 ++ answersOcr 0x00FF8000 ++ [[]] ++ prompt 55 0x120 ++
          answersOcr 0xC0FF8000 ++ promptLong cid1 ++ prompt 3 0x12340500 ++ promptLong csd2 ++ prompt 7 0x700 ++
          prompt 55 0x920 ++ prompt 6 0x920 ++ prompt 16 0x900))
    ran (step s) fun t =>
      ended s 0 0
          [(false, 0, 0), (false, 8, 0x1AA), (false, 55, 0), (true, 41, 0xC0100000), (false, 55, 0), (true, 41, 0xC0100000),
            (false, 2, 0), (false, 3, 0), (false, 9, 0x12340000), (false, 7, 0x12340000), (false, 55, 0x12340000), (true, 6, 2),
            (false, 16, 512)] t &&
        decide (t.desc = published .highCapacity csd2 0x1234 ∧ t.desc.capacity = 62521344) &&
        decide (t.neg = { sdv2 := true, ocr := 0xC0FF8000, busWidth := 4, clkdiv := t.cfg.transferClkdiv }) &&
        decide (t.log = [] ∧ t.card.state = 4) := by decide +kernel

/-- Program P6: an MMC card. -/
theorem test_initialize_mmc :
    let s :=
      ask { State.reset with card := cardOf mmc.desc, inp := { State.reset.inp with cardPresent := true } } 1 0 0
        ([] :: (idleSent ++ silent ++ silent ++ answersOcr 0x00FF8000 ++ [[]] ++ answersOcr 0x80FF8000 ++ promptLong cid1 ++
          prompt 3 0x00010500 ++ promptLong csd1 ++ prompt 7 0x700 ++ prompt 16 0x900))
    ran (step s) fun t =>
      ended s 0 0
          [(false, 0, 0), (false, 8, 0x1AA), (false, 55, 0), (false, 1, 0x80FF8000), (false, 1, 0x80FF8000), (false, 2, 0),
            (false, 3, 0), (false, 9, 0x00010000), (false, 7, 0x00010000), (false, 16, 512)] t &&
        decide (t.desc = published .mmc csd1 1 ∧ t.desc.capacity = 2097152) &&
        decide (t.neg = { sdv2 := false, ocr := 0x80FF8000, busWidth := 1, clkdiv := t.cfg.transferClkdiv }) := by
  decide +kernel

/-- Program P4, step 3: the last block of a byte-addressed card. -/
theorem test_read_block :
    let s0 := withCard (published .standardV1 csd3 1)
    let s :=
      ask { s0 with card := { s0.card with mem := [(0x3FE00, 0xA5), (0x3FFFF, 0x5A)] } } 2 511 0
        ([[]] ++ prompt 17 0x900 ++ dataDone)
    ran (step s) fun t =>
      ended s 0 1 [(false, 17, 0x3FE00)] t && decide (t.mem = [(0x20000000, 0xA5), (0x200001FF, 0x5A)]) := by decide +kernel

/-- Rows 6.8, 6.10, 6.12 and 6.13: checks of a read, no command. -/
theorem test_read_block_checks :
    let run (s : State) (addr : Word) (code : BitVec 8) : Bool := ran (step (ask s 2 addr 0 [])) (ended s code 0 [])
    run sdhc 62521344 29 ∧ run { sdhc with host := { sdhc.host with buf := 0x20000002 } } 0 29 ∧
    run { sdhc with desc := { sdhc.desc with valid := false } } 0 31 ∧
    run { sdhc with inp := { sdhc.inp with cardPresent := false } } 0 31 := by decide +kernel

/-- Program P2, step 4: two blocks, byte `k` of the second block 512 bytes on. -/
theorem test_read_blocks :
    let s :=
      ask { sdhc with card := { sdhc.card with mem := [(51200, 1), (51711, 2), (51712, 3), (52223, 4), (52224, 5)] } } 3 100 2
        ([[]] ++ prompt 18 0x900 ++ dataDone ++ prompt 12 0xB00)
    ran (step s) fun t =>
      ended s 0 2 [(false, 18, 100), (false, 12, 0)] t && decide (t.card.state = 4) &&
        decide (t.mem = [(0x20000000, 1), (0x200001FF, 2), (0x20000200, 3), (0x200003FF, 4)]) := by decide +kernel

/-- Section 9.2, rows 2 to 5; and rows 6.3, 6.5, 6.7, 6.9, 6.11 of section 6. -/
theorem test_read_blocks_errors :
    let run (s : State) (addr count : Word) (sched : List (List Ev)) : Word × Word :=
      match step (ask s 3 addr count sched) with
      | .next t => (t.host.result.setWidth 32, t.wire.length)
      | .fault _ => (0, 99)
      | .refused _ => (0, 99)
    let go := [[]] ++ prompt 18 0x900
    run sdhc 0 2 (go ++ [[.data 0x102, .isr]] ++ silent) = (2, 2) ∧
    run sdhc 0 2 (go ++ [[], [.tick 1]] ++ prompt 12 0xB00) = (4, 2) ∧
    run sdhc 0 2 (go ++ dataDone ++ silent) = (3, 2) ∧
    run sdhc 0 2 (go ++ dataDone ++ prompt 12 0x80000B00) = (8, 2) ∧
    run sdhc 0 1 [] = (29, 0) ∧ run sdhc 0 1025 [] = (29, 0) ∧ run sdhc 62521343 2 [] = (29, 0) ∧
    run sdhc 0xFFFFFFFF 2 [] = (29, 0) ∧ run { sdhc with host := { sdhc.host with buflen := 1023 } } 0 2 [] = (29, 0) := by
  decide +kernel

/-- Program P2, step 5. -/
theorem test_write_block :
    let s :=
      ask { sdhc with mem := [(0x20000000, 7), (0x200001FF, 8), (0x20000200, 9)] } 4 8 0
        ([[]] ++ prompt 24 0x900 ++ dataDone)
    ran (step s) fun t =>
      ended s 0 1 [(false, 24, 8)] t && decide (t.card.mem = [(4096, 7), (4607, 8)] ∧ t.card.state = 7) := by decide +kernel

/-- Rows 6.14 and 6.15: the write-protect input counts with ENGINE_CHECKS_WP alone. -/
theorem test_write_block_protected :
    let s := { sdhc with inp := { sdhc.inp with writeProtect := true } }
    ran (step (ask { s with cfg := { s.cfg with engineChecksWp := true } } 4 0 0 [])) (ended s 32 0 []) ∧
    ran (step (ask s 4 0 0 ([[]] ++ prompt 24 0x900 ++ dataDone))) (ended s 0 1 [(false, 24, 0)]) := by decide +kernel

/-- Program P2, step 1: an SD card. -/
theorem test_write_blocks_sd :
    let s :=
      ask { sdhc with mem := [(0x20000000, 7), (0x200003FF, 8)] } 5 100 2
        ([[]] ++ prompt 55 0x920 ++ prompt 23 0x920 ++ prompt 25 0x900 ++ dataDone ++ prompt 12 0xD00)
    ran (step s) fun t =>
      ended s 0 2 [(false, 55, 0x12340000), (true, 23, 2), (false, 25, 100), (false, 12, 0)] t &&
        decide (t.card.state = 7 ∧ t.card.addr = 51200 ∧ t.card.preErase = 0) &&
        decide (t.xfer = State.reset.xfer ∧ t.bc.mask = 0 ∧ t.bc.sta = 0) && runEnded t := by decide +kernel

/-- The end of program P6: on MMC neither ACMD23 nor CMD12 (row 9.2.7). -/
theorem test_write_blocks_mmc :
    let s := ask (withCard (published .mmc csd1 1)) 5 1 2 ([[]] ++ prompt 25 0x900 ++ dataDone)
    ran (step s) (ended s 0 2 [(false, 25, 0x200)]) := by decide +kernel

/-- Program P3, and its variant with a budget of two polls. -/
theorem test_erase :
    let sched := [[]] ++ prompt 32 0x900 ++ prompt 33 0x900 ++ prompt 38 0x900 ++ prompt 13 0xE00 ++ prompt 13 0xE00 ++ polled 4 0x900
    let s := ask sdhc 6 100 199 sched
    let s2 := { s with cfg := { s.cfg with erasePollBudget := 2 } }
    let sent := [(false, 32#6, 100#32), (false, 33, 199), (false, 38, 0), (false, 13, 0x12340000), (false, 13, 0x12340000)]
    ran (step s) (ended s 0 0 (sent ++ [(false, 13, 0x12340000)])) ∧ ran (step s2) (ended s2 30 0 sent) := by decide +kernel

/-- Program P4, steps 1 and 2, and rows 6.16, 6.18 of section 6: no command. -/
theorem test_erase_checks :
    let run (s : State) (first last : Word) (code : BitVec 8) : Bool := ran (step (ask s 6 first last [])) (ended s code 0 [])
    let v1 := withCard (published .standardV1 csd3 1)
    run v1 0 1 27 ∧ run v1 5 2 27 ∧ run sdhc 5 2 29 ∧ run sdhc 0 62521344 29 := by decide +kernel

/-- Section 8: two states, and an error bit that wins over the state. -/
theorem test_query_status :
    let run (st : BitVec 4) (w : Word) (result : BitVec 8) (value : Word) : Bool :=
      let s := { sdhc with card := { sdhc.card with state := st } }
      ran (step (ask s 7 0 0 ([[]] ++ prompt 13 w))) (ended s result value [(false, 13, 0x12340000)])
    run 7 0xE00 0 7 ∧ run 9 0x1200 0 0xFF ∧ run 4 0x00400900 15 0 := by decide +kernel

/-- Row 6.20. -/
theorem test_query_status_not_ready :
    let s := { sdhc with desc := { sdhc.desc with valid := false } }
    ran (step (ask s 7 0 0 [])) (ended s 31 0 []) := by decide +kernel

/-- Rows 7.4 and 7.5. -/
theorem test_transfer_busy :
    let s := { sdhc with bc := { sdhc.bc with sta := 0x2000 } }
    ran (step (ask sdhc 8 0 0 [])) (ended sdhc 0 0 []) ∧ ran (step (ask s 8 0 0 [])) (ended s 0 1 []) := by decide +kernel

/-- Rows 7.6 and 7.7. -/
theorem test_capacity_blocks :
    ran (step (ask State.reset 9 0 0 [])) (ended State.reset 0 0 []) ∧
    ran (step (ask sdhc 9 0 0 [])) (ended sdhc 0 0x03BA0000 []) := by decide +kernel

/-- Row 7.8. -/
theorem test_block_size : ran (step (ask State.reset 10 0 0 [])) (ended State.reset 0 512 []) := by decide +kernel

/-- Rows 7.1 to 7.3: a reserved word. -/
theorem test_reserved_op :
    [0x0, 0xB, 0xF, 0x12].all fun w => ran (step (ask sdhc w 0 0 [])) (ended sdhc 29 0 []) := by decide +kernel

/-- The Result of a bus command run by itself: a frame, the prefix bit, the card's state before, an answer. -/
def commandResult (app : Bool) (bs : List Byte) (st : BitVec 4) (sched : List (List Ev)) : Option (Res Fields) × BitVec 4 :=
  match frameOfBytes bs with
  | none => (none, 15)
  | some f =>
    match
      step
        { sdhc with
          app := app, card := { sdhc.card with state := st }, inp := { sdhc.inp with sched := sched, inbox := [.frame f] } } with
    | .next t => (t.cmdResult, t.card.state)
    | .fault _ => (none, 15)
    | .refused _ => (none, 15)

/-- The commands of negotiation, with the answers of programs P1 and P6. -/
theorem test_commands_negotiation :
    commandResult false [0x40, 0, 0, 0, 0, 0x95] 4 idleSent = (some (.ok .empty), 0) ∧
    commandResult false [0x41, 0x80, 0xFF, 0x80, 0, 0xAF] 0 (answersOcr 0x80FF8000) = (some (.ok (.ocr 0x80FF8000)), 1) ∧
    commandResult false [0x42, 0, 0, 0, 0, 0x4D] 1 (promptLong cid1) = (some (.ok (.reg cid1)), 2) ∧
    commandResult false [0x43, 0, 0, 0, 0, 0x21] 2 (prompt 3 0x12340500) = (some (.ok (.rca 0x1234 0x0500)), 3) ∧
    commandResult false [0x47, 0x12, 0x34, 0, 0, 0x59] 3 (prompt 7 0x700) = (some (.ok (.status 0x700)), 4) ∧
    commandResult false [0x48, 0, 0, 1, 0xAA, 0x87] 0 (prompt 8 0x1AA) = (some (.ok .empty), 0) ∧
    commandResult false [0x49, 0x12, 0x34, 0, 0, 0x75] 3 (promptLong csd2) = (some (.ok (.reg csd2)), 3) ∧
    commandResult false [0x50, 0, 0, 2, 0, 0x15] 4 (prompt 16 0x900) = (some (.ok (.status 0x900)), 4) ∧
    commandResult false [0x77, 0x12, 0x34, 0, 0, 0xBF] 4 (prompt 55 0x920) = (some (.ok (.status 0x920)), 4) ∧
    commandResult true [0x46, 0, 0, 0, 2, 0xCB] 4 (prompt 6 0x920) = (some (.ok (.status 0x920)), 4) ∧
    commandResult true [0x69, 0xC0, 0x10, 0, 0, 0xFB] 0 (answersOcr 0xC0FF8000) = (some (.ok (.ocr 0xC0FF8000)), 1) := by
  decide +kernel

/-- The commands of transfers and of the erase, with the answers of programs P2 and P3. -/
theorem test_commands_data :
    commandResult false [0x4C, 0, 0, 0, 0, 0x61] 6 (prompt 12 0xD00) = (some (.ok (.status 0xD00)), 7) ∧
    commandResult false [0x4D, 0x12, 0x34, 0, 0, 0xD7] 7 (prompt 13 0xE00) = (some (.ok (.status 0xE00)), 7) ∧
    commandResult false [0x51, 0, 0, 0, 8, 0xC5] 4 (prompt 17 0x900) = (some (.ok (.status 0x900)), 5) ∧
    commandResult false [0x52, 0, 0, 0, 0x64, 0x05] 4 (prompt 18 0x900) = (some (.ok (.status 0x900)), 5) ∧
    commandResult false [0x58, 0, 0, 0, 8, 0xFF] 4 (prompt 24 0x900) = (some (.ok (.status 0x900)), 6) ∧
    commandResult false [0x59, 0, 0, 0, 0x64, 0xE7] 4 (prompt 25 0x900) = (some (.ok (.status 0x900)), 6) ∧
    commandResult true [0x57, 0, 0, 0, 2, 0x0B] 4 (prompt 23 0x920) = (some (.ok (.status 0x920)), 4) ∧
    commandResult false [0x60, 0, 0, 0, 0x64, 0x3B] 4 (prompt 32 0x900) = (some (.ok (.status 0x900)), 4) ∧
    commandResult false [0x61, 0, 0, 0, 0xC7, 0x87] 4 (prompt 33 0x900) = (some (.ok (.status 0x900)), 4) ∧
    commandResult false [0x63, 0, 0, 0, 0, 0x6B] 4 (prompt 35 0x900) = (some (.ok (.status 0x900)), 4) ∧
    commandResult false [0x64, 0, 0, 0, 0, 0x7D] 4 (prompt 36 0x900) = (some (.ok (.status 0x900)), 4) ∧
    commandResult false [0x66, 0, 0, 0, 0, 0xA5] 4 (prompt 38 0x900) = (some (.ok (.status 0x900)), 7) := by decide +kernel

/-- The card effects of R250, R269, R270, R271 and the CSD of 20_memory R101, on a frame run by itself. -/
theorem test_card_effects :
    let run (i : Instr) (app : Bool) (k : Card) (sched : List (List Ev)) (p : State → Bool) : Bool :=
      ran (exec i { given sdhc 0 0 sched with app := app, card := k }) p
    let k := { sdhc.card with state := 4 }
    -- Inactive is not left by CMD0; Disconnect is.
    (run (.cmd0 0 0) false { k with state := 9, width := 4 } idleSent fun t => t.card.state == 9 && t.card.width == 4) ∧
    (run (.cmd0 0 0) false { k with state := 8, width := 4 } idleSent fun t => t.card.state == 0 && t.card.width == 1) ∧
    -- APP_CMD, and not where the answer reports an error.
    (run (.cmd55 0 0) false k (prompt 55 0x900) fun t => decide (t.cmdResult = some (.ok (.status 0x920)))) ∧
    (run (.cmd55 0 0) false k (prompt 55 0x00400900) fun t => !t.bc.resp1.getLsbD 5) ∧
    -- The width, in Transfer alone; the count of ACMD23.
    (run (.acmd6 2 0) true k (prompt 6 0x920) fun t => t.card.width == 4) ∧
    (run (.acmd6 0 0) true { k with width := 4 } (prompt 6 0x920) fun t => t.card.width == 1) ∧
    (run (.acmd6 2 0) true { k with state := 3 } (prompt 6 0x720) fun t => t.card.width == 1) ∧
    -- The block length, of a card that takes byte addresses; refused with an error bit; CMD0 takes it back.
    (run (.cmd16 256 0) false { k with byBlock := false } (prompt 16 0x900) fun t => t.card.blockLen == 256) ∧
    (run (.cmd16 256 0) false { k with byBlock := false } (prompt 16 0x20000900) fun t => t.card.blockLen == 512) ∧
    (run (.cmd16 256 0) false { k with byBlock := true } (prompt 16 0x900) fun t => t.card.blockLen == 512) ∧
    (run (.cmd0 0 0) false { k with blockLen := 256 } idleSent fun t => t.card.blockLen == 512) ∧
    (run (.acmd23 0xFF800002 0) true k (prompt 23 0x920) fun t => t.card.preErase == 2) ∧
    -- A CMD9 in Standby gives the card's own register; outside Standby the drawn one.
    (run (.cmd9 0 0) false { k with state := 3, csd := csd1 } (promptLong csd2) fun t =>
      decide (t.cmdResult = some (.ok (.reg csd1)))) ∧
    (run (.cmd9 0 0) false { k with csd := csd1 } (promptLong csd2) fun t =>
      decide (t.cmdResult = some (.ok (.reg csd2)) ∧ t.card.csd = csd1)) ∧
    -- A ready OCR tells of the card's own addressing mode; a busy one is as drawn.
    (run (.acmd41 0 0) true { k with byBlock := false } (answersOcr 0xC0FF8000) fun t =>
      decide (t.cmdResult = some (.ok (.ocr 0x80FF8000)))) ∧
    (run (.acmd41 0 0) true { k with byBlock := true } (answersOcr 0x80FF8000) fun t =>
      decide (t.cmdResult = some (.ok (.ocr 0xC0FF8000)))) ∧
    (run (.acmd41 0 0) true { k with byBlock := true } (answersOcr 0x00FF8000) fun t =>
      decide (t.cmdResult = some (.ok (.ocr 0x00FF8000)))) := by decide +kernel

/-- The outcome is this refusal. -/
def refusedBy (o : Host.Outcome State Fault Refusal) (r : Refusal) : Bool :=
  match o with
  | .refused r' => decide (r' = r)
  | .next _ => false
  | .fault _ => false

/-- After a lone CMD55 an operation that sends a command is refused by name; one that sends none is not (30_encoding R140). -/
theorem test_pending_prefix :
    let s := { given sdhc 0 2 [] with app := true }
    refusedBy (exec .initializeCard s) (.outsideCommandSet true 0) ∧ refusedBy (exec .readBlocks s) (.outsideCommandSet true 18) ∧
    refusedBy (exec .writeBlocks s) (.outsideCommandSet true 55) ∧ refusedBy (exec .erase s) (.outsideCommandSet true 32) ∧
    refusedBy (exec .queryStatus s) (.outsideCommandSet true 13) ∧ completes (exec .capacityBlocks s) ∧
    completes (exec .readBlocks { s with host := { s.host with arg1 := 1 } }) := by decide +kernel

/-- Moves outside BC's duties refuse the run (60_exceptions R546): an answer to no command, the end of a data phase of no transfer, a
flag that is none of the data path. The handler without an interrupt, an idle path, further flags of a transfer still armed and a late
flag do not. -/
theorem test_duties :
    let wait (s : State) (e : Ev) := step { s with inp := { s.inp with sched := [[e]] } }
    let armed := { sdhc with bc := { sdhc.bc with dma := some { dir := .rx, buf := 0x20000000, len := 512 } } }
    (ran (exec .readBlock (given sdhc 0 0 ([[]] ++ prompt 17 0x900 ++ [[.data 0x100, .data 0x400, .data 0x2, .isr]]))) fun t =>
      t.host.result == 2) ∧
    refusedBy (wait sdhc (.respond .crcGood 13 0 0 0 0)) .dutyBroken ∧ refusedBy (wait sdhc (.data 0x100)) .dutyBroken ∧
    completes (wait armed .pathIdle) ∧ refusedBy (wait armed (.data 0x1)) .dutyBroken ∧
    completes (wait sdhc .isr) ∧ completes (wait sdhc .pathIdle) ∧
    completes (wait { sdhc with bc := { sdhc.bc with late := true } } (.data 0x100)) ∧
    refusedBy (exec .queryStatus (given sdhc 0 0 [[], [], [.respond .crcGood 13 0x900 0 0 0, .data 0x100]])) .dutyBroken := by
  decide +kernel

/-- A buffer over two regions that meet is reachable, one over a gap is not (20_memory R102). -/
theorem test_reachable :
    let p (rs : List (Nat × Nat)) := { Params.least with dmaReach := rs }
    reachable (p [(0, 512), (512, 512)]) 0 1024 ∧ reachable (p [(512, 512), (0, 512)]) 1 1023 ∧
    ¬ reachable (p [(0, 512), (513, 512)]) 0 1024 ∧ ¬ reachable (p [(0, 512), (512, 512)]) 1 1024 ∧
    ¬ reachable (p [(0, 2 ^ 40)]) (2 ^ Params.least.hostAddrW - 1) 2 ∧ reachable (p []) 7 0 := by decide +kernel

/-- A deadline the wrapping timer jumped past has passed (60_exceptions R535). -/
theorem test_timer_wraps :
    expired 0xF 0 0x10 = false ∧ expired 0x10 0 0x10 = true ∧ expired (2 ^ 32 + 3) 0 0x10 = true ∧
    expired (2 ^ 32 + 3) (2 ^ 32 - 2) 0x10 = false := by decide +kernel

/-- Every block that lies in a unit the range touches, whole: a unit of 768 bytes (SECTOR_SIZE 2, WRITE_BL_LEN 8), and one of 384
(WRITE_BL_LEN 7) for the block of 512 to 1023; and the MMC group of 8 by 2 blocks (44 R430; 93 U8, U35; 43 R352, R357). -/
theorem test_erase_unit :
    let at1 (csd : Reg128) (mmc : Bool) := { sdsc.card with csd := csd, mmc := mmc, eraseFirst := 512, eraseLast := 512 }
    let k := at1 (2#128 <<< 39 ||| 8#128 <<< 22) false
    let small := at1 (2#128 <<< 39 ||| 7#128 <<< 22) false
    let group := at1 (7#128 <<< 42 ||| 1#128 <<< 37 ||| 9#128 <<< 22) true
    eraseUnit k = 768 ∧ eraseRange k = (0, 1536) ∧ eraseRange { k with eraseFirst := 0, eraseLast := 0 } = (0, 1024) ∧
    eraseUnit small = 384 ∧ eraseRange small = (0, 1536) ∧ eraseUnit group = 8192 ∧ eraseRange group = (0, 8192) ∧
    eraseUnit { k with csd := csd2 } = 512 := by decide +kernel

/-- A card that takes byte addresses and whose block length is not 512 completes its transfers with free values (R259; log entry
31); one that takes block numbers moves its own bytes. -/
theorem test_block_length :
    let run (s : State) (drawn : Nat) : Bool :=
      ran (exec .readBlock { given s 0 0 ([[]] ++ prompt 17 0x900 ++ dataDone) with card := { s.card with blockLen := 256 } }) fun t =>
        ended s 0 1 [(false, 17, 0)] t && t.free == drawn
    run sdsc 512 ∧ run sdhc 0 := by decide +kernel

/-- A write that fails leaves open the block named and every block touched where another card opens the command: block 5, and the byte
addresses 5 to 516 (93 U7; 70 R617; log entry 22). -/
theorem test_failed_write_on_another_card :
    let s := { given sdhc 5 0 ([[]] ++ prompt 24 0x900) with card := { sdhc.card with byBlock := false } }
    openedBlocks 1 s = (0, 1024) ∧ openedBlocks 1 sdhc = (0, 512) ∧
      (ran (exec .writeBlock s) fun t => t.host.result == 4 && t.free == 1536) := by
  decide +kernel

/-- Another card in the slot is read under the descriptor of the old one: the same block where it takes block numbers too, else the
byte address of that number (70 R617, 93 U30). -/
theorem test_swap :
    let run (byBlock : Bool) (got : Memory) : Bool :=
      let new := HostMove.swap 4 byBlock false csd1 512 [(5, [0x11]), (2560, [0xA5]), (3071, [0x5A, 1])]
      ran (step { given sdhc 5 0 [] with inp := { sdhc.inp with inbox := [new] } }) fun t =>
        decide (t.desc = sdhc.desc) &&
          ran (exec .readBlock { t with inp := { t.inp with sched := [[]] ++ prompt 17 0x900 ++ dataDone } }) fun u =>
            decide (u.mem = got) && runEnded u
    run true [(0x20000000, 0xA5), (0x200001FF, 0x5A)] ∧ run false [(0x20000000, 0x11)] := by decide +kernel

/-- A command without an answer, and one whose index the prefix bit puts outside the command set. -/
theorem test_commands_without_answer :
    commandResult false [0x4D, 0x12, 0x34, 0, 0, 0xD7] 4 [] = (some (.err .cmdResponseTimeout), 4) ∧
    commandResult false [0x46, 0, 0, 0, 2, 0xCB] 4 [] = (none, 15) := by decide +kernel

/-- One word for every row of the opcode table runs as the first instruction after reset. -/
theorem test_fetch_from_reset :
    ([1, 2, 3, 4, 5, 6, 7, 8, 9, 10].all fun w =>
      (decodeTableWord 32 w).isSome && ran (step (State.reset.withFetchWord 32 w)) fun _ => true) ∧
    ([0, 1, 2, 3, 7, 8, 9, 12, 13, 16, 17, 18, 24, 25, 32, 33, 35, 36, 38, 55, 6, 23, 41].all fun idx =>
      (decodeTableWord 48 (0x400000000001 + idx * 2 ^ 40)).isSome &&
        ran (step (State.reset.withFetchWord 48 (0x400000000001 + idx * 2 ^ 40))) fun t => t.wire.length == 1) := by
  decide +kernel

/-! ## Witnesses: each statement's hypotheses met together -/

theorem of_ran {o : Host.Outcome State Fault Refusal} {p : State → Bool} (h : ran o p = true) :
    ∃ t, o = .next t ∧ p t = true := by
  cases o with
  | next t => exact ⟨t, rfl, h⟩
  | fault r => cases h
  | refused r => cases h

theorem of_completes {o : Host.Outcome State Fault Refusal} (h : completes o = true) : ∃ t, o = .next t := by
  obtain ⟨t, ht, -⟩ := of_ran h
  exact ⟨t, ht⟩



/-! ### Encodings and the step -/

theorem witness_EncodeOfDecode :
    decode (.op 6) = .ok .erase ∧ decode (.frame false (frameOf 17 0x1000)) = .ok (.cmd17 0x1000 0x13) ∧
    decode (.frame true (frameOf 41 0xC0100000)) = .ok (.acmd41 0xC0100000 0x7D) := by decide +kernel

theorem witness_ReservedOp :
    [0x0, 0xB, 0xF, 0x12, 0x80000001].all fun w : Word =>
      let s := ask sdhc w 0 0 []
      !s.host.hbusy && decide (s.inp.inbox = .writeOp w :: []) &&
        decide (w.extractLsb' 0 4 = 0#4 ∨ 0xB ≤ (w.extractLsb' 0 4).toNat ∨ w.extractLsb' 4 28 ≠ 0#28) := by decide +kernel

theorem witness_OutsideSetRefused :
    [(false, 6), (false, 10), (false, 23), (false, 41), (false, 63), (true, 0), (true, 55), (true, 63)].all
      fun (app, n) =>
        let f := frameOf (BitVec.ofNat 6 n) 0
        let s := { sdhc with app := app, inp := { sdhc.inp with inbox := [.frame f] } }
        decide (s.inp.inbox = .frame f :: []) && decide (f.extractLsb' 46 2 = 0b01#2) && decide (f.extractLsb' 0 1 = 1#1) &&
          !decide ((f.extractLsb' 40 6).toNat ∈ (if s.app then [6, 23, 41]
            else [0, 1, 2, 3, 7, 8, 9, 12, 13, 16, 17, 18, 24, 25, 32, 33, 35, 36, 38, 55] : List Nat)) := by
  decide +kernel

theorem witness_StepRunsDecoded :
    ((ask sdhc 6 5 7 []).inp.inbox = .writeOp 6 :: [] ∧ (ask sdhc 6 5 7 []).host.hbusy = false ∧ decodeOp 6 = .ok .erase) ∧
    decodeFrame true (frameOf 6 2) = .ok (.acmd6 2 0x65) ∧ decodeFrame false (frameOf 0 0) = .ok (.cmd0 0 0x4A) := by
  decide +kernel

/-- The machine with one move of HOST to make, busy or not. -/
def moving (busy : Bool) (m : HostMove) : State :=
  { sdhc with host := { sdhc.host with hbusy := busy }, inp := { sdhc.inp with inbox := [m] } }

/-- Every move both ways, the last four whatever HBUSY, a wait refused and an empty inbox; a store that just fits, one byte too
many, none past the end; an address just past the end of BUF. -/
theorem witness_HostWrites :
    ([HostMove.writeArg0 1, .writeArg1 2, .writeBuf 4, .writeBuflen 512, .store 0xFFFFFFFF [1], .writeOp 1].all fun m =>
      decide ((moving true m).inp.inbox = m :: []) && (moving true m).host.hbusy && completes (step (moving false m))) ∧
    ([HostMove.maint false, .swap 4 true false csd2 512 [(0, [1])], .idle].all fun m =>
      decide ((moving true m).inp.inbox = m :: []) && completes (step (moving true m)) && completes (step (moving false m))) ∧
    (let s := moving false .idle
    refusedBy (step { s with inp := { s.inp with sched := [[.data 0x100]] } }) .dutyBroken) ∧
    (decide (sdhc.inp.inbox = []) && completes (step sdhc)) ∧
    (ran (step (moving false (.writeBuf 0x100000004))) fun t => t.host.buf == 4) ∧
    (ran (step (moving false (.store 0x100000000 []))) fun t => decide (t.mem = [])) ∧
    (match step (moving false (.store 0xFFFFFFFF [1, 2])) with
      | .fault r => decide (r = .outsideHostMemory 0x100000000)
      | .next _ => false
      | .refused _ => false) = true := by decide +kernel

/-! ### Invariants -/

theorem inv_sdhc (sched : List (List Ev)) (inbox : List HostMove) :
    Inv { sdhc with inp := { sdhc.inp with sched := sched, inbox := inbox } } where
  memWf := ⟨List.Pairwise.nil, fun _ h => nomatch h⟩
  memIn := fun _ h => nomatch h
  cardWf := ⟨List.Pairwise.nil, fun _ h => nomatch h⟩
  notBusy := rfl
  seqIdle := rfl
  unarmed := rfl
  masked := rfl
  notMulti := rfl
  resultCode := show sdhc.host.result.toNat ≤ 32 by decide +kernel
  valueZero := show sdhc.host.result ≠ 0#8 → sdhc.host.value = 0#32 by decide +kernel
  bufIn := show sdhc.host.buf < hostSpace sdhc.cfg by decide +kernel
  width := show sdhc.neg.busWidth = 1#3 ∨ sdhc.neg.busWidth = 4#3 by decide +kernel
  reserved := show sdhc.bc.sta.extractLsb' 14 18 = 0#18 by decide +kernel
  published := by
    show Published sdhc.desc
    unfold Published
    decide +kernel

theorem witness_StepKeepsInv :
    ∃ s t, Inv s ∧ step s = .next t ∧ t.host.value = 1#32 := by
  obtain ⟨t, ht, hv⟩ := of_ran (o := step { sdhc with inp := { sdhc.inp with
    sched := [[]] ++ prompt 17 0x900 ++ dataDone, inbox := [.writeOp 2] } }) (p := fun t => t.host.value == 1#32) (by decide +kernel)
  exact ⟨_, t, inv_sdhc _ _, ht, by simpa using hv⟩

theorem witness_WhoWritesWhat :
    (∃ t, step (ask sdhc 7 0 0 ([[]] ++ prompt 13 0x900)) = .next t) ∧
    ∃ t, Instr.queryStatus ≠ .initializeCard ∧ exec .queryStatus (given sdhc 0 0 [[.pins false false]]) = .next t := by
  obtain ⟨t, ht⟩ := of_completes (o := step (ask sdhc 7 0 0 ([[]] ++ prompt 13 0x900))) (by decide +kernel)
  obtain ⟨u, hu⟩ := of_completes (o := exec .queryStatus (given sdhc 0 0 [[.pins false false]])) (by decide +kernel)
  exact ⟨⟨t, ht⟩, u, by decide, hu⟩

theorem witness_HandlerOrder :
    (Ev.tick 1#32 ≠ .isr ∧ Ev.data 0x100#32 ≠ .isr) ∧
    [0x000, 0x400, 0x102, 0x008, 0x010, 0x020, 0x200, 0x100].map (fun w : Word => (w &&& 0x33A#32 == 0#32)) =
      [true, true, false, false, false, false, false, false] ∧
    [0x000, 0x73A, 0x001, 0x800, 0x1000].map (fun f : Word => (f &&& 0xFFFFF8C5#32 == 0#32)) = [true, true, false, false, false] ∧
    (sdhc.bc.dma = none ∧ sdhc.bc.late = false ∧ sdhc.bc.moved = false ∧ realBytes sdhc = true ∧
      (bcDisarm sdhc).bc.dma = none ∧ (bcDisarm sdhc).bc.late = true) ∧
    (bcArm .rx 0 512 sdhc).bc.dma = some { dir := .rx, buf := 0, len := 512 } ∧
    (bcArm .tx 0 512 sdhc).bc.dma = some { dir := .tx, buf := 0, len := 512 } ∧
    ((0x100#32).getLsbD 8 = true ∧ (0x400#32).getLsbD 8 = false ∧
      (applyEv (.data 0x100) (bcArm .rx 0 512 sdhc)).bc.moved = true) := by decide +kernel

/-- Every host operation from an idle machine, every transfer over a buffer DMA cannot reach, every operation that sends a command
right after a lone CMD55, and one during which BC leaves its duties. -/
theorem witness_HostOpsEnd :
    let s := given sdhc 0 2 []
    let u := { s with cfg := { s.cfg with dmaReach := [] } }
    s.host.hbusy = false ∧ u.host.hbusy = false ∧
    ([Instr.initializeCard, .readBlock, .readBlocks, .writeBlock, .writeBlocks, .erase, .queryStatus, .transferBusy,
      .capacityBlocks, .blockSize].all fun i => completes (exec i s)) ∧
    ([Instr.readBlock, .readBlocks, .writeBlock, .writeBlocks].all fun i =>
      refusedBy (exec i u) .bufferUnreachable) ∧
    ([(Instr.initializeCard, 0#6), (.readBlock, 17), (.readBlocks, 18), (.writeBlock, 24), (.writeBlocks, 55), (.erase, 32),
      (.queryStatus, 13)].all fun (i, idx) => refusedBy (exec i { s with app := true }) (.outsideCommandSet true idx)) ∧
    ([(Instr.writeBlocks, 25#6), (.erase, 35)].all fun (i, idx) =>
      refusedBy (exec i { given mmc 0 2 [] with app := true }) (.outsideCommandSet true idx)) ∧
    refusedBy (exec .transferBusy (given sdhc 0 2 [[.data 0x100]])) .dutyBroken := by decide +kernel

/-! ### Decoder and parser -/

theorem witness_R1Priority :
    let b := seen 0x40 17 0x80000008
    hasFlag b.sta mCtimeout = false ∧ hasFlag b.sta mCcrcfail = false ∧ hasFlag b.sta mCmdrend = true ∧ b.respcmd = 17#6 := by
  decide +kernel

/-- Each clause of the checks: a timeout, a bad CRC, no flag, CMDSENT or not; an echo that differs; a kind without an echo
check; the three application commands. -/
theorem witness_DecoderChecks :
    hasFlag 0x05#32 mCtimeout = true ∧
    (hasFlag 0x41#32 mCtimeout = false ∧ hasFlag 0x41#32 mCcrcfail = true) ∧
    (hasFlag 0x780#32 mCtimeout = false ∧ hasFlag 0x780#32 mCmdrend = false ∧ hasFlag 0x780#32 mCcrcfail = false) ∧
    ((seen 0x40 17 0).respcmd ≠ 16#6 ∧ hasFlag (seen 0x40 17 0).sta mCmdrend = true ∧
      hasFlag (seen 0x40 17 0).sta mCtimeout = false ∧ hasFlag (seen 0x40 17 0).sta mCcrcfail = false) ∧
    Kind.r7 ∈ [Kind.rNone, .r2, .r3, .r7] ∧
    (let s := { given sdhc 0 0 (prompt 55 0x900) with app := true }
    s.host.hbusy = false ∧ s.app = true ∧ s.inp.sched = prompt 55 0x900 ++ [] ∧ (55#6 ≠ 6#6) ∧ (55#6 ≠ 23#6)) := by
  decide +kernel

theorem witness_CsdDispatch :
    (csd1.extractLsb' 126 2).toNat = 0 ∧ (csd2.extractLsb' 126 2).toNat = 1 ∧ (csd4.extractLsb' 126 2).toNat = 2 ∧
    ((csd4 ||| csd2).extractLsb' 126 2).toNat = 3 ∧ (∃ c, parseCsd csd4 .mmc = .ok c) ∧ ∃ c, parseCsd csd1 .highCapacity = .ok c := by
  exact ⟨by decide +kernel, by decide +kernel, by decide +kernel, by decide +kernel, ⟨_, rfl⟩, ⟨_, rfl⟩⟩

theorem witness_RegisterFields : ∃ c, parseCsd csd2 .highCapacity = .ok c := ⟨_, rfl⟩

theorem witness_LayoutFields :
    (∃ c, parseCsd csd1 .standardV1 = .ok c ∧ c.cSize = 0xFFF ∧ c.cSizeMult = 7) ∧
    (∃ c, parseCsd csd3 .mmc = .ok c ∧ c.cSize = 0xF ∧ c.cSizeMult = 3) ∧
    ∃ c, parseCsd csd5 .highCapacity = .ok c ∧ c.cSize = 0x3FFFFF :=
  ⟨⟨_, rfl, by decide +kernel, by decide +kernel⟩, ⟨_, rfl, by decide +kernel, by decide +kernel⟩, ⟨_, rfl, by decide +kernel⟩⟩

/-- The values of C_SIZE where the clauses meet: 0x3FFFFF, 0x3FFFFE; 0xFFF with C_SIZE_MULT 7, and 0. -/
theorem witness_CapacityFormula :
    capacity { Csd.zero with cSize := 0x3FFFFF } .highCapacity = .err .unsupportedHardware ∧
    capacity { Csd.zero with cSize := 0x3FFFFE } .highCapacity = .ok 4294966272 ∧
    capacity { Csd.zero with cSize := 0xFFF, cSizeMult := 7 } .standardV2 = .ok 4194304 ∧
    (0xFFF#22).toNat < 4096 ∧ capacity Csd.zero .mmc = .ok 4 := by decide +kernel

theorem witness_WireAddress :
    (Published sdhc.desc ∧ sdhc.desc.valid = true ∧ sdhc.desc.cardType = .highCapacity) ∧
    (Published sdsc.desc ∧ sdsc.desc.valid = true ∧ sdsc.desc.cardType ≠ .highCapacity ∧
      (511#32).toNat < sdsc.desc.capacity.toNat) ∧
    (let d := published .standardV2 csd1 1
    Published d ∧ d.valid = true ∧ d.cardType ≠ .highCapacity ∧ (4194303#32).toNat < d.capacity.toNat) ∧
    -- The card of the descriptor, and one of the other addressing mode, both ways.
    (let s := given sdhc 62521343 0 []
    let u := given sdsc 511 0 []
    (s.host.arg0.toNat < s.desc.capacity.toNat ∧ u.host.arg0.toNat < u.desc.capacity.toNat) ∧
    (s.card.byBlock = decide (s.desc.cardType = .highCapacity) ∧ u.card.byBlock = decide (u.desc.cardType = .highCapacity)) ∧
    (({ u.card with byBlock := true }).byBlock = true ∧ u.desc.cardType ≠ .highCapacity) ∧
    (({ s.card with byBlock := false }).byBlock = false ∧ s.desc.cardType = .highCapacity)) := by
  unfold Published
  decide +kernel

/-! ### The issuer and the bus commands -/

/-- A prefix that fails, and one that succeeds. -/
theorem witness_PrefixFirst :
    (issueCmd 55#6 (sdhc.desc.rca ++ 0#16) .r1 sdhc).2 = .err .cmdResponseTimeout ∧
    (issueCmd 55#6 (sdhc.desc.rca ++ 0#16) .r1 (given sdhc 0 0 (prompt 55 0x920))).2 = .ok (.status 0x920) := by decide +kernel

theorem witness_SilentBusTimesOut : sdhc.inp.sched = [] := rfl

/-- All the commands of R1 and R1b, with an answer that echoes the index and one that does not. -/
theorem witness_R1CommandsComplete :
    [Instr.cmd7 0 0, .cmd12 0 0, .cmd13 0 0, .cmd16 0 0, .cmd17 0 0, .cmd18 0 0, .cmd24 0 0, .cmd25 0 0, .cmd32 0 0, .cmd33 0 0,
      .cmd35 0 0, .cmd36 0 0, .cmd38 0 0, .cmd55 0 0, .acmd6 0 0, .acmd23 0 0].all fun i =>
      match frameParts i with
      | none => false
      | some (app, idx, arg, crc) =>
        [idx, idx + 1].all fun rc =>
          let s := { given sdhc 0 0 (prompt rc 0x00400900) with app := app }
          arg == 0 && crc == 0 && !s.host.hbusy && s.app == app && decide (s.inp.sched = prompt rc 0x00400900 ++ []) := by
  decide +kernel

theorem witness_R2CommandsComplete :
    let s := { given sdhc 0 0 (promptLong csd2) with card := { sdhc.card with state := 3, csd := csd1 } }
    s.card.state = 3#4 ∧ s.card.csd = csd1 ∧ s.host.hbusy = false ∧ s.app = false ∧ s.inp.sched = promptLong csd2 ++ [] ∧
    frameParts (.cmd2 0 0) = some (false, 2#6, 0#32, 0#7) ∧ frameParts (.cmd9 0 0) = some (false, 9#6, 0#32, 0#7) := by
  decide +kernel

/-- Both commands, an OCR with bit 31 set, the card idle, a bad CRC. -/
theorem witness_R3CommandsComplete :
    let s := { given sdhc 0 0 (promptly .crcBad 63 0xC0FF8000 1 2 3) with card := State.reset.card }
    let u := { s with app := true }
    s.host.hbusy = false ∧ s.app = false ∧ u.app = true ∧ Answer.crcBad ≠ .noResponse ∧
    s.inp.sched = promptly .crcBad 63 0xC0FF8000 1 2 3 ++ [] ∧ (0xC0FF8000#32).getLsbD 31 = true ∧ s.card.state = 0#4 ∧
    frameParts (.cmd1 0 0) = some (false, 1#6, 0#32, 0#7) ∧ frameParts (.acmd41 0 0) = some (true, 41#6, 0#32, 0#7) := by
  decide +kernel

/-- The answers each may get; a card state at both ends of the range CMD0 leaves. -/
theorem witness_Cmd0Cmd3Cmd8Complete :
    (({ sdhc.card with state := 8#4 }).state.toNat ≤ 8 ∧ ¬ ({ sdhc.card with state := 9#4 }).state.toNat ≤ 8) ∧
    sdhc.host.hbusy = false ∧ sdhc.app = false ∧
    (given sdhc 0 0 (promptly .noResponse 0 0 0 0 0)).inp.sched = promptly .noResponse 0 0 0 0 0 ++ [] ∧
    (given sdhc 0 0 (promptly .crcBad 8 1 2 3 4)).inp.sched = promptly .crcBad 8 1 2 3 4 ++ [] ∧
    (given sdhc 0 0 (prompt 3 0x12340500)).inp.sched = prompt 3 0x12340500 ++ [] ∧ 0x12340500#32 &&& 0x0000E000#32 = 0#32 := by
  decide +kernel

/-- A CMD55 that succeeds, one that fails, and another command. -/
theorem witness_PrefixBit :
    (ran (exec (.cmd55 0 0) (given sdhc 0 0 (prompt 55 0x920))) fun t => t.app) ∧
    (ran (exec (.cmd55 0 0) sdhc) fun t => !t.app) ∧
    (ran (exec (.cmd13 0 0) (given sdhc 0 0 (prompt 13 0x900))) fun t => !t.app) := by decide +kernel

/-- Every row of the statement, from the state it names; the registers, the echo and the R6 word are those of 95_test_vectors. -/
theorem witness_CardEffects :
    ([(Instr.cmd7 0 0, 3, 4), (.cmd12 0 0, 5, 4), (.cmd12 0 0, 6, 7), (.cmd16 0 0, 4, 4), (.cmd17 0 0, 4, 5), (.cmd18 0 0, 4, 5),
      (.cmd24 0 0, 4, 6), (.cmd25 0 0, 4, 6), (.cmd32 0 0, 4, 4), (.cmd33 0 0, 4, 4), (.cmd35 0 0, 4, 4),
      (.cmd36 0 0, 4, 4), (.cmd38 0 0, 4, 7), (.cmd13 0 0, 7, 7)].all fun (i, src, dst) =>
      match frameParts i with
      | none => false
      | some (app, idx, arg, crc) =>
        let s := { given sdhc 0 0 (prompt idx 0x100) with card := { sdhc.card with state := BitVec.ofNat 4 src } }
        !app && arg == 0 && crc == 0 && decide (s.inp.sched = prompt idx 0x100 ++ []) && 0x100#32 &&& 0xFDFFE008#32 == 0#32 &&
          ran (exec i s) fun t => t.card.state == BitVec.ofNat 4 dst) ∧
    ([(Instr.cmd2 0 0, promptLong cid1, 1, 2), (.cmd9 0 0, promptLong csd1, 3, 3), (.cmd9 0 0, promptLong csd2, 3, 3),
      (.cmd8 0 0, prompt 8 0x1AA, 0, 0), (.cmd8 0 0, promptly .crcBad 63 0xFFFFFFFF 0 0 0, 0, 0)].all fun (i, b, src, dst) =>
        let s := { given sdhc 0 0 (b ++ []) with card := { sdhc.card with state := BitVec.ofNat 4 src } }
        ran (exec i s) fun t => t.card.state == BitVec.ofNat 4 dst) ∧
    ([cid1, csd1, csd2].all fun g =>
      decide (promptLong g =
        promptly .crcGood 63 (g.extractLsb' 96 32) (g.extractLsb' 64 32) (g.extractLsb' 32 32) (g.extractLsb' 0 32))) ∧
    (let s := { given sdhc 0 0 (prompt 3 0x12340500 ++ []) with card := { sdhc.card with state := 2 } }
    0x12340500#32 &&& 0x0000E000#32 = 0#32 ∧ s.card.state = 2#4 ∧ ran (exec (.cmd3 0 0) s) fun t => t.card.state == 3) ∧
    ([(Instr.cmd55 0 0, false, 55#6), (.acmd6 2 0, true, 6), (.acmd6 0 0, true, 6), (.acmd6 1 0, true, 6), (.acmd23 2 0, true, 23),
      (.cmd25 0 0, false, 25), (.cmd13 0 0, false, 13), (.cmd16 512 0, false, 16)].all fun (i, app, idx) =>
        let s := { given sdhc 0 0 (prompt idx 0x100) with app := app }
        decide (s.inp.sched = prompt idx 0x100 ++ []) && completes (exec i s)) ∧
    ([sdhc, mmc, sdsc].all fun s0 =>
      let s := given s0 8 2 []
      (plans s).all fun (i, p) =>
        let ws := p.opens.map fun _ => 0x900
        let u := given s 8 2 (checkBatches p.dir s.cfg ++ answers p.opens ws ++ dataDone ++ (if p.stop then prompt 12 0xB00 else []) ++ [])
        readyCheck p.dir p.count p.multi u && ownCheck u && u.card.state == 4 && decide (ws.length = p.opens.length) &&
          decide ((i, p) ∈ plans u) && ((0xB00 :: ws).all fun w : Word => w &&& 0xFDFFE008#32 == 0#32) &&
          ran (exec i u) fun t => t.card.state == if p.dir = .rx then 4 else 7) := by decide +kernel

/-- All 23 commands, without an answer; addresses on both sides of what CMD38 and CMD25 leave open. -/
theorem witness_BusCommandFrame :
    sdhc.bc.dma = none ∧ eraseRange { sdhc.card with eraseFirst := 51200, eraseLast := 101888 } = (51200, 51200) ∧
    (cardByteAddr sdhc.card.byBlock 100 = 51200 ∧ sdhc.card.mmc = false ∧ mmc.card.mmc = true) ∧
    [Instr.cmd0 0 0, .cmd1 0 0, .cmd2 0 0, .cmd3 0 0, .cmd7 0 0, .cmd8 0 0, .cmd9 0 0, .cmd12 0 0, .cmd13 0 0, .cmd16 0 0,
      .cmd17 0 0, .cmd18 0 0, .cmd24 0 0, .cmd25 0 0, .cmd32 0 0, .cmd33 0 0, .cmd35 0 0, .cmd36 0 0, .cmd38 0 0, .cmd55 0 0,
      .acmd6 0 0, .acmd23 0 0, .acmd41 0 0].all fun i =>
      match frameParts i with
      | none => false
      | some (app, _) => completes (exec i { sdhc with app := app }) := by decide +kernel

/-! ### Accessors and the status query -/

theorem witness_Accessors :
    (sdhc.host.hbusy = false ∧ State.reset.host.hbusy = false ∧ (sync sdhc).inp.breaches = sdhc.inp.breaches) ∧
    (let s := given sdhc 0 0 [[.respond .crcGood 13 0 0 0 0]]
    s.host.hbusy = false ∧ (sync s).inp.breaches ≠ s.inp.breaches) := by decide +kernel

theorem witness_QueryStatusOk :
    let s := given sdhc 0 0 ([] :: (prompt 13 0x900 ++ []))
    s.host.hbusy = false ∧ s.inp.cardPresent = true ∧ s.desc.valid = true ∧ s.app = false ∧ 0x900#32 &&& 0xFDFFE008#32 = 0#32 ∧
      s.inp.sched = [] :: (prompt 13 0x900 ++ []) := by decide +kernel

/-- A card taken out in the first batch; a card without a published descriptor; an answer nothing asked for. -/
theorem witness_NotReadyFirst :
    ((given sdhc 0 0 [[.pins false false]]).host.hbusy = false ∧ (sync (given sdhc 0 0 [[.pins false false]])).inp.breaches = 0 ∧
      (sync (given sdhc 0 0 [[.pins false false]])).inp.cardPresent = false) ∧
    (let s := { sdhc with desc := State.reset.desc }
    s.host.hbusy = false ∧ (sync s).inp.breaches = 0 ∧ (sync s).inp.cardPresent = true ∧ s.desc.valid = false) ∧
    (let s := given sdhc 0 0 [[.respond .crcGood 13 0 0 0 0, .pins false false]]
    s.host.hbusy = false ∧ (sync s).inp.breaches ≠ s.inp.breaches ∧ (sync s).inp.cardPresent = false) := by
  decide +kernel

/-! ### INITIALIZE -/

theorem witness_InitializePublishes : sdhc.host.hbusy = false ∧ sdhc.app = false := by decide

/-- The answers of an SD card up to its ready OCR, after some busy ones; `a8` is the answer to CMD8. -/
def sdIdentified (a8 aOcr : Answer) (busy : List (Word × Word)) (ocr : Word) : List (List Ev) :=
  promptly .crcGood 0 0 0 0 0 ++ promptly a8 8 0x1AA 0 0 0 ++ busy.flatMap (fun b => prompt 55 b.1 ++ prompt 63 b.2 ++ [[]]) ++
    prompt 55 0x120 ++ promptly aOcr 63 ocr 0 0 0

/-- The schedule of an SD card that answers at once; its OCR is busy as often as `busy` is long. -/
def sdAnswers (a8 aOcr : Answer) (ocr : Word) (csd : Reg128) (busy : List (Word × Word) := []) : List (List Ev) :=
  [] :: (sdIdentified a8 aOcr busy ocr ++ promptLong cid1 ++ prompt 3 0x12340500 ++ promptLong csd ++ prompt 7 0x700 ++
    prompt 55 0x920 ++ prompt 6 0x920 ++ prompt 16 0x900 ++ [])

theorem witness_InitializeOrder :
    ∃ t, exec .initializeCard (given sdhc 0 0 (sdAnswers .crcGood .crcBad 0xC0FF8000 csd2)) = .next t ∧ t.host.result = 0#8 := by
  obtain ⟨t, ht, hr⟩ := of_ran (o := exec .initializeCard (given sdhc 0 0 (sdAnswers .crcGood .crcBad 0xC0FF8000 csd2)))
    (p := fun t => t.host.result == 0#8) (by decide +kernel)
  exact ⟨t, ht, by simpa using hr⟩

theorem witness_InitializeAbsent :
    let s := { given sdhc 0 0 [[.pins false true]] with neg := { sdhc.neg with sdv2 := true, ocr := 5 } }
    let u := sync { s with desc := (State.resetWith s.cfg).desc, neg := { s.neg with sdv2 := false, ocr := 0#32 } }
    s.host.hbusy = false ∧ u.inp.breaches = s.inp.breaches ∧ u.inp.cardPresent = false := by decide +kernel

/-- The voltage deadline 10 ms, one attempt each 5 ms. -/
def slow : State := { sdhc with cfg := { sdhc.cfg with voltPollDelay := 5, voltageDeadline := 10 } }

/-- The three SD card types: a high-capacity card, one of version 2, and one of version 1 that leaves CMD8 unanswered; the first
busy as often as its deadline allows, with the CSD it was read before. -/
theorem witness_InitializeSd :
    let meets (a8 aOcr : Answer) (ocr : Word) (csd : Reg128) (busy : List (Word × Word)) : Bool :=
      let s := { given slow 0 0 (sdAnswers a8 aOcr ocr csd busy) with
        card := { slow.card with csd := csd, byBlock := ocr.getLsbD 30 } }
      let ct := if ocr.getLsbD 30 then CardType.highCapacity else if a8 != .noResponse then .standardV2 else .standardV1
      !s.host.hbusy && s.inp.cardPresent && !s.app && aOcr != .noResponse &&
        (busy.all fun b => b.1 &&& 0xFDFFE008#32 == 0#32 && !b.2.getLsbD 31) &&
        decide ((busy.length - 1) * s.cfg.voltPollDelay.toNat < max 1 s.cfg.voltageDeadline.toNat) &&
        decide (s.card.csd = csd) && s.card.byBlock == ocr.getLsbD 30 && completes (exec .initializeCard s) &&
        ([0x120, 0x700, 0x920, 0x900].all fun w : Word => w &&& 0xFDFFE008#32 == 0#32) &&
        0x12340500#32 &&& 0x0000E000#32 == 0#32 && ocr.getLsbD 31 &&
        match parseCsd csd ct with
        | .ok c => Res.isOk (capacity c ct)
        | .err _ => false
    meets .crcGood .crcBad 0xC0FF8000 csd2 [(0x120, 0x00FF8000), (0x120, 0x40FF8000)] ∧
    meets .crcBad .crcGood 0x80FF8000 csd1 [] ∧ meets .noResponse .crcBad 0x80FF8000 csd3 [] := by
  decide +kernel

theorem witness_InitializeMmc :
    let s :=
      given { slow with card := mmc.card } 0 0
        ([] :: (promptly .crcGood 0 0 0 0 0 ++ promptly .noResponse 0 0 0 0 0 ++ promptly .noResponse 0 0 0 0 0 ++
          [0x00FF8000, 0x00FF8000].flatMap (fun b => prompt 63 b ++ [[]]) ++ promptly .crcBad 63 0x80FF8000 0 0 0 ++
          promptLong cid1 ++ prompt 3 0x00010500 ++ promptLong csd1 ++ prompt 7 0x700 ++ prompt 16 0x900 ++ []))
    (0x00FF8000#32).getLsbD 31 = false ∧ (2 - 1) * s.cfg.voltPollDelay.toNat < max 1 s.cfg.voltageDeadline.toNat ∧
      s.card.csd = csd1 ∧ completes (exec .initializeCard s) ∧ s.host.hbusy = false ∧ s.inp.cardPresent = true ∧ s.app = false ∧
      Answer.crcBad ≠ .noResponse ∧
      0x700#32 &&& 0xFDFFE008#32 = 0#32 ∧ 0x900#32 &&& 0xFDFFE008#32 = 0#32 ∧ 0x00010500#32 &&& 0x0000E000#32 = 0#32 ∧
      (0x80FF8000#32).getLsbD 31 = true ∧
      (match parseCsd csd1 .mmc with
        | .ok c => Res.isOk (capacity c .mmc)
        | .err _ => false) = true := by decide +kernel

/-- A deadline of 10 ms, attempts each 5 ms: it has just passed after the third, or after the first when 10 ms went by. -/
theorem witness_VoltageDeadline :
    let meets (busy : List (Word × Word)) (d : Word) : Bool :=
      let s := given slow 0 0 ([] :: (promptly .crcGood 0 0 0 0 0 ++ promptly .crcGood 8 0x1AA 0 0 0 ++
        busy.flatMap (fun b => prompt 55 b.1 ++ prompt 63 b.2 ++ [[]]) ++ prompt 55 0x120 ++ prompt 63 0x00FF8000 ++
        [[.tick d]] ++ []))
      !s.host.hbusy && s.inp.cardPresent && !s.app &&
        (((0x120, 0x00FF8000) :: busy).all fun b => b.1 &&& 0xFDFFE008#32 == 0#32 && !b.2.getLsbD 31) &&
        decide ((busy.length - 1) * s.cfg.voltPollDelay.toNat < max 1 s.cfg.voltageDeadline.toNat) &&
        decide (max 1 s.cfg.voltageDeadline.toNat ≤ busy.length * s.cfg.voltPollDelay.toNat + d.toNat) &&
        ran (exec .initializeCard s) fun t => t.host.result == 26
    let meetsMmc (busy : List Word) (d : Word) : Bool :=
      let s := given { slow with card := mmc.card } 0 0 ([] :: (promptly .crcGood 0 0 0 0 0 ++ promptly .noResponse 0 0 0 0 0 ++
        promptly .noResponse 0 0 0 0 0 ++ busy.flatMap (fun b => prompt 63 b ++ [[]]) ++ prompt 63 0x00FF8000 ++ [[.tick d]] ++ []))
      !s.host.hbusy && s.inp.cardPresent && !s.app && ((0x00FF8000 :: busy).all fun b => !b.getLsbD 31) &&
        decide ((busy.length - 1) * s.cfg.voltPollDelay.toNat < max 1 s.cfg.voltageDeadline.toNat) &&
        decide (max 1 s.cfg.voltageDeadline.toNat ≤ busy.length * s.cfg.voltPollDelay.toNat + d.toNat) &&
        ran (exec .initializeCard s) fun t => t.host.result == 26
    meets [(0x120, 0x00FF8000), (0x120, 0x00FF8000)] 0 ∧ meets [] 10 ∧ meets [] 0xFFFFFFFF ∧
      meetsMmc [0x00FF8000, 0x00FF8000] 0 ∧ meetsMmc [] 10 := by decide +kernel

/-- An ACMD6 whose prefix goes unanswered; then each way the prefix or ACMD6 can fail, in an INITIALIZE that succeeds. -/
theorem witness_WidthFailureLogged :
    (sdhc.desc.cardType ≠ .mmc ∧ (issueApp 6#6 2#32 .r1 (setSeq .negWidth sdhc)).2 = .err .cmdResponseTimeout) ∧
    let meets (upgrade : List (List Ev)) (code : BitVec 8) : Bool :=
      let s := given sdhc 0 0 ([] :: (sdIdentified .crcGood .crcBad [] 0xC0FF8000 ++ promptLong cid1 ++ prompt 3 0x12340500 ++
        promptLong csd2 ++ prompt 7 0x700 ++ upgrade ++ prompt 16 0x900 ++ []))
      decide (s.card.csd = csd2) && s.card.byBlock == (0xC0FF8000#32).getLsbD 30 &&
        ran (exec .initializeCard s) fun t => t.host.result == 0 && t.neg.busWidth == 1 && decide (t.log = [.widthUpgradeFailed code])
    (AnswerFails .r1 55 .noResponse 0 0 .cmdResponseTimeout ∧ AnswerFails .r1 55 .crcBad 55 0 .cmdCrcFail ∧
      AnswerFails .r1 6 .crcGood 55 0x900 .illegalCommand ∧ AnswerFails .r1 6 .crcGood 6 0x00400900 .illegalCommand) ∧
    meets silent 3 ∧ meets (promptly .crcBad 55 0 0 0 0) 1 ∧ meets (prompt 55 0x920 ++ prompt 55 0x900) 15 ∧
      meets (prompt 55 0x920 ++ prompt 6 0x00400900) 15 := by
  unfold AnswerFails
  decide +kernel

theorem witness_InitializeFrame : sdhc.bc.dma = none ∧ ∃ t, exec .initializeCard sdhc = .next t :=
  ⟨by decide, of_completes (by decide +kernel)⟩

/-! ### Transfers -/

/-- The last block of the byte-addressed card, and block 0 of the high-capacity one, write-protected or not. -/
theorem witness_ReadBlockOk :
    let sched := checkBatches .rx sdsc.cfg ++ prompt 17 0x900 ++ dataDone ++ []
    realBytes (given sdsc 511 0 sched) = true ∧ realBytes (given sdhc 0 0 sched) = true ∧ Ready .rx 1 false (given sdsc 511 0 sched) ∧
      OwnCard (given sdsc 511 0 sched) ∧ NoWrap (given sdsc 511 0 sched) ∧
      Ready .rx 1 false (given sdhc 0 0 sched) ∧
      Ready .rx 1 false { given sdhc 0 0 sched with inp := { sdhc.inp with writeProtect := true, sched := sched } } ∧
      0x900#32 &&& 0xFDFFE008#32 = 0#32 ∧
      (given sdsc 511 0 sched).inp.sched = checkBatches .rx (given sdsc 511 0 sched).cfg ++ prompt 17#6 0x900 ++ dataDone ++ [] :=
  ⟨by decide +kernel, by decide +kernel, ready_of (by decide +kernel), ⟨by decide +kernel, by decide +kernel⟩,
    by unfold NoWrap; decide +kernel, ready_of (by decide +kernel), ready_of (by decide +kernel), by decide +kernel, rfl⟩

/-- The last two blocks; and MAX_COUNT blocks with a buffer that just holds them. -/
theorem witness_ReadBlocksOk :
    let sched := checkBatches .rx sdhc.cfg ++ prompt 18 0x900 ++ dataDone ++ prompt 12 0xB00 ++ []
    let most := { given sdhc 0 1024 sched with host := { sdhc.host with arg1 := 1024, buflen := 0x80000 } }
    realBytes most = true ∧ Ready .rx 2 true (given sdhc 62521342 2 sched) ∧ Ready .rx 1024 true most ∧ OwnCard most ∧ NoWrap most ∧
      0x900#32 &&& 0xFDFFE008#32 = 0#32 ∧ 0xB00#32 &&& 0xFDFFE008#32 = 0#32 ∧ most.host.arg1.toNat = 1024 ∧
      most.inp.sched = checkBatches .rx most.cfg ++ prompt 18#6 0x900 ++ dataDone ++ prompt 12#6 0xB00 ++ [] :=
  ⟨by decide +kernel, ready_of (by decide +kernel), ready_of (by decide +kernel), ⟨by decide +kernel, by decide +kernel⟩,
    by unfold NoWrap; decide +kernel, by decide +kernel, by decide +kernel, by decide +kernel, rfl⟩

/-- With and without the sample of the write-protect input; and set, where ENGINE does not sample it. -/
theorem witness_WriteBlockOk :
    let s := given sdhc 8 0 (checkBatches .tx sdhc.cfg ++ prompt 24 0x900 ++ dataDone ++ [])
    let c := { sdhc.cfg with engineChecksWp := true }
    let u := { given sdhc 8 0 (checkBatches .tx c ++ prompt 24 0x900 ++ dataDone ++ []) with cfg := c }
    realBytes s = true ∧ Ready .tx 1 false s ∧ OwnCard s ∧ NoWrap s ∧ Ready .tx 1 false u ∧
      Ready .tx 1 false { s with inp := { s.inp with writeProtect := true } } ∧ 0x900#32 &&& 0xFDFFE008#32 = 0#32 ∧
      s.inp.sched = checkBatches .tx s.cfg ++ prompt 24#6 0x900 ++ dataDone ++ [] ∧
      u.inp.sched = checkBatches .tx u.cfg ++ prompt 24#6 0x900 ++ dataDone ++ [] :=
  ⟨by decide +kernel, ready_of (by decide +kernel), ⟨by decide +kernel, by decide +kernel⟩, by unfold NoWrap; decide +kernel,
    ready_of (by decide +kernel), ready_of (by decide +kernel), by decide +kernel, rfl, rfl⟩

theorem witness_WriteBlocksSdOk :
    let s :=
      given sdhc 100 2
        (checkBatches .tx sdhc.cfg ++ prompt 55 0x920 ++ prompt 23 0x920 ++ prompt 25 0x900 ++ dataDone ++ prompt 12 0xD00 ++ [])
    realBytes s = true ∧ Ready .tx s.host.arg1.toNat true s ∧ OwnCard s ∧ NoWrap s ∧ s.desc.cardType ≠ .mmc ∧
      ([0x920#32, 0x920, 0x900, 0xD00].all fun w => w &&& 0xFDFFE008#32 == 0#32) ∧
      s.inp.sched =
        checkBatches .tx s.cfg ++ prompt 55#6 0x920 ++ prompt 23#6 0x920 ++ prompt 25#6 0x900 ++ dataDone ++
          prompt 12#6 0xD00 ++ [] :=
  ⟨by decide +kernel, ready_of (by decide +kernel), ⟨by decide +kernel, by decide +kernel⟩, by unfold NoWrap; decide +kernel,
    by decide +kernel, by decide +kernel, rfl⟩

theorem witness_WriteBlocksMmcOk :
    let s := given mmc 2097150 2 (checkBatches .tx mmc.cfg ++ prompt 25 0x900 ++ dataDone ++ [])
    realBytes s = true ∧ Ready .tx s.host.arg1.toNat true s ∧ OwnCard s ∧ NoWrap s ∧ s.desc.cardType = .mmc ∧
      0x900#32 &&& 0xFDFFE008#32 = 0#32 ∧
      s.inp.sched = checkBatches .tx s.cfg ++ prompt 25#6 0x900 ++ dataDone ++ [] :=
  ⟨by decide +kernel, ready_of (by decide +kernel), ⟨by decide +kernel, by decide +kernel⟩, by unfold NoWrap; decide +kernel,
    by decide +kernel, by decide +kernel, rfl⟩

/-- The next state, where there is one. -/
def after (o : Host.Outcome State Fault Refusal) : State :=
  match o with
  | .next t => t
  | .fault _ => State.reset
  | .refused _ => State.reset

theorem exec_after {o : Host.Outcome State Fault Refusal} (h : completes o = true) : o = .next (after o) := by
  obtain ⟨t, rfl⟩ := of_completes h
  rfl

theorem witness_WriteThenRead :
    let s := given sdhc 8 0 (checkBatches .tx sdhc.cfg ++ prompt 24 0x900 ++ dataDone ++ [])
    let t := after (exec .writeBlock s)
    let s' := { given sdhc t.host.arg0 0 (checkBatches .rx sdhc.cfg ++ prompt 17 0x900 ++ dataDone ++ []) with
      card := { t.card with state := 4 }, desc := t.desc }
    realBytes s = true ∧ realBytes s' = true ∧ Ready .tx 1 false s ∧ 0x900#32 &&& 0xFDFFE008#32 = 0#32 ∧
      s.inp.sched = checkBatches .tx s.cfg ++ prompt 24#6 0x900 ++ dataDone ++ [] ∧ exec .writeBlock s = .next t ∧
      Ready .rx 1 false s' ∧ s'.card.mem = t.card.mem ∧ s'.card.byBlock = t.card.byBlock ∧ s'.desc = t.desc ∧ s'.host.arg0 = t.host.arg0 ∧
      s'.inp.sched = checkBatches .rx s'.cfg ++ prompt 17#6 0x900 ++ dataDone ++ [] :=
  ⟨by decide +kernel, by decide +kernel, ready_of (by decide +kernel), by decide +kernel, rfl, exec_after (by decide +kernel),
    ready_of (by decide +kernel), rfl, rfl,
    rfl, rfl, rfl⟩

/-- Each check that fails by itself, at the value next to one that passes: a count of 1 and of MAX_COUNT + 1, a buffer two bytes
off, one byte too short, one block past the end; and the write-protect input. -/
theorem witness_ChecksFail :
    let meets (s : State) (multi : Bool) : Bool :=
      let count := if multi then s.host.arg1.toNat else 1
      !s.host.hbusy && s.inp.cardPresent && s.desc.valid && !s.cfg.engineChecksWp && decide (s.inp.sched = checkBatches .rx s.cfg) &&
        decide ((multi = true ∧ (count < 2 ∨ max 2 s.cfg.maxCount.toNat < count)) ∨ s.host.buf % 2 ^ s.cfg.bufAlignLog2 ≠ 0 ∨
          s.host.buflen.toNat < count * 512 ∨ (s.cfg.rangeCheck = true ∧ s.desc.capacity.toNat < s.host.arg0.toNat + count))
    let s := given sdhc 0 2 (checkBatches .rx sdhc.cfg)
    meets { s with host := { s.host with arg1 := 1 } } true ∧ meets { s with host := { s.host with arg1 := 1025 } } true ∧
    meets { s with host := { s.host with buf := 0x20000002 } } false ∧
    meets { s with host := { s.host with buflen := 1023 } } true ∧ meets { s with host := { s.host with buflen := 511 } } false ∧
    meets { s with host := { s.host with arg0 := 62521344 }, inp := { s.inp with writeProtect := true } } false ∧
    (let u := { given sdhc 0 2 [] with
      cfg := { sdhc.cfg with engineChecksWp := true }, inp := { sdhc.inp with writeProtect := true } }
    u.host.hbusy = false ∧ u.inp.cardPresent = true ∧ u.desc.valid = true ∧ u.cfg.engineChecksWp = true ∧
      u.inp.writeProtect = true ∧ u.inp.sched = []) := by decide +kernel

/-- The ways a command can fail, with their errors; the empty one is silence to the end. -/
def failures (kind : Kind) (idx : BitVec 6) : List (List (List Ev) × TransferError) :=
  let answered :=
    match kind with
    | .rNone => []
    | .r3 | .r7 => [(silent, TransferError.cmdResponseTimeout)]
    | .r2 => [(silent, .cmdResponseTimeout), (promptly .crcBad idx 0 0 0 0, .cmdCrcFail)]
    | .r1 | .r1b | .r6 =>
      [(silent, .cmdResponseTimeout), (promptly .crcBad idx 0 0 0 0, .cmdCrcFail), (prompt (idx + 1) 0x900, .illegalCommand),
        (prompt idx 0x00406900, .illegalCommand)]
  ([], .cmdResponseTimeout) :: answered

theorem commandFails_of {kind : Kind} {idx : BitVec 6} : ∀ x ∈ failures kind idx, CommandFails kind idx x.1 [] x.2 := by
  have h1 : firstError 0x00406900#32 r1Table = some .illegalCommand := by decide +kernel
  have h6 : firstError 0x00406900#32 r6Table = some .illegalCommand := by decide +kernel
  intro x hx
  have no (h : kind ≠ .rNone) : CommandFails kind idx silent [] .cmdResponseTimeout :=
    .inl ⟨.noResponse, 0, 0, rfl, by cases kind <;> first | rfl | exact absurd rfl h⟩
  rcases List.mem_cons.1 hx with rfl | hx
  · exact .inr ⟨rfl, rfl, rfl⟩
  · have four (h : kind = .r1 ∨ kind = .r1b ∨ kind = .r6) :
        CommandFails kind idx (promptly .crcBad idx 0 0 0 0) [] .cmdCrcFail ∧
          CommandFails kind idx (prompt (idx + 1) 0x900) [] .illegalCommand ∧
            CommandFails kind idx (prompt idx 0x00406900) [] .illegalCommand := by
      refine ⟨.inl ⟨.crcBad, idx, 0, rfl, ?_⟩, .inl ⟨.crcGood, idx + 1, 0x900, rfl, ?_⟩, .inl ⟨.crcGood, idx, 0x00406900, rfl, ?_⟩⟩ <;>
        rcases h with rfl | rfl | rfl <;> simp [AnswerFails, h1, h6]
    cases kind <;> simp only [List.mem_cons, List.not_mem_nil, or_false] at hx
    · rcases hx with rfl | rfl | rfl | rfl
      exacts [no (by decide), (four (by simp)).1, (four (by simp)).2.1, (four (by simp)).2.2]
    · rcases hx with rfl | rfl | rfl | rfl
      exacts [no (by decide), (four (by simp)).1, (four (by simp)).2.1, (four (by simp)).2.2]
    · rcases hx with rfl | rfl
      exacts [no (by decide), .inl ⟨.crcBad, idx, 0, rfl, rfl⟩]
    · subst hx
      exact no (by decide)
    · rcases hx with rfl | rfl | rfl | rfl
      exacts [no (by decide), (four (by simp)).1, (four (by simp)).2.1, (four (by simp)).2.2]
    · subst hx
      exact no (by decide)

/-- The four transfers of an SD card and of an MMC card at block 8, two blocks where there is a count. -/
def everyPlan : List (State × Instr × Plan) :=
  [sdhc, mmc].flatMap fun s0 => (plans (given s0 8 2 [])).map fun x => (given s0 8 2 [], x.1, x.2)

/-- A transfer begun with this schedule after its checks meets `Ready`. -/
def beginsWith (x : State × Instr × Plan) (sched : List (List Ev)) (p : State → Bool) : Bool :=
  let s := given x.1 8 2 (checkBatches x.2.2.dir x.1.cfg ++ sched)
  readyCheck x.2.2.dir x.2.2.count x.2.2.multi s && decide ((x.2.1, x.2.2) ∈ plans s) && ran (exec x.2.1 s) p

/-- Each failure of each command: of every transfer, of the status query, of ERASE on both kinds of card, and of its status queries, the
first and the last the budget admits. -/
theorem witness_CommandErrorAborts :
    (everyPlan.all fun x =>
      (List.range x.2.2.opens.length).all fun n =>
        match x.2.2.opens[n]? with
        | none => false
        | some c => (failures c.kind c.idx).all fun (fails, e) =>
          beginsWith x (answers x.2.2.opens (List.replicate n 0x900) ++ fails ++ []) fun t => t.host.result == e.code) ∧
    ((failures .r1 13).all fun (fails, e) =>
      let s := given sdhc 0 0 ([] :: (fails ++ []))
      !s.host.hbusy && s.inp.cardPresent && s.desc.valid && !s.app &&
        ran (exec .queryStatus s) fun t => t.host.result == e.code) ∧
    ([sdhc, mmc].all fun s0 =>
      let begins (sched : List (List Ev)) (e : TransferError) : Bool :=
        let s := given s0 8 9 ([] :: sched)
        !s.host.hbusy && s.inp.cardPresent && s.desc.valid && s.desc.csd.ccc.getLsbD 5 && !s.app &&
          decide (s.host.arg0.toNat ≤ s.host.arg1.toNat) &&
          (!s.cfg.rangeCheck || decide (s.host.arg1.toNat < s.desc.capacity.toNat)) &&
          ran (exec .erase s) fun t => t.host.result == e.code
      ([0, 1, 2].all fun n =>
        match (eraseSent (given s0 8 9 []))[n]? with
        | none => false
        | some c => (failures c.kind c.idx).all fun (fails, e) =>
          begins (answers (eraseSent (given s0 8 9 [])) (List.replicate n 0x900) ++ fails ++ []) e) ∧
      ([[], List.replicate 7 (7#4, 0x900#32)].all fun busy => (failures .r1 13).all fun (fails, e) =>
        decide (busy.length < max 1 s0.cfg.erasePollBudget) &&
          begins (answers (eraseSent (given s0 8 9 [])) [0x900, 0x900, 0x900] ++ busy.flatMap (fun b => polled b.1 b.2) ++ fails ++ [])
            e)) ∧
    0x900#32 &&& 0xFDFFE008#32 = 0#32 ∧ (7#4 = 6#4 ∨ 7#4 = 7#4) := by decide +kernel

/-- The answers of a card to a negotiation, with two busy OCRs; without an answer to CMD8 where `a8` says so. -/
def negAnswers (isMmc : Bool) (a8 : Answer) (ocr : Word) (csd : Reg128) : NegAnswers :=
  { mmc := isMmc, a0 := .crcGood, a8 := a8, w8 := 0x1AA, busy := [(0x120, 0x00FF8000), (0x120, 0x00FF8000)], w55 := 0x120,
    aOcr := .crcBad, ocr := ocr, cid := cid1, w3 := 0x12340500, csd := csd, w7 := 0x700, w55b := 0x920, w6 := 0x920, w16 := 0x900 }

/-- The machine whose card these are the answers of, with this schedule. -/
def negotiating (x : NegAnswers) (sched : List (List Ev)) : State :=
  { given slow 0 0 sched with card := { slow.card with state := 0, csd := x.csd, byBlock := x.ocr.getLsbD 30, mmc := x.mmc } }

/-- `NegOk` as one Boolean. -/
def negCheck (x : NegAnswers) (s : State) : Bool :=
  (!x.mmc || decide (x.a8 = .noResponse)) && decide (x.aOcr ≠ .noResponse) &&
    (x.busy.all fun b => b.1 &&& 0xFDFFE008#32 == 0 && !b.2.getLsbD 31) &&
    decide ((x.busy.length - 1) * s.cfg.voltPollDelay.toNat < max 1 s.cfg.voltageDeadline.toNat) &&
    ([x.w55, x.w7, x.w55b, x.w6, x.w16].all fun w => w &&& 0xFDFFE008#32 == 0) && x.w3 &&& 0x0000E000#32 == 0 &&
    x.ocr.getLsbD 31 && decide (s.card.csd = x.csd) && (x.mmc || s.card.byBlock == x.ocr.getLsbD 30)

/-- An INITIALIZE begun at `s` ends with this error and sends these commands. -/
def givesUp (s : State) (e : TransferError) (sent : List Sent) : Bool :=
  !s.host.hbusy && s.inp.cardPresent && !s.app &&
    ran (exec .initializeCard s) fun t => t.host.result == e.code && !t.desc.valid && decide (t.wire = s.wire ++ sent)

/-- Each failure of each command of INITIALIZE that ends it: of an SD card of version 2, of one before it, and of an MMC card. -/
theorem witness_CommandErrorAborts_initialize :
    [negAnswers false .crcGood 0xC0FF8000 csd2, negAnswers false .noResponse 0x80FF8000 csd3,
      negAnswers true .noResponse 0x80FF8000 csd1].all fun x =>
      let script := negScript x slow
      negCheck x (negotiating x []) && Res.isOk (parsed x.csd x.cardType) &&
        (List.range script.length).all fun n =>
          match script[n]? with
          | none => false
          | some (c, _) =>
            let pre := script.take n
            decide (c.seq = .negProbe ∨ c.seq = .negWidth) || (failures c.kind c.idx).all fun (fails, e) =>
              decide (pre.length = 2 ∧ x.v2 = false ∧ e = .cmdResponseTimeout) ||
                givesUp (negotiating x ([] :: (pre.flatMap (·.2) ++ fails ++ []))) e (pre.map (·.1) ++ [c]) := by decide +kernel

/-- A CSD of structure 2, and one whose capacity does not fit. -/
theorem witness_CommandErrorAborts_registers :
    [negAnswers false .noResponse 0x80FF8000 csd4, negAnswers false .crcGood 0xC0FF8000 csd5].all fun x =>
      let sent := (negScript x slow).takeWhile fun y => decide (y.1.seq ≠ .negSelect)
      negCheck x (negotiating x []) && decide (parsed x.csd x.cardType = .err .unsupportedHardware) &&
        givesUp (negotiating x ([] :: (sent.flatMap (·.2) ++ []))) .unsupportedHardware (sent.map (·.1)) := by decide +kernel

theorem witness_DataTimeoutCleansUp :
    (everyPlan.all fun x =>
      beginsWith x (answers x.2.2.opens (List.replicate x.2.2.opens.length 0x900)) fun t => t.host.result == 4) ∧
    0x900#32 &&& 0xFDFFE008#32 = 0#32 := by decide +kernel

/-- A CMD12 that succeeds, one that fails, and silence, after a latched error; each failure of CMD12 where none was latched. -/
theorem witness_LatchedErrorWins :
    (everyPlan.all fun x =>
      let opened := answers x.2.2.opens (List.replicate x.2.2.opens.length 0x900)
      let later := if x.2.2.stop then [prompt 12 0xB00, silent, []] else [[]]
      (later.all fun after => beginsWith x (opened ++ [[.data 0x102, .isr]] ++ after ++ []) fun t => t.host.result == 2) &&
        (!x.2.2.stop || (failures .r1b 12).all fun (fails, e) =>
          beginsWith x (opened ++ dataDone ++ fails ++ []) fun t => t.host.result == e.code)) ∧
    (everyPlan.filter fun x => x.2.2.stop).length = 3 ∧
    0x900#32 &&& 0xFDFFE008#32 = 0#32 := by decide +kernel

/-- A read that completes, and one whose data phase fails. -/
theorem witness_ReadFrame :
    sdhc.bc.dma = none ∧
    completes (exec .readBlock (given sdhc 0 0 (checkBatches .rx sdhc.cfg ++ prompt 17 0x900 ++ dataDone))) ∧
    completes (exec .readBlocks (given sdhc 0 2 (checkBatches .rx sdhc.cfg ++ prompt 18 0x900))) := by decide +kernel

/-- Writes that complete, on both kinds of card, and one that fails. -/
theorem witness_WriteFrame :
    sdhc.bc.dma = none ∧ mmc.bc.dma = none ∧ isSd sdhc.desc = true ∧ isSd mmc.desc = false ∧
    touched .writeBlocks 2 mmc = 2 ∧ touched .writeBlocks 2 { mmc with card := { mmc.card with mmc := false, preErase := 5 } } = 5 ∧
    completes (exec .writeBlock (given sdhc 8 0 (checkBatches .tx sdhc.cfg ++ prompt 24 0x900 ++ dataDone))) ∧
    completes (exec .writeBlocks (given sdhc 100 2 (checkBatches .tx sdhc.cfg ++ prompt 55 0x920 ++ prompt 23 0x920 ++
      prompt 25 0x900 ++ dataDone ++ prompt 12 0xD00))) ∧
    (ran (exec .writeBlocks (given mmc 1 2 (checkBatches .tx mmc.cfg ++ prompt 25 0x900))) fun t => t.host.result != 0) ∧
    openedBlocks 2 (given mmc 1 2 []) = (512, 1024) := by decide +kernel

theorem witness_QueryFrame :
    sdhc.bc.dma = none ∧
    [Instr.queryStatus, .transferBusy, .capacityBlocks, .blockSize].all fun i => completes (exec i sdhc) := by decide +kernel

/-! ### ERASE -/

/-- An SD card and an MMC card; the last block of the card alone; without RANGE_CHECK, one past it. -/
theorem witness_EraseOk :
    let meets (s : State) (i0 i1 : BitVec 6) : Bool :=
      !s.host.hbusy && s.inp.cardPresent && s.desc.valid && s.desc.csd.ccc.getLsbD 5 &&
        decide (s.host.arg0.toNat ≤ s.host.arg1.toNat) &&
        (!s.cfg.rangeCheck || decide (s.host.arg1.toNat < s.desc.capacity.toNat)) && !s.app &&
        (0x900#32 &&& 0xFDFFE008#32 == 0#32) && (i0 == if s.desc.cardType = .mmc then 35#6 else 32#6) &&
        (i1 == if s.desc.cardType = .mmc then 36#6 else 33#6) &&
        decide (s.inp.sched =
          [] :: (prompt i0 0x900 ++ prompt i1 0x900 ++ prompt 38#6 0x900 ++ polled 4#4 0x900 ++ []))
    let sched (i0 i1 : BitVec 6) := [] :: (prompt i0 0x900 ++ prompt i1 0x900 ++ prompt 38 0x900 ++ polled 4 0x900 ++ [])
    meets (given sdhc 62521343 62521343 (sched 32 33)) 32 33 ∧
      meets { given sdhc 62521343 62521344 (sched 32 33) with cfg := { sdhc.cfg with rangeCheck := false } } 32 33 ∧
        meets (given mmc 0 2097151 (sched 35 36)) 35 36 ∧
      (4#4 ≠ 6#4 ∧ 4#4 ≠ 7#4) := by decide +kernel

/-- No command class 5; a start above the end; an end at the capacity. -/
theorem witness_EraseChecks :
    let ready (s : State) : Bool := !s.host.hbusy && s.inp.cardPresent && s.desc.valid && decide (s.inp.sched = [])
    (ready (given sdsc 0 1 []) ∧ (given sdsc 0 1 []).desc.csd.ccc.getLsbD 5 = false) ∧
    (ready (given sdhc 5 2 []) ∧ (2#32).toNat < (5#32).toNat) ∧
    (ready (given sdhc 0 62521344 []) ∧ sdhc.cfg.rangeCheck = true ∧ sdhc.desc.capacity.toNat ≤ (62521344#32).toNat) := by
  decide +kernel

/-- The loop, of a card in either state; and the whole operation, on both kinds of card, with a card that stays busy. -/
theorem witness_EraseBudget :
    ([6#4, 7#4].all fun st =>
      let s := { given sdhc 0 0 (List.replicate 8 (prompt 13 0x900)).flatten with card := { sdhc.card with state := st } }
      8 == max 1 s.cfg.erasePollBudget && (s.card.state == 6 || s.card.state == 7) && 0x900#32 &&& 0xFDFFE008#32 == 0 &&
        decide (s.inp.sched = (List.replicate 8 (prompt 13#6 0x900)).flatten)) ∧
    [sdhc, mmc].all fun s0 => [6#4, 7#4].all fun st =>
      let busy := List.replicate 8 (st, 0x900#32)
      let s := given s0 8 9 ([] :: (answers (eraseSent (given s0 8 9 [])) [0x900, 0x900, 0x900] ++ busy.flatMap (fun b => polled b.1 b.2) ++ []))
      !s.host.hbusy && s.inp.cardPresent && s.desc.valid && s.desc.csd.ccc.getLsbD 5 && !s.app &&
        decide (s.host.arg0.toNat ≤ s.host.arg1.toNat) && (!s.cfg.rangeCheck || decide (s.host.arg1.toNat < s.desc.capacity.toNat)) &&
        busy.length == max 1 s.cfg.erasePollBudget &&
        ran (exec .erase s) fun t => t.host.result == 30 && t.wire.length == 11 := by decide +kernel

theorem witness_EraseFrame :
    sdhc.bc.dma = none ∧
    completes (exec .erase (given sdhc 100 199 ([[]] ++ prompt 32 0x900 ++ prompt 33 0x900 ++ prompt 38 0x900 ++
      polled 4 0x900))) := by decide +kernel

end Sys2Proof.Tests
end

section
/-! PROOFS. The encoding of OP (30_encoding R150, R151). -/

namespace Sys2Proof.Machine

/-- The words R151 reserves, as the decoder sees them. -/
theorem decodeOp_eq_reservedOp {w : Word}
    (h : w.extractLsb' 0 4 = 0#4 ∨ 0xB ≤ (w.extractLsb' 0 4).toNat ∨ w.extractLsb' 4 28 ≠ 0#28) :
    decodeOp w = .error (.reservedOp w) := by
  by_cases hhigh : w.extractLsb' 4 28 ≠ 0#28
  · exact if_pos hhigh
  · have hopc : (w.extractLsb' 0 4).toNat = 0 ∨ 0xB ≤ (w.extractLsb' 0 4).toNat := by
      rcases h with hzero | hbig | hset
      · exact .inl (by rw [hzero]; rfl)
      · exact .inr hbig
      · exact absurd hset hhigh
    rw [decodeOp, if_neg hhigh]
    -- One case per row of R150, each outside `hopc`, and the row of the reserved OPC values.
    split
    case h_11 => rfl
    all_goals omega

/-- The write of a word the decoder rejects ends in the error entry, with OP written (30_encoding R151). -/
theorem fetchOp_of_error {w : Word} {e : DecodeError} (s : State) (h : decodeOp w = .error e) :
    fetchOp w s = .next (raise .invalidParameter (setOp w s)) := by
  rw [fetchOp, h]

/-- The step of an idle engine whose next move is a write to OP that completes at once. -/
theorem step_writeOp_of_next {s t : State} {w : Word} {r : List HostMove} (hidle : s.host.hbusy = false)
    (hmove : s.inp.inbox = .writeOp w :: r) (h : fetchOp w (setInbox r s) = .next t) : step s = .next t := by
  have hfetch : fetch s = whenIdle (setInbox r s) (fetchOp w (setInbox r s)) := by rw [fetch, hmove]; rfl
  have hrun : whenIdle (setInbox r s) (fetchOp w (setInbox r s)) = fetchOp w (setInbox r s) :=
    if_neg (by simp [setInbox, hidle])
  rw [step, hfetch, hrun, h]

/-- Settles O5: the decoder rejects the word, and the step is then the error entry alone. -/
theorem reservedOp : Obligations.ReservedOp := by
  intro s w r hidle hmove hreserved
  exact step_writeOp_of_next hidle hmove (fetchOp_of_error _ (decodeOp_eq_reservedOp hreserved))

end Sys2Proof.Machine
end

section
/-! PROOFS. The Response Decoder: the checks before any status bit (40_response_decoder R201, R202, R207, R208, R210) and R6
(R209). -/

namespace Sys2Proof.Machine

open Sys2Proof.Safety

/-! ## The controller-level checks -/

theorem crcChecks_of_timeout {s : Word} (h : hasFlag s mCtimeout = true) (ok : Res Fields) :
    crcChecks s ok = .err .cmdResponseTimeout := if_pos h

theorem crcChecks_of_crcFail {s : Word} (ht : hasFlag s mCtimeout = false) (hc : hasFlag s mCcrcfail = true) (ok : Res Fields) :
    crcChecks s ok = .err .cmdCrcFail := by
  simp [crcChecks, ht, hc]

theorem crcChecks_of_noFlag {s : Word} (ht : hasFlag s mCtimeout = false) (hr : hasFlag s mCmdrend = false)
    (hc : hasFlag s mCcrcfail = false) (ok : Res Fields) : crcChecks s ok = .err .cmdResponseTimeout := by
  simp [crcChecks, ht, hr, hc]

theorem crcChecks_of_answered {s : Word} (ht : hasFlag s mCtimeout = false) (hc : hasFlag s mCcrcfail = false)
    (hr : hasFlag s mCmdrend = true) (ok : Res Fields) : crcChecks s ok = ok := by
  simp [crcChecks, ht, hc, hr]

theorem arrivalChecks_of_timeout {s : Word} (h : hasFlag s mCtimeout = true) (ok : Res Fields) :
    arrivalChecks s ok = .err .cmdResponseTimeout := if_pos h

theorem arrivalChecks_of_noFlag {s : Word} (ht : hasFlag s mCtimeout = false) (hr : hasFlag s mCmdrend = false)
    (hc : hasFlag s mCcrcfail = false) (ok : Res Fields) : arrivalChecks s ok = .err .cmdResponseTimeout := by
  simp [arrivalChecks, ht, hr, hc]

theorem arrivalChecks_of_arrived {s : Word} (ht : hasFlag s mCtimeout = false)
    (ha : hasFlag s mCmdrend = true ∨ hasFlag s mCcrcfail = true) (ok : Res Fields) : arrivalChecks s ok = ok := by
  simp [arrivalChecks, ht, ha]

/-! ## The checks of each kind -/

/-- R1, R1b, R2 and R6 pass the checks of R201, the CRC step among them. -/
theorem decodeResponse_crcChecked {kind : Kind} (hk : kind ∈ [Kind.r1, .r1b, .r2, .r6]) (idx : BitVec 6) (b : Bc) :
    ∃ ok, decodeResponse kind idx b = crcChecks b.sta ok := by
  cases kind with
  | r1 | r1b | r2 | r6 => exact ⟨_, rfl⟩
  | rNone | r3 | r7 => simp at hk

/-- R1, R1b and R6 compare the echoed index before they look at a status bit (R202). -/
theorem decodeResponse_echoChecked {kind : Kind} (hk : kind ∈ [Kind.r1, .r1b, .r6]) (idx : BitVec 6) (b : Bc) :
    ∃ table ok, decodeResponse kind idx b = crcChecks b.sta (statusChecks idx b.respcmd b.resp1 table ok) := by
  cases kind with
  | r1 | r1b | r6 => exact ⟨_, _, rfl⟩
  | rNone | r2 | r3 | r7 => simp at hk

theorem decodeResponse_of_timeout {kind : Kind} (hk : kind ≠ .rNone) (idx : BitVec 6) {b : Bc}
    (h : hasFlag b.sta mCtimeout = true) : decodeResponse kind idx b = .err .cmdResponseTimeout := by
  cases kind with
  | rNone => exact absurd rfl hk
  | r1 | r1b | r2 | r6 => exact crcChecks_of_timeout h _
  | r3 | r7 => exact arrivalChecks_of_timeout h _

theorem decodeResponse_of_crcFail {kind : Kind} (hk : kind ∈ [Kind.r1, .r1b, .r2, .r6]) (idx : BitVec 6) {b : Bc}
    (ht : hasFlag b.sta mCtimeout = false) (hc : hasFlag b.sta mCcrcfail = true) :
    decodeResponse kind idx b = .err .cmdCrcFail := by
  obtain ⟨ok, hdec⟩ := decodeResponse_crcChecked hk idx b
  rw [hdec, crcChecks_of_crcFail ht hc]

theorem decodeResponse_of_noFlag {kind : Kind} (hk : kind ≠ .rNone) (idx : BitVec 6) {b : Bc}
    (ht : hasFlag b.sta mCtimeout = false) (hr : hasFlag b.sta mCmdrend = false) (hc : hasFlag b.sta mCcrcfail = false) :
    decodeResponse kind idx b = .err .cmdResponseTimeout := by
  cases kind with
  | rNone => exact absurd rfl hk
  | r1 | r1b | r2 | r6 => exact crcChecks_of_noFlag ht hr hc _
  | r3 | r7 => exact arrivalChecks_of_noFlag ht hr hc _

theorem decodeResponse_of_otherEcho {kind : Kind} (hk : kind ∈ [Kind.r1, .r1b, .r6]) {idx : BitVec 6} {b : Bc}
    (ht : hasFlag b.sta mCtimeout = false) (hc : hasFlag b.sta mCcrcfail = false) (hr : hasFlag b.sta mCmdrend = true)
    (hecho : b.respcmd ≠ idx) : decodeResponse kind idx b = .err .illegalCommand := by
  obtain ⟨table, ok, hdec⟩ := decodeResponse_echoChecked hk idx b
  rw [hdec, crcChecks_of_answered ht hc hr]
  exact if_neg hecho

/-- The other kinds do not look at the echoed index (R202). -/
theorem decodeResponse_ignoresEcho {kind : Kind} (hk : kind ∈ [Kind.rNone, .r2, .r3, .r7]) (idx rc : BitVec 6) (b : Bc) :
    decodeResponse kind idx { b with respcmd := rc } = decodeResponse kind idx b := by
  cases kind with
  | rNone | r2 | r3 | r7 => rfl
  | r1 | r1b | r6 => simp at hk

/-! ## A bus command answered at once -/

/-- A bus command by itself keeps what the decoder makes of a prompt answer. -/
theorem exec_frame_promptly {i : Instr} {app : Bool} {idx : BitVec 6} {arg : Word} {crc : BitVec 7}
    (hi : frameParts i = some (app, idx, arg, crc)) {a : Answer} {rc : BitVec 6} {w1 w2 w3 w4 : Word} {r : List (List Ev)}
    {s : State} (hidle : s.host.hbusy = false) (happ : s.app = app) (hs : s.inp.sched = promptly a rc w1 w2 w3 w4 ++ r) :
    ∃ t, exec i s = .next t ∧
      t.cmdResult = some (answerOf (kindOf i) idx a rc (answerAt idx arg (kindOf i) a (w1, w2, w3, w4) s)) := by
  obtain ⟨t, hissue, hp⟩ := issueCmd_prompted idx arg (kindOf i) a rc w1 w2 w3 w4 r s hs
  refine ⟨_, (exec_frame hi s).trans (busCommand_next.2 ⟨hidle, happ, rfl, ?_⟩), ?_⟩
  · rw [hissue, hp.inp]
  · rw [hissue]

/-- A bus command with an R1 whose prompt answer echoes another index is an illegal command (R202). -/
theorem exec_frame_otherEcho {i : Instr} {app : Bool} {idx : BitVec 6} {arg : Word} {crc : BitVec 7}
    (hi : frameParts i = some (app, idx, arg, crc)) (hk : kindOf i = .r1) (h9 : idx ≠ 9#6) {rc : BitVec 6} {w : Word}
    {r : List (List Ev)} {s : State} (hidle : s.host.hbusy = false) (happ : s.app = app)
    (hs : s.inp.sched = prompt rc w ++ r) (hecho : rc ≠ idx) :
    ∃ t, exec i s = .next t ∧ t.cmdResult = some (.err .illegalCommand) := by
  have hfails : answerOf (kindOf i) idx .crcGood rc (answerAt idx arg (kindOf i) .crcGood (w, 0#32, 0#32, 0#32) s) =
      .err .illegalCommand :=
    answerOf_r1_fails (.inl hk) h9 arg (by rw [if_neg hecho]) s
  rw [← hfails]
  exact exec_frame_promptly hi hidle happ hs

/-- But for bit 30, an OCR is as drawn (30_encoding R127). -/
theorem ocrOf_or_bit30 (c : Sent) (byBlock : Bool) (w : Word) :
    ocrOf c byBlock w ||| 0x40000000#32 = w ||| 0x40000000#32 := by
  unfold ocrOf
  split
  · cases byBlock
    · show (w &&& ~~~0x40000000#32) ||| 0x40000000#32 = w ||| 0x40000000#32
      ext i hi
      simp only [BitVec.getElem_or, BitVec.getElem_and, BitVec.getElem_not]
      cases (0x40000000#32)[i] <;> simp
    · show (w ||| 0x40000000#32) ||| 0x40000000#32 = w ||| 0x40000000#32
      rw [BitVec.or_assoc, BitVec.or_self]
  · rfl

/-- Settles O16: each clause by the checks its kind passes; the commands by the decoded prompt answer. -/
theorem decoderChecks : Obligations.DecoderChecks := by
  refine ⟨fun kind idx b => ⟨?timeout, ?crcFail, ?noFlag, ?noResponse, ?arrived⟩, ?echo, ?noEcho, ?commands⟩
  case timeout => exact fun hk ht => decodeResponse_of_timeout hk idx ht
  case crcFail => exact fun hk ht hc => decodeResponse_of_crcFail hk idx ht hc
  case noFlag => exact fun hk ht hr hc => decodeResponse_of_noFlag hk idx ht hr hc
  case noResponse => rintro rfl; rfl
  case arrived =>
    intro ht ha
    constructor <;> rintro rfl <;> exact arrivalChecks_of_arrived ht ha _
  case echo => exact fun kind idx b hk ht hc hr hecho => decodeResponse_of_otherEcho hk ht hc hr hecho
  case noEcho => exact fun kind idx rc b hk => decodeResponse_ignoresEcho hk idx rc b
  case commands =>
    intro arg crc rc w r s hidle happ hs
    refine ⟨exec_frame_otherEcho (i := .acmd6 arg crc) rfl rfl (by decide) hidle happ hs,
      exec_frame_otherEcho (i := .acmd23 arg crc) rfl rfl (by decide) hidle happ hs, ?_⟩
    obtain ⟨t, hnext, hres⟩ := exec_frame_promptly (i := .acmd41 arg crc) rfl hidle happ hs
    refine ⟨t, _, hnext, hres, ?_⟩
    show (answerAt 41#6 arg .r3 .crcGood _ s).1 ||| _ = _
    rw [answerAt_r3 (by decide) (by decide)]
    exact ocrOf_or_bit30 _ _ _

/-! ## R6 -/

/-- The checks of R201 as one chain, in their order. -/
theorem crcChecks_eq (s : Word) (ok : Res Fields) :
    crcChecks s ok =
      if hasFlag s mCtimeout then .err .cmdResponseTimeout
      else if hasFlag s mCcrcfail then .err .cmdCrcFail
      else if hasFlag s mCmdrend = false then .err .cmdResponseTimeout
      else ok := by
  unfold crcChecks
  cases hasFlag s mCmdrend <;> rfl

/-- The echo, then bits 15, 14 and 13 in that order (R209). -/
theorem statusChecks_r6Table (idx rc : BitVec 6) (w : Word) (ok : Fields) :
    statusChecks idx rc w r6Table ok =
      if rc ≠ idx then .err .illegalCommand
      else if w.getLsbD 15 then .err .cmdCrcFail
      else if w.getLsbD 14 then .err .illegalCommand
      else if w.getLsbD 13 then .err .unknownError
      else .ok ok := by
  unfold statusChecks
  rw [ite_not]
  refine if_congr Iff.rfl ?_ rfl
  simp only [r6Table, firstError]
  -- The first set bit decides the error; with none of the three set there is no error.
  cases w.getLsbD 15
  · cases w.getLsbD 14
    · cases w.getLsbD 13 <;> rfl
    · rfl
  · rfl

/-- Settles O17: the controller checks in order, then the echo and the three bits. -/
theorem r6Decode : Obligations.R6Decode := by
  intro idx b
  rw [decodeResponse, crcChecks_eq, statusChecks_r6Table]

end Sys2Proof.Machine
end

section
/-! PROOFS. The Command Issuer: what it writes and sees of the state (41_command_issuer R242, R243), and an application command
behind its prefix (R241). -/

namespace Sys2Proof.Machine

/-! ## The clear before a command -/

theorem bcClearStatic_idem (s : State) : bcClearStatic (bcClearStatic s) = bcClearStatic s := by
  have hsta : s.bc.sta &&& ~~~mStatic &&& ~~~mStatic = s.bc.sta &&& ~~~mStatic := by
    rw [BitVec.and_assoc, BitVec.and_self]
  simp only [bcClearStatic, hsta]

/-- The issuer looks at the static flags only after its own clear: those an earlier command left make no difference (R242). -/
theorem issueCmd_bcClearStatic (idx : BitVec 6) (arg : Word) (kind : Kind) (s : State) :
    issueCmd idx arg kind (bcClearStatic s) = issueCmd idx arg kind s := by
  simp only [issueCmd, bcClearStatic_idem, bcClearStatic_cfg]

/-- Settles O23: the frame is what the issuer can do at all, `Issued`; the flags from before fall to its first clear. -/
theorem issuerWritesNothing : Obligations.IssuerWritesNothing := by
  intro idx arg kind s
  have h := issueCmd_issued idx arg kind s
  exact ⟨h.desc, h.neg, h.seq, h.multi, h.host, h.log, h.div, h.width, h.wire, extract_static h.static,
    issueCmd_bcClearStatic idx arg kind s⟩

/-! ## The prefix of an application command -/

theorem issueApp_of_err {idx : BitVec 6} {arg : Word} {kind : Kind} {s : State} {e : TransferError}
    (h : (issueCmd 55#6 (rcaArg s) .r1 s).2 = .err e) :
    issueApp idx arg kind s = ((issueCmd 55#6 (rcaArg s) .r1 s).1, .err e) := by
  rw [issueApp, andThen, h]

theorem issueApp_of_ok {idx : BitVec 6} {arg : Word} {kind : Kind} {s : State} {f : Fields}
    (h : (issueCmd 55#6 (rcaArg s) .r1 s).2 = .ok f) :
    issueApp idx arg kind s = issueCmd idx arg kind (issueCmd 55#6 (rcaArg s) .r1 s).1 := by
  rw [issueApp, andThen, h]

/-- Two commands in a row, the first of them a CMD55 that succeeds: the second goes out as an application command
(30_encoding R130). -/
theorem wire_behind_prefix {parg : Word} {pkind : Kind} {s : State} {f : Fields}
    (h : (issueCmd 55#6 parg pkind s).2 = .ok f) (idx : BitVec 6) (arg : Word) (kind : Kind) :
    (issueCmd idx arg kind (issueCmd 55#6 parg pkind s).1).1.wire =
      s.wire ++ [sentAs 55#6 parg pkind s, { seq := s.seq, app := true, idx := idx, arg := arg, kind := kind }] := by
  have hprefix := issueCmd_issued 55#6 parg pkind s
  have hcommand := issueCmd_issued idx arg kind (issueCmd 55#6 parg pkind s).1
  have happ : (issueCmd 55#6 parg pkind s).1.app = true := by rw [hprefix.app, h]; rfl
  have hsent : sentAs idx arg kind (issueCmd 55#6 parg pkind s).1 =
      { seq := s.seq, app := true, idx := idx, arg := arg, kind := kind } := by rw [sentAs, hprefix.seq, happ]
  rw [hcommand.wire, hprefix.wire, hsent, List.append_assoc, List.singleton_append]

/-- Settles O24: `issueApp` goes on with the command only where the prefix succeeded, and then under the prefix bit. -/
theorem prefixFirst : Obligations.PrefixFirst := by
  intro idx arg kind s
  rw [← rcaArg_eq s]
  refine ⟨fun e he => issueApp_of_err he, fun f hf => ?_⟩
  have happ := issueApp_of_ok (idx := idx) (arg := arg) (kind := kind) hf
  exact ⟨happ, by rw [happ]; exact wire_behind_prefix hf idx arg kind⟩

end Sys2Proof.Machine
end

section
/-! PROOFS. The Register Parser: the capacity formulas and where they overflow (43_register_parser R360, R361). -/

namespace Sys2Proof.Machine

/-! ## The exact value -/

theorem capacityNat_highCapacity (c : Csd) : capacityNat c .highCapacity = (c.cSize.toNat + 1) * 1024 := rfl

/-- One formula for every other card type: StandardV2 alone doubles it (R360). -/
theorem capacityNat_of_ne_highCapacity (c : Csd) {t : CardType} (h : t ≠ .highCapacity) :
    capacityNat c t = (c.cSize.toNat + 1) * 2 ^ (c.cSizeMult.toNat + 2) * (if t = .standardV2 then 2 else 1) := by
  cases t with
  | highCapacity => exact absurd rfl h
  | standardV2 => rfl
  | standardV1 | mmc | unknown => exact (Nat.mul_one _).symm

/-! ## Where it fits a word -/

/-- The 22-bit C_SIZE reaches 2^32 blocks at its largest value alone (R361). -/
theorem highCapacity_overflows_iff (c : Csd) : 2 ^ 32 ≤ capacityNat c .highCapacity ↔ c.cSize = 0x3FFFFF#22 := by
  rw [capacityNat_highCapacity]
  bv_omega

/-- 2^12 times 2^9, doubled: the largest capacity a 12-bit C_SIZE and a 3-bit C_SIZE_MULT give. -/
theorem capacityNat_le_of_cSize_lt {c : Csd} {t : CardType} (h : t ≠ .highCapacity) (hsize : c.cSize.toNat < 4096) :
    capacityNat c t ≤ 4194304 := by
  have hmult : 2 ^ (c.cSizeMult.toNat + 2) ≤ 2 ^ 9 := Nat.pow_le_pow_right (by decide) (by omega)
  have hdouble : (if t = .standardV2 then 2 else 1) ≤ 2 := by split <;> decide
  calc capacityNat c t
      = (c.cSize.toNat + 1) * 2 ^ (c.cSizeMult.toNat + 2) * (if t = .standardV2 then 2 else 1) :=
        capacityNat_of_ne_highCapacity c h
    _ ≤ 4096 * 2 ^ 9 * 2 := Nat.mul_le_mul (Nat.mul_le_mul hsize hmult) hdouble

/-! ## What `capacity` answers -/

theorem capacity_of_overflow {c : Csd} {t : CardType} (h : 2 ^ 32 ≤ capacityNat c t) :
    capacity c t = .err .unsupportedHardware := if_pos h

theorem capacity_of_fits {c : Csd} {t : CardType} (h : capacityNat c t < 2 ^ 32) :
    ∃ n, capacity c t = .ok n ∧ n.toNat = capacityNat c t :=
  ⟨_, if_neg (Nat.not_le.mpr h), Nat.mod_eq_of_lt h⟩

theorem capacity_of_lastFitting {c : Csd} (h : c.cSize = 0x3FFFFE#22) :
    capacity c .highCapacity = .ok 4294966272#32 := by
  have hvalue : capacityNat c .highCapacity = 4294966272 := by
    rw [capacityNat_highCapacity, h]
    rfl
  rw [capacity, hvalue]
  rfl

/-- Settles O21: the two bounds on the exact value say where `capacity` refuses it. -/
theorem capacityFormula : Obligations.CapacityFormula := by
  refine fun c ct => ⟨?high, fun hct hsize => ?other⟩
  case high =>
    rintro rfl
    exact ⟨fun hmax => capacity_of_overflow ((highCapacity_overflows_iff c).mpr hmax),
      fun hmax => capacity_of_fits (Nat.not_le.mp (mt (highCapacity_overflows_iff c).mp hmax)),
      capacity_of_lastFitting⟩
  case other =>
    have hle := capacityNat_le_of_cSize_lt hct hsize
    obtain ⟨n, hn, hval⟩ := capacity_of_fits (hle.trans_lt (by decide))
    exact ⟨n, hn, hval.trans (capacityNat_of_ne_highCapacity c hct), hval.trans_le hle⟩

end Sys2Proof.Machine
end

section
/-! PROOFS. The checks every operation on a card begins with: a card, and a published descriptor (44_block_transfer R402, R430,
R460, R462; 45_status_poller R470). -/

namespace Sys2Proof.Machine

/-! ## No card, or no published descriptor -/

/-- An operation on a card cannot begin at `s`: the sample of CardCheck finds none, or no descriptor is published. -/
def Unready (s : State) : Prop := (sync s).inp.cardPresent = false ∨ s.desc.valid = false

theorem unready_beginOp {s : State} (h : Unready s) : Unready (beginOp s) := by
  rw [Unready, sync_beginOp]
  exact h

/-- Where the two checks an operation begins with do not both pass, nothing after them runs (00_scope R15). -/
theorem cardCheck_descCheck_of_unready {α : Type} {s : State} (h : Unready s) (k : Unit → State → State × Res α) :
    (andThen (cardCheck s) fun _ t => andThen (descCheck t) k) = ((cardCheck s).1, .err .notReady) := by
  rw [cardCheck_eq]
  cases hp : (sync s).inp.cardPresent with
  | false => rfl
  | true =>
    have hv : (sync s).desc.valid = false := by
      rw [(moved_sync s).desc]
      exact h.resolve_left (by simp [hp])
    simp [descCheck, hv]

/-! ## What CardCheck leaves -/

theorem cardCheck_of_absent {s : State} (h : (sync s).inp.cardPresent = false) : (cardCheck s).1 = absent (sync s) := by
  rw [cardCheck_eq, h]
  rfl

theorem cardCheck_of_present {s : State} (h : (sync s).inp.cardPresent = true) : (cardCheck s).1 = sync s := by
  rw [cardCheck_eq, h]
  rfl

/-- CardCheck leaves the inputs as the other agents' moves do, and sends nothing. -/
theorem cardCheck_inp_wire (s : State) : (cardCheck s).1.inp = (sync s).inp ∧ (cardCheck s).1.wire = s.wire := by
  rw [← (moved_sync s).wire]
  cases hp : (sync s).inp.cardPresent with
  | false => rw [cardCheck_of_absent hp]; exact ⟨rfl, rfl⟩
  | true => rw [cardCheck_of_present hp]; exact ⟨rfl, rfl⟩

theorem cardCheck_beginOp_inp_wire (s : State) :
    (cardCheck (beginOp s)).1.inp = (sync s).inp ∧ (cardCheck (beginOp s)).1.wire = s.wire := by
  obtain ⟨hinp, hwire⟩ := cardCheck_inp_wire (beginOp s)
  exact ⟨by rw [hinp, sync_beginOp], hwire⟩

/-! ## The operations end there -/

theorem hostOp_of_err {body : State → State × Res Word} {s u : State} {e : TransferError} (hidle : s.host.hbusy = false)
    (h : body (beginOp s) = (u, .err e)) : hostOp body s = settle s (raise e u) := by
  rw [hostOp, hidle, h]
  rfl

section

variable {s : State} (hidle : s.host.hbusy = false) (h : Unready s)

include hidle h

theorem transferOp_of_unready (dir : Dir) (count : Nat) (multi : Bool) (stop : Descriptor → Bool)
    (command : State → State × Res Fields) :
    transferOp dir count multi stop command s = settle s (raise .notReady (cardCheck (beginOp s)).1) := by
  have hchecks : checks dir count multi (beginOp s) = ((cardCheck (beginOp s)).1, .err .notReady) :=
    cardCheck_descCheck_of_unready (unready_beginOp h) _
  rw [transferOp, hidle, hchecks]
  rfl

theorem execErase_of_unready : execErase s = settle s (raise .notReady (cardCheck (beginOp s)).1) := by
  have hchecks : eraseChecks (beginOp s) = ((cardCheck (beginOp s)).1, .err .notReady) :=
    cardCheck_descCheck_of_unready (unready_beginOp h) _
  refine hostOp_of_err hidle ?_
  rw [eraseBody, hchecks, andThen_err]

theorem execQueryStatus_of_unready : execQueryStatus s = settle s (raise .notReady (cardCheck (beginOp s)).1) :=
  hostOp_of_err hidle (cardCheck_descCheck_of_unready (unready_beginOp h) _)

variable {i : Instr} (hi : i ∈ [Instr.readBlock, .readBlocks, .writeBlock, .writeBlocks, .erase, .queryStatus])

include hi

/-- Each operation that needs a card ends with the error entry right after CardCheck. -/
theorem exec_of_unready : exec i s = settle s (raise .notReady (cardCheck (beginOp s)).1) := by
  simp only [List.mem_cons, List.not_mem_nil, or_false] at hi
  rcases hi with rfl | rfl | rfl | rfl | rfl | rfl
  · rw [exec, execReadBlock, transferOp_of_unready hidle h]
  · rw [exec, execReadBlocks, transferOp_of_unready hidle h]
  · rw [exec, execWriteBlock, transferOp_of_unready hidle h]
  · rw [exec, execWriteBlocks, transferOp_of_unready hidle h]
  · rw [exec, execErase_of_unready hidle h]
  · rw [exec, execQueryStatus_of_unready hidle h]

/-- Without a command sent, BC's duties alone decide whether the operation is refused (60_exceptions R546), whatever the prefix
bit (30_encoding R140). -/
theorem exec_of_unready_of_inDuty (hb : (sync s).inp.breaches = s.inp.breaches) :
    exec i s = .next (raise .notReady (cardCheck (beginOp s)).1) := by
  obtain ⟨hinp, hwire⟩ := cardCheck_beginOp_inp_wire s
  rw [exec_of_unready hidle h hi]
  refine settle_next.2 ⟨rfl, ?_, fun _ => ?_⟩
  · rw [raise_inp, hinp, hb]
  · rw [raise_wire, hwire, List.drop_length]

theorem exec_of_unready_of_breached (hb : (sync s).inp.breaches ≠ s.inp.breaches) : exec i s = .refused .dutyBroken := by
  obtain ⟨hinp, hwire⟩ := cardCheck_beginOp_inp_wire s
  rw [exec_of_unready hidle h hi]
  exact settle_breached (by rwa [raise_inp, hinp]) hwire

end

/-- Settles O35: the error entry comes right after CardCheck, which clears DESC_VALID where it finds no card and nothing else. -/
theorem notReadyFirst : Obligations.NotReadyFirst := by
  refine ⟨fun i s hi hidle hb hp => ?absent, fun i s hi hidle hb hp hv => ?unpublished, fun i s hi hidle hb h => ?breached⟩
  case absent =>
    have hbegun : (sync (beginOp s)).inp.cardPresent = false := by rw [sync_beginOp]; exact hp
    rw [exec_of_unready_of_inDuty hidle (.inl hp) hi hb, cardCheck_of_absent hbegun, sync_beginOp, ← (moved_sync s).desc]
    rfl
  case unpublished =>
    have hbegun : (sync (beginOp s)).inp.cardPresent = true := by rw [sync_beginOp]; exact hp
    rw [exec_of_unready_of_inDuty hidle (.inr hv) hi hb, cardCheck_of_present hbegun, sync_beginOp]
    rfl
  case breached => exact exec_of_unready_of_breached hidle h hi hb

end Sys2Proof.Machine
end

section
/-! PROOFS. The accessors: operations that send no command (45_status_poller R472-R475). -/

namespace Sys2Proof.Machine

/-! ## An operation that sends nothing -/

theorem hostOp_of_ok {body : State → State × Res Word} {s u : State} {v : Word} (hidle : s.host.hbusy = false)
    (h : body (beginOp s) = (u, .ok v)) : hostOp body s = settle s (finish v u) := by
  rw [hostOp, hidle, h]
  rfl

/-- Where BC kept its duties it completes, whatever the prefix bit (30_encoding R140, 60_exceptions R546). -/
theorem settle_of_silent {s t : State} (hb : t.inp.breaches = s.inp.breaches) (hw : t.wire = s.wire) :
    settle s t = .next t :=
  settle_next.2 ⟨rfl, hb, fun _ => by rw [hw, List.drop_length]⟩

/-- A body that only reads the state (45_status_poller R473, R474). -/
theorem hostOp_read (value : State → Word) {s : State} (hidle : s.host.hbusy = false) :
    hostOp (fun s => (s, .ok (value s))) s = .next (finish (value (beginOp s)) (beginOp s)) := by
  rw [hostOp_of_ok hidle rfl]
  exact settle_of_silent rfl rfl

/-! ## The look of TRANSFER_BUSY -/

/-- TXACT and RXACT are bits 12 and 13 of BCSTA (10_state R49). -/
theorem transferActive_eq (sta : Word) : transferActive sta = (sta.getLsbD 12 || sta.getLsbD 13) := by
  rw [transferActive, hasFlag_bit sta 12 (by decide) mTxact (by decide),
    hasFlag_bit sta 13 (by decide) mRxact (by decide)]

/-- What ENGINE sees is what the other agents would have left before the operation began. -/
theorem execTransferBusy_of_idle {s : State} (hidle : s.host.hbusy = false) :
    execTransferBusy s =
      settle s (finish (if transferActive (sync s).bc.sta then 1#32 else 0#32) (sync (beginOp s))) := by
  rw [execTransferBusy, hostOp_of_ok hidle rfl, sync_beginOp]

theorem finish_sync_beginOp_wire (v : Word) (s : State) : (finish v (sync (beginOp s))).wire = s.wire :=
  (moved_sync (beginOp s)).wire

theorem finish_sync_beginOp_inp (v : Word) (s : State) : (finish v (sync (beginOp s))).inp = (sync s).inp := by
  rw [sync_beginOp]
  rfl

/-- Settles O33: the three operations send nothing, so BC's duties alone decide; those that only read see no move of BC. -/
theorem accessors : Obligations.Accessors := by
  refine fun s hidle => ⟨?blockSize, ?capacityBlocks, fun hb => ?busy, fun hb => ?breached⟩
  case blockSize => exact hostOp_read (fun _ => BitVec.ofNat 32 blockSize) hidle
  case capacityBlocks => exact hostOp_read (fun s => if s.desc.valid then s.desc.capacity else 0#32) hidle
  case busy =>
    rw [exec, execTransferBusy_of_idle hidle,
      settle_of_silent (by rw [finish_sync_beginOp_inp, hb]) (finish_sync_beginOp_wire _ s), transferActive_eq,
      sync_beginOp, ← (moved_sync s).host]
    rfl
  case breached =>
    rw [exec, execTransferBusy_of_idle hidle]
    exact settle_breached (by rwa [finish_sync_beginOp_inp]) (finish_sync_beginOp_wire _ s)

end Sys2Proof.Machine
end

section
/-! PROOFS. What reset leaves (70_reset_and_hazards R601, R602). -/

namespace Sys2Proof.Machine

/-- A masked data interrupt is not pending, whatever BCSTA shows (60_exceptions R522). -/
theorem irqPending_of_masked {b : Bc} (hmask : b.mask = 0#32) : irqPending b = false := by
  simp [irqPending, hmask]

/-- The ISR agent has no step where no interrupt waits for the handler and the data interrupt is masked. -/
theorem isrMove_of_masked {s : State} (hirq : s.bc.irq = false) (hmask : s.bc.mask = 0#32) : isrMove s = s := by
  rw [isrMove, hirq, irqPending_of_masked hmask]
  rfl

/-- Settles O9: R601's cells stand so in `State.resetWith`; the mask is 0, so the ISR agent has no step (R602). -/
theorem resetValues : Obligations.ResetValues := by
  intro p
  have hact : (State.resetWith p).bc.sta.extractLsb' 11 3 = 0#3 := show (0#32).extractLsb' 11 3 = 0#3 by decide
  have hisr : applyEv .isr (State.resetWith p) = State.resetWith p := isrMove_of_masked rfl rfl
  exact ⟨rfl, rfl, rfl, rfl, rfl, rfl, rfl, rfl, rfl, rfl, rfl, rfl, rfl, rfl, rfl, rfl, hact, rfl, rfl, hisr⟩

end Sys2Proof.Machine
end

section
/-! PROOFS. The decoder and the encoder are inverse: the table of bus commands and the table of OP words, each read both ways
(30_encoding R122, R130, R131, R140, R150). -/

namespace Sys2Proof

/-! ## The table of bus commands -/

theorem decodeCommand_of_frameParts {i : Instr} {app : Bool} {idx : BitVec 6} {arg : Word} {crc : BitVec 7}
    (h : frameParts i = some (app, idx, arg, crc)) : decodeCommand app idx arg crc = .ok i := by
  cases i <;> simp only [frameParts, Option.some.injEq, Prod.mk.injEq, reduceCtorEq] at h <;>
    (obtain ⟨rfl, rfl, rfl, rfl⟩ := h; rfl)

theorem frameParts_of_decodeCommand {i : Instr} {app : Bool} {idx : BitVec 6} {arg : Word} {crc : BitVec 7}
    (h : decodeCommand app idx arg crc = .ok i) : frameParts i = some (app, idx, arg, crc) := by
  unfold decodeCommand at h
  -- One case per row of R131; in each the row's index is `idx`. The last case is every index outside the table.
  split at h
  all_goals
    cases h <;> rename_i hidx <;> exact congrArg (fun n => some (_, n, arg, crc)) (BitVec.eq_of_toNat_eq hidx.symm)

theorem decodeFrame_frameWith (app : Bool) (idx : BitVec 6) (arg : Word) (crc : BitVec 7) :
    decodeFrame app (frameWith idx arg crc) = decodeCommand app idx arg crc := by
  obtain ⟨hstart, hend, hidx, harg, hcrc⟩ := frame_fields idx arg crc
  rw [decodeFrame, if_pos ⟨hstart, hend⟩, hidx, harg, hcrc]

/-- A frame that decodes has the fixed bits of R122, and its fields are the parts of the command. -/
theorem decodeFrame_ok {app : Bool} {f : Frame} {i : Instr} (h : decodeFrame app f = .ok i) :
    f.extractLsb' 46 2 = 0b01#2 ∧ f.extractLsb' 0 1 = 1#1 ∧
      frameParts i = some (app, f.extractLsb' 40 6, f.extractLsb' 8 32, f.extractLsb' 1 7) := by
  unfold decodeFrame at h
  split at h
  next hfix => exact ⟨hfix.1, hfix.2, frameParts_of_decodeCommand h⟩
  next => cases h

/-! ## The table of OP words -/

theorem decodeOp_of_opWord {i : Instr} {w : Word} (h : opWord i = some w) : decodeOp w = .ok i := by
  cases i <;> simp only [opWord, Option.some.injEq, reduceCtorEq] at h <;> (subst h; rfl)

theorem opWord_of_decodeOp {i : Instr} {w : Word} (h : decodeOp w = .ok i) : opWord i = some w := by
  unfold decodeOp at h
  split at h
  · cases h
  next hhigh =>
    have hword : BitVec.ofNat 32 (w.extractLsb' 0 4).toNat = w := by
      have hzero : w.extractLsb' 4 28 = 0#28 := by simpa using hhigh
      have hsmall : w.toNat / 16 % 2 ^ 28 = 0 := by simpa [BitVec.extractLsb', Nat.shiftRight_eq_div_pow] using congrArg BitVec.toNat hzero
      apply BitVec.eq_of_toNat_eq
      simp only [BitVec.toNat_ofNat, BitVec.extractLsb'_toNat, Nat.shiftRight_zero]
      omega
    -- One case per row of R150; the OPC is the row's.
    split at h
    all_goals cases h <;> rename_i hopc <;> rw [← hword, hopc] <;> rfl

/-- An instruction is a row of one of the two tables. -/
theorem opWord_isSome_of_frameParts_none {i : Instr} (h : frameParts i = none) : (opWord i).isSome = true := by
  cases i <;> first | rfl | cases h

/-! ## Words and instructions -/

theorem encode_of_frameParts {i : Instr} {app : Bool} {idx : BitVec 6} {arg : Word} {crc : BitVec 7}
    (h : frameParts i = some (app, idx, arg, crc)) : encode i = .frame app (frameWith idx arg crc) := by
  rw [encode, h]

theorem frameParts_of_opWord {i : Instr} {w : Word} (h : opWord i = some w) : frameParts i = none := by
  cases i <;> first | rfl | cases h

theorem encode_of_opWord {i : Instr} {w : Word} (h : opWord i = some w) : encode i = .op w := by
  rw [encode, frameParts_of_opWord h, h]
  rfl

/-- Settles O1: a bus command by the fields of its frame, a host operation by its OP word. -/
theorem decodeOfEncode : Obligations.DecodeOfEncode := by
  intro i
  cases hparts : frameParts i with
  | some p =>
    obtain ⟨app, idx, arg, crc⟩ := p
    rw [encode_of_frameParts hparts, decode, decodeFrame_frameWith, decodeCommand_of_frameParts hparts]
  | none =>
    obtain ⟨w, hw⟩ := Option.isSome_iff_exists.1 (opWord_isSome_of_frameParts_none hparts)
    rw [encode_of_opWord hw, decode, decodeOp_of_opWord hw]

/-- Settles O2: the tables read backwards, and a frame is determined by its fields. -/
theorem encodeOfDecode : Obligations.EncodeOfDecode := by
  intro ws i h
  cases ws with
  | op w => exact encode_of_opWord (opWord_of_decodeOp h)
  | frame app f =>
    obtain ⟨hstart, hend, hparts⟩ := decodeFrame_ok h
    rw [encode_of_frameParts hparts, frame_of_fields hstart hend]

/-- Settles O3: each word is a closed term of the decoder. -/
theorem specWordsDecode : Obligations.SpecWordsDecode := by
  unfold Obligations.SpecWordsDecode
  decide +kernel

end Sys2Proof
end

section
/-! PROOFS. The frame of a command: its fields, its six bytes and its CRC7 (30_encoding R122, R123). -/

namespace Sys2Proof

/-- A field of a field is a field of the whole. -/
theorem extractLsb'_extractLsb' {w m n : Nat} (x : BitVec w) (a b : Nat) (h : b + n ≤ m) :
    (x.extractLsb' a m).extractLsb' b n = x.extractLsb' (a + b) n := by
  apply BitVec.eq_of_getLsbD_eq
  intro i hi
  have hm : b + i < m := by omega
  simp [hi, hm, Nat.add_assoc]

/-- The start bit is 0 and the transmission bit 1. -/
theorem frame_start (idx : BitVec 6) (arg : Word) (crc : BitVec 7) :
    (frameWith idx arg crc).extractLsb' 47 1 = 0#1 ∧ (frameWith idx arg crc).extractLsb' 46 1 = 1#1 := by
  obtain ⟨hstart, -⟩ := frame_fields idx arg crc
  constructor
  · rw [← extractLsb'_extractLsb' (m := 2) _ 46 1 (by decide), hstart]
    decide
  · rw [← extractLsb'_extractLsb' (m := 2) _ 46 0 (by decide), hstart]
    decide

/-- Byte 0: the two fixed bits above the index. -/
theorem frame_byte0 (idx : BitVec 6) (arg : Word) (crc : BitVec 7) :
    (frameWith idx arg crc).extractLsb' 40 8 = 0x40#8 ||| idx.setWidth 8 := by
  apply BitVec.eq_of_getLsbD_eq
  intro i hi
  rw [BitVec.getLsbD_extractLsb', frame_bit]
  interval_cases i <;> simp

/-- Byte 5: the CRC field above the end bit. -/
theorem frame_byte5 (idx : BitVec 6) (arg : Word) (crc : BitVec 7) :
    (frameWith idx arg crc).extractLsb' 0 8 = (crc.setWidth 8 <<< 1) ||| 1#8 := by
  apply BitVec.eq_of_getLsbD_eq
  intro i hi
  rw [BitVec.getLsbD_extractLsb', frame_bit]
  interval_cases i <;> simp

/-- Bytes 1 to 4: the argument, its most significant byte first. -/
theorem frame_argByte (idx : BitVec 6) (arg : Word) (crc : BitVec 7) {k : Nat} (h : k + 8 ≤ 32) :
    (frameWith idx arg crc).extractLsb' (8 + k) 8 = arg.extractLsb' k 8 := by
  obtain ⟨-, -, -, harg, -⟩ := frame_fields idx arg crc
  rw [← extractLsb'_extractLsb' (m := 32) _ 8 k h, harg]

theorem frameBytes_frameWith (idx : BitVec 6) (arg : Word) (crc : BitVec 7) :
    frameBytes (frameWith idx arg crc) =
      [0x40#8 ||| idx.setWidth 8, arg.extractLsb' 24 8, arg.extractLsb' 16 8, arg.extractLsb' 8 8, arg.extractLsb' 0 8,
        (crc.setWidth 8 <<< 1) ||| 1#8] := by
  rw [frameBytes, frame_byte0, frame_byte5, frame_argByte (k := 24) idx arg crc (by decide),
    frame_argByte (k := 16) idx arg crc (by decide), frame_argByte (k := 8) idx arg crc (by decide),
    frame_argByte (k := 0) idx arg crc (by decide)]

/-- One bit of the CRC7: the register is shifted, and the generator is added where the bit that falls out differs. -/
theorem crc7Step_eq (c : BitVec 7) (b : Bool) :
    crc7Step c b = (c <<< 1) ^^^ (if (c.getLsbD 6 ^^ b) then 0b0001001#7 else 0#7) := by
  rw [crc7Step, BitVec.msb_eq_getLsbD_last]
  cases c.getLsbD (7 - 1) <;> cases b <;> simp

/-- Settles O4: the fields of any frame, its bytes one by one, and the CRC7 by its step. -/
theorem frameLayout : Obligations.FrameLayout := by
  refine ⟨fun idx arg => ?fields, crc7Step_eq, by decide +kernel, by decide +kernel, by decide +kernel⟩
  obtain ⟨-, hend, hidx, harg, hcrc⟩ := frame_fields idx arg (frameCrc idx arg)
  obtain ⟨hstart, htrans⟩ := frame_start idx arg (frameCrc idx arg)
  exact ⟨hstart, htrans, hidx, harg, hcrc, hend, frameBytes_frameWith idx arg (frameCrc idx arg)⟩

end Sys2Proof
end

section
/-! PROOFS. A step is HOST's next move, and the instruction it asks for (10_state R46, 60_exceptions R548, 70 R614-R617). -/

namespace Sys2Proof.Machine

/-- What a step answers for what HOST's move asks. -/
def outcomeOf : Fetched → Host.Outcome State Fault Refusal
  | .next t => .next t
  | .run i t => exec i t
  | .fault r => .fault r
  | .refused r => .refused r

theorem step_eq (s : State) : step s = outcomeOf (fetch s) := rfl

theorem step_of_inbox {s : State} {m : HostMove} {r : List HostMove} (h : s.inp.inbox = m :: r) :
    step s = outcomeOf (hostMove m (setInbox r s)) := by
  rw [step_eq, fetch, h]

theorem outcomeOf_whenIdle (s : State) (f : Fetched) :
    outcomeOf (whenIdle s f) = if s.host.hbusy then .refused .engineBusy else outcomeOf f := by
  rw [whenIdle]
  split <;> rfl

theorem outcomeOf_hostWaits (s : State) :
    outcomeOf (hostWaits s) =
      if (sync s).inp.breaches = s.inp.breaches then .next (sync s) else .refused .dutyBroken := by
  rw [hostWaits]
  split <;> rfl

/-! ## Frames and OP words -/

theorem outcomeOf_fetchFrame_of_ok {s : State} {f : Frame} {i : Instr} (h : decodeFrame s.app f = .ok i) :
    outcomeOf (fetchFrame f s) = exec i s := by
  rw [fetchFrame, h]
  rfl

theorem outcomeOf_fetchFrame_of_error {s : State} {f : Frame} {e : DecodeError} (h : decodeFrame s.app f = .error e) :
    outcomeOf (fetchFrame f s) = .refused (refusalOf e) := by
  rw [fetchFrame, h]
  rfl

theorem outcomeOf_fetchOp_of_ok {s : State} {w : Word} {i : Instr} (h : decodeOp w = .ok i) :
    outcomeOf (fetchOp w s) = exec i (setOp w s) := by
  rw [fetchOp, h]
  rfl

/-- Every index without a row of R131 under the prefix bit at hand (30_encoding R140). -/
theorem decodeCommand_outside {app : Bool} {idx : BitVec 6}
    (h : idx.toNat ∉
      if app then [6, 23, 41] else [0, 1, 2, 3, 7, 8, 9, 12, 13, 16, 17, 18, 24, 25, 32, 33, 35, 36, 38, 55])
    (arg : Word) (crc : BitVec 7) : decodeCommand app idx arg crc = .error (.outsideCommandSet app idx) := by
  unfold decodeCommand
  split
  case h_24 => rfl
  all_goals
    rename_i hidx
    rw [hidx] at h
    exact absurd (by decide) h

/-- Settles O6: the frame is well formed, its index has no row, and the step answers the decoder's refusal. -/
theorem outsideSetRefused : Obligations.OutsideSetRefused := by
  intro s f r hmove hstart hend hidx
  have hdec : decodeFrame s.app f = .error (.outsideCommandSet s.app (f.extractLsb' 40 6)) := by
    rw [decodeFrame, if_pos ⟨hstart, hend⟩, decodeCommand_outside hidx]
  rw [step_of_inbox hmove]
  exact outcomeOf_fetchFrame_of_error (s := setInbox r s) hdec

/-- Settles O7: both moves hand the decoded instruction to `exec`. -/
theorem stepRunsDecoded : Obligations.StepRunsDecoded := by
  constructor
  · intro s w r i hmove hidle hdec
    have hrun : outcomeOf (hostMove (.writeOp w) (setInbox r s)) = exec i (setOp w (setInbox r s)) := by
      rw [hostMove, outcomeOf_whenIdle, if_neg (by simp [setInbox, hidle]), outcomeOf_fetchOp_of_ok hdec]
    rw [step_of_inbox hmove, hrun]
    rfl
  · intro s f r i hmove hdec
    rw [step_of_inbox hmove]
    exact outcomeOf_fetchFrame_of_ok (s := setInbox r s) hdec

/-! ## While HBUSY = 1 -/

theorem hostOp_busy {s : State} (h : s.host.hbusy = true) (body : State → State × Res Word) :
    hostOp body s = .refused .engineBusy := if_pos h

theorem transferOp_busy {s : State} (h : s.host.hbusy = true) (dir : Dir) (count : Nat) (multi : Bool)
    (stop : Descriptor → Bool) (command : State → State × Res Fields) :
    transferOp dir count multi stop command s = .refused .engineBusy := if_pos h

theorem busCommand_busy {s : State} (h : s.host.hbusy = true) (app : Bool) (idx : BitVec 6) (arg : Word) (kind : Kind) :
    busCommand app idx arg kind s = .refused .engineBusy := if_pos h

/-- The engine is not reentrant (60_exceptions R548). -/
theorem exec_busy {s : State} (h : s.host.hbusy = true) (i : Instr) : exec i s = .refused .engineBusy := by
  cases hparts : frameParts i with
  | some p => rw [exec_frame hparts, busCommand_busy h]
  | none =>
    cases i with
    | initializeCard => rw [exec, execInitialize, hostOp_busy h]
    | readBlock => rw [exec, execReadBlock, transferOp_busy h]
    | readBlocks => rw [exec, execReadBlocks, transferOp_busy h]
    | writeBlock => rw [exec, execWriteBlock, transferOp_busy h]
    | writeBlocks => rw [exec, execWriteBlocks, transferOp_busy h]
    | erase => rw [exec, execErase, hostOp_busy h]
    | queryStatus => rw [exec, execQueryStatus, hostOp_busy h]
    | transferBusy => rw [exec, execTransferBusy, hostOp_busy h]
    | capacityBlocks => rw [exec, execCapacityBlocks, hostOp_busy h]
    | blockSize => rw [exec, execBlockSize, hostOp_busy h]
    | _ => cases hparts

/-- Settles O8: each move by its own line of `hostMove`. -/
theorem hostWrites : Obligations.HostWrites := by
  refine ⟨fun s r => ⟨?arg0, ?arg1, ?buf, ?buflen, ?store, ?op, ?maint, ?swap, ?idle⟩, ?silent, fun i s h => exec_busy h i⟩
  case arg0 | arg1 | buf | buflen =>
    intro v hmove
    rw [step_of_inbox hmove, hostMove, outcomeOf_whenIdle]
    rfl
  case store =>
    intro a bs hmove
    rw [step_of_inbox hmove, hostMove, outcomeOf_whenIdle, apply_ite outcomeOf]
    rfl
  case op =>
    intro w hmove hbusy
    rw [step_of_inbox hmove, hostMove, outcomeOf_whenIdle]
    exact if_pos hbusy
  case maint =>
    intro k hmove
    rw [step_of_inbox hmove]
    rfl
  case swap =>
    intro st byBlock mmc csd len cells hmove
    rw [step_of_inbox hmove]
    rfl
  case idle =>
    intro hmove
    rw [step_of_inbox hmove, hostMove, outcomeOf_hostWaits]
    rfl
  case silent =>
    intro s hempty
    rw [step_eq, fetch, hempty]
    exact outcomeOf_hostWaits s

end Sys2Proof.Machine
end

section
/-! PROOFS. What a step can do: HOST's own moves, said once (`HostStep`), and the instruction it runs; from it what every step
keeps (10_state R31-R47; 20_memory R90, R104; 60_exceptions R500, R510). -/

namespace Sys2Proof.Machine

open Sys2Proof.Safety

/-! ## The moves of HOST that run no instruction -/

/-- `t` is `s` after a move of HOST that runs no instruction. -/
inductive HostStep (s : State) : State → Prop where
  | arg0 (v : Word) : HostStep s { s with host := { s.host with arg0 := v } }
  | arg1 (v : Word) : HostStep s { s with host := { s.host with arg1 := v } }
  | buf (a : Nat) : HostStep s { s with host := { s.host with buf := a % hostSpace s.cfg } }
  | buflen (v : Word) : HostStep s { s with host := { s.host with buflen := v } }
  | reservedOp (w : Word) : HostStep s (raise .invalidParameter (setOp w s))
  | store (a : Nat) (bs : List Byte) (hin : a + bs.length ≤ hostSpace s.cfg) : HostStep s { s with mem := s.mem.write a bs }
  | maint (k : Bool) : HostStep s { s with inp := { s.inp with maint := k } }
  | waits : HostStep s (sync s)
  | swap (st : BitVec 4) (byBlock mmc : Bool) (csd : Reg128) (len : Word) (cells : List (Nat × List Byte)) :
    HostStep s (swapCard st byBlock mmc csd len cells s)

theorem whenIdle_next {s t : State} {f : Fetched} (h : whenIdle s f = .next t) : f = .next t := by
  unfold whenIdle at h
  split at h
  · cases h
  · exact h

theorem whenIdle_run {s u : State} {f : Fetched} {i : Instr} (h : whenIdle s f = .run i u) : f = .run i u := by
  unfold whenIdle at h
  split at h
  · cases h
  · exact h

theorem hostWaits_next {s t : State} (h : hostWaits s = .next t) : HostStep s t := by
  unfold hostWaits at h
  split at h
  · cases h
    exact .waits
  · cases h

theorem hostWaits_ne_run (s u : State) (i : Instr) : hostWaits s ≠ .run i u := by
  unfold hostWaits
  split <;> exact nofun

theorem hostMove_next {m : HostMove} {s t : State} (h : hostMove m s = .next t) : HostStep s t := by
  cases m with
  | writeArg0 v => cases whenIdle_next h; exact .arg0 v
  | writeArg1 v => cases whenIdle_next h; exact .arg1 v
  | writeBuf a => cases whenIdle_next h; exact .buf a
  | writeBuflen v => cases whenIdle_next h; exact .buflen v
  | writeOp w =>
    have h := whenIdle_next h
    unfold fetchOp at h
    split at h
    · cases h
    · cases h; exact .reservedOp w
  | store a bs =>
    have h := whenIdle_next h
    split at h
    next hin => cases h; exact .store a bs hin
    · cases h
  | maint k => cases h; exact .maint k
  | idle => exact hostWaits_next h
  | swap st byBlock mmc csd len cells => cases h; exact .swap st byBlock mmc csd len cells
  | frame f =>
    have h : fetchFrame f s = .next t := h
    unfold fetchFrame at h
    split at h <;> cases h

/-- What HOST leaves of the state for the instruction it runs: a write to OP writes OP. -/
theorem hostMove_run {m : HostMove} {s u : State} {i : Instr} (h : hostMove m s = .run i u) : u = s ∨ ∃ w, u = setOp w s := by
  cases m with
  | writeArg0 v | writeArg1 v | writeBuf a | writeBuflen v => cases whenIdle_run h
  | writeOp w =>
    have h := whenIdle_run h
    unfold fetchOp at h
    split at h
    · cases h; exact .inr ⟨w, rfl⟩
    · cases h
  | store a bs =>
    have h := whenIdle_run h
    split at h <;> cases h
  | maint k | swap st byBlock mmc csd len cells => cases h
  | idle => exact absurd h (hostWaits_ne_run s u i)
  | frame f =>
    have h : fetchFrame f s = .run i u := h
    unfold fetchFrame at h
    split at h <;> cases h
    exact .inl rfl

/-- A step that answers a next state made a move of HOST, or ran an instruction. -/
theorem step_next {s t : State} (h : step s = .next t) :
    ∃ r, HostStep (setInbox r s) t ∨
      ∃ i u, (u = setInbox r s ∨ ∃ w, u = setOp w (setInbox r s)) ∧ exec i u = .next t := by
  unfold step at h
  have hfetch : ∃ r, (∀ t, fetch s = .next t → HostStep (setInbox r s) t) ∧
      ∀ i u, fetch s = .run i u → u = setInbox r s ∨ ∃ w, u = setOp w (setInbox r s) := by
    unfold fetch
    split
    next hempty =>
      refine ⟨[], fun t ht => ?_, fun i u hu => absurd hu (hostWaits_ne_run s u i)⟩
      rw [show setInbox [] s = s by rw [setInbox, ← hempty]]
      exact hostWaits_next ht
    next m r hmove => exact ⟨r, fun t ht => hostMove_next ht, fun i u hu => hostMove_run hu⟩
  obtain ⟨r, hnext, hrun⟩ := hfetch
  refine ⟨r, ?_⟩
  split at h
  next ht => cases h; exact .inl (hnext _ ht)
  next i u hu => exact .inr ⟨i, u, hrun i u hu, h⟩
  · cases h
  · cases h

/-! ## The invariant -/

theorem inv_resetWith (p : Params) : Inv (State.resetWith p) where
  memWf := Memory.wf_nil
  memIn := by simp [State.resetWith]
  cardWf := Memory.wf_nil
  notBusy := rfl
  seqIdle := rfl
  unarmed := rfl
  masked := rfl
  notMulti := rfl
  resultCode := by simp [State.resetWith]
  valueZero := fun _ => rfl
  bufIn := Nat.two_pow_pos _
  width := .inl rfl
  reserved := by simp [State.resetWith]
  published := nofun

/-- Settles O10: reset writes every cell the invariant speaks of. -/
theorem invAtReset : Obligations.InvAtReset := ⟨inv_resetWith, rfl⟩

/-- The moves of the other agents between two moves of HOST: no transfer is armed, so they touch no memory. -/
theorem inv_moved {s t : State} (h : Inv s) (m : Moved s t) : Inv t where
  memWf := m.memWf h.memWf
  memIn := by rw [m.mem (by simp [h.unarmed]), m.cfg]; exact h.memIn
  cardWf := m.cardWf h.cardWf
  notBusy := by rw [m.host]; exact h.notBusy
  seqIdle := m.seq.trans h.seqIdle
  unarmed := m.dma.elim id fun e => e.trans h.unarmed
  masked := m.mask.elim id fun e => e.trans h.masked
  notMulti := m.multi.trans h.notMulti
  resultCode := by rw [m.host]; exact h.resultCode
  valueZero := by rw [m.host]; exact h.valueZero
  bufIn := by rw [m.host, m.cfg]; exact h.bufIn
  width := by rw [m.neg]; exact h.width
  reserved := m.reserved h.reserved
  published := by rw [m.desc]; exact h.published

theorem memIn_write {m : Memory} {n a : Nat} {bs : List Byte} (h : ∀ c ∈ m, c.1 < n) (hin : a + bs.length ≤ n) :
    ∀ c ∈ m.write a bs, c.1 < n := fun c hc =>
  (Memory.write_key hc).elim (h c) fun hnew => by omega

theorem inv_hostStep {s t : State} (h : Inv s) (hst : HostStep s t) : Inv t := by
  cases hst with
  | arg0 v | arg1 v | buflen v | maint k => exact { h with }
  | buf a => exact { h with bufIn := Nat.mod_lt _ (Nat.two_pow_pos _) }
  | reservedOp w =>
    exact { h with
      notBusy := rfl
      seqIdle := rfl
      resultCode := (code_pos .invalidParameter).2
      valueZero := fun _ => rfl }
  | store a bs hin => exact { h with memWf := Memory.wf_write h.memWf a bs, memIn := memIn_write h.memIn hin }
  | waits => exact inv_moved h (moved_sync s)
  | swap st byBlock mmc csd len cells => exact { h with cardWf := wf_storageOf cells }

theorem inv_setInbox {s : State} (h : Inv s) (r : List HostMove) : Inv (setInbox r s) := { h with }

theorem inv_setOp {s : State} (h : Inv s) (w : Word) : Inv (setOp w s) := { h with }

/-- One command of the issuer. -/
theorem inv_issued {s t : State} {idx : BitVec 6} {arg : Word} {kind : Kind} {r : Res Fields} (h : Inv s)
    (k : Issued idx arg kind s t r) : Inv t where
  memWf := k.memWf h.memWf
  memIn := by rw [k.mem (by simp [h.unarmed]), k.cfg]; exact h.memIn
  cardWf := k.cardWf h.cardWf
  notBusy := by rw [k.host]; exact h.notBusy
  seqIdle := k.seq.trans h.seqIdle
  unarmed := k.dma.elim id fun e => e.trans h.unarmed
  masked := k.mask.elim id fun e => e.trans h.masked
  notMulti := k.multi.trans h.notMulti
  resultCode := by rw [k.host]; exact h.resultCode
  valueZero := by rw [k.host]; exact h.valueZero
  bufIn := by rw [k.host, k.cfg]; exact h.bufIn
  width := by rw [k.neg]; exact h.width
  reserved := k.reserved h.reserved
  published := by rw [k.desc]; exact h.published

/-! ## What negotiation leaves of the mirrored bus width and of the descriptor -/

/-- The mirrored bus width is 1 or 4 (10_state R39). -/
def MirrorOk (s : State) : Prop := s.neg.busWidth = 1#3 ∨ s.neg.busWidth = 4#3

theorem MirrorOk.congr {s t : State} (h : MirrorOk s) (he : t.neg.busWidth = s.neg.busWidth) : MirrorOk t := by
  rw [MirrorOk, he]
  exact h

theorem mirrorOk_andThen {α β : Type} {r : State × Res α} {k : α → State → State × Res β} (h : MirrorOk r.1)
    (hk : ∀ v u, MirrorOk u → MirrorOk (k v u).1) : MirrorOk (andThen r k).1 := by
  unfold andThen
  split
  · exact hk _ _ h
  · exact h

theorem mirrorOk_issueCmd {s : State} (h : MirrorOk s) (idx : BitVec 6) (arg : Word) (kind : Kind) :
    MirrorOk (issueCmd idx arg kind s).1 := h.congr (by rw [(issueCmd_issued idx arg kind s).neg])

theorem mirrorOk_negEntry {s : State} (h : MirrorOk s) : MirrorOk (negEntry s).1 := by
  have hk : (sync (negClear s)).neg.busWidth = s.neg.busWidth := by rw [(moved_sync _).neg]; rfl
  rw [negEntry, cardCheck_eq]
  split <;> exact h.congr hk

theorem mirrorOk_negReset (s : State) : MirrorOk (negReset s).1 :=
  mirrorOk_andThen (mirrorOk_issueCmd (.inl rfl) _ _ _) fun _ _ h => h

theorem mirrorOk_negProbe {s : State} (h : MirrorOk s) : MirrorOk (negProbe s).1 :=
  mirrorOk_issueCmd (s := setSeq .negProbe s) h _ _ _

theorem voltLoop_busWidth (m0 : Nat) (arg : Word) (n : Nat) (mmc first : Bool) (s : State) :
    (voltLoop m0 arg n mmc first s).1.neg.busWidth = s.neg.busWidth := by
  induction n generalizing mmc first s with
  | zero => rfl
  | succ n ih =>
    have hattempt : (voltAttempt mmc first arg s).1.neg.busWidth = s.neg.busWidth := by
      rw [(voltAttempt_keeps mmc first arg s).2]
    have hsync (w : Word) : (sync (setOcr w (voltAttempt mmc first arg s).1)).neg.busWidth = s.neg.busWidth := by
      rw [(moved_sync _).neg]
      exact hattempt
    rw [voltLoop_succ]
    split
    · exact (ih _ _ _).trans hattempt
    · exact hattempt
    · split
      · exact hattempt
      · split
        · exact hsync _
        · exact (ih _ _ _).trans (hsync _)

theorem mirrorOk_negVoltage {s : State} (h : MirrorOk s) : MirrorOk (negVoltage s).1 :=
  mirrorOk_andThen (MirrorOk.congr h (voltLoop_busWidth _ _ _ _ _ _)) fun _ _ h => h

theorem mirrorOk_negIdentCid {s : State} (h : MirrorOk s) : MirrorOk (negIdentCid s).1 :=
  mirrorOk_andThen (mirrorOk_issueCmd (s := setSeq .negIdent s) h _ _ _) fun _ _ h => h

theorem mirrorOk_negIdentRca {s : State} (h : MirrorOk s) : MirrorOk (negIdentRca s).1 :=
  mirrorOk_andThen (mirrorOk_issueCmd h _ _ _) fun _ _ h => h

theorem mirrorOk_negRegfetch {s : State} (h : MirrorOk s) : MirrorOk (negRegfetch s).1 := by
  refine mirrorOk_andThen (mirrorOk_issueCmd (s := setSeq .negRegfetch s) h _ _ _) fun f u hu => ?_
  obtain ⟨d, hd, -⟩ := negParse_desc { u with desc := { u.desc with csdRaw := f.register } }
  rw [hd]
  exact hu

theorem mirrorOk_negSelect {s : State} (h : MirrorOk s) : MirrorOk (negSelect s).1 :=
  mirrorOk_andThen (mirrorOk_issueCmd (s := setSeq .negSelect s) h _ _ _) fun _ _ h => h

theorem mirrorOk_negWidth {s : State} (h : MirrorOk s) : MirrorOk (negWidth s).1 := by
  have happ : MirrorOk (issueApp 6#6 2#32 .r1 (setSeq .negWidth s)).1 :=
    mirrorOk_andThen (mirrorOk_issueCmd (s := setSeq .negWidth s) h _ _ _) fun _ _ hu => mirrorOk_issueCmd hu _ _ _
  unfold negWidth
  dsimp only
  split
  · exact h
  · split
    · exact .inr rfl
    · exact happ

theorem mirrorOk_negBlklen {s : State} (h : MirrorOk s) : MirrorOk (negBlklen s).1 :=
  mirrorOk_andThen (mirrorOk_issueCmd (s := setSeq .negBlklen s) h _ _ _) fun _ _ h => h

theorem mirrorOk_negotiate {s : State} (h : MirrorOk s) : MirrorOk (negotiate s).1 :=
  mirrorOk_andThen (mirrorOk_negEntry h) fun _ _ _ =>
  mirrorOk_andThen (mirrorOk_negReset _) fun _ _ h =>
  mirrorOk_andThen (mirrorOk_negProbe h) fun _ _ h =>
  mirrorOk_andThen (mirrorOk_negVoltage h) fun _ _ h =>
  mirrorOk_andThen (mirrorOk_negIdentCid h) fun _ _ h =>
  mirrorOk_andThen (mirrorOk_negIdentRca h) fun _ _ h =>
  mirrorOk_andThen (mirrorOk_negRegfetch h) fun _ _ h =>
  mirrorOk_andThen (mirrorOk_negSelect h) fun _ _ h =>
  mirrorOk_andThen (mirrorOk_negWidth h) fun _ _ h =>
  mirrorOk_andThen (mirrorOk_negBlklen h) fun _ _ h => h

theorem cardTypeOf_ne_unknown (mmc : Bool) (ocr : Word) (sdv2 : Bool) : cardTypeOf mmc ocr sdv2 ≠ .unknown := by
  unfold cardTypeOf
  split
  · decide
  · split
    · decide
    · split <;> decide

/-- The descriptor of a negotiation's end: consistent where it is published. -/
theorem Published0.published {x : State × Res Word} (h : Published0 x) : Published x.1.desc := by
  obtain ⟨u, r⟩ := x
  cases r with
  | err e => exact fun hv => absurd (hv.symm.trans h) (by decide)
  | ok v =>
    obtain ⟨-, w, ⟨⟨-, -, mmc, htype⟩, hcsd, hcid, hcap⟩, hu⟩ := h
    rw [hu]
    exact fun _ => ⟨by show w.desc.cardType ≠ _; rw [htype]; exact cardTypeOf_ne_unknown _ _ _, hcsd, hcid, hcap⟩

/-! ## Every instruction keeps the invariant -/

/-- A descriptor that only lost its DESC_VALID is still one its registers give. -/
theorem published_of_kept {d d' : Descriptor} (h : Published d) (he : d' = { d with valid := d'.valid })
    (hv : d'.valid = true → d.valid = true) : Published d' := by
  intro hvalid
  have hpub := h (hv hvalid)
  rw [he]
  exact hpub

theorem inv_opRan {i : Instr} {s t : State} (h : Inv s) (ho : OpRan i s t) : Inv t := by
  obtain ⟨-, u, r, M, ht, hM, hr, hneg⟩ := ho
  obtain ⟨hseq, hbusy, hcode, hvalue, -, -, -, hbuf, -⟩ := endWith_host (u, r)
  have hrest := endWith_rest (u, r)
  rw [← ht] at hseq hbusy hcode hvalue hbuf hrest
  have hdesc : Published u.desc ∧ MirrorOk u := by
    by_cases hi : i = .initializeCard
    · have hn := hneg hi
      have hpost := negotiate_post (beginOp s)
      have hmirror := mirrorOk_negotiate (s := beginOp s) h.width
      rw [← hn] at hpost hmirror
      exact ⟨hpost.published, hmirror⟩
    · have hfalse : decide (i = .initializeCard) = false := by simpa using hi
      exact ⟨published_of_kept h.published (hr.desc hfalse) (hr.valid hfalse), MirrorOk.congr h.width (by rw [hr.neg hfalse]; rfl)⟩
  have hcfg : u.cfg = s.cfg := hr.cfg
  rw [hrest]
  exact
    { memWf := hr.memWf h.memWf
      memIn := fun c hc => by
        show c.1 < hostSpace u.cfg
        rw [hcfg]
        exact (hr.memKey h.unarmed c hc).elim (h.memIn c) fun hm => (hM c.1 hm).2
      cardWf := hr.cardWf h.cardWf
      notBusy := hbusy
      seqIdle := hseq
      unarmed := hr.dma h.unarmed
      masked := hr.mask h.masked
      notMulti := hr.multi h.notMulti
      resultCode := hcode
      valueZero := hvalue
      bufIn := by
        show t.host.buf < hostSpace u.cfg
        rw [hbuf, hcfg, hr.host]
        exact h.bufIn
      width := hdesc.2
      reserved := hr.reserved h.reserved
      published := hdesc.1 }

theorem inv_exec {i : Instr} {s t : State} (h : Inv s) (ht : exec i s = .next t) : Inv t := by
  cases hparts : frameParts i with
  | none => exact inv_opRan h (exec_op hparts ht)
  | some p =>
    obtain ⟨app, idx, arg, crc⟩ := p
    rw [exec_frame hparts] at ht
    obtain ⟨-, -, rfl, -⟩ := busCommand_next.1 ht
    exact { inv_issued h (issueCmd_issued idx arg (kindOf i) s) with }

/-- Settles O11: by the inversion of a step, the moves of HOST one by one and the instructions by what each can do. -/
theorem stepKeepsInv : Obligations.StepKeepsInv := by
  intro s t h hstep
  obtain ⟨r, hhost | ⟨i, u, hu, hexec⟩⟩ := step_next hstep
  · exact inv_hostStep (inv_setInbox h r) hhost
  · have hinv : Inv u := by
      rcases hu with rfl | ⟨w, rfl⟩
      · exact inv_setInbox h r
      · exact inv_setOp (inv_setInbox h r) w
    exact inv_exec hinv hexec

/-! ## Who writes what -/

/-- What no step writes, and what only grows (00_scope R10, 10_state R47). -/
structure Grown (s t : State) : Prop where
  cfg : t.cfg = s.cfg
  log : ∃ l, t.log = s.log ++ l
  wire : ∃ cs, t.wire = s.wire ++ cs

theorem grown_hostStep {s t : State} (h : HostStep s t) : Grown s t := by
  have same {t : State} (hc : t.cfg = s.cfg) (hl : t.log = s.log) (hw : t.wire = s.wire) : Grown s t :=
    ⟨hc, ⟨[], by rw [hl, List.append_nil]⟩, ⟨[], by rw [hw, List.append_nil]⟩⟩
  cases h with
  | arg0 | arg1 | buf | buflen | reservedOp | store | maint | swap => exact same rfl rfl rfl
  | waits => exact same (moved_sync s).cfg (moved_sync s).log (moved_sync s).wire

theorem grown_exec {i : Instr} {s t : State} (h : exec i s = .next t) : Grown s t := by
  cases hparts : frameParts i with
  | none =>
    obtain ⟨-, u, r, M, rfl, -, hr, -⟩ := exec_op hparts h
    rw [endWith_rest]
    exact ⟨hr.cfg, hr.logGrows, hr.wire⟩
  | some p =>
    obtain ⟨app, idx, arg, crc⟩ := p
    rw [exec_frame hparts] at h
    obtain ⟨-, -, rfl, -⟩ := busCommand_next.1 h
    have k := issueCmd_issued idx arg (kindOf i) s
    exact ⟨k.cfg, ⟨[], by rw [List.append_nil]; exact k.log⟩, ⟨_, k.wire⟩⟩

theorem grown_step {s t : State} (h : step s = .next t) : Grown s t := by
  obtain ⟨r, hhost | ⟨i, u, rfl | ⟨w, rfl⟩, hexec⟩⟩ := step_next h
  · exact { grown_hostStep hhost with }
  · exact { grown_exec hexec with }
  · exact { grown_exec hexec with }

/-- Settles O12: what no step writes by the inversion of a step, and what only INITIALIZE writes by what each other
instruction can do. -/
theorem whoWritesWhat : Obligations.WhoWritesWhat := by
  refine ⟨fun s t h => ?grows, fun i s t hi h => ?keeps⟩
  case grows =>
    have g := grown_step h
    exact ⟨g.cfg, g.log, g.wire⟩
  case keeps =>
    cases hparts : frameParts i with
    | none =>
      obtain ⟨-, u, r, M, rfl, -, hr, -⟩ := exec_op hparts h
      have hfalse : decide (i = .initializeCard) = false := by simpa using hi
      rw [endWith_rest]
      exact ⟨hr.desc hfalse, hr.valid hfalse, hr.neg hfalse, hr.div hfalse, hr.width hfalse, hr.log hfalse⟩
    | some p =>
      obtain ⟨app, idx, arg, crc⟩ := p
      rw [exec_frame hparts] at h
      obtain ⟨-, -, rfl, -⟩ := busCommand_next.1 h
      have k := issueCmd_issued idx arg (kindOf i) s
      have hdesc : ({ (issueCmd idx arg (kindOf i) s).1 with cmdResult := some (issueCmd idx arg (kindOf i) s).2 } : State).desc =
          s.desc := k.desc
      refine ⟨by rw [hdesc], by rw [hdesc]; exact id, k.neg, k.div, k.width, k.log⟩

end Sys2Proof.Machine
end

section
/-! PROOFS. The completion interrupt's handler and the data path (60_exceptions R520, R546), the R1 table (40_response_decoder
R203), the Register Parser (43_register_parser R351-R357), the wire address (44_block_transfer R400), and a bus that never
answers (41_command_issuer R240). -/

namespace Sys2Proof.Machine

open Sys2Proof.Safety

/-! ## The handler -/

theorem mData_eq : mData = 0x0000033A#32 := by decide

theorem not_mPath_eq : ~~~mPath = 0xFFFFF8C5#32 := by decide

/-- The order of the handler's flags, by bit (60_exceptions R520; 10_state R49). -/
theorem isrError_bits (w : Word) :
    isrError w =
      if w.getLsbD 1 then some .dataCrcFail
      else if w.getLsbD 3 then some .dataTimeout
      else if w.getLsbD 4 then some .txUnderrun
      else if w.getLsbD 5 then some .rxOverrun
      else if w.getLsbD 9 then some .startBitError
      else none := by
  unfold isrError
  rw [hasFlag_bit w 1 (by decide) mDcrcfail (by decide), hasFlag_bit w 3 (by decide) mDtimeout (by decide),
    hasFlag_bit w 4 (by decide) mTxunderr (by decide), hasFlag_bit w 5 (by decide) mRxoverr (by decide),
    hasFlag_bit w 9 (by decide) mStbiterr (by decide)]

theorem isr_eq (s : State) :
    isr s =
      if s.bc.sta &&& 0x0000033A#32 = 0#32 then { s with bc := { s.bc with irq := false } }
      else
        { s with
          bc := { s.bc with mask := 0#32, irq := false }
          xfer := { s.xfer with pendErr := isrError s.bc.sta, done := true } } := by
  rw [← mData_eq]
  rfl

theorem applyBatch_singleton (e : Ev) (s : State) : applyBatch [e] s = applyEv e s := rfl

theorem dataMove_xfer (f : Word) (s : State) : (dataMove f s).xfer = s.xfer := by
  unfold dataMove
  split
  · rfl
  · split
    · unfold armedMove
      dsimp only
      split
      · exact dmaMove_xfer _ _
      · rfl
    · split <;> rfl

/-- Only the handler writes the transfer cells (10_state R45). -/
theorem applyEv_xfer {e : Ev} (he : e ≠ .isr) (s : State) : (applyEv e s).xfer = s.xfer := by
  cases e with
  | isr => exact absurd rfl he
  | data f => exact dataMove_xfer f s
  | respond a rc w1 w2 w3 w4 =>
    show (respond a rc w1 w2 w3 w4 s).xfer = _
    unfold respond
    split <;> rfl
  | tick | pins | pathIdle | card => rfl

/-! ## The flags of the data path -/

theorem hasFlag_eq_true_iff (s m : Word) : hasFlag s m = true ↔ s &&& m ≠ 0#32 := bne_iff_ne

theorem hasFlag_eq_false_iff (s m : Word) : hasFlag s m = false ↔ s &&& m = 0#32 := by
  rw [← Bool.not_eq_true, hasFlag_eq_true_iff, not_not]

theorem hasFlag_mDataend (f : Word) : hasFlag f mDataend = f.getLsbD 8 := hasFlag_bit f 8 (by decide) mDataend (by decide)

theorem dataMove_breach {f : Word} {s : State} (h : f &&& 0xFFFFF8C5#32 ≠ 0#32 ∨ (s.bc.dma = none ∧ s.bc.late = false)) :
    dataMove f s = breach s := by
  unfold dataMove
  by_cases hbad : f &&& 0xFFFFF8C5#32 ≠ 0#32
  · rw [if_pos (by rw [not_mPath_eq]; exact (hasFlag_eq_true_iff _ _).2 hbad)]
  · obtain ⟨hd, hl⟩ := h.resolve_left hbad
    rw [hd, hl]
    split <;> rfl

theorem dataMove_late {f : Word} {s : State} (hf : f &&& 0xFFFFF8C5#32 = 0#32) (hd : s.bc.dma = none) (hl : s.bc.late = true) :
    dataMove f s = { s with bc := { s.bc with sta := s.bc.sta ||| f } } := by
  unfold dataMove
  rw [if_neg (by rw [not_mPath_eq, Bool.not_eq_true]; exact (hasFlag_eq_false_iff _ _).2 hf), hd]
  exact if_pos hl

theorem dataMove_armed {f : Word} {s : State} {d : Dma} (hf : f &&& 0xFFFFF8C5#32 = 0#32) (hd : s.bc.dma = some d) :
    dataMove f s = armedMove f d s := by
  unfold dataMove
  rw [if_neg (by rw [not_mPath_eq, Bool.not_eq_true]; exact (hasFlag_eq_false_iff _ _).2 hf), hd]

/-- A flag of the data path is no act flag: it stays set while the act flags fall. -/
theorem path_survives {f : Word} (hf : f &&& 0xFFFFF8C5#32 = 0#32) (sta act : Word) (hact : act = mTxact ||| mRxact ∨ act = 0#32) :
    ((sta ||| f) &&& ~~~act) &&& f = f := by
  have hdisjoint : act &&& f = 0#32 := by
    rcases hact with rfl | rfl
    · have hin : (mTxact ||| mRxact) &&& 0xFFFFF8C5#32 = mTxact ||| mRxact := by decide
      rw [← hin, BitVec.and_assoc, BitVec.and_comm _ f, hf, BitVec.and_zero]
    · exact BitVec.zero_and
  ext i hi
  have hbit : (act &&& f)[i] = false := by rw [hdisjoint, BitVec.getElem_zero]
  simp only [BitVec.getElem_and, BitVec.getElem_or, BitVec.getElem_not] at hbit ⊢
  cases hfi : f[i] <;> cases hai : act[i] <;> simp_all

theorem dmaMove_inp (d : Dma) (s : State) : (dmaMove d s).inp = s.inp := by
  unfold dmaMove
  split <;> rfl

/-- The bytes that a first DATAEND moves (60_exceptions R546 (d), 70 R616). -/
theorem dmaMove_bytes (d : Dma) (s : State) :
    (d.dir = .rx →
      (realBytes s = true → (dmaMove d s).mem = s.mem.write d.buf (s.card.mem.readRange s.card.addr d.len)) ∧
        (dmaMove d s).card.mem = s.card.mem) ∧
    (d.dir = .tx →
      (realBytes s = true → (dmaMove d s).card.mem = s.card.mem.write s.card.addr (s.mem.readRange d.buf d.len)) ∧
        (dmaMove d s).mem = s.mem) := by
  obtain ⟨dir, buf, len⟩ := d
  constructor <;> rintro ⟨⟩ <;> refine ⟨fun hreal => ?_, rfl⟩ <;> unfold dmaMove <;> dsimp only <;> rw [exchanged_real hreal]

/-- The state DMA leaves of one flag word of an armed transfer: the bytes move with the first DATAEND alone. -/
theorem armedMove_parts (f : Word) (d : Dma) (s : State) :
    let u := if hasFlag f mDataend && !s.bc.moved then dmaMove d s else s
    (armedMove f d s).mem = u.mem ∧ (armedMove f d s).card = u.card ∧ (armedMove f d s).free = u.free ∧
      (armedMove f d s).inp = s.inp ∧ (armedMove f d s).bc.dma = s.bc.dma ∧
      (armedMove f d s).bc.moved = (s.bc.moved || hasFlag f mDataend) := by
  intro u
  have hu : u.inp = s.inp ∧ u.bc = s.bc := by
    show (if hasFlag f mDataend && !s.bc.moved then dmaMove d s else s).inp = s.inp ∧
      (if hasFlag f mDataend && !s.bc.moved then dmaMove d s else s).bc = s.bc
    split
    · exact ⟨dmaMove_inp d s, dmaMove_bc d s⟩
    · exact ⟨rfl, rfl⟩
  obtain ⟨hinp, hbc⟩ := hu
  have hdma : u.bc.dma = s.bc.dma := by rw [hbc]
  exact ⟨rfl, rfl, rfl, hinp, hdma, rfl⟩

theorem armedMove_flags {f : Word} (hf : f &&& 0xFFFFF8C5#32 = 0#32) (d : Dma) (s : State) : (armedMove f d s).bc.sta &&& f = f := by
  show ((s.bc.sta ||| f) &&& ~~~(if hasFlag f mData then mTxact ||| mRxact else 0#32)) &&& f = f
  refine path_survives hf _ _ ?_
  split
  · exact .inl rfl
  · exact .inr rfl

/-- Settles O13: the handler by the bits of its flags, the other agents by what each move leaves, and the data path by whether a
transfer is armed. -/
theorem handlerOrder : Obligations.HandlerOrder := by
  refine ⟨fun s => ?handler, fun e s => ?others, fun f s => ⟨fun h => ?bad, fun hf hd hl => ?late, fun d hf hd => ?armed⟩⟩
  case handler => rw [isr_eq, isrError_bits]
  case others =>
    have m := moved_applyEv e s
    exact ⟨m.desc, m.neg, m.seq, m.multi, m.host, m.log, fun he => applyEv_xfer he s⟩
  case bad => exact dataMove_breach h
  case late => exact dataMove_late (not_not.1 hf) hd hl
  case armed =>
    have hf := not_not.1 hf
    show _ ∧ _
    rw [show applyEv (.data f) s = armedMove f d s from dataMove_armed hf hd]
    obtain ⟨hmem, hcard, hfree, hinp, hdma, hmoved⟩ := armedMove_parts f d s
    rw [hasFlag_mDataend] at hmem hcard hfree hmoved
    refine ⟨hdma, hinp, armedMove_flags hf d s, fun hno => ?_, fun h8 => by rw [hmoved, h8, Bool.or_true], fun h8 hfirst => ?_⟩
    · have hcond : (f.getLsbD 8 && !s.bc.moved) = false := by
        rcases hno with h | h
        · rw [h, Bool.false_and]
        · rw [h, Bool.not_true, Bool.and_false]
      rw [hcond] at hmem hcard hfree
      exact ⟨hmem, hcard, hfree⟩
    · rw [h8, hfirst] at hmem hcard
      rw [hmem, hcard]
      exact dmaMove_bytes d s

/-! ## The R1 table -/

theorem decodeResponse_r1 {kind : Kind} (hk : kind = .r1 ∨ kind = .r1b) (idx : BitVec 6) (b : Bc) :
    decodeResponse kind idx b = crcChecks b.sta (statusChecks idx b.respcmd b.resp1 r1Table (.status b.resp1)) := by
  rcases hk with rfl | rfl <;> rfl

theorem firstError_cons (w : Word) (n : Nat) (e : TransferError) (t : List (Nat × TransferError)) :
    firstError w ((n, e) :: t) = if w.getLsbD n then some e else firstError w t := rfl

/-- What the decoder makes of the first error of a table. -/
def statusResult (ok : Fields) : Option TransferError → Res Fields
  | some e => .err e
  | none => .ok ok

theorem statusChecks_echo (idx : BitVec 6) (w : Word) (table : List (Nat × TransferError)) (ok : Fields) :
    statusChecks idx idx w table ok = statusResult ok (firstError w table) := by
  unfold statusChecks
  rw [if_pos rfl]
  cases firstError w table <;> rfl

theorem statusResult_ite (ok : Fields) (c : Bool) (e : TransferError) (x : Option TransferError) :
    statusResult ok (if c then some e else x) = if c then .err e else statusResult ok x := by
  cases c <;> rfl

/-- Settles O15: the controller's checks pass, and the table is read bit by bit. -/
theorem r1Priority : Obligations.R1Priority := by
  refine ⟨fun kind idx b hk ht hc hr hecho => ?_, firstError_r1_iff⟩
  rw [decodeResponse_r1 hk, crcChecks_of_answered ht hc hr, hecho, statusChecks_echo]
  simp only [r1Table, firstError_cons, statusResult_ite]
  rfl

/-! ## The Register Parser -/

/-- What a CSD that parses is, by the card type (43_register_parser R351, R357). -/
theorem parseCsd_ok {raw : Reg128} {t : CardType} {c : Csd} (h : parseCsd raw t = .ok c) :
    c = if t = .highCapacity then v2Fields raw (commonFields raw) else v1Fields raw (commonFields raw) := by
  unfold parseCsd at h
  cases t <;> dsimp only at h <;> first | (split at h <;> cases h; rfl) | (cases h; rfl)

theorem parseCsd_refused {raw : Reg128} {t : CardType} (ht : t ∈ [CardType.standardV1, .standardV2, .highCapacity])
    (h : 2 ≤ (raw.extractLsb' 126 2).toNat) : parseCsd raw t = .err .unsupportedHardware := by
  simp only [List.mem_cons, List.not_mem_nil, or_false] at ht
  rcases ht with rfl | rfl | rfl <;> exact if_pos (decide_eq_true h)

theorem parseCsd_accepted {raw : Reg128} {t : CardType} (ht : t ∈ [CardType.standardV1, .standardV2, .highCapacity])
    (h : (raw.extractLsb' 126 2).toNat ≤ 1) : ∃ c, parseCsd raw t = .ok c := by
  have hno : ¬ 2 ≤ (raw.extractLsb' 126 2).toNat := by omega
  simp only [List.mem_cons, List.not_mem_nil, or_false] at ht
  rcases ht with rfl | rfl | rfl <;> exact ⟨_, if_neg (by rw [decide_eq_true_eq]; exact hno)⟩

/-- Settles O18: the layout by the card type, and the structure field of an SD card. -/
theorem csdDispatch : Obligations.CsdDispatch := by
  refine fun raw ct => ⟨fun hsd => ⟨parseCsd_refused hsd, parseCsd_accepted hsd⟩, fun hmmc => ?mmc, fun c hc => ?layout⟩
  case mmc => subst hmmc; exact ⟨_, rfl⟩
  case layout =>
    rw [parseCsd_ok hc]
    split <;> exact ⟨rfl, rfl⟩

/-- Settles O19: both layouts keep the common fields. -/
theorem registerFields : Obligations.RegisterFields := by
  refine ⟨fun raw ct c hc => ?_, fun raw => ⟨rfl, rfl, rfl, rfl, rfl, rfl, rfl⟩⟩
  rw [parseCsd_ok hc]
  split <;> exact ⟨rfl, rfl, rfl, rfl, rfl, rfl, rfl, rfl, rfl, rfl, rfl, rfl, rfl, rfl, rfl, rfl, rfl, rfl, rfl, rfl, rfl, rfl, rfl⟩

theorem byteOf_bit (r : Reg128) (k i : Nat) : (byteOf r k).getLsbD i = (decide (i < 8) && r.getLsbD (120 - 8 * k + i)) := by
  unfold byteOf
  exact BitVec.getLsbD_extractLsb' ..

/-- C_SIZE of layout V1 by bytes 6, 7 and 8 (43_register_parser R353). -/
theorem cSize_v1_bytes (raw : Reg128) :
    (raw.extractLsb' 62 12).setWidth 22 =
      ((byteOf raw 6 &&& 0x03#8).setWidth 22 <<< 10) ||| ((byteOf raw 7).setWidth 22 <<< 2) |||
        ((byteOf raw 8 &&& 0xC0#8).setWidth 22 >>> 6) := by
  apply BitVec.eq_of_getLsbD_eq
  intro i hi
  simp only [BitVec.getLsbD_or, BitVec.getLsbD_shiftLeft, BitVec.getLsbD_ushiftRight, BitVec.getLsbD_setWidth,
    BitVec.getLsbD_and, BitVec.getLsbD_extractLsb', byteOf_bit]
  interval_cases i <;> simp

/-- C_SIZE_MULT of layout V1 by bytes 9 and 10 (43_register_parser R353). -/
theorem cSizeMult_v1_bytes (raw : Reg128) :
    (raw.extractLsb' 47 3).setWidth 8 = ((byteOf raw 9 &&& 0x03#8) <<< 1) ||| ((byteOf raw 10 &&& 0x80#8) >>> 7) := by
  apply BitVec.eq_of_getLsbD_eq
  intro i hi
  simp only [BitVec.getLsbD_or, BitVec.getLsbD_shiftLeft, BitVec.getLsbD_ushiftRight, BitVec.getLsbD_setWidth,
    BitVec.getLsbD_and, BitVec.getLsbD_extractLsb', byteOf_bit]
  interval_cases i <;> simp

/-- C_SIZE of layout V2 by bytes 7, 8 and 9 (43_register_parser R354). -/
theorem cSize_v2_bytes (raw : Reg128) :
    raw.extractLsb' 48 22 =
      ((byteOf raw 7 &&& 0x3F#8).setWidth 22 <<< 16) ||| ((byteOf raw 8).setWidth 22 <<< 8) ||| (byteOf raw 9).setWidth 22 := by
  apply BitVec.eq_of_getLsbD_eq
  intro i hi
  simp only [BitVec.getLsbD_or, BitVec.getLsbD_shiftLeft, BitVec.getLsbD_setWidth, BitVec.getLsbD_and,
    BitVec.getLsbD_extractLsb', byteOf_bit]
  interval_cases i <;> simp

/-- Settles O20: each layout's own fields, and their byte forms bit by bit. -/
theorem layoutFields : Obligations.LayoutFields := by
  refine ⟨fun raw ct c hct hc => ?v1, fun raw c hc => ?v2⟩
  case v1 =>
    have hne : ct ≠ .highCapacity := by rintro rfl; simp at hct
    rw [parseCsd_ok hc, if_neg hne]
    exact ⟨rfl, rfl, rfl, rfl, rfl, rfl, cSize_v1_bytes raw, cSizeMult_v1_bytes raw⟩
  case v2 =>
    rw [parseCsd_ok hc, if_pos rfl]
    exact ⟨rfl, cSize_v2_bytes raw, rfl, rfl, rfl, rfl, rfl⟩

/-! ## The wire address -/

theorem wireAddr_highCapacity {d : Descriptor} (h : d.cardType = .highCapacity) (a : Word) : wireAddr d a = a :=
  if_pos (decide_eq_true h)

theorem wireAddr_byte {d : Descriptor} (h : d.cardType ≠ .highCapacity) (a : Word) : wireAddr d a = a * 512#32 :=
  if_neg (by simpa [blockAddressed] using h)

/-- A byte address below 2^32 does not wrap. -/
theorem wireAddr_byte_toNat {d : Descriptor} (h : d.cardType ≠ .highCapacity) {a : Word} (ha : a.toNat * 512 < 2 ^ 32) :
    (wireAddr d a).toNat = a.toNat * 512 := by
  rw [wireAddr_byte h, BitVec.toNat_mul]
  exact Nat.mod_eq_of_lt ha

/-- A published card that takes byte addresses has at most 2 GiB (43_register_parser R353, R360). -/
theorem capacity_le_of_published {d : Descriptor} (hp : Published d) (hv : d.valid = true) (h : d.cardType ≠ .highCapacity) :
    d.capacity.toNat ≤ 4194304 := by
  obtain ⟨-, hcsd, -, hcap⟩ := hp hv
  have hc := parseCsd_ok hcsd
  rw [if_neg h] at hc
  have hsize : d.csd.cSize.toNat < 4096 := by
    rw [hc]
    show ((d.csdRaw.extractLsb' 62 12).setWidth 22).toNat < 4096
    rw [BitVec.toNat_setWidth]
    have := (d.csdRaw.extractLsb' 62 12).isLt
    omega
  have hle := capacityNat_le_of_cSize_lt h hsize
  obtain ⟨n, hn, hnat⟩ := capacity_of_fits (c := d.csd) (t := d.cardType) (by omega)
  rw [hcap] at hn
  cases hn
  omega

/-- Settles O22: a published capacity keeps the byte address below 2^31, and the card reads it by its own mode. -/
theorem wireAddress : Obligations.WireAddress := by
  refine ⟨fun d a hp hv => ⟨fun h => wireAddr_highCapacity h a, fun h => ?_⟩, fun s hp hv hin => ?_⟩
  · have hcap := capacity_le_of_published hp hv h
    exact ⟨hcap, fun ha => ⟨wireAddr_byte_toNat h (by omega), by omega⟩⟩
  · have hw : NoWrap s := by
      by_cases h : s.desc.cardType = .highCapacity
      · exact .inl h
      · have hcap := capacity_le_of_published hp hv h
        exact .inr (by omega)
    have hopen := openedAt_cases hw
    refine ⟨hw, fun hb => openedAt_eq hb hw, fun hb ht => ?_, fun hb ht => ?_⟩
    · rw [hopen, if_neg ht, if_pos hb]
    · rw [hopen, if_pos ht, hb, if_neg (by decide), Nat.one_mul]

/-! ## A bus that never answers -/

theorem commandTimeoutMs_eq (p : Params) (idx : BitVec 6) :
    commandTimeoutMs p idx = if idx = 0#6 then max 1 p.cmd0Timeout.toNat else max 1 p.cmdTimeout.toNat := rfl

theorem commandTimeoutMs_bounds (p : Params) (idx : BitVec 6) :
    1 ≤ commandTimeoutMs p idx ∧ commandTimeoutMs p idx < 2 ^ 32 := by
  have h0 := p.cmd0Timeout.isLt
  have h1 := p.cmdTimeout.isLt
  rw [commandTimeoutMs_eq]
  split <;> omega

/-- A deadline that has only just begun is waited for in full. -/
theorem fairTick_ms {m0 t : Nat} {s : State} (hm : s.inp.ms = m0) (h1 : 1 ≤ t) (h2 : t < 2 ^ 32) : (fairTick m0 t s).inp.ms = m0 + t := by
  have hno : ¬ expired s.inp.ms m0 t = true := by
    rw [expired_iff (by omega) (by omega)]
    omega
  unfold fairTick
  rw [if_neg hno]

theorem nowAt_sub (m t : Nat) (ht : t < 2 ^ 32) : (nowAt (m + t) - nowAt m).toNat = t := by
  unfold nowAt
  rw [BitVec.toNat_sub, BitVec.toNat_ofNat, BitVec.toNat_ofNat]
  omega

/-- Settles O25: with nothing left on the schedule the wait lasts to its deadline and no longer. -/
theorem silentBusTimesOut : Obligations.SilentBusTimesOut := by
  intro idx arg kind s hs
  have hissued := issueCmd_issued idx arg kind s
  obtain ⟨h1, h2⟩ := commandTimeoutMs_bounds s.cfg idx
  refine ⟨issueCmd_silent idx arg kind s hs, ?_, ?_, extract_static hissued.static⟩
  · have hms : (issueCmd idx arg kind s).1.inp.ms = s.inp.ms + commandTimeoutMs s.cfg idx := by
      rw [issueCmd_silent_eq idx arg kind s hs]
      exact fairTick_ms ((congrArg Inputs.ms (bcSend_inp idx arg kind (bcClearStatic s)) :)) h1 h2
    rw [hms, nowAt_sub _ _ h2, ← commandTimeoutMs_eq]
  · rw [hissued.wire, List.length_append]
    rfl

end Sys2Proof.Machine
end

section
/-! PROOFS. The bus commands run by themselves (41_command_issuer R250-R272): what each completes with on a prompt answer,
the bit it leaves for the next (30_encoding R130), and what none of them writes (41 R243). -/

namespace Sys2Proof.Machine

open Sys2Proof.Safety

/-! ## A bus command by itself -/

section
variable {i : Instr} {app : Bool} {idx : BitVec 6} {arg : Word} {crc : BitVec 7} {s t : State}

/-- What a bus command that is not refused leaves: the issuer's state, with its Result kept. -/
theorem exec_frame_next (hi : frameParts i = some (app, idx, arg, crc)) (h : exec i s = .next t) :
    s.host.hbusy = false ∧ s.app = app ∧
      t = { (issueCmd idx arg (kindOf i) s).1 with cmdResult := some (issueCmd idx arg (kindOf i) s).2 } := by
  rw [exec_frame hi] at h
  obtain ⟨hidle, happ, ht, -⟩ := busCommand_next.1 h
  exact ⟨hidle, happ, ht⟩

/-- The command as a frame by itself puts it on the bus. -/
theorem sentAs_of_app (happ : s.app = app) (idx : BitVec 6) (arg : Word) (kind : Kind) :
    sentAs idx arg kind s = { seq := s.seq, app := app, idx := idx, arg := arg, kind := kind } := by
  rw [sentAs, happ]

variable {a : Answer} {rc : BitVec 6} {w1 w2 w3 w4 : Word} {r : List (List Ev)}

theorem exec_frame_prompted (hi : frameParts i = some (app, idx, arg, crc)) (hidle : s.host.hbusy = false) (happ : s.app = app)
    (hs : s.inp.sched = promptly a rc w1 w2 w3 w4 ++ r) :
    ∃ u, exec i s =
        .next { u with cmdResult := some (answerOf (kindOf i) idx a rc (answerAt idx arg (kindOf i) a (w1, w2, w3, w4) s)) } ∧
      Prompted idx arg (kindOf i) a (answerAt idx arg (kindOf i) a (w1, w2, w3, w4) s) r
        (answerOf (kindOf i) idx a rc (answerAt idx arg (kindOf i) a (w1, w2, w3, w4) s)) s u := by
  obtain ⟨u, hissue, hp⟩ := issueCmd_prompted idx arg (kindOf i) a rc w1 w2 w3 w4 r s hs
  refine ⟨u, (exec_frame hi s).trans (busCommand_next.2 ⟨hidle, happ, by rw [hissue], ?_⟩), hp⟩
  rw [hissue, hp.inp]

/-- The same of a command that is known not to be refused. -/
theorem prompted_of_exec (hi : frameParts i = some (app, idx, arg, crc)) (hs : s.inp.sched = promptly a rc w1 w2 w3 w4 ++ r)
    (h : exec i s = .next t) :
    s.app = app ∧
      t.cmdResult = some (answerOf (kindOf i) idx a rc (answerAt idx arg (kindOf i) a (w1, w2, w3, w4) s)) ∧
      ∃ u, t.card = u.card ∧ Prompted idx arg (kindOf i) a (answerAt idx arg (kindOf i) a (w1, w2, w3, w4) s) r
        (answerOf (kindOf i) idx a rc (answerAt idx arg (kindOf i) a (w1, w2, w3, w4) s)) s u := by
  obtain ⟨hidle, happ, -⟩ := exec_frame_next hi h
  obtain ⟨u, hexec, hp⟩ := exec_frame_prompted hi hidle happ hs
  rw [h] at hexec
  cases hexec
  exact ⟨happ, rfl, u, rfl, hp⟩

/-- What every completed command shows: its Result, itself on the bus, the static flags clear, the schedule read, SEQ kept. -/
theorem exec_frame_completes (hi : frameParts i = some (app, idx, arg, crc)) (hidle : s.host.hbusy = false) (happ : s.app = app)
    (hs : s.inp.sched = promptly a rc w1 w2 w3 w4 ++ r) :
    ∃ t, exec i s = .next t ∧
      t.cmdResult = some (answerOf (kindOf i) idx a rc (answerAt idx arg (kindOf i) a (w1, w2, w3, w4) s)) ∧
      (t.card.csd = s.card.csd ∧
        t.card.state =
          if cardAccepts (kindOf i) a (answerAt idx arg (kindOf i) a (w1, w2, w3, w4) s).1 then
            cardNext { seq := s.seq, app := app, idx := idx, arg := arg, kind := kindOf i }
              (answerAt idx arg (kindOf i) a (w1, w2, w3, w4) s).1 s.card.state
          else s.card.state) ∧
      t.wire = s.wire ++ [{ seq := s.seq, app := app, idx := idx, arg := arg, kind := kindOf i }] ∧
      t.bc.sta.extractLsb' 0 11 = 0#11 ∧ t.inp.sched = r ∧ t.seq = s.seq := by
  obtain ⟨u, hexec, hp⟩ := exec_frame_prompted hi hidle happ hs
  have k := hp.issued
  have hwire := k.wire
  have hstate := hp.state
  rw [sentAs_of_app happ] at hwire hstate
  exact ⟨_, hexec, rfl, ⟨k.csd, hstate⟩, hwire, extract_static k.static, congrArg Inputs.sched hp.inp, k.seq⟩

end

/-! ## The commands answered by R1 and R1b -/

/-- The sixteen commands answered by R1 or R1b: none of them is CMD9, and only CMD55 has the index 55. -/
theorem r1Commands_kind {i : Instr} {app : Bool} {idx : BitVec 6} {arg : Word} {crc : BitVec 7}
    (hmem : i ∈ [Instr.cmd7 arg crc, .cmd12 arg crc, .cmd13 arg crc, .cmd16 arg crc, .cmd17 arg crc, .cmd18 arg crc, .cmd24 arg crc,
      .cmd25 arg crc, .cmd32 arg crc, .cmd33 arg crc, .cmd35 arg crc, .cmd36 arg crc, .cmd38 arg crc, .cmd55 arg crc,
      .acmd6 arg crc, .acmd23 arg crc])
    (hi : frameParts i = some (app, idx, arg, crc)) :
    (kindOf i = .r1 ∨ kindOf i = .r1b) ∧ idx ≠ 9#6 ∧ (idx = 55#6 → app = false) := by
  simp only [List.mem_cons, List.not_mem_nil, or_false] at hmem
  rcases hmem with rfl | rfl | rfl | rfl | rfl | rfl | rfl | rfl | rfl | rfl | rfl | rfl | rfl | rfl | rfl | rfl <;> cases hi <;>
    exact ⟨by simp [kindOf], by decide, by decide⟩

/-- The status word as the card sends it, by bits (30_encoding R125, 41_command_issuer R269). -/
theorem statusWordOf_r1 {c : Sent} (hk : c.kind = .r1 ∨ c.kind = .r1b) (happ : c.idx = 55#6 → c.app = false) (st : BitVec 4) (w : Word) :
    statusWordOf c st w =
      if c.idx = 55#6 ∧ ((w &&& 0xFFFFE1FF#32) ||| (st.setWidth 32 <<< 9)) &&& 0xFDFFE008#32 = 0#32 then
        ((w &&& 0xFFFFE1FF#32) ||| (st.setWidth 32 <<< 9)) ||| 0x00000020#32
      else (w &&& 0xFFFFE1FF#32) ||| (st.setWidth 32 <<< 9) := by
  have hreport : reportState c.kind st w = (w &&& 0xFFFFE1FF#32) ||| (st.setWidth 32 <<< 9) := by
    rcases hk with hk | hk <;> rw [hk] <;> rfl
  unfold statusWordOf
  dsimp only
  by_cases h55 : c.idx = 55#6
  · simp only [hreport, hasFlag_eq_false_iff, r1Errors, happ h55, true_and]
  · simp only [hreport, h55, false_and, and_false, if_false]

theorem answerOf_r1 {kind : Kind} (hk : kind = .r1 ∨ kind = .r1b) (idx rc : BitVec 6) (x : Word × Word × Word × Word) :
    answerOf kind idx .crcGood rc x = statusChecks idx rc x.1 r1Table (.status x.1) := by
  rcases hk with rfl | rfl <;> rfl

theorem statusChecks_eq (idx rc : BitVec 6) (w : Word) (table : List (Nat × TransferError)) (ok : Fields) :
    statusChecks idx rc w table ok =
      if rc ≠ idx then .err .illegalCommand else statusResult ok (firstError w table) := by
  by_cases h : rc = idx
  · subst h
    rw [statusChecks_echo, if_neg (not_not.2 rfl)]
  · rw [if_pos h]
    exact if_neg h

/-- Settles O26: the decoder's checks on the status word as the card sends it. -/
theorem r1CommandsComplete : Obligations.R1CommandsComplete := by
  intro i app idx arg crc rc w r s hmem hi hidle happ hs
  obtain ⟨hk, h9, h55⟩ := r1Commands_kind hmem hi
  obtain ⟨t, hexec, hres, -, hrest⟩ := exec_frame_completes hi hidle happ hs
  refine ⟨t, hexec, ?_, hrest⟩
  rw [hres, answerAt_good h9 arg (by rcases hk with hk | hk <;> rw [hk] <;> decide), answerOf_r1 hk,
    statusWordOf_r1 hk (by rw [sentAs_of_app happ]; exact h55), statusChecks_eq]
  rfl

/-! ## The commands answered by R2 -/

/-- A long response: the register as drawn, but the card's own CSD in Standby (20_memory R101). -/
theorem answerAt_r2 {idx : BitVec 6} (h55 : idx ≠ 55#6) (arg : Word) (reg : Reg128) {s : State} (happ : s.app = false) :
    answerAt idx arg .r2 .crcGood (wordsOf reg) s = wordsOf (if idx = 9#6 ∧ s.card.state = 3#4 then s.card.csd else reg) := by
  by_cases h : idx = 9#6 ∧ s.card.state = 3#4
  · obtain ⟨rfl, hst⟩ := h
    rw [if_pos ⟨rfl, hst⟩]
    exact answerAt_csd happ hst
  · rw [if_neg h]
    have hno : readsCsd (sentAs idx arg .r2 s) .crcGood s.card = false := by
      rw [← Bool.not_eq_true]
      simp only [readsCsd, sentAs, Bool.and_eq_true, beq_iff_eq]
      rintro ⟨⟨⟨-, h9⟩, -⟩, hst⟩
      exact h ⟨h9, hst⟩
    unfold answerAt answerWords
    rw [hno, if_neg (by decide), ocrOf_other (.inl (by decide : Kind.r2 ≠ .r3)), if_pos rfl, statusWordOf_other h55]
    rfl

theorem answerOf_r2 (idx rc : BitVec 6) (x : Word × Word × Word × Word) : answerOf .r2 idx .crcGood rc x = .ok (.reg (regOf x)) := rfl

/-- Settles O27: the register of the long response, by the card's own CSD. -/
theorem r2CommandsComplete : Obligations.R2CommandsComplete := by
  intro i idx arg crc reg r s hmem hi hidle happ hs
  have hkind : kindOf i = .r2 ∧ idx ≠ 55#6 := by
    simp only [List.mem_cons, List.not_mem_nil, or_false] at hmem
    rcases hmem with rfl | rfl <;> cases hi <;> exact ⟨rfl, by decide⟩
  obtain ⟨hk, h55⟩ := hkind
  obtain ⟨t, hexec, hres, ⟨hcsd, -⟩, hwire, hrest⟩ := exec_frame_completes hi hidle happ hs
  rw [hk] at hres hwire
  refine ⟨t, hexec, ?_, hcsd, hwire, hrest⟩
  rw [hres]
  show some (answerOf .r2 idx .crcGood 63#6 (answerAt idx arg .r2 .crcGood (wordsOf reg) s)) = _
  rw [answerAt_r2 h55 arg reg happ, answerOf_r2, regOf_wordsOf]

/-! ## The commands answered by R3 -/

theorem answerOf_r3 {a : Answer} (ha : a ≠ .noResponse) (idx rc : BitVec 6) (x : Word × Word × Word × Word) :
    answerOf .r3 idx a rc x = .ok (.ocr x.1) := by
  cases a with
  | noResponse => exact absurd rfl ha
  | crcGood | crcBad => rfl

theorem cardAccepts_arrived {kind : Kind} (hk : kind = .r2 ∨ kind = .r3 ∨ kind = .r7) {a : Answer} (ha : a ≠ .noResponse) (w : Word) :
    cardAccepts kind a w = true := by
  rcases hk with rfl | rfl | rfl <;> exact bne_iff_ne.2 ha

/-- The OCR as an ACMD41 or a CMD1 is answered with it (30_encoding R127; log entry 29). -/
theorem ocrOf_r3 {seq : Seq} {app : Bool} {idx : BitVec 6} {arg : Word} (happ : app = true ↔ idx = 41#6) (byBlock : Bool) (w : Word) :
    ocrOf { seq := seq, app := app, idx := idx, arg := arg, kind := .r3 } byBlock w =
      if app = true ∧ w.getLsbD 31 = true then if byBlock then w ||| 0x40000000#32 else w &&& 0xBFFFFFFF#32 else w := by
  unfold ocrOf
  simp only [true_and, happ]

/-- Settles O28: the OCR word, and the card-state transition where its bit 31 is set. -/
theorem r3CommandsComplete : Obligations.R3CommandsComplete := by
  intro i app idx arg crc a rc w w2 w3 w4 r s hmem hi ha hidle happ hs
  have hkind : kindOf i = .r3 ∧ ((app, idx) = (false, 1#6) ∨ (app, idx) = (true, 41#6)) := by
    simp only [List.mem_cons, List.not_mem_nil, or_false] at hmem
    rcases hmem with rfl | rfl <;> cases hi
    · exact ⟨rfl, .inl rfl⟩
    · exact ⟨rfl, .inr rfl⟩
  obtain ⟨hk, hidx⟩ := hkind
  have hne : idx ≠ 9#6 ∧ idx ≠ 55#6 ∧ (app = true ↔ idx = 41#6) := by
    rcases hidx with h | h <;> cases h <;> decide
  obtain ⟨h9, h55, h41⟩ := hne
  obtain ⟨t, hexec, hres, ⟨-, hstate⟩, hwire, hrest⟩ := exec_frame_completes hi hidle happ hs
  rw [hk] at hres hstate hwire
  rw [answerAt_r3 h9 h55] at hres hstate
  refine ⟨t, hexec, ?_, fun hready hst => ?_, hwire, hrest⟩
  · rw [hres, answerOf_r3 ha, sentAs_of_app happ, ocrOf_r3 h41]
  · rw [hstate, if_pos (cardAccepts_arrived (.inr (.inl rfl)) ha _), hst]
    have hword : (ocrOf (sentAs idx arg .r3 s) s.card.byBlock w).getLsbD 31 = true := (ocrOf_ready _ _ _).trans hready
    rcases hidx with h | h <;> cases h <;> exact if_pos hword

/-! ## CMD0, CMD3 and CMD8 -/

theorem answerOf_r7 (idx rc : BitVec 6) (a : Answer) (x : Word × Word × Word × Word) :
    answerOf .r7 idx a rc x = if a = .noResponse then .err .cmdResponseTimeout else .ok .empty := by
  cases a <;> rfl

/-- CMD3: an R6 without its three error bits is decoded to the RCA in its upper half (40_response_decoder R209). -/
theorem answerOf_cmd3 (arg : Word) {w : Word} (hw : w &&& 0x0000E000#32 = 0#32) (s : State) :
    ∃ st, answerOf .r6 3#6 .crcGood 3#6 (answerAt 3#6 arg .r6 .crcGood (w, 0#32, 0#32, 0#32) s) =
      .ok (.rca (w.extractLsb' 16 16) st) := by
  rw [answerAt_good (by decide) arg (by decide), statusWordOf_other (by exact (by decide : (3#6 : BitVec 6) ≠ 55#6))]
  have hnone : firstError (reportState .r6 s.card.state w) r6Table = none := by
    rw [(firstError_reported _ _).2]
    exact firstError_r6 ((hasFlag_eq_false_iff _ _).2 hw)
  refine ⟨(reportState .r6 s.card.state w).extractLsb' 0 16, ?_⟩
  show statusChecks 3#6 3#6 (reportState .r6 s.card.state w) r6Table _ = _
  rw [statusChecks_echo, hnone, reported_rca]
  rfl

/-- Settles O29: each of the three by its kind's decoding. -/
theorem cmd0Cmd3Cmd8Complete : Obligations.Cmd0Cmd3Cmd8Complete := by
  intro arg crc a rc w w2 w3 w4 r s hidle happ
  refine ⟨fun hs => ?cmd0, fun hs hw => ?cmd3, fun hs => ?cmd8⟩
  case cmd0 =>
    obtain ⟨t, hexec, hres, ⟨-, hstate⟩, hrest⟩ := exec_frame_completes (i := .cmd0 arg crc) rfl hidle happ hs
    exact ⟨t, hexec, hres, hstate, hrest⟩
  case cmd3 =>
    obtain ⟨t, hexec, hres, -, hrest⟩ := exec_frame_completes (i := .cmd3 arg crc) rfl hidle happ hs
    obtain ⟨st, hst⟩ := answerOf_cmd3 arg hw s
    exact ⟨t, st, hexec, hres.trans (congrArg some hst), hrest⟩
  case cmd8 =>
    obtain ⟨t, hexec, hres, -, hrest⟩ := exec_frame_completes (i := .cmd8 arg crc) rfl hidle happ hs
    exact ⟨t, hexec, hres.trans (congrArg some (answerOf_r7 _ _ _ _)), hrest⟩

/-! ## The prefix bit -/

theorem prefixOf_iff (idx : BitVec 6) (r : Res Fields) : prefixOf idx r = true ↔ idx = 55#6 ∧ ∃ f, r = .ok f := by
  cases r with
  | ok f => exact beq_iff_eq.trans ⟨fun h => ⟨h, f, rfl⟩, fun h => h.1⟩
  | err e => exact ⟨nofun, fun ⟨_, _, h⟩ => nomatch h⟩

/-- Settles O30: the issuer leaves the prefix bit by the Result it returns. -/
theorem prefixBit : Obligations.PrefixBit := by
  intro i app idx arg crc s t hi h
  obtain ⟨-, -, rfl⟩ := exec_frame_next hi h
  show (issueCmd idx arg (kindOf i) s).1.app = true ↔ idx = 55#6 ∧ ∃ f, some (issueCmd idx arg (kindOf i) s).2 = some (.ok f)
  simp only [(issueCmd_issued idx arg (kindOf i) s).app, prefixOf_iff, Option.some.injEq]

/-! ## The frame of the bus commands -/

/-- A bus command is the one its application bit and index name. -/
theorem eq_of_frameParts {i j : Instr} {app : Bool} {idx : BitVec 6} {arg : Word} {crc : BitVec 7}
    (hi : frameParts i = some (app, idx, arg, crc)) (hj : frameParts j = some (app, idx, arg, crc)) : i = j := by
  have h := (decodeCommand_of_frameParts hi).symm.trans (decodeCommand_of_frameParts hj)
  cases h
  rfl

/-- No application command has the index 38 or 25. -/
theorem app_of_opening {i : Instr} {app : Bool} {idx : BitVec 6} {arg : Word} {crc : BitVec 7}
    (hi : frameParts i = some (app, idx, arg, crc)) (h : idx = 38#6 ∨ idx = 25#6) : app = false := by
  cases app with
  | false => rfl
  | true =>
    have hdec := decodeCommand_of_frameParts hi
    rcases h with rfl | rfl <;> cases hdec

/-- Only a CMD38 and a CMD25 leave a range of card storage open. -/
theorem openRange_frame {i : Instr} {app : Bool} {idx : BitVec 6} {arg : Word} {crc : BitVec 7}
    (hi : frameParts i = some (app, idx, arg, crc)) (h38 : i ≠ .cmd38 arg crc) (h25 : i ≠ .cmd25 arg crc) (s : State) :
    openRange idx arg s = (0, 0) := by
  refine openRange_none ?_ ?_ arg s <;> rintro rfl
  · cases app_of_opening hi (.inl rfl)
    exact h38 (eq_of_frameParts hi rfl)
  · cases app_of_opening hi (.inr rfl)
    exact h25 (eq_of_frameParts hi rfl)

theorem openRange_cmd38 {s : State} (happ : s.app = false) (arg : Word) : openRange 38#6 arg s = eraseRange s.card := by
  unfold openRange
  rw [sentAs_of_app happ]
  rfl

theorem openRange_cmd25 {s : State} (happ : s.app = false) (arg : Word) : openRange 25#6 arg s = preErased arg s.card := by
  unfold openRange
  rw [sentAs_of_app happ]
  rfl

/-- Settles O32: what the issuer leaves alone, and the range a CMD38 or a CMD25 opens. -/
theorem busCommandFrame : Obligations.BusCommandFrame := by
  intro i app idx arg crc s t hi hdma h
  obtain ⟨-, happ, rfl⟩ := exec_frame_next hi h
  have k := issueCmd_issued idx arg (kindOf i) s
  have hwire := k.wire
  rw [sentAs_of_app happ] at hwire
  have hopen := k.cardOpen hdma
  refine ⟨k.desc, k.neg, k.seq, k.host, k.log, k.multi, k.cfg, k.div, k.width, k.dma.elim id fun e => e.trans hdma, k.mask.symm,
    k.inbox, hwire, fun x => k.memOutside x (by simp [hdma]), fun h38 h25 x => ?plain, fun h38 x hx => ?erase, fun h25 x hx => ?preErase⟩
  case plain =>
    refine hopen x ?_
    rw [openRange_frame hi h38 h25]
    exact .inr (Nat.zero_le x)
  case erase =>
    subst h38
    cases hi
    rw [openRange_cmd38 happ] at hopen
    exact hopen x hx
  case preErase =>
    subst h25
    cases hi
    rw [openRange_cmd25 happ, preErased] at hopen
    dsimp only at hopen
    rcases hx with hx | hx | hx
    · exact hopen x (.inl hx)
    · by_cases hmmc : s.card.mmc = true
      · exact hopen x (by rw [if_pos hmmc]; omega)
      · exact hopen x (.inr (by rw [if_neg hmmc]; exact hx))
    · exact hopen x (by rw [if_pos hx]; omega)

end Sys2Proof.Machine
end

section
/-! PROOFS. The transfers whose commands are all answered and whose bytes all move (44_block_transfer R410-R413, R420-R423;
20_memory R92, R95), and the card effects of commands and transfers (41_command_issuer R252-R271). -/

namespace Sys2Proof.Machine

open Sys2Proof.Safety

/-! ## A data phase whose flags come at once -/

/-- Where the data phase stands once BC has set data flags and the handler has run. -/
def handledFor (dir : Dir) (count : Nat) (stop : Bool) (flags : Word) (rest : List (List Ev)) (c : State) : State :=
  setSched rest (applyBatch [.data flags, .isr] (armedFor dir count stop c))

section
variable {dir : Dir} {count : Nat} {stop : Bool} {flags : Word} {rest : List (List Ev)} {c : State}

theorem moved_handledFor (dir : Dir) (count : Nat) (stop : Bool) (flags : Word) (rest : List (List Ev)) (c : State) :
    Moved (armedFor dir count stop c) (handledFor dir count stop flags rest c) :=
  (moved_applyBatch _ _).trans (moved_setSched _ _)

theorem dataPhase_handled (hsch : c.inp.sched = [.data flags, .isr] :: rest) (hs : c.bc.sta &&& mStatic = 0#32)
    (hpath : hasFlag flags (~~~mPath) = false) (hf : hasFlag flags mData = true) :
    dataPhase dir count stop c =
      (dataCleanup (dataStop (handledFor dir count stop flags rest c)).1,
        dataResult (isrError flags) false (dataStop (handledFor dir count stop flags rest c)).2) := by
  have hraised := raised_eq (flags := flags) (s := armedFor dir count stop c) (d := _) rfl rfl rfl (armed_static hs dir) hpath hf
  have hlatched : (handledFor dir count stop flags rest c).xfer.pendErr = isrError flags := by
    show (applyBatch [.data flags, .isr] (armedFor dir count stop c)).xfer.pendErr = _
    rw [hraised]
  unfold dataPhase
  rw [dataWait_raised dir count stop hsch hs hpath hf]
  show (_, dataResult (handledFor dir count stop flags rest c).xfer.pendErr false _) = _
  rw [hlatched]
  rfl

theorem handledFor_inp (hs : c.bc.sta &&& mStatic = 0#32) (hpath : hasFlag flags (~~~mPath) = false) (hf : hasFlag flags mData = true) :
    (handledFor dir count stop flags rest c).inp = { c.inp with sched := rest } := by
  have hraised := raised_eq (flags := flags) (s := armedFor dir count stop c) (d := _) rfl rfl rfl (armed_static hs dir) hpath hf
  show ({ (applyBatch [.data flags, .isr] (armedFor dir count stop c)).inp with sched := rest } : Inputs) = _
  rw [hraised]
  dsimp only
  split
  · rw [dmaMove_inp]; rfl
  · rfl

theorem dataStop_of_multi {v : State} (h : v.xfer.multi = true) : dataStop v = issueCmd 12#6 0#32 .r1b (setSeq .xferStop v) := if_pos h

theorem dataStop_of_single {v : State} (h : v.xfer.multi = false) : dataStop v = (v, .ok .empty) := by
  unfold dataStop
  rw [h]
  rfl

end

/-! ## A data phase that moves every byte -/

/-- The act flags are seen through a mask that keeps them and flags that are none of them. -/
theorem transferActive_and_or {w a b : Word} (ha : a &&& mTxact = mTxact ∧ a &&& mRxact = mRxact)
    (hb : b &&& mTxact = 0#32 ∧ b &&& mRxact = 0#32) : transferActive ((w &&& a) ||| b) = transferActive w := by
  unfold transferActive
  rw [hasFlag_and_or ha.1 hb.1, hasFlag_and_or ha.2 hb.2]

theorem transferActive_and {w a : Word} (ha : a &&& mTxact = mTxact ∧ a &&& mRxact = mRxact) :
    transferActive (w &&& a) = transferActive w := by
  have h := transferActive_and_or (w := w) (b := 0#32) ha ⟨by decide, by decide⟩
  rwa [BitVec.or_zero] at h

/-- The card state a CMD12 carried out leaves (41_command_issuer R257). -/
def afterStop (st : BitVec 4) : BitVec 4 := if st = 6#4 then 7#4 else if st = 5#4 then 4#4 else st

/-- What a data phase that moved every byte leaves. -/
structure PhaseDone (dir : Dir) (count : Nat) (stop : Bool) (c d : State) (r : List (List Ev)) : Prop where
  wire : d.wire = c.wire ++ if stop then [stopSent] else []
  host : d.host = c.host
  desc : d.desc = c.desc
  inp : d.inp = { c.inp with sched := r }
  byBlock : d.card.byBlock = c.card.byBlock
  state :
    d.card.state =
      if stop then afterStop (cardAfterData c.card.mmc c.bc.cmd c.card.state) else cardAfterData c.card.mmc c.bc.cmd c.card.state
  read :
    dir = .rx →
      (realBytes c = true → d.mem = c.mem.write c.host.buf (c.card.mem.readRange c.card.addr (count * blockSize))) ∧
        d.card.mem = c.card.mem
  write :
    dir = .tx →
      (realBytes c = true → d.card.mem = c.card.mem.write c.card.addr (c.mem.readRange c.host.buf (count * blockSize))) ∧
        d.mem = c.mem
  cells : d.xfer = { pendErr := none, done := false, multi := false }
  disarmed : d.bc.dma = none
  masked : d.bc.mask = 0#32
  static : d.bc.sta &&& mStatic = 0#32
  irq : d.bc.irq = false
  inactive : transferActive d.bc.sta = false

section
variable {dir : Dir} {count : Nat} {c : State} {r : List (List Ev)}

/-- Where a data phase that moves every byte stands before its CMD12. -/
structure Handled (dir : Dir) (count : Nat) (stop : Bool) (c v : State) (rest : List (List Ev)) : Prop where
  wire : v.wire = c.wire
  app : v.app = c.app
  host : v.host = c.host
  desc : v.desc = c.desc
  inp : v.inp = { c.inp with sched := rest }
  multi : v.xfer.multi = stop
  byBlock : v.card.byBlock = c.card.byBlock
  state : v.card.state = cardAfterData c.card.mmc c.bc.cmd c.card.state
  read :
    dir = .rx →
      (realBytes c = true → v.mem = c.mem.write c.host.buf (c.card.mem.readRange c.card.addr (count * blockSize))) ∧
        v.card.mem = c.card.mem
  write :
    dir = .tx →
      (realBytes c = true → v.card.mem = c.card.mem.write c.card.addr (c.mem.readRange c.host.buf (count * blockSize))) ∧
        v.mem = c.mem
  irq : v.bc.irq = false
  inactive : transferActive v.bc.sta = false

theorem handledFor_done (dir : Dir) (count : Nat) (stop : Bool) (rest : List (List Ev)) (hs : c.bc.sta &&& mStatic = 0#32) :
    Handled dir count stop c (handledFor dir count stop mDataend rest c) rest := by
  have hm := moved_handledFor dir count stop mDataend rest c
  obtain ⟨hmem, hcard, hother, -, hstate, -, -, hirq, hact, -⟩ := dataDone_mem dir count stop hs
  exact
    { wire := hm.wire
      app := hm.app
      host := hm.host
      desc := hm.desc
      inp := handledFor_inp hs (by decide) (by decide)
      multi := hm.multi
      byBlock := hm.byBlock
      state := hstate
      read := by rintro rfl; exact ⟨hmem, hother⟩
      write := by rintro rfl; exact ⟨hcard, hother⟩
      irq := hirq
      inactive := hact }

/-- A data phase without CMD12. -/
theorem dataPhase_single (hs : c.bc.sta &&& mStatic = 0#32) (hsch : c.inp.sched = dataDone ++ r) :
    ∃ d, dataPhase dir count false c = (d, .ok ()) ∧ PhaseDone dir count false c d r := by
  have hv := handledFor_done dir count false r hs
  have hphase := dataPhase_handled (dir := dir) (count := count) (stop := false) (rest := r) hsch hs (by decide) (by decide)
  obtain ⟨hdma, hmask, hcells, hstatic⟩ := dataPhase_clean dir count false c
  generalize handledFor dir count false mDataend r c = v at hv hphase
  rw [dataStop_of_single hv.multi, show isrError mDataend = none by decide] at hphase
  rw [hphase] at hdma hmask hcells hstatic
  exact ⟨_, hphase,
    { wire := hv.wire.trans (List.append_nil _).symm
      host := hv.host
      desc := hv.desc
      inp := hv.inp
      byBlock := hv.byBlock
      state := hv.state
      read := hv.read
      write := hv.write
      cells := hcells
      disarmed := hdma
      masked := hmask
      static := hstatic
      irq := hv.irq
      inactive := (transferActive_and ⟨by decide, by decide⟩).trans hv.inactive }⟩

theorem cardNext_cmd12 {c : Sent} (happ : c.app = false) (hidx : c.idx = 12#6) (w : Word) (st : BitVec 4) : cardNext c w st = afterStop st := by
  unfold cardNext
  rw [happ, hidx]
  rfl

/-- A command answered at once leaves the act flags alone. -/
theorem Prompted.transferActive {idx : BitVec 6} {arg : Word} {kind : Kind} {x : Word × Word × Word × Word} {res : Res Fields} {s t : State}
    (h : Prompted idx arg kind .crcGood x r res s t) (hk : kind ≠ .rNone) : transferActive t.bc.sta = transferActive s.bc.sta := by
  have hflag : answerFlag kind .crcGood = mCmdrend := by cases kind <;> first | rfl | exact absurd rfl hk
  rw [h.sta, hflag, transferActive_and ⟨by decide, by decide⟩, transferActive_and_or ⟨by decide, by decide⟩ ⟨by decide, by decide⟩,
    transferActive_and_or ⟨by decide, by decide⟩ ⟨by decide, by decide⟩]

/-- A data phase with a CMD12 that is answered without an error bit. -/
theorem dataPhase_multi {w12 : Word} (happ : c.app = false) (hs : c.bc.sta &&& mStatic = 0#32)
    (hsch : c.inp.sched = dataDone ++ (prompt 12#6 w12 ++ r)) (hw : w12 &&& 0xFDFFE008#32 = 0#32) :
    ∃ d, dataPhase dir count true c = (d, .ok ()) ∧ PhaseDone dir count true c d r := by
  have hv := handledFor_done dir count true (prompt 12#6 w12 ++ r) hs
  have hphase := dataPhase_handled (dir := dir) (count := count) (stop := true) (rest := prompt 12#6 w12 ++ r) hsch hs (by decide)
    (by decide)
  obtain ⟨hdma, hmask, hcells, hstatic⟩ := dataPhase_clean dir count true c
  generalize handledFor dir count true mDataend (prompt 12#6 w12 ++ r) c = v at hv hphase
  have hf : hasFlag w12 r1Errors = false := (hasFlag_eq_false_iff _ _).2 hw
  obtain ⟨d, x, hx, hissue, hp⟩ := issueCmd_r1 (.inr rfl) (idx := 12#6) (by decide) 0#32 (w := w12) (r := r) (s := setSeq .xferStop v)
    (congrArg Inputs.sched hv.inp) hf
  rw [dataStop_of_multi hv.multi, hissue, show isrError mDataend = none by decide] at hphase
  rw [hphase] at hdma hmask hcells hstatic
  have k := hp.issued
  have hsent : sentAs 12#6 0#32 .r1b (setSeq .xferStop v) = stopSent :=
    sentAs_of_app (s := setSeq .xferStop v) (hv.app.trans happ) _ _ _
  have hcardMem : d.card.mem = v.card.mem := hp.cardMem (by rw [openRange_none (by decide) (by decide)])
  have haccepts : cardAccepts .r1b .crcGood x.1 = true := by
    show (true && !hasFlag x.1 r1Errors) = true
    rw [hx, statusWordOf_r1Errors, hf]
    rfl
  have hstate := hp.state
  rw [haccepts, if_pos rfl, hsent, cardNext_cmd12 rfl rfl] at hstate
  have hwire : d.wire = c.wire ++ [stopSent] := by
    rw [k.wire, hsent]
    exact congrArg (· ++ [stopSent]) hv.wire
  have hinp : d.inp = { c.inp with sched := r } := by
    rw [hp.inp]
    show ({ v.inp with sched := r } : Inputs) = _
    rw [hv.inp]
  exact ⟨_, hphase,
    { wire := hwire
      host := k.host.trans hv.host
      desc := k.desc.trans hv.desc
      inp := hinp
      byBlock := k.byBlock.trans hv.byBlock
      state := hstate.trans (congrArg afterStop hv.state)
      read := fun h => ⟨fun hreal => hp.mem.trans ((hv.read h).1 hreal), hcardMem.trans (hv.read h).2⟩
      write := fun h => ⟨fun hreal => hcardMem.trans ((hv.write h).1 hreal), hp.mem.trans (hv.write h).2⟩
      cells := hcells
      disarmed := hdma
      masked := hmask
      static := hstatic
      irq := hp.irq.trans hv.irq
      inactive := (transferActive_and ⟨by decide, by decide⟩).trans ((hp.transferActive (by decide)).trans hv.inactive) }⟩

/-- A data phase of either kind. -/
theorem dataPhase_moves {stop : Bool} {w12 : Word} (happ : c.app = false) (hs : c.bc.sta &&& mStatic = 0#32)
    (hsch : c.inp.sched = dataDone ++ ((if stop then prompt 12#6 w12 else []) ++ r)) (hw : stop = true → w12 &&& 0xFDFFE008#32 = 0#32) :
    ∃ d, dataPhase dir count stop c = (d, .ok ()) ∧ PhaseDone dir count stop c d r := by
  cases stop with
  | false => exact dataPhase_single hs hsch
  | true => exact dataPhase_multi happ hs hsch (hw rfl)

end

/-! ## A transfer that moves every byte -/

theorem moveBlocks_done {dir : Dir} {count : Nat} {stop : Bool} {command : State → State × Res Fields} {b c d : State} {f : Fields}
    (hcmd : command (setSeq .xferCmd b) = (c, .ok f)) (hd : dataPhase dir count stop c = (d, .ok ())) :
    moveBlocks dir count stop command b = (d, .ok (BitVec.ofNat 32 count)) := by
  unfold moveBlocks
  rw [hcmd]
  dsimp only
  rw [hd]

/-- What a transfer that moved every byte leaves, beside the registers of `Done`. -/
structure Transferred (p : Plan) (s t : State) : Prop where
  host : t.host = { s.host with hbusy := false, result := 0#8, value := BitVec.ofNat 32 p.count }
  desc : t.desc = s.desc
  byBlock : t.card.byBlock = s.card.byBlock
  state :
    s.card.state = 4#4 →
      ∃ c : Sent, c.idx = dataIndex p ∧
        t.card.state =
          if p.stop then afterStop (cardAfterData s.card.mmc c (if p.dir = .rx then 5#4 else 6#4))
          else cardAfterData s.card.mmc c (if p.dir = .rx then 5#4 else 6#4)
  read :
    p.dir = .rx →
      (realBytes s = true → t.mem = s.mem.write s.host.buf (s.card.mem.readRange (openedAt s) (p.count * blockSize))) ∧
        t.card.mem = s.card.mem
  write :
    p.dir = .tx →
      (realBytes s = true → ∃ m : Memory, t.card.mem = m.write (openedAt s) (s.mem.readRange s.host.buf (p.count * blockSize))) ∧
        t.mem = s.mem

theorem dataIndex_rx {p : Plan} (h : p.dir = .rx) : dataIndex p ≠ 25#6 := by
  unfold dataIndex
  rw [h]
  cases p.multi <;> decide

/-- A transfer that meets `Ready`, whose commands are answered without an error bit and whose bytes all move. -/
theorem transfer_done {i : Instr} {p : Plan} {ws : List Word} {w12 : Word} {r : List (List Ev)} {s : State} (hi : (i, p) ∈ plans s)
    (hr : Ready p.dir p.count p.multi s) (hl : ws.length = p.opens.length) (hw : ∀ w ∈ ws, w &&& 0xFDFFE008#32 = 0#32)
    (hw12 : p.stop = true → w12 &&& 0xFDFFE008#32 = 0#32)
    (hs : s.inp.sched =
      checkBatches p.dir s.cfg ++ answers p.opens ws ++ dataDone ++ (if p.stop then prompt 12#6 w12 else []) ++ r) :
    ∃ t, exec i s = .next t ∧ Done p.count s t (p.opens ++ if p.stop then [stopSent] else []) r ∧ Transferred p s t := by
  obtain ⟨b, command, c, f, hexec, hcmd, ho⟩ := plan_opened (rest := dataDone ++ ((if p.stop then prompt 12#6 w12 else []) ++ r)) hi hr hl hw
    (by rw [hs]; simp only [List.append_assoc])
  obtain ⟨d, hphase, hd⟩ := dataPhase_moves (dir := p.dir) (count := p.count) (stop := p.stop) (w12 := w12) (r := r) ho.app ho.static
    (by rw [ho.inp]) hw12
  rw [moveBlocks_done hcmd hphase, endWith_eq] at hexec
  have hinp : d.inp = { s.inp with sched := r } := by rw [hd.inp, ho.inp]
  have hhost : d.host = { s.host with hbusy := true } := hd.host.trans ho.host
  refine ⟨finish (BitVec.ofNat 32 p.count) d, ?_, ?_, ?_⟩
  · rw [hexec]
    refine settle_ok hr.app ?_
    show d.inp.breaches = _
    rw [hinp]
  · exact
      { result := rfl
        value := rfl
        idle := rfl
        free := rfl
        wire := by
          show d.wire = _
          rw [hd.wire, ho.wire, List.append_assoc]
        cells := hd.cells
        disarmed := hd.disarmed
        masked := hd.masked
        static := hd.static
        sched := congrArg Inputs.sched hinp
        ended := runEnded_of rfl rfl hd.masked hd.irq hd.inactive }
  · exact
      { host := by
          show ({ d.host with result := 0#8, value := _, hbusy := false } : HostRegs) = _
          rw [hhost]
        desc := hd.desc.trans ho.desc
        byBlock := hd.byBlock.trans ho.byBlock
        state := fun h4 => ⟨c.bc.cmd, ho.idx, by
          show d.card.state = _
          rw [hd.state, ho.state h4, ho.mmc]⟩
        read := fun h => by
          have hr := hd.read h
          rw [ho.realBytes, ho.mem, ho.host, ho.addr, ho.cardMem (dataIndex_rx h)] at hr
          exact hr
        write := fun h => by
          obtain ⟨hcard, hmem⟩ := hd.write h
          rw [ho.realBytes, ho.mem, ho.host, ho.addr] at hcard
          exact ⟨fun hreal => ⟨_, hcard hreal⟩, hmem.trans ho.mem⟩ }

/-! ## The four transfers -/

/-- The plan of READ_BLOCK at this state, and so on for the others. -/
def readBlockPlan (s : State) : Plan where
  dir := .rx
  count := 1
  multi := false
  stop := false
  opens := [opening false 17#6 (wireAddr s.desc s.host.arg0)]

def readBlocksPlan (s : State) : Plan where
  dir := .rx
  count := s.host.arg1.toNat
  multi := true
  stop := true
  opens := [opening false 18#6 (wireAddr s.desc s.host.arg0)]

def writeBlockPlan (s : State) : Plan where
  dir := .tx
  count := 1
  multi := false
  stop := false
  opens := [opening false 24#6 (wireAddr s.desc s.host.arg0)]

def writeBlocksPlanSd (s : State) : Plan where
  dir := .tx
  count := s.host.arg1.toNat
  multi := true
  stop := true
  opens :=
    [opening false 55#6 (s.desc.rca ++ 0#16), opening true 23#6 s.host.arg1, opening false 25#6 (wireAddr s.desc s.host.arg0)]

def writeBlocksPlanMmc (s : State) : Plan where
  dir := .tx
  count := s.host.arg1.toNat
  multi := true
  stop := false
  opens := [opening false 25#6 (wireAddr s.desc s.host.arg0)]

theorem readBlock_plan (s : State) : (.readBlock, readBlockPlan s) ∈ plans s := by simp [plans, readBlockPlan]

theorem readBlocks_plan (s : State) : (.readBlocks, readBlocksPlan s) ∈ plans s := by simp [plans, readBlocksPlan]

theorem writeBlock_plan (s : State) : (.writeBlock, writeBlockPlan s) ∈ plans s := by simp [plans, writeBlockPlan]

theorem writeBlocks_plan_sd {s : State} (h : s.desc.cardType ≠ .mmc) : (.writeBlocks, writeBlocksPlanSd s) ∈ plans s := by
  simp [plans, writeBlocksPlanSd, h]

theorem writeBlocks_plan_mmc {s : State} (h : s.desc.cardType = .mmc) : (.writeBlocks, writeBlocksPlanMmc s) ∈ plans s := by
  simp [plans, writeBlocksPlanMmc, h]

theorem openedAt_own {s : State} (hown : OwnCard s) (hw : NoWrap s) : openedAt s = 512 * s.host.arg0.toNat := openedAt_eq hown.byBlock hw

theorem Memory.readRange_write_readRange (m src : Memory) (a b n : Nat) :
    (m.write a (src.readRange b n)).readRange a n = src.readRange b n :=
  List.map_congr_left fun _ hk => Memory.read_write_readRange m src a b (List.mem_range.1 hk)

/-- Byte `k` of one block that was moved. -/
theorem read_moved_byte (m src : Memory) (a b : Nat) {k : Nat} (hk : k < 512) :
    (m.write a (src.readRange b (1 * blockSize))).read (a + k) = src.read (b + k) :=
  Memory.read_write_readRange m src a b (by rw [Nat.one_mul]; exact hk)

/-- Byte `k` of block `j` of `n` blocks that were moved. -/
theorem read_moved_block (m src : Memory) (a b : Nat) {n j k : Nat} (hj : j < n) (hk : k < 512) :
    (m.write a (src.readRange b (n * blockSize))).read (a + 512 * j + k) = src.read (b + 512 * j + k) := by
  have hin : 512 * j + k < n * blockSize := by
    show 512 * j + k < n * 512
    omega
  rw [Nat.add_assoc, Nat.add_assoc]
  exact Memory.read_write_readRange m src a b hin

theorem blocksRead_readBlock {h : HostRegs} (hop : h.op = 2#32) : blocksRead h = 1 := by
  unfold blocksRead
  rw [hop]
  rfl

theorem blocksRead_readBlocks {h : HostRegs} (hop : h.op = 3#32) : blocksRead h = h.arg1.toNat := by
  unfold blocksRead
  rw [hop]
  rfl

/-- What is observed of a read that moved every byte (70_reset_and_hazards R603). -/
theorem Transferred.observed {p : Plan} {s t : State} (h : Transferred p s t) (hdir : p.dir = .rx) (hreal : realBytes s = true)
    (hcount : blocksRead t.host = p.count) :
    observation t =
      { result := 0#8, value := BitVec.ofNat 32 p.count, desc := s.desc,
        buffer := s.card.mem.readRange (openedAt s) (p.count * blockSize) } := by
  have hmem := (h.read hdir).1 hreal
  unfold observation
  rw [hcount, hmem, h.desc, h.host, Memory.readRange_write_readRange]

/-- Settles O44: the plan of READ_BLOCK, by the transfer that moves every byte. -/
theorem readBlockOk : Obligations.ReadBlockOk := by
  intro w r s hr hw hs
  obtain ⟨t, hexec, hdone, htr⟩ := transfer_done (ws := [w]) (w12 := 0#32) (r := r) (readBlock_plan s) hr rfl (by simpa using hw) nofun
    (by rw [hs]; simp [answers, opening, readBlockPlan])
  obtain ⟨hmem, hcard⟩ := htr.read rfl
  refine ⟨openedAt_own, t, hexec, hdone, fun hreal k hk => ?_, hcard, fun hreal hop => ?_⟩
  · rw [hmem hreal]
    exact read_moved_byte _ _ _ _ hk
  · have hobs := htr.observed rfl hreal (blocksRead_readBlock (by rw [htr.host]; exact hop))
    rw [show (readBlockPlan s).count * blockSize = 512 from Nat.one_mul blockSize] at hobs
    exact hobs

/-- Settles O45: the plan of READ_BLOCKS. -/
theorem readBlocksOk : Obligations.ReadBlocksOk := by
  intro w w12 r s hr hw hw12 hs
  obtain ⟨t, hexec, hdone, htr⟩ := transfer_done (ws := [w]) (w12 := w12) (r := r) (readBlocks_plan s) hr rfl (by simpa using hw)
    (fun _ => hw12) (by rw [hs]; simp [answers, opening, readBlocksPlan])
  obtain ⟨hmem, hcard⟩ := htr.read rfl
  refine ⟨openedAt_own, t, hexec, hdone, fun hreal j k hj hk => ?_, hcard, fun hreal hop => ?_⟩
  · rw [hmem hreal]
    exact read_moved_block _ _ _ _ hj hk
  · have hobs := htr.observed rfl hreal (by rw [blocksRead_readBlocks (by rw [htr.host]; exact hop), htr.host]; rfl)
    have hvalue : BitVec.ofNat 32 (readBlocksPlan s).count = s.host.arg1 := by
      show BitVec.ofNat 32 s.host.arg1.toNat = _
      rw [BitVec.ofNat_toNat, BitVec.setWidth_eq]
    have hsize : (readBlocksPlan s).count * blockSize = 512 * s.host.arg1.toNat := Nat.mul_comm _ _
    rw [hobs, hvalue, hsize]

/-- Settles O46: the plan of WRITE_BLOCK. -/
theorem writeBlockOk : Obligations.WriteBlockOk := by
  intro w r s hr hw hs
  obtain ⟨t, hexec, hdone, htr⟩ := transfer_done (ws := [w]) (w12 := 0#32) (r := r) (writeBlock_plan s) hr rfl (by simpa using hw) nofun
    (by rw [hs]; simp [answers, opening, writeBlockPlan])
  obtain ⟨hcard, hmem⟩ := htr.write rfl
  refine ⟨openedAt_own, t, hexec, hdone, fun hreal k hk => ?_, hmem⟩
  obtain ⟨m, hm⟩ := hcard hreal
  rw [hm]
  exact read_moved_byte _ _ _ _ hk

/-- Settles O47: the plan of WRITE_BLOCKS on an SD card. -/
theorem writeBlocksSdOk : Obligations.WriteBlocksSdOk := by
  intro w55 w23 w25 w12 r s hr hsd hw hs
  obtain ⟨t, hexec, hdone, htr⟩ := transfer_done (ws := [w55, w23, w25]) (w12 := w12) (r := r) (writeBlocks_plan_sd hsd) hr rfl
    (fun w h => hw w (by simp only [List.mem_cons, List.not_mem_nil, or_false] at h ⊢; tauto)) (fun _ => hw w12 (by simp))
    (by rw [hs]; simp [answers, opening, writeBlocksPlanSd])
  obtain ⟨hcard, hmem⟩ := htr.write rfl
  refine ⟨openedAt_own, t, hexec, hdone, fun hreal j k hj hk => ?_, hmem⟩
  obtain ⟨m, hm⟩ := hcard hreal
  rw [hm]
  exact read_moved_block _ _ _ _ hj hk

/-- Settles O48: the plan of WRITE_BLOCKS on an MMC card. -/
theorem writeBlocksMmcOk : Obligations.WriteBlocksMmcOk := by
  intro w r s hr hmmc hw hs
  obtain ⟨t, hexec, hdone, htr⟩ := transfer_done (ws := [w]) (w12 := 0#32) (r := r) (writeBlocks_plan_mmc hmmc) hr rfl
    (by simpa using hw) nofun (by rw [hs]; simp [answers, opening, writeBlocksPlanMmc])
  obtain ⟨hcard, hmem⟩ := htr.write rfl
  refine ⟨openedAt_own, t, hexec, hdone, fun hreal j k hj hk => ?_, hmem⟩
  obtain ⟨m, hm⟩ := hcard hreal
  rw [hm]
  exact read_moved_block _ _ _ _ hj hk

/-- Settles O49: the write leaves the block where the read of the same block opens it. -/
theorem writeThenRead : Obligations.WriteThenRead := by
  intro w w' r r' s t s' hr hreal hw hs hexec hr' hreal' hcard hmode hdesc harg hw' hs'
  obtain ⟨u, hexecU, hdone, htr⟩ := transfer_done (ws := [w]) (w12 := 0#32) (r := r) (writeBlock_plan s) hr rfl (by simpa using hw) nofun
    (by rw [hs]; simp [answers, opening, writeBlockPlan])
  cases hexec.symm.trans hexecU
  obtain ⟨-, t', hexec', hdone', hread, -⟩ := readBlockOk w' r' s' hr' hw' hs'
  have hopen : openedAt s' = openedAt s := by
    unfold openedAt
    rw [hmode, hdesc, harg, htr.byBlock, htr.desc, htr.host]
  obtain ⟨m, hm⟩ := (htr.write rfl).1 hreal
  refine ⟨t', hexec', hdone.result, hdone'.result, fun k hk => ?_⟩
  rw [hread hreal' k hk, hcard, hm, hopen]
  exact read_moved_byte _ _ _ _ hk

/-! ## Card effects -/

/-- The card once a command is carried out, for the commands that open no range of card storage. -/
theorem Prompted.card_of_accepts {idx : BitVec 6} {arg : Word} {kind : Kind} {a : Answer} {x : Word × Word × Word × Word}
    {r : List (List Ev)} {res : Res Fields} {s u : State} (h : Prompted idx arg kind a x r res s u)
    (hopen : (openRange idx arg s).2 = 0) (hacc : cardAccepts kind a x.1 = true) :
    u.card =
      { cardReceives (sentAs idx arg kind s) s.card with
        state := cardNext (sentAs idx arg kind s) x.1 s.card.state
        width := cardWidth (sentAs idx arg kind s) s.card.state s.card.width
        blockLen := cardBlockLen (sentAs idx arg kind s) s.card } := by
  have k := h.issued
  have hstate := h.state
  have hwidth := h.width
  have hlen := h.blockLen
  rw [hacc, if_pos rfl] at hstate hwidth hlen
  rw [cardReceives_frame]
  have hparts := Card.mk.injEq
  cases hu : u.card with
  | mk st addr first last byBlock mmc csd width len pre mem =>
    have haddr := k.addr
    have hfirst := k.eraseFirst
    have hlast := k.eraseLast
    have hpre := k.preErase
    have hby := k.byBlock
    have hmmc := k.mmc
    have hcsd := k.csd
    have hmem := h.cardMem hopen
    rw [hu] at hstate hwidth hlen haddr hfirst hlast hpre hby hmmc hcsd hmem
    rw [Card.mk.injEq]
    exact ⟨hstate, haddr, hfirst, hlast, hby, hmmc, hcsd, hwidth, hlen, hpre, hmem⟩

/-- A command answered by R1 or R1b without an error bit is carried out. -/
theorem carriedOut_of_exec {i : Instr} {app : Bool} {idx : BitVec 6} {arg : Word} {crc : BitVec 7} {w : Word} {r : List (List Ev)}
    {s t : State} (hi : frameParts i = some (app, idx, arg, crc)) (hk : kindOf i = .r1 ∨ kindOf i = .r1b) (h9 : idx ≠ 9#6)
    (hs : s.inp.sched = prompt idx w ++ r) (hw : w &&& 0xFDFFE008#32 = 0#32) (h : exec i s = .next t) :
    s.app = app ∧ ∃ u x, x.1 = statusWordOf (sentAs idx arg (kindOf i) s) s.card.state w ∧ t.cmdResult = some (.ok (.status x.1)) ∧
      t.card = u.card ∧ cardAccepts (kindOf i) .crcGood x.1 = true ∧
      Prompted idx arg (kindOf i) .crcGood x r (.ok (.status x.1)) s u := by
  obtain ⟨-, happ, ht⟩ := exec_frame_next hi h
  have hf : hasFlag w r1Errors = false := (hasFlag_eq_false_iff _ _).2 hw
  obtain ⟨u, x, hx, hissue, hp⟩ := issueCmd_r1 hk h9 arg hs hf
  rw [hissue] at ht
  have hacc : cardAccepts (kindOf i) .crcGood x.1 = true := by
    have hgood : hasFlag x.1 r1Errors = false := by rw [hx, statusWordOf_r1Errors, hf]
    rcases hk with hk | hk <;> rw [hk] <;> show (true && !hasFlag x.1 r1Errors) = true <;> rw [hgood] <;> rfl
  exact ⟨happ, u, x, hx, by rw [ht], by rw [ht], hacc, hp⟩

/-- The state a command carried out leaves. -/
theorem card_state_of_exec {i : Instr} {app : Bool} {idx : BitVec 6} {arg : Word} {crc : BitVec 7} {w : Word} {r : List (List Ev)}
    {s t : State} (hi : frameParts i = some (app, idx, arg, crc)) (hk : kindOf i = .r1 ∨ kindOf i = .r1b) (h9 : idx ≠ 9#6)
    (hs : s.inp.sched = prompt idx w ++ r) (hw : w &&& 0xFDFFE008#32 = 0#32) (h : exec i s = .next t) :
    ∃ v, t.card.state = cardNext { seq := s.seq, app := app, idx := idx, arg := arg, kind := kindOf i } v s.card.state := by
  obtain ⟨happ, u, x, -, -, hcard, hacc, hp⟩ := carriedOut_of_exec hi hk h9 hs hw h
  have hstate := hp.state
  rw [hacc, if_pos rfl, sentAs_of_app happ, ← hcard] at hstate
  exact ⟨_, hstate⟩

/-- The whole card after a command carried out that opens no range. -/
theorem card_of_exec {i : Instr} {app : Bool} {idx : BitVec 6} {arg : Word} {crc : BitVec 7} {w : Word} {r : List (List Ev)}
    {s t : State} (hi : frameParts i = some (app, idx, arg, crc)) (hk : kindOf i = .r1 ∨ kindOf i = .r1b)
    (hne : idx ≠ 9#6 ∧ idx ≠ 38#6 ∧ idx ≠ 25#6) (hs : s.inp.sched = prompt idx w ++ r) (hw : w &&& 0xFDFFE008#32 = 0#32)
    (h : exec i s = .next t) :
    let c : Sent := { seq := s.seq, app := app, idx := idx, arg := arg, kind := kindOf i }
    ∃ v, t.card =
      { cardReceives c s.card with
        state := cardNext c v s.card.state
        width := cardWidth c s.card.state s.card.width
        blockLen := cardBlockLen c s.card } := by
  obtain ⟨h9, h38, h25⟩ := hne
  obtain ⟨happ, u, x, -, -, hcard, hacc, hp⟩ := carriedOut_of_exec hi hk h9 hs hw h
  have hall := hp.card_of_accepts (by rw [openRange_none h38 h25]) hacc
  rw [sentAs_of_app happ, ← hcard] at hall
  exact ⟨_, hall⟩

/-- CMD2, CMD8 and CMD9 are carried out on any response. -/
theorem card_state_of_arrived {i : Instr} {app : Bool} {idx : BitVec 6} {arg : Word} {crc : BitVec 7} {a : Answer} {rc : BitVec 6}
    {w w2 w3 w4 : Word} {r : List (List Ev)} {s t : State} (hi : frameParts i = some (app, idx, arg, crc))
    (hk : kindOf i = .r2 ∨ kindOf i = .r3 ∨ kindOf i = .r7) (ha : a ≠ .noResponse)
    (hs : s.inp.sched = promptly a rc w w2 w3 w4 ++ r) (h : exec i s = .next t) :
    ∃ v, t.card.state = cardNext { seq := s.seq, app := app, idx := idx, arg := arg, kind := kindOf i } v s.card.state := by
  obtain ⟨happ, -, u, hcard, hp⟩ := prompted_of_exec hi hs h
  have hstate := hp.state
  rw [cardAccepts_arrived hk ha, if_pos rfl, sentAs_of_app happ, ← hcard] at hstate
  exact ⟨_, hstate⟩

/-- CMD3 is carried out where its R6 has no error bit. -/
theorem card_state_of_cmd3 {arg : Word} {crc : BitVec 7} {w : Word} {r : List (List Ev)} {s t : State}
    (hs : s.inp.sched = prompt 3#6 w ++ r) (hw : w &&& 0x0000E000#32 = 0#32) (h : exec (.cmd3 arg crc) s = .next t) :
    ∃ v, t.card.state = cardNext { seq := s.seq, app := false, idx := 3#6, arg := arg, kind := .r6 } v s.card.state := by
  obtain ⟨happ, -, u, hcard, hp⟩ := prompted_of_exec (i := .cmd3 arg crc) rfl hs h
  have hstate : u.card.state =
      if cardAccepts .r6 .crcGood (answerAt 3#6 arg .r6 .crcGood (w, 0#32, 0#32, 0#32) s).1 then
        cardNext (sentAs 3#6 arg .r6 s) (answerAt 3#6 arg .r6 .crcGood (w, 0#32, 0#32, 0#32) s).1 s.card.state
      else s.card.state := hp.state
  rw [answerAt_good (by decide) arg (by decide),
    statusWordOf_other (by exact (by decide : (3#6 : BitVec 6) ≠ 55#6))] at hstate
  have hacc : cardAccepts .r6 .crcGood (reportState .r6 s.card.state w) = true := by
    show (true && !hasFlag (reportState .r6 s.card.state w) r6Errors) = true
    rw [reported_r6Errors, show hasFlag w r6Errors = false from (hasFlag_eq_false_iff _ _).2 hw]
    rfl
  rw [show (sentAs 3#6 arg .r6 s).kind = .r6 from rfl, hacc, if_pos rfl, sentAs_of_app happ, ← hcard] at hstate
  exact ⟨_, hstate⟩

theorem statusWordOf_cmd55 {c : Sent} (happ : c.app = false) (hidx : c.idx = 55#6) (st : BitVec 4) {w : Word}
    (hw : w &&& 0xFDFFE008#32 = 0#32) : (statusWordOf c st w).getLsbD 5 = true := by
  have hno : hasFlag (reportState c.kind st w) r1Errors = false := by
    rw [reported_r1Errors]
    exact (hasFlag_eq_false_iff _ _).2 hw
  unfold statusWordOf
  dsimp only
  rw [if_pos ⟨happ, hidx, hno⟩, BitVec.getLsbD_or]
  exact Bool.or_true _

/-- The state after each whole transfer of the card the descriptor names. -/
theorem plan_cardState {i : Instr} {p : Plan} {s : State} (hi : (i, p) ∈ plans s) (hmmc : s.card.mmc = decide (s.desc.cardType = .mmc))
    {c : Sent} (hc : c.idx = dataIndex p) :
    (if p.stop then afterStop (cardAfterData s.card.mmc c (if p.dir = .rx then 5#4 else 6#4))
      else cardAfterData s.card.mmc c (if p.dir = .rx then 5#4 else 6#4)) = if p.dir = .rx then 4#4 else 7#4 := by
  unfold plans at hi
  simp only [List.mem_cons, List.not_mem_nil, or_false, Prod.mk.injEq] at hi
  unfold cardAfterData
  rw [hc]
  rcases hi with ⟨-, rfl⟩ | ⟨-, rfl⟩ | ⟨-, rfl⟩ | ⟨-, rfl⟩
  · rfl
  · rfl
  · rfl
  · rw [hmmc]
    by_cases h : s.desc.cardType = .mmc
    · simp only [h, ne_eq, not_true_eq_false, decide_true, decide_false]
      rfl
    · simp only [h, ne_eq, not_false_eq_true, decide_true, decide_false]
      rfl

/-- Settles O31: the card's transitions, by the answer that carries each command out. -/
theorem cardEffects : Obligations.CardEffects := by
  refine ⟨?status, ?arrived, ?cmd3, ?whole, ?transfers⟩
  case status =>
    intro i idx arg crc w r s t src dst hmem hi hs hw hst h
    have hkind : (kindOf i = .r1 ∨ kindOf i = .r1b) ∧ idx ≠ 9#6 ∧
        ∀ seq v, cardNext { seq := seq, app := false, idx := idx, arg := arg, kind := kindOf i } v (BitVec.ofNat 4 src) = BitVec.ofNat 4 dst := by
      simp only [List.mem_cons, List.not_mem_nil, or_false, Prod.mk.injEq] at hmem
      rcases hmem with ⟨rfl, rfl, rfl⟩ | ⟨rfl, rfl, rfl⟩ | ⟨rfl, rfl, rfl⟩ | ⟨rfl, rfl, rfl⟩ | ⟨rfl, rfl, rfl⟩ | ⟨rfl, rfl, rfl⟩ |
        ⟨rfl, rfl, rfl⟩ | ⟨rfl, rfl, rfl⟩ | ⟨rfl, rfl, rfl⟩ | ⟨rfl, rfl, rfl⟩ | ⟨rfl, rfl, rfl⟩ | ⟨rfl, rfl, rfl⟩ | ⟨rfl, rfl, rfl⟩ |
        ⟨rfl, rfl, rfl⟩ <;> cases hi <;> exact ⟨by simp [kindOf], by decide, fun _ _ => rfl⟩
    obtain ⟨hk, h9, hnext⟩ := hkind
    obtain ⟨v, hv⟩ := card_state_of_exec hi hk h9 hs hw h
    rw [hv, hst, hnext]
  case arrived =>
    intro i idx arg crc a rc w w2 w3 w4 r s t src dst hmem hi ha hs hst h
    have hkind : (kindOf i = .r2 ∨ kindOf i = .r3 ∨ kindOf i = .r7) ∧
        ∀ seq v, cardNext { seq := seq, app := false, idx := idx, arg := arg, kind := kindOf i } v (BitVec.ofNat 4 src) = BitVec.ofNat 4 dst := by
      simp only [List.mem_cons, List.not_mem_nil, or_false, Prod.mk.injEq] at hmem
      rcases hmem with ⟨rfl, rfl, rfl⟩ | ⟨rfl, rfl, rfl⟩ | ⟨rfl, rfl, rfl⟩ <;> cases hi <;> exact ⟨by simp [kindOf], fun _ _ => rfl⟩
    obtain ⟨hk, hnext⟩ := hkind
    obtain ⟨v, hv⟩ := card_state_of_arrived hi hk ha hs h
    rw [hv, hst, hnext]
  case cmd3 =>
    intro arg crc w r s t hs hw hst h
    obtain ⟨v, hv⟩ := card_state_of_cmd3 hs hw h
    rw [hv, hst]
    rfl
  case whole =>
    intro arg crc w r s t hw
    refine ⟨fun hs h => ?_, fun hs h => ?_, fun hs h => ?_, fun hs h => ?_, fun hs h => ?_, fun hs h => ?_⟩
    · obtain ⟨v, hv⟩ := card_of_exec (i := .cmd55 arg crc) rfl (.inl rfl) (by decide) hs hw h
      obtain ⟨happ, u, x, hx, hres, -⟩ := carriedOut_of_exec (i := .cmd55 arg crc) rfl (.inl rfl) (by decide) hs hw h
      refine ⟨hv, x.1, hres, ?_⟩
      rw [hx]
      exact statusWordOf_cmd55 happ rfl _ hw
    · obtain ⟨v, hv⟩ := card_of_exec (i := .cmd13 arg crc) rfl (.inl rfl) (by decide) hs hw h
      exact hv
    · obtain ⟨v, hv⟩ := card_of_exec (i := .acmd6 arg crc) rfl (.inl rfl) (by decide) hs hw h
      exact hv
    · obtain ⟨v, hv⟩ := card_of_exec (i := .cmd16 arg crc) rfl (.inl rfl) (by decide) hs hw h
      exact hv
    · obtain ⟨v, hv⟩ := card_of_exec (i := .acmd23 arg crc) rfl (.inl rfl) (by decide) hs hw h
      exact hv
    · obtain ⟨happ, u, x, -, -, hcard, -, hp⟩ := carriedOut_of_exec (i := .cmd25 arg crc) rfl (.inl rfl) (by decide) hs hw h
      have hpre := hp.issued.preErase
      rw [sentAs_of_app happ, ← hcard] at hpre
      exact hpre
  case transfers =>
    intro i p ws w12 r s hi hr hown h4 hl hw hs
    obtain ⟨t, hexec, hdone, htr⟩ := transfer_done hi hr hl (fun w h => hw w (List.mem_cons_of_mem _ h))
      (fun _ => hw w12 List.mem_cons_self) hs
    obtain ⟨c, hc, hstate⟩ := htr.state h4
    exact ⟨t, hexec, hdone.result, hdone.sched, hstate.trans (plan_cardState hi hown.mmc hc)⟩

end Sys2Proof.Machine
end

section
/-! PROOFS. How transfers fail: their checks (44_block_transfer R402), a command that fails (R424), a data phase that fails (R421), and
what is then sent and cleaned up. -/

namespace Sys2Proof.Machine

open Sys2Proof.Safety

/-! ## The checks -/

/-- The four transfers as instructions: direction, several blocks or one. -/
theorem exec_transfer {i : Instr} {dir : Dir} {multi : Bool}
    (h : (i, dir, multi) ∈
      [(Instr.readBlock, Dir.rx, false), (.readBlocks, .rx, true), (.writeBlock, .tx, false), (.writeBlocks, .tx, true)]) (s : State) :
    ∃ stop command, exec i s = transferOp dir (if multi then s.host.arg1.toNat else 1) multi stop command s := by
  simp only [List.mem_cons, List.not_mem_nil, or_false, Prod.mk.injEq] at h
  rcases h with ⟨rfl, rfl, rfl⟩ | ⟨rfl, rfl, rfl⟩ | ⟨rfl, rfl, rfl⟩ | ⟨rfl, rfl, rfl⟩
  · exact ⟨fun _ => false, dataCommand 17#6, rfl⟩
  · exact ⟨fun _ => true, dataCommand 18#6, rfl⟩
  · exact ⟨fun _ => false, dataCommand 24#6, rfl⟩
  · exact ⟨isSd, writeBlocksCommand, rfl⟩

theorem transferOp_of_err {dir : Dir} {count : Nat} {multi : Bool} {stop : Descriptor → Bool} {command : State → State × Res Fields}
    {s u : State} {e : TransferError} (hidle : s.host.hbusy = false) (h : checks dir count multi (beginOp s) = (u, .err e)) :
    transferOp dir count multi stop command s = settle s (raise e u) := by
  unfold transferOp
  rw [hidle, h]
  rfl

section
variable {dir : Dir} {count : Nat} {multi : Bool} {s : State}

/-- With a card, a descriptor and no write protection in the way, the arguments decide (44 R402). -/
theorem checks_of_inputs (hp : s.inp.cardPresent = true) (hv : s.desc.valid = true)
    (hw : dir = .tx → s.cfg.engineChecksWp = true → s.inp.writeProtect = false) (hs : s.inp.sched = checkBatches dir s.cfg) :
    checks dir count multi (beginOp s) =
      (setSched [] (beginOp s), if argsOk s.cfg s.desc s.host count multi then .ok () else .err .invalidParameter) := by
  have hsampled : sampled dir (sync (beginOp s)) = setSched [] (beginOp s) ∧ ∃ r, sync (beginOp s) = setSched r (beginOp s) := by
    unfold checkBatches at hs
    unfold sampled
    by_cases hd : dir = .tx ∧ s.cfg.engineChecksWp = true
    · rw [if_pos hd] at hs
      have hsync : sync (beginOp s) = setSched [[]] (beginOp s) := sync_cons hs
      rw [hsync]
      refine ⟨?_, _, rfl⟩
      rw [if_pos (by exact hd)]
      exact sync_cons rfl
    · rw [if_neg hd] at hs
      have hsync : sync (beginOp s) = setSched [] (beginOp s) := sync_cons hs
      rw [hsync]
      exact ⟨if_neg (by exact hd), _, rfl⟩
  obtain ⟨hsampled, r, hsync⟩ := hsampled
  rw [checks_eq, hsampled, hsync]
  rw [if_neg (by show ¬ s.inp.cardPresent = false; rw [hp]; decide), if_neg (by show ¬ s.desc.valid = false; rw [hv]; decide),
    if_neg (by rintro ⟨⟨htx, hwp⟩, hset⟩; exact absurd ((hw htx hwp).symm.trans hset) (by decide))]
  rfl

/-- Write protection is seen before the arguments (44 R402). -/
theorem checks_of_protected (hp : s.inp.cardPresent = true) (hv : s.desc.valid = true) (hcfg : s.cfg.engineChecksWp = true)
    (hset : s.inp.writeProtect = true) (hs : s.inp.sched = []) :
    checks .tx count multi (beginOp s) = (beginOp s, .err .writeProtected) := by
  have hsync : sync (beginOp s) = beginOp s := by
    unfold sync
    rw [show (beginOp s).inp.sched = [] from hs]
  have hsampled : sampled .tx (beginOp s) = beginOp s := by
    unfold sampled
    rw [if_pos (by exact ⟨rfl, hcfg⟩), hsync]
  rw [checks_eq, hsync, hsampled]
  rw [if_neg (by show ¬ s.inp.cardPresent = false; rw [hp]; decide), if_neg (by show ¬ s.desc.valid = false; rw [hv]; decide),
    if_pos (by exact ⟨⟨rfl, hcfg⟩, hset⟩)]

theorem argsOk_false
    (h : (multi = true ∧ (count < 2 ∨ max 2 s.cfg.maxCount.toNat < count)) ∨ s.host.buf % 2 ^ s.cfg.bufAlignLog2 ≠ 0 ∨
      s.host.buflen.toNat < count * 512 ∨ (s.cfg.rangeCheck = true ∧ s.desc.capacity.toNat < s.host.arg0.toNat + count)) :
    argsOk s.cfg s.desc s.host count multi = false := by
  rw [← Bool.not_eq_true]
  unfold argsOk maxCount bufAlign blockSize
  simp only [Bool.and_eq_true, Bool.or_eq_true, Bool.not_eq_true', decide_eq_true_eq]
  rintro ⟨⟨hcount, halign, hlong⟩, hrange⟩
  rcases h with ⟨hmulti, hno⟩ | hno | hno | ⟨hcheck, hno⟩
  · rcases hcount with hc | ⟨hc2, hcmax⟩
    · rw [hmulti] at hc; cases hc
    · omega
  · exact hno halign
  · omega
  · rcases hrange with hc | hc
    · rw [hcheck] at hc; cases hc
    · omega

end

/-- Settles O50: the checks in their order; an operation that sent nothing ends whatever the prefix bit. -/
theorem checksFail : Obligations.ChecksFail := by
  refine ⟨fun i dir multi s hmem hidle hp hv hw hs h => ?arguments, fun i s hmem hidle hp hv hcfg hset hs => ?guarded⟩
  case arguments =>
    obtain ⟨stop, command, hexec⟩ := exec_transfer hmem s
    have hchecks := checks_of_inputs (count := if multi then s.host.arg1.toNat else 1) (multi := multi) hp hv hw hs
    rw [argsOk_false h] at hchecks
    rw [hexec, transferOp_of_err hidle hchecks]
    exact settle_of_silent rfl rfl
  case guarded =>
    have hi : (i, Dir.tx, decide (i = .writeBlocks)) ∈
        [(Instr.readBlock, Dir.rx, false), (.readBlocks, .rx, true), (.writeBlock, .tx, false), (.writeBlocks, .tx, true)] := by
      simp only [List.mem_cons, List.not_mem_nil, or_false] at hmem
      rcases hmem with rfl | rfl <;> decide
    obtain ⟨stop, command, hexec⟩ := exec_transfer hi s
    rw [hexec, transferOp_of_err hidle (checks_of_protected hp hv hcfg hset hs)]
    exact settle_of_silent rfl rfl

/-! ## A data phase that fails -/

theorem moveBlocks_failed_inp {dir : Dir} {count : Nat} {stop : Bool} {command : State → State × Res Fields} {b c : State} {f : Fields}
    {e : TransferError} (hcmd : command (setSeq .xferCmd b) = (c, .ok f)) (hd : (dataPhase dir count stop c).2 = .err e) :
    (endWith (moveBlocks dir count stop command b)).inp = (dataPhase dir count stop c).1.inp := by
  have hspoil (u : State) : (spoilTransfer dir count u).inp = u.inp := by cases dir <;> rfl
  have h : moveBlocks dir count stop command b = (spoilTransfer dir count (dataPhase dir count stop c).1, .err e) := by
    unfold moveBlocks
    rw [hcmd]
    dsimp only
    rw [hd]
  rw [endWith_inp, h, hspoil]

/-- What a transfer leaves whose data phase ended with an error (44 R421). -/
structure PhaseFailed (e : TransferError) (s t : State) (sent : List Sent) (r : List (List Ev)) : Prop where
  result : t.host.result = e.code
  value : t.host.value = 0#32
  cells : t.xfer = { pendErr := none, done := false, multi := false }
  disarmed : t.bc.dma = none
  masked : t.bc.mask = 0#32
  static : t.bc.sta.extractLsb' 0 11 = 0#11
  sched : t.inp.sched = r
  wire : t.wire = s.wire ++ sent

section
variable {i : Instr} {p : Plan} {ws : List Word} {s : State}

/-- A transfer whose commands are all answered and whose data phase fails. -/
theorem transfer_failed {rest r : List (List Ev)} {e : TransferError} {sent : List Sent} (hi : (i, p) ∈ plans s)
    (hr : Ready p.dir p.count p.multi s) (hl : ws.length = p.opens.length) (hw : ∀ w ∈ ws, w &&& 0xFDFFE008#32 = 0#32)
    (hs : s.inp.sched = checkBatches p.dir s.cfg ++ (answers p.opens ws ++ rest))
    (hphase : ∀ c, Opened s p c rest → (dataPhase p.dir p.count p.stop c).2 = .err e ∧
      (dataPhase p.dir p.count p.stop c).1.wire = c.wire ++ sent ∧ (dataPhase p.dir p.count p.stop c).1.inp.sched = r ∧
      (dataPhase p.dir p.count p.stop c).1.inp.breaches = c.inp.breaches) :
    ∃ t, exec i s = .next t ∧ PhaseFailed e s t (p.opens ++ sent) r := by
  obtain ⟨b, command, c, f, hexec, hcmd, ho⟩ := plan_opened hi hr hl hw hs
  obtain ⟨herr, hwire, hsched, hbreaches⟩ := hphase c ho
  obtain ⟨hresult, hvalue, hcells, hdma, hmask, hstatic, hw'⟩ := moveBlocks_failed hcmd herr
  have hinp := moveBlocks_failed_inp hcmd herr
  refine ⟨_, hexec.trans (settle_ok hr.app ?_), hresult, hvalue, hcells, hdma, hmask, hstatic, ?_, ?_⟩
  · rw [hinp, hbreaches, ho.inp]
  · rw [hinp, hsched]
  · rw [hw', hwire, ho.wire, List.append_assoc]

end

/-- Settles O52: with nothing left on the schedule the data wait and CMD12 end by their deadlines. -/
theorem dataTimeoutCleansUp : Obligations.DataTimeoutCleansUp := by
  intro i p ws s hi hr hl hw hs
  obtain ⟨t, hexec, h⟩ := transfer_failed (rest := []) (r := []) (e := .dataTimeout) (sent := if p.stop then [stopSent] else []) hi hr hl hw
    (by rw [hs, List.append_nil]) fun c ho => by
      have hsilent : c.inp.sched = [] := by rw [ho.inp]
      obtain ⟨herr, hwire⟩ := dataPhase_silent (dir := p.dir) (count := p.count) (multi := p.stop) hsilent
      obtain ⟨hsched, hbreaches⟩ := calm_dataPhase p.dir p.count p.stop c hsilent
      exact ⟨herr, hwire ho.app, hsched, hbreaches⟩
  exact ⟨t, hexec, h.result, h.value, h.cells, h.disarmed, h.masked, h.static, h.wire.trans (List.append_assoc ..).symm⟩

theorem dataStop_wire {v : State} {stop : Bool} (happ : v.app = false) (hm : v.xfer.multi = stop) :
    (dataStop v).1.wire = v.wire ++ if stop then [stopSent] else [] := by
  cases stop with
  | false => rw [dataStop_of_single hm]; exact (List.append_nil _).symm
  | true =>
    rw [dataStop_of_multi hm, (issueCmd_issued 12#6 0#32 .r1b (setSeq .xferStop v)).wire,
      sentAs_of_app (s := setSeq .xferStop v) happ]
    rfl

/-- CMD12 answered at once, in whatever way, or not at all; or none due. -/
theorem dataStop_ends {v : State} {stop : Bool} {after r : List (List Ev)} (hm : v.xfer.multi = stop) (hs : v.inp.sched = after ++ r)
    (h : (stop = true ∧ ∃ a rc w, after = promptly a rc w 0#32 0#32 0#32) ∨ (after = [] ∧ (stop = true → r = []))) :
    (dataStop v).1.inp.sched = r ∧ (dataStop v).1.inp.breaches = v.inp.breaches := by
  rcases h with ⟨rfl, a, rc, w, rfl⟩ | ⟨rfl, hsilent⟩
  · obtain ⟨t, hissue, hp⟩ := issueCmd_prompted 12#6 0#32 .r1b a rc w 0#32 0#32 0#32 r (setSeq .xferStop v) hs
    rw [dataStop_of_multi hm, hissue, hp.inp]
    exact ⟨rfl, rfl⟩
  · cases stop with
    | false => rw [dataStop_of_single hm]; exact ⟨hs, rfl⟩
    | true =>
      cases hsilent rfl
      exact calm_dataStop v hs

/-- The flag words of the errors of a data phase, each with the error the handler latches (60 R520). -/
theorem latched_flags {flags : Word} {e : TransferError}
    (h : (flags, e) ∈
      [(0x00000002#32, TransferError.dataCrcFail), (0x00000008#32, .dataTimeout), (0x00000010#32, .txUnderrun),
        (0x00000020#32, .rxOverrun), (0x00000200#32, .startBitError), (0x00000102#32, .dataCrcFail),
        (0x0000022A#32, .dataCrcFail), (0x00000228#32, .dataTimeout), (0x00000220#32, .rxOverrun)]) :
    hasFlag flags (~~~mPath) = false ∧ hasFlag flags mData = true ∧ isrError flags = some e := by
  simp only [List.mem_cons, List.not_mem_nil, or_false, Prod.mk.injEq] at h
  rcases h with ⟨rfl, rfl⟩ | ⟨rfl, rfl⟩ | ⟨rfl, rfl⟩ | ⟨rfl, rfl⟩ | ⟨rfl, rfl⟩ | ⟨rfl, rfl⟩ | ⟨rfl, rfl⟩ | ⟨rfl, rfl⟩ | ⟨rfl, rfl⟩ <;>
    decide

/-- Settles O53: the latched error, then CMD12's, by `dataResult`. -/
theorem latchedErrorWins : Obligations.LatchedErrorWins := by
  refine ⟨fun i p ws flags e after r s hi hr hl hw hflags hafter hs => ?latched,
    fun i p ws fails r e s hi hr hstop hl hw hfails hs => ?stopFails⟩
  case latched =>
    obtain ⟨hpath, hdata, herror⟩ := latched_flags hflags
    obtain ⟨t, hexec, h⟩ := transfer_failed (rest := [.data flags, .isr] :: (after ++ r)) (r := r) (e := e)
      (sent := if p.stop then [stopSent] else []) hi hr hl hw (by rw [hs]; simp only [List.append_assoc, List.cons_append, List.nil_append])
      fun c ho => by
        have hphase := dataPhase_handled (dir := p.dir) (count := p.count) (stop := p.stop) (flags := flags) (rest := after ++ r)
          (congrArg Inputs.sched ho.inp) ho.static hpath hdata
        have hinp := handledFor_inp (dir := p.dir) (count := p.count) (stop := p.stop) (rest := after ++ r) ho.static hpath hdata
        have hm := moved_handledFor p.dir p.count p.stop flags (after ++ r) c
        obtain ⟨hsched, hbreaches⟩ := dataStop_ends hm.multi (congrArg Inputs.sched hinp) hafter
        rw [hphase, herror]
        exact ⟨rfl, (dataStop_wire (hm.app.trans ho.app) hm.multi).trans (congrArg (· ++ _) hm.wire), hsched,
          hbreaches.trans (by rw [hinp])⟩
    exact ⟨t, hexec, h.result, h.value, h.cells, h.disarmed, h.masked, h.sched, h.wire.trans (List.append_assoc ..).symm⟩
  case stopFails =>
    obtain ⟨t, hexec, h⟩ := transfer_failed (rest := dataDone ++ (fails ++ r)) (r := r) (e := e) (sent := [stopSent]) hi hr hl hw
      (by rw [hs]; simp only [List.append_assoc]) fun c ho => by
        have hphase := dataPhase_handled (dir := p.dir) (count := p.count) (stop := p.stop) (flags := mDataend) (rest := fails ++ r)
          (congrArg Inputs.sched ho.inp) ho.static (by decide) (by decide)
        have hv := handledFor_done p.dir p.count p.stop (fails ++ r) ho.static
        generalize handledFor p.dir p.count p.stop mDataend (fails ++ r) c = v at hphase hv
        obtain ⟨u, hissue, k, hsched, hbreaches, -, -⟩ := issueCmd_fails (by decide) (by decide) 0#32 hfails (s := setSeq .xferStop v)
          (congrArg Inputs.sched hv.inp)
        have hstopped := dataStop_of_multi (hv.multi.trans hstop)
        rw [hissue] at hstopped
        have hwire := dataStop_wire (hv.app.trans ho.app) (hv.multi.trans hstop)
        rw [hstopped] at hwire
        rw [hphase, hstopped, show isrError mDataend = none by decide]
        exact ⟨rfl, hwire.trans (congrArg (· ++ _) hv.wire), hsched, hbreaches.trans (by show v.inp.breaches = _; rw [hv.inp])⟩
    exact ⟨t, hexec, h.result, h.value, h.cells, h.disarmed, h.masked, h.static, h.sched, h.wire.trans (List.append_assoc ..).symm⟩

/-! ## A command of a transfer that fails -/

/-- What a transfer leaves of the machine where a command of its failed: the cells and host memory as they were. -/
structure Aborted (s : State) (cs : List Sent) (t : State) (r : List (List Ev)) : Prop where
  sched : t.inp.sched = r
  breaches : t.inp.breaches = s.inp.breaches
  xfer : t.xfer = s.xfer
  mem : t.mem = s.mem
  wire : t.wire = s.wire ++ cs

theorem Begun.fails {s b : State} {cs : List Sent} {app : Bool} {idx : BitVec 6} {fails r : List (List Ev)} {e : TransferError}
    (h : Begun s cs app b (fails ++ r)) (h9 : idx ≠ 9#6) (arg : Word) (hf : CommandFails .r1 idx fails r e) :
    ∃ t, issueCmd idx arg .r1 b = (t, .err e) ∧ Aborted s (cs ++ [opening app idx arg]) t r := by
  obtain ⟨t, hissue, k, hsched, hbreaches, hxfer, hmem⟩ :=
    issueCmd_fails (fun h => absurd h h9) (fun _ => rfl) arg hf (s := b) (congrArg Inputs.sched h.inp)
  refine ⟨t, hissue, hsched, hbreaches.trans (by rw [h.inp]), hxfer.trans h.xfer, hmem.trans h.mem, ?_⟩
  rw [k.wire, sentAs_of_app h.app, h.seq, h.wire, List.append_assoc]
  rfl

/-- The answers to the commands before one that fails. -/
theorem answers_nil (cs : List Sent) : answers cs [] = [] := by
  unfold answers
  rw [List.zipWith_nil_right]
  rfl

/-- Of a command phase of one command, only that command can fail. -/
theorem Begun.one_fails {s b : State} {opens : List Sent} {idx : BitVec 6} {ws : List Word} {c : Sent} {fails r : List (List Ev)}
    {e : TransferError} (ho : opens = [opening false idx (wireAddr s.desc s.host.arg0)]) (h9 : idx ≠ 9#6)
    (hget : opens[ws.length]? = some c) (hf : CommandFails c.kind c.idx fails r e)
    (g : Begun s [] false b (answers opens ws ++ (fails ++ r))) :
    ∃ t, dataCommand idx b = (t, .err e) ∧ Aborted s (opens.take (ws.length + 1)) t r := by
  subst ho
  cases ws with
  | cons w ws => simp at hget
  | nil =>
    cases hget
    rw [answers_nil, List.nil_append] at g
    have hcmd : dataCommand idx b = issueCmd idx (wireAddr s.desc s.host.arg0) .r1 b := by
      unfold dataCommand
      rw [g.desc, g.host]
    rw [hcmd]
    exact g.fails h9 _ hf

/-- Of the three commands of WRITE_BLOCKS on an SD card, any can fail. -/
theorem Begun.announced_fails {s b : State} {opens : List Sent} {ws : List Word} {c : Sent} {fails r : List (List Ev)} {e : TransferError}
    (ho : opens =
      [opening false 55#6 (s.desc.rca ++ 0#16), opening true 23#6 s.host.arg1, opening false 25#6 (wireAddr s.desc s.host.arg0)])
    (hsd : isSd s.desc = true) (hget : opens[ws.length]? = some c) (hw : ∀ w ∈ ws, w &&& 0xFDFFE008#32 = 0#32)
    (hf : CommandFails c.kind c.idx fails r e) (g : Begun s [] false b (answers opens ws ++ (fails ++ r))) :
    ∃ t, writeBlocksCommand b = (t, .err e) ∧ Aborted s (opens.take (ws.length + 1)) t r := by
  subst ho
  have hb := writeBlocksCommand_sd (b := b) (by rw [g.desc]; exact hsd)
  rw [rcaArg_eq, g.desc, g.host] at hb
  rw [hb]
  match ws, hget, hw, g with
  | [], hget, hw, g =>
    cases hget
    rw [answers_nil, List.nil_append] at g
    obtain ⟨t, hissue, ha⟩ := Begun.fails (idx := 55#6) g (by decide) (s.desc.rca ++ 0#16) hf
    exact ⟨t, by rw [show issueCmd 55#6 _ .r1 b = _ from hissue]; rfl, ha⟩
  | [w1], hget, hw, g =>
    cases hget
    rw [answers_cons, answers_nil, List.append_nil] at g
    obtain ⟨c1, f1, he1, g1⟩ := Begun.next g (by simp [opening]) (s.desc.rca ++ 0#16) (hw w1 (by simp))
    obtain ⟨t, hissue, ha⟩ := Begun.fails (idx := 23#6) g1 (by decide) s.host.arg1 hf
    exact ⟨t, by rw [show issueCmd 55#6 _ .r1 b = _ from he1, andThen_ok, show issueCmd 23#6 _ .r1 c1 = _ from hissue]; rfl, ha⟩
  | [w1, w2], hget, hw, g =>
    cases hget
    rw [answers_cons, answers_cons, answers_nil, List.append_nil, List.append_assoc] at g
    obtain ⟨c1, f1, he1, g1⟩ := Begun.next g (by simp [opening]) (s.desc.rca ++ 0#16) (hw w1 (by simp))
    obtain ⟨c2, f2, he2, g2⟩ := Begun.next g1 (by simp [opening]) s.host.arg1 (hw w2 (by simp))
    obtain ⟨t, hissue, ha⟩ := Begun.fails (idx := 25#6) g2 (by decide) (wireAddr s.desc s.host.arg0) hf
    have hcmd : dataCommand 25#6 c2 = issueCmd 25#6 (wireAddr s.desc s.host.arg0) .r1 c2 := by
      unfold dataCommand
      rw [g2.desc, g2.host]
    exact ⟨t, by
      rw [show issueCmd 55#6 _ .r1 b = _ from he1, andThen_ok, show issueCmd 23#6 _ .r1 c1 = _ from he2, andThen_ok, hcmd]
      exact hissue, ha⟩
  | w1 :: w2 :: w3 :: ws, hget, hw, g => simp at hget

/-- A transfer that meets `Ready` comes to the command of its that fails. -/
theorem plan_aborted {i : Instr} {p : Plan} {ws : List Word} {c : Sent} {fails r : List (List Ev)} {e : TransferError} {s : State}
    (hi : (i, p) ∈ plans s) (hr : Ready p.dir p.count p.multi s) (hget : p.opens[ws.length]? = some c)
    (hw : ∀ w ∈ ws, w &&& 0xFDFFE008#32 = 0#32) (hf : CommandFails c.kind c.idx fails r e)
    (hs : s.inp.sched = checkBatches p.dir s.cfg ++ (answers p.opens ws ++ (fails ++ r))) :
    ∃ b command u, exec i s = settle s (endWith (moveBlocks p.dir p.count p.stop command b)) ∧
      command (setSeq .xferCmd b) = (u, .err e) ∧ Aborted s (p.opens.take (ws.length + 1)) u r := by
  have g := begun_start hr.app (answers p.opens ws ++ (fails ++ r))
  unfold plans at hi
  simp only [List.mem_cons, List.not_mem_nil, or_false, Prod.mk.injEq] at hi
  rcases hi with ⟨rfl, rfl⟩ | ⟨rfl, rfl⟩ | ⟨rfl, rfl⟩ | ⟨rfl, rfl⟩
  · obtain ⟨u, he, ha⟩ := Begun.one_fails rfl (by decide) hget hf g
    exact ⟨_, dataCommand 17#6, u, (show execReadBlock s = _ from transferOp_ready hr hs), he, ha⟩
  · obtain ⟨u, he, ha⟩ := Begun.one_fails rfl (by decide) hget hf g
    exact ⟨_, dataCommand 18#6, u, (show execReadBlocks s = _ from transferOp_ready hr hs), he, ha⟩
  · obtain ⟨u, he, ha⟩ := Begun.one_fails rfl (by decide) hget hf g
    exact ⟨_, dataCommand 24#6, u, (show execWriteBlock s = _ from transferOp_ready hr hs), he, ha⟩
  · have hx : exec .writeBlocks s = _ := (show execWriteBlocks s = _ from transferOp_ready hr hs)
    by_cases hm : s.desc.cardType = .mmc
    · obtain ⟨u, he, ha⟩ := Begun.one_fails (if_pos hm) (by decide) hget hf g
      exact ⟨_, writeBlocksCommand, u, hx, (writeBlocksCommand_mmc (by rw [g.desc]; simp [isSd, hm])).trans he, ha⟩
    · obtain ⟨u, he, ha⟩ := Begun.announced_fails (if_neg hm) (by simp [isSd, hm]) hget hw hf g
      exact ⟨_, writeBlocksCommand, u, hx, he, ha⟩

/-- A command of a transfer that fails ends it (44 R424): nothing more is sent, and DMA is not touched. -/
theorem transfer_aborts {i : Instr} {p : Plan} {ws : List Word} {c : Sent} {fails r : List (List Ev)} {e : TransferError} {s : State}
    (hi : (i, p) ∈ plans s) (hr : Ready p.dir p.count p.multi s) (hget : p.opens[ws.length]? = some c)
    (hw : ∀ w ∈ ws, w &&& 0xFDFFE008#32 = 0#32) (hf : CommandFails c.kind c.idx fails r e)
    (hs : s.inp.sched = checkBatches p.dir s.cfg ++ (answers p.opens ws ++ (fails ++ r))) :
    ∃ t, exec i s = .next t ∧ t.host.result = e.code ∧ t.host.value = 0#32 ∧ t.seq = .idle ∧ t.host.hbusy = false ∧
      t.inp.sched = r ∧ t.xfer = s.xfer ∧ t.wire = s.wire ++ p.opens.take (ws.length + 1) ∧ t.mem = s.mem := by
  obtain ⟨b, command, u, hexec, hcmd, ha⟩ := plan_aborted hi hr hget hw hf hs
  have hspoil : (spoilBlocks p.dir p.count u).inp = u.inp ∧ (spoilBlocks p.dir p.count u).xfer = u.xfer ∧
      (spoilBlocks p.dir p.count u).wire = u.wire ∧ (spoilBlocks p.dir p.count u).mem = u.mem := by
    cases p.dir <;> exact ⟨rfl, rfl, rfl, rfl⟩
  have hmove : moveBlocks p.dir p.count p.stop command b = (spoilBlocks p.dir p.count u, .err e) := by
    unfold moveBlocks
    rw [hcmd]
  obtain ⟨hinp, hxfer, hwire, hmem⟩ := hspoil
  rw [hmove, endWith_eq] at hexec
  refine ⟨raise e (spoilBlocks p.dir p.count u), hexec.trans (settle_ok hr.app ?_), rfl, rfl, rfl, rfl, ?_, hxfer.trans ha.xfer,
    hwire.trans ha.wire, hmem.trans ha.mem⟩
  · show (spoilBlocks p.dir p.count u).inp.breaches = _
    rw [hinp, ha.breaches]
  · show (spoilBlocks p.dir p.count u).inp.sched = _
    rw [hinp, ha.sched]

end Sys2Proof.Machine
end

section
/-! PROOFS. What every host operation but INITIALIZE writes (10_state R46; 20_memory R93), and how every host operation ends
(60_exceptions R510, R546, R547). -/

namespace Sys2Proof.Machine

open Sys2Proof.Safety

/-! ## The frames of the operations -/

/-- What an operation but INITIALIZE writes of the registers, of host memory and of card storage. -/
theorem framed_of_opRan {i : Instr} {s t : State} (hi : i ≠ .initializeCard) (hdma : s.bc.dma = none) (h : OpRan i s t) :
    KeptByOp s t ∧ (∀ x, ¬ memWritten i s x → t.mem.read x = s.mem.read x) ∧
      ∀ x, ¬ cardWritten i s t x → t.card.mem.read x = s.card.mem.read x := by
  obtain ⟨-, u, r, M, ht, hM, hr, -⟩ := h
  have hinit : decide (i = .initializeCard) = false := decide_eq_false hi
  obtain ⟨-, -, -, -, hop, harg0, harg1, hbuf, hbuflen⟩ := endWith_host (u, r)
  have hrest := endWith_rest (u, r)
  rw [← ht] at hop harg0 harg1 hbuf hbuflen hrest
  rw [hr.host] at hop harg0 harg1 hbuf hbuflen
  refine ⟨?registers, fun x hx => ?memory, fun x hx => ?storage⟩
  case registers =>
    rw [hrest]
    exact
      { cfg := hr.cfg
        op := hop
        arg0 := harg0
        arg1 := harg1
        buf := hbuf
        buflen := hbuflen
        desc := hr.desc hinit
        valid := hr.valid hinit
        neg := hr.neg hinit
        log := hr.log hinit
        div := hr.div hinit
        width := hr.width hinit
        dma := hr.dma hdma
        multi := hr.multi
        mask := hr.mask
        cmdResult := hr.cmdResult
        wire := hr.wire }
  case memory =>
    rw [hrest]
    exact hr.mem hdma x fun hm => hx (hM x hm).1
  case storage =>
    rw [hrest]
    exact hr.card hdma x hx

theorem not_noAddr (x : Nat) : ¬ noAddr x := id

/-- Settles O54: the buffer is all of host memory that a read writes. -/
theorem readFrame : Obligations.ReadFrame := by
  intro i count s t hmem hdma h
  have hi : i ≠ .initializeCard ∧ frameParts i = none ∧ memWritten i s = bufferOf .rx s (count * blockSize) ∧
      cardWritten i s t = noAddr := by
    simp only [List.mem_cons, List.not_mem_nil, or_false, Prod.mk.injEq] at hmem
    rcases hmem with ⟨rfl, rfl⟩ | ⟨rfl, rfl⟩
    · exact ⟨nofun, rfl, by rw [Nat.one_mul]; rfl, rfl⟩
    · exact ⟨nofun, rfl, rfl, rfl⟩
  obtain ⟨hne, hparts, hbuffer, hcard⟩ := hi
  obtain ⟨hkept, hmemory, hstorage⟩ := framed_of_opRan hne hdma (exec_op hparts h)
  rw [hbuffer] at hmemory
  rw [hcard] at hstorage
  refine ⟨hkept, fun x hx => hmemory x ?_, fun x => hstorage x (not_noAddr x)⟩
  rintro ⟨-, hlo, hhi⟩
  have hsize : count * blockSize = count * 512 := rfl
  omega

/-- Settles O55: the blocks the card opens are all of card storage that a write writes, but for what an error leaves open. -/
theorem writeFrame : Obligations.WriteFrame := by
  intro i count s t hmem hdma h
  have hi : i ≠ .initializeCard ∧ frameParts i = none ∧ memWritten i s = noAddr ∧
      ∀ x, cardWritten i s t x →
        blocksFrom .tx (openedAt s) (touched i count s * 512) x ∨ t.host.result ≠ 0#8 ∧ namedBlocks .tx s count x := by
    simp only [List.mem_cons, List.not_mem_nil, or_false, Prod.mk.injEq] at hmem
    rcases hmem with ⟨rfl, rfl⟩ | ⟨rfl, rfl⟩
    · have htouched : touched .writeBlock 1 s * 512 = blockSize := by
        rw [touched, if_neg (by rintro ⟨h, -⟩; cases h)]
        exact Nat.one_mul 512
      exact ⟨nofun, rfl, rfl, fun x hx => by rw [htouched]; exact hx⟩
    · exact ⟨nofun, rfl, rfl, fun x hx => hx⟩
  obtain ⟨hne, hparts, hmem', hcard⟩ := hi
  obtain ⟨hkept, hmemory, hstorage⟩ := framed_of_opRan hne hdma (exec_op hparts h)
  rw [hmem'] at hmemory
  refine ⟨hkept, fun x => hmemory x (not_noAddr x), fun x hout hopen => hstorage x fun hx => ?_⟩
  rcases hcard x hx with ⟨-, hlo, hhi⟩ | ⟨herr, hnamed⟩
  · omega
  · refine hopen herr ?_
    rcases hnamed with ⟨-, hlo, hhi⟩ | ⟨-, hlo, hhi⟩
    · exact .inl ⟨hlo, hhi⟩
    · exact .inr ⟨hlo, hhi⟩

/-- Settles O56: none of the four writes a byte of memory. -/
theorem queryFrame : Obligations.QueryFrame := by
  intro i s t hmem hdma h
  have hi : i ≠ .initializeCard ∧ frameParts i = none ∧ memWritten i s = noAddr ∧ cardWritten i s t = noAddr := by
    simp only [List.mem_cons, List.not_mem_nil, or_false] at hmem
    rcases hmem with rfl | rfl | rfl | rfl <;> exact ⟨nofun, rfl, rfl, rfl⟩
  obtain ⟨hne, hparts, hmem', hcard⟩ := hi
  obtain ⟨hkept, hmemory, hstorage⟩ := framed_of_opRan hne hdma (exec_op hparts h)
  rw [hmem'] at hmemory
  rw [hcard] at hstorage
  exact ⟨hkept, fun x => hmemory x (not_noAddr x), fun x => hstorage x (not_noAddr x)⟩

/-- Settles O60: the erase units of the selected range are all that an ERASE writes. -/
theorem eraseFrame : Obligations.EraseFrame := by
  intro s t hdma h
  obtain ⟨hkept, hmemory, hstorage⟩ := framed_of_opRan (i := .erase) nofun hdma (exec_op rfl h)
  exact ⟨hkept, fun x => hmemory x (not_noAddr x), hstorage⟩

/-- Settles O43: INITIALIZE writes no byte of memory and none of the operands. -/
theorem initializeFrame : Obligations.InitializeFrame := by
  intro s t hdma h
  obtain ⟨-, u, r, M, ht, hM, hr, -⟩ := exec_op (i := .initializeCard) rfl h
  obtain ⟨-, -, -, -, hop, harg0, harg1, hbuf, hbuflen⟩ := endWith_host (u, r)
  have hrest := endWith_rest (u, r)
  rw [← ht] at hop harg0 harg1 hbuf hbuflen hrest
  rw [hr.host] at hop harg0 harg1 hbuf hbuflen
  refine ⟨hop, harg0, harg1, hbuf, hbuflen, ?_⟩
  rw [hrest]
  exact ⟨hr.cfg, hr.logGrows, hr.dma hdma, hr.multi, hr.mask, hr.cmdResult, fun x => hr.mem hdma x fun hm => (hM x hm).1,
    fun x => hr.card hdma x (not_noAddr x)⟩

/-! ## Every operation runs to its end -/

/-- Everything an operation can do, whatever it writes of memory. -/
abbrev RanFreely (s t : State) : Prop := Ran true (fun _ => True) (fun _ => True) s t

/-- The first command put on the bus between two states has this index. -/
def Begins (idx : BitVec 6) (s t : State) : Prop := ∃ c cs, t.wire = s.wire ++ c :: cs ∧ c.idx = idx

theorem ranFreely_issueCmd (idx : BitVec 6) (arg : Word) (kind : Kind) (s : State) : RanFreely s (issueCmd idx arg kind s).1 :=
  (issueCmd_ran idx arg kind true _ s).mono id (fun _ => id) fun _ _ => trivial

theorem begins_issueCmd (idx : BitVec 6) (arg : Word) (kind : Kind) (s : State) : Begins idx s (issueCmd idx arg kind s).1 :=
  ⟨_, [], (issueCmd_issued idx arg kind s).wire, rfl⟩

theorem begins_of_wire {idx : BitVec 6} {s s' t : State} (h : Begins idx s t) (hw : s.wire = s'.wire) : Begins idx s' t := by
  obtain ⟨c, cs, hwire, hidx⟩ := h
  exact ⟨c, cs, by rw [hwire, hw], hidx⟩

theorem begins_trans {idx : BitVec 6} {s t u : State} (h : Begins idx s t) (k : RanFreely t u) : Begins idx s u := by
  obtain ⟨c, cs, hwire, hidx⟩ := h
  obtain ⟨ds, hd⟩ := k.wire
  exact ⟨c, cs ++ ds, by rw [hd, hwire, List.append_assoc, List.cons_append], hidx⟩

theorem begins_andThen {α β : Type} {idx : BitVec 6} {s : State} {r : State × Res α} {k : α → State → State × Res β}
    (h : Begins idx s r.1) (hk : ∀ v u, RanFreely u (k v u).1) : Begins idx s (andThen r k).1 := by
  unfold andThen
  split
  · exact begins_trans h (hk _ _)
  · exact h

theorem ran_andThen_any {α β : Type} {s : State} {r : State × Res α} {k : α → State → State × Res β} (h : RanFreely s r.1)
    (hk : ∀ v u, RanFreely u (k v u).1) : RanFreely s (andThen r k).1 := ran_andThen h fun v _ => hk v _

theorem prefix_of_drop {s t : List Sent} (hgrows : ∃ cs, t = s ++ cs) (h : t.drop s.length = []) : t = s := by
  obtain ⟨cs, rfl⟩ := hgrows
  rw [List.drop_left] at h
  rw [h, List.append_nil]

/-- How an operation ends: idle with a result code, or refused because BC left its duties, or because a lone CMD55 before it
would make its first command an application command. -/
theorem settle_ends {s : State} {x : State × Res Word} (idx : BitVec 6) (hran : RanFreely (beginOp s) x.1)
    (hfirst : x.1.wire = s.wire ∨ Begins idx s x.1) :
    (∃ t, settle s (endWith x) = .next t ∧ t.seq = .idle ∧ t.host.hbusy = false ∧ t.host.result.toNat ≤ 32 ∧
      (t.host.result ≠ 0#8 → t.host.value = 0#32) ∧ (s.app = true → t.wire = s.wire)) ∨
    (settle s (endWith x) = .refused .dutyBroken ∧ s.inp.sched ≠ []) ∨
    (settle s (endWith x) = .refused (.outsideCommandSet true idx) ∧ s.app = true ∧ x.1.wire ≠ s.wire) := by
  have hwire : (endWith x).wire = x.1.wire := by rw [endWith_rest]
  rcases settle_cases s (endWith x) with hnext | ⟨hduty, hb⟩ | ⟨c, l, houtside, happ, hdrop⟩
  · obtain ⟨hseq, hbusy, hcode, hvalue, -⟩ := endWith_host x
    obtain ⟨-, -, hsilent⟩ := settle_next.1 hnext
    refine .inl ⟨_, hnext, hseq, hbusy, hcode, hvalue, fun happ => prefix_of_drop ?_ (hsilent happ)⟩
    rw [hwire]
    exact hran.wire
  · refine .inr (.inl ⟨hduty, fun hsched => hb ?_⟩)
    rw [endWith_inp]
    exact (hran.calm hsched).2
  · rw [hwire] at hdrop
    refine .inr (.inr ?_)
    rcases hfirst with hsame | ⟨c', cs, hw, hidx⟩
    · rw [hsame, List.drop_length] at hdrop
      cases hdrop
    · rw [hw, List.drop_left] at hdrop
      cases hdrop
      exact ⟨hidx ▸ houtside, happ, by rw [hw]; simp⟩

theorem hostOp_idle {body : State → State × Res Word} {s : State} (hidle : s.host.hbusy = false) :
    hostOp body s = settle s (endWith (body (beginOp s))) := by
  unfold hostOp
  rw [hidle]
  rfl

/-! ## The first command of each operation -/

theorem ranFreely_tailProbe (u : State) : RanFreely u (tailProbe u).1 :=
  ran_andThen_any (ran_negProbe _ _ _) fun _ _ => ran_andThen_any (ran_negVoltage _ _ _) fun _ _ =>
  ran_andThen_any (ran_negIdentCid _ _ _) fun _ _ => ran_andThen_any (ran_negIdentRca _ _ _) fun _ _ =>
  ran_andThen_any (ran_negRegfetch _ _ _) fun _ _ => ran_andThen_any (ran_negSelect _ _ _) fun _ _ =>
  ran_andThen_any (ran_negWidth _ _ _) fun _ _ => ran_andThen_any (ran_negBlklen _ _ _) fun _ _ => ran_desc _ _ _ _

theorem negEntry_wire (s : State) : (negEntry s).1.wire = s.wire := (cardCheck_inp_wire (negClear s)).2

theorem begins_negotiate (s : State) : (negotiate s).1.wire = s.wire ∨ Begins 0#6 s (negotiate s).1 := by
  rw [negotiate_eq]
  unfold tailEntry
  have hentry := negEntry_wire s
  generalize negEntry s = x at hentry
  obtain ⟨u, r⟩ := x
  cases r with
  | err e => exact .inl hentry
  | ok v =>
    refine .inr (begins_of_wire (s := u) ?_ hentry)
    have hreset : Begins 0#6 u (negReset u).1 :=
      begins_andThen (begins_of_wire (begins_issueCmd 0#6 0#32 .rNone (configure u.cfg.initClkdiv 1#3 (setSeq .negReset u))) rfl)
        fun _ _ => Ran.refl _ _ _ _
    rw [andThen_ok]
    exact begins_andThen hreset fun _ => ranFreely_tailProbe

theorem begins_eraseBody (s : State) :
    RanFreely s (eraseBody s).1 ∧ ((eraseBody s).1.wire = s.wire ∨ Begins (eraseIndices s.desc).1 s (eraseBody s).1) := by
  have hchecks := ran_eraseChecks true (fun _ => True) (fun _ => True) s
  have hpassed := eraseChecks_ok (s := s)
  have hwire : (eraseChecks s).1.wire = s.wire := by
    rw [eraseChecks_eq]
    split <;> exact (moved_sync s).wire
  unfold eraseBody
  generalize eraseChecks s = x at hchecks hpassed hwire
  obtain ⟨u, r⟩ := x
  cases r with
  | err e => exact ⟨hchecks, .inl hwire⟩
  | ok v =>
    have hdesc : u.desc = s.desc := (hpassed rfl).desc
    rw [andThen_ok, hdesc]
    have hrest (v : Fields) (w : State) : RanFreely w (andThen (issueCmd (eraseIndices w.desc).2 (wireAddr w.desc w.host.arg1) .r1 w)
        fun _ s => andThen (issueCmd 38#6 0#32 .r1b s) fun _ s =>
        andThen (erasePoll (erasePollBudget s.cfg) (setSeq .erasePoll s)) fun _ s => (s, Res.ok 0#32)).1 :=
      ran_andThen_any (ranFreely_issueCmd _ _ _ _) fun _ _ => ran_andThen_any (ranFreely_issueCmd _ _ _ _) fun _ _ =>
        ran_andThen_any ((ran_setSeq _ _ _ _ _).trans (ran_erasePoll _ _ _ _ _)) fun _ _ => Ran.refl _ _ _ _
    have hfirst : Begins (eraseIndices s.desc).1 u
        (issueCmd (eraseIndices s.desc).1 (wireAddr s.desc u.host.arg0) .r1 (setSeq .eraseCmd u)).1 :=
      begins_of_wire (begins_issueCmd _ _ _ (setSeq .eraseCmd u)) rfl
    refine ⟨hchecks.trans (ran_andThen_any ((ran_setSeq _ _ _ _ _).trans (ranFreely_issueCmd _ _ _ _)) hrest), .inr ?_⟩
    exact begins_of_wire (begins_andThen hfirst hrest) hwire

theorem begins_queryBody (s : State) : (queryBody s).1.wire = s.wire ∨ Begins 13#6 s (queryBody s).1 := by
  unfold queryBody
  have hcheck := (cardCheck_inp_wire s).2
  generalize cardCheck s = x at hcheck
  obtain ⟨u, r⟩ := x
  cases r with
  | err e => exact .inl hcheck
  | ok v =>
    rw [andThen_ok, descCheck]
    split
    · refine .inr (begins_of_wire (s := u) ?_ hcheck)
      have hquery : Begins 13#6 u (statusQuery (setSeq .statusQuery u)).1 :=
        begins_andThen (begins_of_wire (begins_issueCmd _ _ _ (setSeq .statusQuery u)) rfl) fun _ _ => Ran.refl _ _ _ _
      rw [andThen_ok]
      exact begins_andThen hquery fun _ _ => Ran.refl _ _ _ _
    · exact .inl hcheck

/-! ## Transfers -/

theorem ranFreely_spoilBlocks (dir : Dir) (count : Nat) (s : State) : RanFreely s (spoilBlocks dir count s) :=
  ran_spoilBlocks dir count s (fun _ _ => trivial) true _

theorem ranFreely_spoilTransfer (dir : Dir) (count : Nat) (s : State) : RanFreely s (spoilTransfer dir count s) :=
  ran_spoilTransfer dir count s (fun _ _ => trivial) (fun _ _ => trivial) true

/-- What follows the commands of a transfer. -/
theorem ranFreely_moveBlocks (dir : Dir) (count : Nat) (stop : Bool) (command : State → State × Res Fields) (s : State) :
    RanFreely (command (setSeq .xferCmd s)).1 (moveBlocks dir count stop command s).1 := by
  have hphase : RanFreely (command (setSeq .xferCmd s)).1 (dataPhase dir count stop (command (setSeq .xferCmd s)).1).1 :=
    (dataPhase_ran dir count stop true _).mono id (fun _ _ => trivial) fun _ _ => trivial
  unfold moveBlocks
  dsimp only
  split
  · exact ranFreely_spoilBlocks _ _ _
  · split
    · exact hphase.trans (ranFreely_spoilTransfer _ _ _)
    · exact hphase

theorem ranFreely_dataCommand (idx : BitVec 6) (u : State) : RanFreely u (dataCommand idx u).1 := ranFreely_issueCmd _ _ _ _

theorem begins_dataCommand (idx : BitVec 6) (u : State) : Begins idx u (dataCommand idx u).1 := begins_issueCmd _ _ _ _

theorem begins_writeBlocksCommand (u : State) :
    RanFreely u (writeBlocksCommand u).1 ∧ Begins (if u.desc.cardType = .mmc then 25#6 else 55#6) u (writeBlocksCommand u).1 := by
  by_cases h : u.desc.cardType = .mmc
  · rw [writeBlocksCommand_mmc (by simp [isSd, h]), if_pos h]
    exact ⟨ranFreely_dataCommand _ _, begins_dataCommand _ _⟩
  · rw [writeBlocksCommand_sd (by simp [isSd, h]), if_neg h]
    have happ : Begins 55#6 u (andThen (issueCmd 55#6 (rcaArg u) .r1 u) fun _ s => issueCmd 23#6 u.host.arg1 .r1 s).1 :=
      begins_andThen (begins_issueCmd _ _ _ _) fun _ _ => ranFreely_issueCmd _ _ _ _
    exact ⟨ran_andThen_any (ran_andThen_any (ranFreely_issueCmd _ _ _ _) fun _ _ => ranFreely_issueCmd _ _ _ _)
      fun _ _ => ranFreely_dataCommand _ _, begins_andThen happ fun _ _ => ranFreely_dataCommand _ _⟩

theorem checks_wire (dir : Dir) (count : Nat) (multi : Bool) (s : State) : (checks dir count multi s).1.wire = s.wire := by
  rw [checks_eq]
  split
  · exact (moved_sync s).wire
  · split
    · exact (moved_sync s).wire
    · exact (moved_sampled dir _).wire.trans (moved_sync s).wire

/-- How a transfer ends: as any operation, or refused for its buffer. -/
theorem transferOp_ends {dir : Dir} {count : Nat} {multi : Bool} {stop : Descriptor → Bool} {command : State → State × Res Fields}
    {s : State} {idx : BitVec 6} (hidle : s.host.hbusy = false)
    (hcmd : ∀ u, u.desc = s.desc → RanFreely u (command u).1 ∧ Begins idx u (command u).1) :
    (transferOp dir count multi stop command s = .refused .bufferUnreachable ∧
      reachable s.cfg s.host.buf (count * blockSize) = false) ∨
    ∃ x, transferOp dir count multi stop command s = settle s (endWith x) ∧ RanFreely (beginOp s) x.1 ∧
      (x.1.wire = s.wire ∨ Begins idx s x.1) := by
  have hran := ran_checks dir count multi true (fun _ => True) (fun _ => True) (beginOp s)
  have hwire : (checks dir count multi (beginOp s)).1.wire = s.wire := checks_wire dir count multi (beginOp s)
  have hpassed := checks_ok (dir := dir) (count := count) (multi := multi) (s := beginOp s)
  unfold transferOp
  rw [hidle, if_neg (by decide)]
  generalize checks dir count multi (beginOp s) = y at hran hwire hpassed
  obtain ⟨u, r⟩ := y
  cases r with
  | err e => exact .inr ⟨(u, .err e), rfl, hran, .inl hwire⟩
  | ok v =>
    obtain ⟨hm, -⟩ := hpassed rfl
    dsimp only at hm hwire hran ⊢
    have hspace : u.cfg = s.cfg := hm.cfg
    have hbuf : u.host.buf = s.host.buf := by rw [hm.host]; rfl
    rw [hspace, hbuf]
    by_cases hreach : reachable s.cfg s.host.buf (count * blockSize) = true
    · rw [if_pos hreach]
      obtain ⟨hc, hb⟩ := hcmd (setSeq .xferCmd u) hm.desc
      have hmove := ranFreely_moveBlocks dir count (stop u.desc) command u
      exact .inr ⟨_, rfl, hran.trans (((ran_setSeq .xferCmd _ _ _ u).trans hc).trans hmove),
        .inr (begins_of_wire (begins_trans hb hmove) hwire)⟩
    · rw [if_neg hreach]
      exact .inl ⟨rfl, by simpa using hreach⟩

/-- A buffer is unreachable where it passes the host address space or has a byte in no region (60_exceptions R547). -/
theorem not_reachable {p : Params} {a n : Nat} (h : reachable p a n = false) :
    ¬ (a + n ≤ 2 ^ p.hostAddrW ∧ ∀ x, a ≤ x → x < a + n → ∃ r ∈ p.dmaReach, r.1 ≤ x ∧ x < r.1 + r.2) := by
  intro hreach
  rw [(reachable_iff p a n).2 hreach] at h
  cases h

/-- How the four transfers end, with the index of the first command of each. -/
theorem exec_transfer_ends {s : State} (hidle : s.host.hbusy = false) {i : Instr} {count : Nat} {idx : BitVec 6}
    (h : (i, count, idx) ∈
      [(Instr.readBlock, 1, 17#6), (.readBlocks, s.host.arg1.toNat, 18#6), (.writeBlock, 1, 24#6),
        (.writeBlocks, s.host.arg1.toNat, if s.desc.cardType = .mmc then 25#6 else 55#6)]) :
    (exec i s = .refused .bufferUnreachable ∧ reachable s.cfg s.host.buf (count * blockSize) = false) ∨
    ∃ x, exec i s = settle s (endWith x) ∧ RanFreely (beginOp s) x.1 ∧ (x.1.wire = s.wire ∨ Begins idx s x.1) := by
  have hdata (idx : BitVec 6) (u : State) (_ : u.desc = s.desc) : RanFreely u (dataCommand idx u).1 ∧ Begins idx u (dataCommand idx u).1 :=
    ⟨ranFreely_dataCommand idx u, begins_dataCommand idx u⟩
  simp only [List.mem_cons, List.not_mem_nil, or_false, Prod.mk.injEq] at h
  rcases h with ⟨rfl, rfl, rfl⟩ | ⟨rfl, rfl, rfl⟩ | ⟨rfl, rfl, rfl⟩ | ⟨rfl, rfl, rfl⟩
  · exact transferOp_ends (multi := false) (stop := fun _ => false) hidle (hdata 17#6)
  · exact transferOp_ends (multi := true) (stop := fun _ => true) hidle (hdata 18#6)
  · exact transferOp_ends (multi := false) (stop := fun _ => false) hidle (hdata 24#6)
  · exact transferOp_ends (multi := true) (stop := isSd) hidle fun u hu => by
      rw [← hu]
      exact begins_writeBlocksCommand u

/-- How the other operations end, with the index of the first command of each that sends one. -/
theorem exec_hostOp_ends {s : State} (hidle : s.host.hbusy = false) {i : Instr} {idx : BitVec 6}
    (h : (i, idx) ∈ [(Instr.initializeCard, 0#6), (.erase, if s.desc.cardType = .mmc then 35#6 else 32#6), (.queryStatus, 13#6)]) :
    ∃ x, exec i s = settle s (endWith x) ∧ RanFreely (beginOp s) x.1 ∧ (x.1.wire = s.wire ∨ Begins idx s x.1) := by
  have hwire : (beginOp s).wire = s.wire := rfl
  simp only [List.mem_cons, List.not_mem_nil, or_false, Prod.mk.injEq] at h
  rcases h with ⟨rfl, rfl⟩ | ⟨rfl, rfl⟩ | ⟨rfl, rfl⟩
  · exact ⟨_, hostOp_idle hidle, ran_negotiate _ _ _, (begins_negotiate (beginOp s)).imp id fun h => begins_of_wire h hwire⟩
  · obtain ⟨hran, hfirst⟩ := begins_eraseBody (beginOp s)
    have hidx : (eraseIndices (beginOp s).desc).1 = if s.desc.cardType = .mmc then 35#6 else 32#6 := by
      show (eraseIndices s.desc).1 = _
      unfold eraseIndices
      split <;> rfl
    rw [hidx] at hfirst
    exact ⟨_, hostOp_idle hidle, hran, hfirst.imp id fun h => begins_of_wire h hwire⟩
  · exact ⟨_, hostOp_idle hidle, ran_queryBody true _ _ _, (begins_queryBody (beginOp s)).imp id fun h => begins_of_wire h hwire⟩

/-- The accessors put no command on the bus. -/
theorem exec_accessor_ends {s : State} (hidle : s.host.hbusy = false) {i : Instr}
    (h : i ∈ [Instr.transferBusy, .capacityBlocks, .blockSize]) :
    ∃ x, exec i s = settle s (endWith x) ∧ RanFreely (beginOp s) x.1 ∧ x.1.wire = s.wire := by
  simp only [List.mem_cons, List.not_mem_nil, or_false] at h
  rcases h with rfl | rfl | rfl
  · exact ⟨_, (show execTransferBusy s = _ from hostOp_idle hidle), ran_sync _ _ _ _, (moved_sync (beginOp s)).wire⟩
  · exact ⟨_, (show execCapacityBlocks s = _ from hostOp_idle hidle), Ran.refl _ _ _ _, rfl⟩
  · exact ⟨_, (show execBlockSize s = _ from hostOp_idle hidle), Ran.refl _ _ _ _, rfl⟩

/-- Settles O14: every operation settles, and its first command is the one its body sends. -/
theorem hostOpsEnd : Obligations.HostOpsEnd := by
  intro i s hmem hidle reach
  have hcases : (∃ count idx, (i, count, idx) ∈
        [(Instr.readBlock, 1, 17#6), (.readBlocks, s.host.arg1.toNat, 18#6), (.writeBlock, 1, 24#6),
          (.writeBlocks, s.host.arg1.toNat, if s.desc.cardType = .mmc then 25#6 else 55#6)]) ∨
      (∃ idx, (i, idx) ∈ [(Instr.initializeCard, 0#6), (.erase, if s.desc.cardType = .mmc then 35#6 else 32#6), (.queryStatus, 13#6)]) ∨
      i ∈ [Instr.transferBusy, .capacityBlocks, .blockSize] := by
    simp only [List.mem_cons, List.not_mem_nil, or_false] at hmem
    rcases hmem with rfl | rfl | rfl | rfl | rfl | rfl | rfl | rfl | rfl | rfl <;> simp
  rcases hcases with ⟨count, idx, hi⟩ | ⟨idx, hi⟩ | hi
  · rcases exec_transfer_ends hidle hi with ⟨hunreach, hbuffer⟩ | ⟨x, hexec, hran, hfirst⟩
    · refine .inr (.inl ⟨hunreach, ?_⟩)
      have hno := not_reachable hbuffer
      simp only [List.mem_cons, List.not_mem_nil, or_false, Prod.mk.injEq] at hi
      rcases hi with ⟨rfl, rfl, -⟩ | ⟨rfl, rfl, -⟩ | ⟨rfl, rfl, -⟩ | ⟨rfl, rfl, -⟩
      · rw [Nat.one_mul] at hno
        exact .inl ⟨by simp, hno⟩
      · exact .inr ⟨by simp, hno⟩
      · rw [Nat.one_mul] at hno
        exact .inl ⟨by simp, hno⟩
      · exact .inr ⟨by simp, hno⟩
    · rw [hexec]
      rcases settle_ends idx hran hfirst with hnext | hduty | ⟨houtside, happ, -⟩
      · exact .inl hnext
      · exact .inr (.inr (.inl hduty))
      · refine .inr (.inr (.inr ⟨idx, houtside, happ, ?_⟩))
        simp only [List.mem_cons, List.not_mem_nil, or_false, Prod.mk.injEq] at hi
        rcases hi with ⟨rfl, -, rfl⟩ | ⟨rfl, -, rfl⟩ | ⟨rfl, -, rfl⟩ | ⟨rfl, -, rfl⟩ <;> simp
  · obtain ⟨x, hexec, hran, hfirst⟩ := exec_hostOp_ends hidle hi
    rw [hexec]
    rcases settle_ends idx hran hfirst with hnext | hduty | ⟨houtside, happ, -⟩
    · exact .inl hnext
    · exact .inr (.inr (.inl hduty))
    · refine .inr (.inr (.inr ⟨idx, houtside, happ, ?_⟩))
      simp only [List.mem_cons, List.not_mem_nil, or_false, Prod.mk.injEq] at hi
      rcases hi with ⟨rfl, rfl⟩ | ⟨rfl, rfl⟩ | ⟨rfl, rfl⟩ <;> simp
  · obtain ⟨x, hexec, hran, hsame⟩ := exec_accessor_ends hidle hi
    rw [hexec]
    rcases settle_ends 0#6 hran (.inl hsame) with hnext | hduty | ⟨-, -, hno⟩
    · exact .inl hnext
    · exact .inr (.inr (.inl hduty))
    · exact absurd hsame hno

end Sys2Proof.Machine
end

section
/-! PROOFS. QUERY_STATUS and ERASE (45_status_poller R470, R471; 44_block_transfer R430, R431): their commands one by one, the polls,
and how each fails. -/

namespace Sys2Proof.Machine

open Sys2Proof.Safety

/-! ## An operation underway -/

/-- An operation begun at `s` has sent `cs` and stands at `b` in step `q`, with `r` of the schedule to come: what its commands so far
leave of the machine. -/
structure Underway (s : State) (q : Seq) (cs : List Sent) (b : State) (r : List (List Ev)) : Prop where
  sched : b.inp.sched = r
  breaches : b.inp.breaches = s.inp.breaches
  cfg : b.cfg = s.cfg
  host : b.host = { s.host with hbusy := true }
  wire : b.wire = s.wire ++ cs
  desc : b.desc = s.desc
  seq : b.seq = q
  app : b.app = false

theorem underway_start {s : State} (ha : s.app = false) (q : Seq) (r : List (List Ev)) :
    Underway s q [] (setSeq q (setSched r (beginOp s))) r :=
  ⟨rfl, rfl, rfl, rfl, (List.append_nil _).symm, rfl, rfl, ha⟩

section
variable {s b : State} {q : Seq} {cs : List Sent} {r : List (List Ev)}

theorem Underway.step {q' : Seq} (h : Underway s q cs b r) : Underway s q' cs (setSeq q' b) r :=
  ⟨h.sched, h.breaches, h.cfg, h.host, h.wire, h.desc, rfl, h.app⟩

/-- A command of the operation, once it has ended. -/
theorem Underway.issued {idx : BitVec 6} {arg : Word} {kind : Kind} {t : State} {res : Res Fields} {r0 : List (List Ev)}
    (h : Underway s q cs b r0) (k : Issued idx arg kind b t res) (happ : prefixOf idx res = false) (hsched : t.inp.sched = r)
    (hbreaches : t.inp.breaches = b.inp.breaches) :
    Underway s q (cs ++ [{ seq := q, app := false, idx := idx, arg := arg, kind := kind }]) t r where
  sched := hsched
  breaches := hbreaches.trans h.breaches
  cfg := k.cfg.trans h.cfg
  host := k.host.trans h.host
  wire := by rw [k.wire, sentAs_of_app h.app, h.seq, h.wire, List.append_assoc]
  desc := k.desc.trans h.desc
  seq := k.seq.trans h.seq
  app := k.app.trans happ

theorem prefixOf_other {idx : BitVec 6} (h : idx ≠ 55#6) (res : Res Fields) : prefixOf idx res = false := by
  cases res with
  | ok f => exact prefix_ok h
  | err e => rfl

/-- A command answered by a status word without an error bit. -/
theorem Underway.answered {idx : BitVec 6} {w : Word} {kind : Kind} (h : Underway s q cs b (prompt idx w ++ r))
    (hk : kind = .r1 ∨ kind = .r1b) (h9 : idx ≠ 9#6) (h55 : idx ≠ 55#6) (arg : Word) (hw : w &&& 0xFDFFE008#32 = 0#32) :
    ∃ t f, issueCmd idx arg kind b = (t, .ok f) ∧
      Underway s q (cs ++ [{ seq := q, app := false, idx := idx, arg := arg, kind := kind }]) t r := by
  obtain ⟨t, x, -, hissue, hp⟩ := issueCmd_r1 (r := r) hk h9 arg h.sched ((hasFlag_eq_false_iff _ _).2 hw)
  exact ⟨t, _, hissue, h.issued hp.issued (prefixOf_other h55 _) (by rw [hp.inp]) (by rw [hp.inp])⟩

/-- A command that fails, by its answer or by silence. -/
theorem Underway.fails {idx : BitVec 6} {fails : List (List Ev)} {kind : Kind} {e : TransferError} (h : Underway s q cs b (fails ++ r))
    (h9 : idx = 9#6 → kind = .r2) (h55 : idx = 55#6 → kind = .r1) (arg : Word) (hf : CommandFails kind idx fails r e) :
    ∃ t, issueCmd idx arg kind b = (t, .err e) ∧
      Underway s q (cs ++ [{ seq := q, app := false, idx := idx, arg := arg, kind := kind }]) t r := by
  obtain ⟨t, hissue, k, hsched, hbreaches, -⟩ := issueCmd_fails h9 h55 arg hf h.sched
  exact ⟨t, hissue, h.issued k rfl hsched hbreaches⟩

/-- How an operation ends that returned a value. -/
theorem Underway.ends_ok {body : State → State × Res Word} {v : Word} (h : Underway s q cs b r) (hidle : s.host.hbusy = false)
    (happ : s.app = false) (hbody : body (beginOp s) = (b, .ok v)) :
    ∃ t, hostOp body s = .next t ∧ t.host.result = 0#8 ∧ t.host.value = v ∧ t.seq = .idle ∧ t.host.hbusy = false ∧
      t.inp.sched = r ∧ t.wire = s.wire ++ cs ∧ t.desc = s.desc :=
  ⟨_, (hostOp_of_ok hidle hbody).trans (settle_ok happ h.breaches), rfl, rfl, rfl, rfl, h.sched, h.wire, h.desc⟩

/-- How an operation ends that failed. -/
theorem Underway.ends_err {body : State → State × Res Word} {e : TransferError} (h : Underway s q cs b r) (hidle : s.host.hbusy = false)
    (happ : s.app = false) (hbody : body (beginOp s) = (b, .err e)) :
    ∃ t, hostOp body s = .next t ∧ t.host.result = e.code ∧ t.host.value = 0#32 ∧ t.seq = .idle ∧ t.host.hbusy = false ∧
      t.inp.sched = r ∧ t.wire = s.wire ++ cs ∧ t.desc = s.desc :=
  ⟨_, (hostOp_of_err hidle hbody).trans (settle_ok happ h.breaches), rfl, rfl, rfl, rfl, h.sched, h.wire, h.desc⟩

/-! ## The status query -/

theorem statusQuery_of_ok {t : State} {x : Word} (h : issueCmd 13#6 (rcaArg b) .r1 b = (t, .ok (.status x))) :
    statusQuery b = (t, .ok (stateOf (x.extractLsb' 9 4))) := by
  unfold statusQuery
  rw [h]
  rfl

theorem statusQuery_of_err {t : State} {e : TransferError} (h : issueCmd 13#6 (rcaArg b) .r1 b = (t, .err e)) :
    statusQuery b = (t, .err e) := by
  unfold statusQuery
  rw [h]
  rfl

theorem cardNext_cmd13 (c : Sent) (h : c.idx = 13#6) (w : Word) (st : BitVec 4) : cardNext c w st = st := by
  unfold cardNext
  rw [h]
  cases c.app <;> rfl

/-- A status query answered at once without an error bit reports the card's state and leaves it (45 R470, 41 R258). -/
theorem statusQuery_answered {w : Word} (hs : b.inp.sched = prompt 13#6 w ++ r) (hw : w &&& 0xFDFFE008#32 = 0#32) :
    ∃ t f x, statusQuery b = (t, .ok (stateOf b.card.state)) ∧ t.card.state = b.card.state ∧
      Prompted 13#6 (rcaArg b) .r1 .crcGood x r (.ok f) b t := by
  obtain ⟨t, x, hx, hissue, hp⟩ := issueCmd_r1 (.inl rfl) (by decide) (rcaArg b) hs ((hasFlag_eq_false_iff _ _).2 hw)
  have hreport : x.1.extractLsb' 9 4 = b.card.state := by
    rw [hx, statusWordOf_other (by exact (by decide : (13#6 : BitVec 6) ≠ 55#6))]
    exact reported_state (.inl rfl) _ _
  refine ⟨t, _, x, (statusQuery_of_ok hissue).trans (by rw [hreport]), ?_, hp⟩
  rw [hp.state, cardNext_cmd13 _ rfl, ite_self]

theorem querySent_eq (h : Underway s q cs b r) :
    ({ seq := q, app := false, idx := 13#6, arg := rcaArg b, kind := .r1 } : Sent) = querySent q s := by
  rw [rcaArg_eq, h.desc]
  rfl

theorem Underway.queried {w : Word} (h : Underway s q cs b (prompt 13#6 w ++ r)) (hw : w &&& 0xFDFFE008#32 = 0#32) :
    ∃ t, statusQuery b = (t, .ok (stateOf b.card.state)) ∧ Underway s q (cs ++ [querySent q s]) t r := by
  obtain ⟨t, f, x, hquery, -, hp⟩ := statusQuery_answered h.sched hw
  have hnext := h.issued hp.issued (prefixOf_other (by decide) _) (congrArg Inputs.sched hp.inp) (by rw [hp.inp])
  rw [querySent_eq h] at hnext
  exact ⟨t, hquery, hnext⟩

/-- The card changes its state before the query reaches it (10_state R55 (c)). -/
theorem Underway.polled {st : BitVec 4} {w : Word} (h : Underway s q cs b (polled st w ++ r)) (hw : w &&& 0xFDFFE008#32 = 0#32) :
    ∃ t, statusQuery b = (t, .ok (stateOf st)) ∧ Underway s q (cs ++ [querySent q s]) t r := by
  have hcard : Underway s q cs (setSched (prompt 13#6 w ++ r) (setCardState st b)) (prompt 13#6 w ++ r) :=
    ⟨rfl, h.breaches, h.cfg, h.host, h.wire, h.desc, h.seq, h.app⟩
  have hsame : statusQuery b = statusQuery (setSched (prompt 13#6 w ++ r) (setCardState st b)) := by
    unfold statusQuery
    rw [issueCmd_card 13#6 (rcaArg b) .r1 st ([.respond .crcGood 13#6 w 0#32 0#32 0#32] :: r) h.sched]
    rfl
  rw [hsame]
  exact hcard.queried hw

theorem Underway.query_fails {fails : List (List Ev)} {e : TransferError} (h : Underway s q cs b (fails ++ r))
    (hf : CommandFails .r1 13#6 fails r e) :
    ∃ t, statusQuery b = (t, .err e) ∧ Underway s q (cs ++ [querySent q s]) t r := by
  obtain ⟨t, hissue, hnext⟩ := h.fails (by decide) (by decide) (rcaArg b) hf
  rw [querySent_eq h] at hnext
  exact ⟨t, statusQuery_of_err hissue, hnext⟩

end

/-! ## QUERY_STATUS -/

/-- With a card and a descriptor, QUERY_STATUS comes to its query (45 R470). -/
theorem queryBody_ready {s : State} {r : List (List Ev)} (hp : s.inp.cardPresent = true) (hv : s.desc.valid = true)
    (hs : s.inp.sched = [] :: r) :
    queryBody (beginOp s) =
      andThen (statusQuery (setSeq .statusQuery (setSched r (beginOp s)))) fun st s => (s, .ok (st.code.setWidth 32)) := by
  have hsync : sync (beginOp s) = setSched r (beginOp s) := sync_cons hs
  unfold queryBody
  rw [cardCheck_eq, hsync, if_pos (by exact hp), andThen_ok, descCheck, if_pos (by exact hv), andThen_ok]

theorem stateOf_code (v : BitVec 4) : (stateOf v).code = if 1 ≤ v.toNat ∧ v.toNat ≤ 8 then v.setWidth 8 else 0xFF#8 := by
  revert v
  decide

/-- Settles O34: the query reports the card's own state. -/
theorem queryStatusOk : Obligations.QueryStatusOk := by
  refine ⟨stateOf_code, fun w r s hidle hp hv happ hw hs => ?_⟩
  obtain ⟨t, hquery, ht⟩ := (underway_start happ .statusQuery (prompt 13#6 w ++ r)).queried hw
  have hbody : queryBody (beginOp s) = (t, .ok ((stateOf s.card.state).code.setWidth 32)) := by
    rw [queryBody_ready hp hv hs, hquery]
    rfl
  obtain ⟨u, hexec, hresult, hvalue, hseq, hbusy, hsched, hwire, hdesc⟩ := ht.ends_ok hidle happ hbody
  exact ⟨u, hexec, hresult, hvalue, hseq, hbusy, hwire, hdesc, hsched⟩

/-- A status query that fails is QUERY_STATUS's error (45 R470). -/
theorem queryStatus_aborts {fails r : List (List Ev)} {e : TransferError} {s : State} (hidle : s.host.hbusy = false)
    (hp : s.inp.cardPresent = true) (hv : s.desc.valid = true) (happ : s.app = false) (hf : CommandFails .r1 13#6 fails r e)
    (hs : s.inp.sched = [] :: (fails ++ r)) :
    ∃ t, exec .queryStatus s = .next t ∧ t.host.result = e.code ∧ t.host.value = 0#32 ∧ t.seq = .idle ∧
      t.host.hbusy = false ∧ t.inp.sched = r ∧ t.wire = s.wire ++ [querySent .statusQuery s] := by
  obtain ⟨t, hquery, ht⟩ := (underway_start happ .statusQuery (fails ++ r)).query_fails hf
  have hbody : queryBody (beginOp s) = (t, .err e) := by
    rw [queryBody_ready hp hv hs, hquery]
    rfl
  obtain ⟨u, hexec, hresult, hvalue, hseq, hbusy, hsched, hwire, -⟩ := ht.ends_err hidle happ hbody
  exact ⟨u, hexec, hresult, hvalue, hseq, hbusy, hsched, hwire⟩

/-! ## The checks of ERASE -/

/-- Settles O58: the checks in their order, before any command. -/
theorem eraseChecksInOrder : Obligations.EraseChecks := by
  intro s hidle hp hv hs h
  have hsync : sync (beginOp s) = beginOp s := by
    unfold sync
    rw [show (beginOp s).inp.sched = [] from hs]
  have hchecks : eraseChecks (beginOp s) =
      (beginOp s, .err (if s.desc.csd.ccc.getLsbD 5 = false then .unsupportedFeature else .invalidParameter)) := by
    rw [eraseChecks_eq, hsync]
    rw [if_neg (by show ¬ s.inp.cardPresent = false; rw [hp]; decide), if_neg (by show ¬ s.desc.valid = false; rw [hv]; decide)]
    show (beginOp s, if s.desc.csd.ccc.getLsbD 5 = false then Res.err .unsupportedFeature
      else if s.host.arg1.toNat < s.host.arg0.toNat then .err .invalidParameter
      else if s.cfg.rangeCheck = true ∧ s.desc.capacity.toNat ≤ s.host.arg1.toNat then .err .invalidParameter else .ok ()) = _
    by_cases hclass : s.desc.csd.ccc.getLsbD 5 = false
    · rw [if_pos hclass, if_pos hclass]
    · rw [if_neg hclass, if_neg hclass]
      by_cases horder : s.host.arg1.toNat < s.host.arg0.toNat
      · rw [if_pos horder]
      · rw [if_neg horder, if_pos ((h.resolve_left hclass).resolve_left horder)]
  have hbody : eraseBody (beginOp s) =
      (beginOp s, .err (if s.desc.csd.ccc.getLsbD 5 = false then .unsupportedFeature else .invalidParameter)) := by
    unfold eraseBody
    rw [hchecks]
    rfl
  refine ((hostOp_of_err hidle hbody).trans (settle_of_silent rfl rfl)).trans ?_
  split <;> rfl

/-! ## The commands of ERASE -/

theorem andThen_assoc {α β γ : Type} (r : State × Res α) (k : α → State → State × Res β) (l : β → State → State × Res γ) :
    andThen (andThen r k) l = andThen r fun v s => andThen (k v s) l := by
  obtain ⟨s, x⟩ := r
  cases x <;> rfl

/-- The three commands of ERASE before its polls (44 R430). -/
def eraseCommands (s : State) : State × Res Fields :=
  andThen (issueCmd (eraseIndices s.desc).1 (wireAddr s.desc s.host.arg0) .r1 s) fun _ s =>
  andThen (issueCmd (eraseIndices s.desc).2 (wireAddr s.desc s.host.arg1) .r1 s) fun _ s => issueCmd 38#6 0#32 .r1b s

theorem eraseBody_eq (s : State) :
    eraseBody s =
      andThen (eraseChecks s) fun _ s => andThen (eraseCommands (setSeq .eraseCmd s)) fun _ s =>
        andThen (erasePoll (erasePollBudget s.cfg) (setSeq .erasePoll s)) fun _ s => (s, .ok 0#32) := by
  unfold eraseCommands
  simp only [andThen_assoc]
  rfl

/-- An ERASE that passes its checks comes to its commands (44 R430). -/
theorem eraseBody_ready {s : State} {r : List (List Ev)} (hp : s.inp.cardPresent = true) (hv : s.desc.valid = true)
    (hclass : s.desc.csd.ccc.getLsbD 5 = true) (horder : s.host.arg0.toNat ≤ s.host.arg1.toNat)
    (hrange : s.cfg.rangeCheck = true → s.host.arg1.toNat < s.desc.capacity.toNat) (hs : s.inp.sched = [] :: r) :
    eraseBody (beginOp s) =
      andThen (eraseCommands (setSeq .eraseCmd (setSched r (beginOp s)))) fun _ s =>
        andThen (erasePoll (erasePollBudget s.cfg) (setSeq .erasePoll s)) fun _ s => (s, .ok 0#32) := by
  have hsync : sync (beginOp s) = setSched r (beginOp s) := sync_cons hs
  have hchecks : eraseChecks (beginOp s) = (setSched r (beginOp s), .ok ()) := by
    rw [eraseChecks_eq, hsync]
    rw [if_neg (by show ¬ s.inp.cardPresent = false; rw [hp]; decide), if_neg (by show ¬ s.desc.valid = false; rw [hv]; decide),
      if_neg (by show ¬ s.desc.csd.ccc.getLsbD 5 = false; rw [hclass]; decide), if_neg (by exact Nat.not_lt.2 horder),
      if_neg (by rintro ⟨hc, hno⟩; exact absurd (hrange hc) (Nat.not_lt.2 hno))]
  rw [eraseBody_eq, hchecks, andThen_ok]

section
variable {s b : State} {ws : List Word} {r : List (List Ev)}

theorem eraseIndices_eq (d : Descriptor) :
    (eraseIndices d).1 = (if d.cardType = .mmc then 35#6 else 32#6) ∧ (eraseIndices d).2 = if d.cardType = .mmc then 36#6 else 33#6 := by
  unfold eraseIndices
  split <;> exact ⟨rfl, rfl⟩

theorem eraseIndices_ne (d : Descriptor) :
    ((eraseIndices d).1 ≠ 9#6 ∧ (eraseIndices d).1 ≠ 55#6) ∧ (eraseIndices d).2 ≠ 9#6 ∧ (eraseIndices d).2 ≠ 55#6 := by
  unfold eraseIndices
  split <;> decide

theorem eraseSent_eq (s : State) :
    eraseSent s =
      [{ seq := .eraseCmd, app := false, idx := (eraseIndices s.desc).1, arg := wireAddr s.desc s.host.arg0, kind := .r1 },
        { seq := .eraseCmd, app := false, idx := (eraseIndices s.desc).2, arg := wireAddr s.desc s.host.arg1, kind := .r1 },
        { seq := .eraseCmd, app := false, idx := 38#6, arg := 0#32, kind := .r1b }] := by
  rw [(eraseIndices_eq s.desc).1, (eraseIndices_eq s.desc).2]
  rfl

/-- The commands of an ERASE, all answered without an error bit. -/
theorem eraseCommands_answered (hl : ws.length = 3) (hw : ∀ w ∈ ws, w &&& 0xFDFFE008#32 = 0#32)
    (h : Underway s .eraseCmd [] b (answers (eraseSent s) ws ++ r)) :
    ∃ t f, eraseCommands b = (t, .ok f) ∧ Underway s .eraseCmd (eraseSent s) t r := by
  obtain ⟨w0, w1, w2, rfl⟩ := List.length_eq_three.1 hl
  obtain ⟨⟨h9, h55⟩, h9', h55'⟩ := eraseIndices_ne s.desc
  rw [eraseSent_eq, answers_cons, answers_cons, answers_cons, List.append_assoc, List.append_assoc, List.append_assoc] at h
  obtain ⟨t0, f0, hissue0, h0⟩ := h.answered (.inl rfl) h9 h55 (wireAddr s.desc s.host.arg0) (hw w0 (by simp))
  obtain ⟨t1, f1, hissue1, h1⟩ := h0.answered (.inl rfl) h9' h55' (wireAddr s.desc s.host.arg1) (hw w1 (by simp))
  obtain ⟨t2, f2, hissue2, h2⟩ := h1.answered (.inr rfl) (by decide) (by decide) 0#32 (hw w2 (by simp))
  refine ⟨t2, f2, ?_, by rw [eraseSent_eq]; exact h2⟩
  unfold eraseCommands
  rw [h.desc, h.host, hissue0, andThen_ok, h0.desc, h0.host, hissue1, andThen_ok, hissue2]

/-- One of the commands of an ERASE fails. -/
theorem eraseCommands_fails {c : Sent} {fails : List (List Ev)} {e : TransferError} (hget : (eraseSent s)[ws.length]? = some c)
    (hw : ∀ w ∈ ws, w &&& 0xFDFFE008#32 = 0#32) (hf : CommandFails c.kind c.idx fails r e)
    (h : Underway s .eraseCmd [] b (answers (eraseSent s) ws ++ (fails ++ r))) :
    ∃ t, eraseCommands b = (t, .err e) ∧ Underway s .eraseCmd ((eraseSent s).take (ws.length + 1)) t r := by
  obtain ⟨⟨h9, h55⟩, h9', h55'⟩ := eraseIndices_ne s.desc
  rw [eraseSent_eq] at hget h ⊢
  unfold eraseCommands
  rw [h.desc, h.host]
  match ws, hget, hw, h with
  | [], hget, hw, h =>
    cases hget
    rw [answers_nil, List.nil_append] at h
    obtain ⟨t, hissue, ht⟩ := h.fails (fun e => absurd e h9) (fun e => absurd e h55) (wireAddr s.desc s.host.arg0) hf
    exact ⟨t, by rw [hissue, andThen_err], ht⟩
  | [w0], hget, hw, h =>
    cases hget
    rw [answers_cons, answers_nil, List.append_nil] at h
    obtain ⟨t0, f0, hissue0, h0⟩ := h.answered (.inl rfl) h9 h55 (wireAddr s.desc s.host.arg0) (hw w0 (by simp))
    obtain ⟨t, hissue, ht⟩ := h0.fails (fun e => absurd e h9') (fun e => absurd e h55') (wireAddr s.desc s.host.arg1) hf
    exact ⟨t, by rw [hissue0, andThen_ok, h0.desc, h0.host, hissue, andThen_err], ht⟩
  | [w0, w1], hget, hw, h =>
    cases hget
    rw [answers_cons, answers_cons, answers_nil, List.append_nil, List.append_assoc] at h
    obtain ⟨t0, f0, hissue0, h0⟩ := h.answered (.inl rfl) h9 h55 (wireAddr s.desc s.host.arg0) (hw w0 (by simp))
    obtain ⟨t1, f1, hissue1, h1⟩ := h0.answered (.inl rfl) h9' h55' (wireAddr s.desc s.host.arg1) (hw w1 (by simp))
    obtain ⟨t, hissue, ht⟩ := h1.fails (by decide) (by decide) 0#32 hf
    exact ⟨t, by rw [hissue0, andThen_ok, h0.desc, h0.host, hissue1, andThen_ok, hissue], ht⟩
  | w0 :: w1 :: w2 :: ws, hget, hw, h => simp at hget

/-! ## The polls of ERASE -/

theorem stateOf_busy {st : BitVec 4} (h : st = 6#4 ∨ st = 7#4) : stateOf st = .programming ∨ stateOf st = .receiving := by
  rcases h with rfl | rfl <;> decide

theorem stateOf_done {st : BitVec 4} (h6 : st ≠ 6#4) (h7 : st ≠ 7#4) : ¬ (stateOf st = .programming ∨ stateOf st = .receiving) := by
  revert st
  decide

theorem erasePoll_succ (n : Nat) (s : State) :
    erasePoll (n + 1) s =
      andThen (statusQuery s) fun st s => if st = .programming ∨ st = .receiving then erasePoll n s else (s, .ok ()) := rfl

theorem erasePoll_of_busy {n : Nat} {st : CardState} {t : State} (h : statusQuery b = (t, .ok st)) (hst : st = .programming ∨ st = .receiving) :
    erasePoll (n + 1) b = erasePoll n t := by
  rw [erasePoll_succ, h, andThen_ok, if_pos hst]

theorem erasePoll_of_done {n : Nat} {st : CardState} {t : State} (h : statusQuery b = (t, .ok st))
    (hst : ¬ (st = .programming ∨ st = .receiving)) : erasePoll (n + 1) b = (t, .ok ()) := by
  rw [erasePoll_succ, h, andThen_ok, if_neg hst]

theorem erasePoll_of_err {n : Nat} {e : TransferError} {t : State} (h : statusQuery b = (t, .err e)) : erasePoll (n + 1) b = (t, .err e) := by
  rw [erasePoll_succ, h, andThen_err]

/-- Each query of a card still programming or receiving takes one of the polls that are left. -/
theorem erasePoll_busy {busy : List (BitVec 4 × Word)} (hbusy : ∀ x ∈ busy, (x.1 = 6#4 ∨ x.1 = 7#4) ∧ x.2 &&& 0xFDFFE008#32 = 0#32)
    (n : Nat) {cs : List Sent} (h : Underway s .erasePoll cs b (busy.flatMap (fun x => polled x.1 x.2) ++ r)) :
    ∃ t, erasePoll (busy.length + n) b = erasePoll n t ∧
      Underway s .erasePoll (cs ++ List.replicate busy.length (querySent .erasePoll s)) t r := by
  induction busy generalizing b cs with
  | nil => exact ⟨b, by rw [List.length_nil, Nat.zero_add], by simpa using h⟩
  | cons x busy ih =>
    obtain ⟨hst, hw⟩ := hbusy x List.mem_cons_self
    rw [List.flatMap_cons, List.append_assoc] at h
    obtain ⟨t, hquery, ht⟩ := h.polled hw
    obtain ⟨u, hpoll, hu⟩ := ih (fun y hy => hbusy y (List.mem_cons_of_mem _ hy)) ht
    refine ⟨u, ?_, ?_⟩
    · rw [List.length_cons, Nat.add_right_comm, erasePoll_of_busy hquery (stateOf_busy hst), hpoll]
    · rw [List.length_cons, List.replicate_succ, ← List.singleton_append, ← List.append_assoc]
      exact hu

/-- A card that stays busy, each query answered at once. -/
theorem erasePoll_stays_busy {w : Word} (hw : w &&& 0xFDFFE008#32 = 0#32) (n : Nat) {b : State} (hst : b.card.state = 6#4 ∨ b.card.state = 7#4)
    (hs : b.inp.sched = (List.replicate n (prompt 13#6 w)).flatten) :
    (erasePoll n b).2 = .err .busyTimeout ∧ (erasePoll n b).1.wire.length = b.wire.length + n ∧ (erasePoll n b).1.inp.sched = [] := by
  induction n generalizing b with
  | zero => exact ⟨rfl, rfl, hs⟩
  | succ n ih =>
    rw [List.replicate_succ, List.flatten_cons] at hs
    obtain ⟨t, f, x, hquery, hstate, hp⟩ := statusQuery_answered hs hw
    rw [erasePoll_of_busy hquery (stateOf_busy hst)]
    obtain ⟨hres, hlen, hsched⟩ := ih (b := t) (by rw [hstate]; exact hst) (by rw [hp.inp])
    refine ⟨hres, ?_, hsched⟩
    rw [hlen, hp.issued.wire, List.length_append, List.length_singleton]
    omega

end

/-! ## ERASE -/

/-- An ERASE that passes its checks: a card, its descriptor, the erase class, and a range in order and below the capacity. -/
structure EraseReady (s : State) : Prop where
  notBusy : s.host.hbusy = false
  present : s.inp.cardPresent = true
  valid : s.desc.valid = true
  eraseClass : s.desc.csd.ccc.getLsbD 5 = true
  order : s.host.arg0.toNat ≤ s.host.arg1.toNat
  inRange : s.cfg.rangeCheck = true → s.host.arg1.toNat < s.desc.capacity.toNat
  app : s.app = false

section
variable {s : State} {ws : List Word} {r : List (List Ev)}

theorem erasePollBudget_pos (p : Params) : erasePollBudget p = max 1 p.erasePollBudget := rfl

/-- An ERASE whose commands are all answered comes to its polls. -/
theorem eraseBody_polls (h : EraseReady s) (hl : ws.length = 3) (hw : ∀ w ∈ ws, w &&& 0xFDFFE008#32 = 0#32)
    (hs : s.inp.sched = [] :: (answers (eraseSent s) ws ++ r)) :
    ∃ b, eraseBody (beginOp s) = (andThen (erasePoll (erasePollBudget s.cfg) b) fun _ s => (s, .ok 0#32)) ∧
      Underway s .erasePoll (eraseSent s) b r := by
  obtain ⟨t, f, hcommands, ht⟩ := eraseCommands_answered hl hw (underway_start h.app .eraseCmd (answers (eraseSent s) ws ++ r))
  refine ⟨_, ?_, ht.step⟩
  rw [eraseBody_ready h.present h.valid h.eraseClass h.order h.inRange hs, hcommands, andThen_ok, ht.cfg]

/-- Settles O57: the polls end with the first query. -/
theorem eraseOk : Obligations.EraseOk := by
  intro w0 w1 w38 w13 st r s hidle hp hv hclass horder hrange happ hw h6 h7 i0 i1 hs
  have hready : EraseReady s := ⟨hidle, hp, hv, hclass, horder, hrange, happ⟩
  obtain ⟨b, hbody, hb⟩ := eraseBody_polls (ws := [w0, w1, w38]) (r := polled st w13 ++ r) hready rfl
    (fun w h => hw w (by simp only [List.mem_cons, List.not_mem_nil, or_false] at h ⊢; tauto))
    (by rw [hs, eraseSent_eq, (eraseIndices_eq s.desc).1, (eraseIndices_eq s.desc).2]; simp [answers, i0, i1])
  obtain ⟨t, hquery, ht⟩ := hb.polled (hw w13 (by simp))
  obtain ⟨n, hn⟩ : ∃ n, erasePollBudget s.cfg = n + 1 := ⟨erasePollBudget s.cfg - 1, by rw [erasePollBudget_pos]; omega⟩
  rw [hn, erasePoll_of_done hquery (stateOf_done h6 h7), andThen_ok] at hbody
  obtain ⟨u, hexec, hresult, hvalue, hseq, hbusy, hsched, hwire, -⟩ := ht.ends_ok hidle happ hbody
  refine ⟨u, hexec, hresult, hvalue, hseq, hbusy, hsched, hwire.trans ?_⟩
  rw [eraseSent_eq, (eraseIndices_eq s.desc).1, (eraseIndices_eq s.desc).2]
  rfl

/-- Settles O59: the budget is used up by as many busy queries. -/
theorem eraseBudget : Obligations.EraseBudget := by
  refine ⟨fun n w s hn hst hw hs => ?loop, fun ws busy r s hidle hp hv hclass horder hrange happ hl hw hlen hbusy hs => ?whole⟩
  case loop =>
    rw [← erasePollBudget_pos] at hn
    rw [hn] at hs ⊢
    exact erasePoll_stays_busy hw _ hst hs
  case whole =>
    have hready : EraseReady s := ⟨hidle, hp, hv, hclass, horder, hrange, happ⟩
    obtain ⟨b, hbody, hb⟩ := eraseBody_polls (r := busy.flatMap (fun x => polled x.1 x.2) ++ r) hready hl hw
      (by rw [hs, List.append_assoc])
    obtain ⟨t, hpoll, ht⟩ := erasePoll_busy hbusy 0 hb
    rw [← erasePollBudget_pos] at hlen
    rw [Nat.add_zero, hlen] at hpoll
    rw [hpoll] at hbody
    obtain ⟨u, hexec, hresult, hvalue, hseq, hidle', hsched, hwire, hdesc⟩ := ht.ends_err hidle happ hbody
    exact ⟨u, hexec, hresult, hvalue, hseq, hidle', hdesc, hsched, hwire.trans (List.append_assoc ..).symm⟩

/-- A command of ERASE that fails ends it (44 R430). -/
theorem erase_aborts {c : Sent} {fails : List (List Ev)} {e : TransferError} (h : EraseReady s) (hget : (eraseSent s)[ws.length]? = some c)
    (hw : ∀ w ∈ ws, w &&& 0xFDFFE008#32 = 0#32) (hf : CommandFails c.kind c.idx fails r e)
    (hs : s.inp.sched = [] :: (answers (eraseSent s) ws ++ (fails ++ r))) :
    ∃ t, exec .erase s = .next t ∧ t.host.result = e.code ∧ t.host.value = 0#32 ∧ t.seq = .idle ∧ t.host.hbusy = false ∧
      t.inp.sched = r ∧ t.wire = s.wire ++ (eraseSent s).take (ws.length + 1) := by
  obtain ⟨t, hcommands, ht⟩ := eraseCommands_fails hget hw hf (underway_start h.app .eraseCmd (answers (eraseSent s) ws ++ (fails ++ r)))
  have hbody := eraseBody_ready h.present h.valid h.eraseClass h.order h.inRange hs
  rw [hcommands, andThen_err] at hbody
  obtain ⟨u, hexec, hresult, hvalue, hseq, hbusy, hsched, hwire, -⟩ := ht.ends_err h.notBusy h.app hbody
  exact ⟨u, hexec, hresult, hvalue, hseq, hbusy, hsched, hwire⟩

/-- A status query of ERASE that fails after busy ones ends it (44 R431). -/
theorem erase_query_aborts {busy : List (BitVec 4 × Word)} {fails : List (List Ev)} {e : TransferError} (h : EraseReady s)
    (hl : ws.length = 3) (hw : ∀ w ∈ ws, w &&& 0xFDFFE008#32 = 0#32) (hlen : busy.length < max 1 s.cfg.erasePollBudget)
    (hbusy : ∀ b ∈ busy, (b.1 = 6#4 ∨ b.1 = 7#4) ∧ b.2 &&& 0xFDFFE008#32 = 0#32) (hf : CommandFails .r1 13#6 fails r e)
    (hs : s.inp.sched = [] :: (answers (eraseSent s) ws ++ (busy.flatMap (fun b => polled b.1 b.2) ++ (fails ++ r)))) :
    ∃ t, exec .erase s = .next t ∧ t.host.result = e.code ∧ t.host.value = 0#32 ∧ t.seq = .idle ∧ t.host.hbusy = false ∧
      t.inp.sched = r ∧ t.wire = s.wire ++ eraseSent s ++ List.replicate (busy.length + 1) (querySent .erasePoll s) := by
  obtain ⟨b, hbody, hb⟩ := eraseBody_polls (r := busy.flatMap (fun b => polled b.1 b.2) ++ (fails ++ r)) h hl hw hs
  obtain ⟨n, hn⟩ : ∃ n, erasePollBudget s.cfg = busy.length + (n + 1) :=
    ⟨erasePollBudget s.cfg - busy.length - 1, by rw [erasePollBudget_pos]; omega⟩
  obtain ⟨t, hpoll, ht⟩ := erasePoll_busy hbusy (n + 1) hb
  obtain ⟨t', hquery, ht'⟩ := ht.query_fails hf
  rw [hn, hpoll, erasePoll_of_err hquery, andThen_err] at hbody
  obtain ⟨u, hexec, hresult, hvalue, hseq, hidle, hsched, hwire, -⟩ := ht'.ends_err h.notBusy h.app hbody
  refine ⟨u, hexec, hresult, hvalue, hseq, hidle, hsched, hwire.trans ?_⟩
  rw [List.replicate_succ', List.append_assoc, List.append_assoc]

end

end Sys2Proof.Machine
end

section
/-! PROOFS. INITIALIZE under every schedule (42_negotiation R300, R303, R311, R313, R314): the order of its commands, what it publishes,
and how it ends without a card. -/

namespace Sys2Proof.Machine

open Sys2Proof.Safety

/-! ## How it ends -/

theorem endWith_result_zero (x : State × Res Word) : (endWith x).host.result = 0#8 ↔ ∃ v, x.2 = .ok v := by
  obtain ⟨u, r⟩ := x
  cases r with
  | ok v => exact ⟨fun _ => ⟨v, rfl⟩, fun _ => rfl⟩
  | err e =>
    refine ⟨fun h => ?_, nofun⟩
    have hcode : e.code = 0#8 := h
    have hpos := (code_pos e).1
    rw [hcode] at hpos
    exact absurd hpos (by decide)

/-- Settles O37: the steps send their commands one after the other. -/
theorem initializeOrder : Obligations.InitializeOrder := by
  intro s t h
  obtain ⟨-, rfl, -⟩ := hostOp_next.1 (show hostOp negotiate s = .next t from h)
  obtain ⟨cs, hwire, horder, -, hevery⟩ := stage_negotiate (beginOp s)
  refine ⟨cs, by rw [endWith_rest]; exact hwire, horder, fun hresult q hq => ?_⟩
  obtain ⟨v, hv⟩ := (endWith_result_zero _).1 hresult
  refine hevery v hv q ?_
  revert q
  decide

/-- The look at the card-present input of INITIALIZE is that of the machine as it stood, but for HBUSY. -/
theorem sync_negClear_beginOp (s : State) :
    sync (negClear (beginOp s)) = { sync (negClear s) with host := { s.host with hbusy := true } } :=
  sync_host { s.host with hbusy := true } (negClear s)

/-- Settles O38: the entry finds no card. -/
theorem initializeAbsent : Obligations.InitializeAbsent := by
  intro s hidle
  show (sync (negClear s)).inp.breaches = s.inp.breaches → (sync (negClear s)).inp.cardPresent = false → _
  intro hbreaches habsent
  have hentry : negEntry (beginOp s) = (absent (sync (negClear (beginOp s))), .err .notReady) := by
    unfold negEntry
    rw [cardCheck_eq, sync_negClear_beginOp, if_neg (by exact ne_true_of_eq_false habsent)]
  have hbody : negotiate (beginOp s) = (absent (sync (negClear (beginOp s))), .err .notReady) := by
    rw [negotiate_eq, tailEntry, hentry, andThen_err]
  have hmoved := moved_sync (negClear s)
  have hwire : (sync (negClear s)).wire = s.wire := hmoved.wire
  rw [sync_negClear_beginOp] at hbody
  refine ⟨_, (hostOp_of_err hidle hbody).trans (settle_of_silent hbreaches hwire), rfl, rfl, rfl, rfl, ?_, ?_, ?_, hwire⟩
  · show { (sync (negClear s)).desc with valid := false } = _
    rw [hmoved.desc]
    rfl
  · show (sync (negClear s)).neg.sdv2 = false
    rw [hmoved.neg]
    rfl
  · show (sync (negClear s)).neg.ocr = 0#32
    rw [hmoved.neg]
    rfl

/-! ## Whether CMD1 was sent -/

/-- A CMD1 is among these commands. -/
def asksMmc (cs : List Sent) : Bool := cs.any fun c => !c.app && c.idx == 1#6

theorem asksMmc_append (cs ds : List Sent) : asksMmc (cs ++ ds) = (asksMmc cs || asksMmc ds) := List.any_append

theorem asksMmc_single (c : Sent) : asksMmc [c] = (!c.app && c.idx == 1#6) := Bool.or_false _

/-- CMD1 is a command of the voltage step alone. -/
theorem step_of_cmd1 {q : Seq} (h : 1#6 ∈ stepCommands q) : q = .negVoltage := by
  revert h
  cases q <;> decide

/-- Steps before or after the voltage step send no CMD1. -/
theorem stage_asks_none {α : Type} {lo hi : Nat} {need : List Seq} {s : State} {r : State × Res α} (h : Stage lo hi need s r)
    (hno : hi < 3 ∨ 3 < lo) : ∃ cs, r.1.wire = s.wire ++ cs ∧ asksMmc cs = false := by
  obtain ⟨cs, hwire, ⟨-, hstep⟩, hcode, -⟩ := h
  refine ⟨cs, hwire, List.any_eq_false.2 fun c hc => ?_⟩
  rw [Bool.and_eq_true, beq_iff_eq]
  rintro ⟨-, hidx⟩
  have hvolt : c.seq = .negVoltage := step_of_cmd1 (hidx ▸ hstep c hc)
  have h3 : c.seq.code.toNat = 3 := by rw [hvolt]; rfl
  have := hcode c hc
  omega

/-! ### One attempt -/

theorem voltAttempt_mmc (first : Bool) (arg : Word) (s : State) :
    voltAttempt true first arg s =
      ((issueCmd 1#6 s.cfg.voltageWindowMmc .r3 s).1, attemptOf (issueCmd 1#6 s.cfg.voltageWindowMmc .r3 s).2) := rfl

theorem voltAttempt_of_prefix_ok {first : Bool} {arg : Word} {s t : State} {f : Fields} (h : issueCmd 55#6 (rcaArg s) .r1 s = (t, .ok f)) :
    voltAttempt false first arg s = ((issueCmd 41#6 arg .r3 t).1, attemptOf (issueCmd 41#6 arg .r3 t).2) := by
  unfold voltAttempt
  rw [h]
  rfl

theorem voltAttempt_of_prefix_err {first : Bool} {arg : Word} {s t : State} {e : TransferError}
    (h : issueCmd 55#6 (rcaArg s) .r1 s = (t, .err e)) :
    voltAttempt false first arg s =
      (t, if first = true ∧ s.neg.sdv2 = false ∧ e = .cmdResponseTimeout then .isMmc else .failed e) := by
  unfold voltAttempt
  rw [h]
  exact (apply_ite (Prod.mk t) _ _ _).symm

/-- An attempt asks with CMD1 exactly where the card is taken for MMC, and leaves no CMD55 pending. -/
theorem voltAttempt_asks (mmc first : Bool) (arg : Word) {s : State} (happ : s.app = false) :
    ∃ cs, (voltAttempt mmc first arg s).1.wire = s.wire ++ cs ∧ asksMmc cs = mmc ∧ (voltAttempt mmc first arg s).1.app = false := by
  cases mmc with
  | true =>
    have h := issueCmd_issued 1#6 s.cfg.voltageWindowMmc .r3 s
    rw [voltAttempt_mmc]
    refine ⟨_, h.wire, ?_, h.app.trans (prefixOf_other (by decide) _)⟩
    rw [sentAs_of_app happ]
    rfl
  | false =>
    have h := issueCmd_issued 55#6 (rcaArg s) .r1 s
    cases hp : issueCmd 55#6 (rcaArg s) .r1 s with
    | mk t r =>
      rw [hp] at h
      cases r with
      | err e =>
        rw [voltAttempt_of_prefix_err hp]
        refine ⟨_, h.wire, ?_, h.app⟩
        rw [sentAs_of_app happ]
        rfl
      | ok f =>
        have h2 := issueCmd_issued 41#6 arg .r3 t
        rw [voltAttempt_of_prefix_ok hp]
        refine ⟨[sentAs 55#6 (rcaArg s) .r1 s] ++ [sentAs 41#6 arg .r3 t], ?_, ?_, h2.app.trans (prefixOf_other (by decide) _)⟩
        · rw [h2.wire, h.wire, List.append_assoc]
        · rw [asksMmc_append, asksMmc_single, asksMmc_single]
          show (!s.app && false || !t.app && false) = false
          rw [Bool.and_false, Bool.and_false, Bool.or_false]

/-- Where the voltage loop succeeds it says MMC exactly where it asked with CMD1. -/
theorem voltLoop_asks (m0 : Nat) (arg : Word) (n : Nat) (mmc first : Bool) {s t : State} {m : Bool} (happ : s.app = false)
    (h : voltLoop m0 arg n mmc first s = (t, .ok m)) :
    (∃ cs, t.wire = s.wire ++ cs ∧ asksMmc cs = m) ∧ (mmc = true → m = true) := by
  induction n generalizing mmc first s with
  | zero => cases h
  | succ n ih =>
    obtain ⟨cs, hwire, hasks, happ'⟩ := voltAttempt_asks mmc first arg happ
    have later {u : State} {mmc' : Bool} (hwu : u.wire = (voltAttempt mmc first arg s).1.wire) (hau : u.app = false)
        (hmmc : mmc = true → mmc' = true) (hu : voltLoop m0 arg n mmc' false u = (t, .ok m)) :
        (∃ cs, t.wire = s.wire ++ cs ∧ asksMmc cs = m) ∧ (mmc = true → m = true) := by
      obtain ⟨⟨ds, hwt, hds⟩, hm⟩ := ih mmc' false hau hu
      refine ⟨⟨cs ++ ds, by rw [hwt, hwu, hwire, List.append_assoc], ?_⟩, fun e => hm (hmmc e)⟩
      rw [asksMmc_append, hasks, hds]
      cases hmc : mmc with
      | false => rfl
      | true => rw [hm (hmmc hmc)]; rfl
    rw [voltLoop_succ] at h
    split at h
    · exact later rfl happ' (fun _ => rfl) h
    · cases h
    · rename_i ocr _
      split at h
      · cases h
        exact ⟨⟨cs, hwire, hasks⟩, id⟩
      · split at h
        · cases h
        · exact later (u := voltPause (sync (setOcr ocr (voltAttempt mmc first arg s).1))) (moved_sync _).wire
            ((moved_sync _).app.trans happ') id h

/-! ## The card type -/

theorem andThen_eq_ok {α β : Type} {r : State × Res α} {k : α → State → State × Res β} {u : State} {w : β}
    (h : andThen r k = (u, .ok w)) : ∃ v, r.2 = .ok v ∧ k v r.1 = (u, .ok w) := by
  obtain ⟨t, x⟩ := r
  cases x with
  | ok v => exact ⟨v, rfl, h⟩
  | err e => cases h

theorem cardTypeOf_mmc (m : Bool) (ocr : Word) (v2 : Bool) : cardTypeOf m ocr v2 = .mmc ↔ m = true := by
  unfold cardTypeOf
  cases m with
  | true => exact ⟨fun _ => rfl, fun _ => rfl⟩
  | false =>
    refine ⟨fun h => ?_, nofun⟩
    rw [if_neg (by decide)] at h
    split at h
    · cases h
    · split at h <;> cases h

theorem keepsType_andThen {α β : Type} {s : State} {r : State × Res α} {k : α → State → State × Res β}
    (h : r.1.desc.cardType = s.desc.cardType) (hk : ∀ v, (k v r.1).1.desc.cardType = r.1.desc.cardType) :
    (andThen r k).1.desc.cardType = s.desc.cardType := by
  obtain ⟨t, x⟩ := r
  cases x with
  | ok v => exact (hk v).trans h
  | err e => exact h

theorem keepsType_issueCmd (idx : BitVec 6) (arg : Word) (kind : Kind) (s : State) :
    (issueCmd idx arg kind s).1.desc.cardType = s.desc.cardType := by
  rw [(issueCmd_issued idx arg kind s).desc]

theorem keepsType_negParse (s : State) : (negParse s).1.desc.cardType = s.desc.cardType := by
  unfold negParse
  dsimp only
  split
  · rfl
  · split <;> rfl

theorem keepsType_negWidth (s : State) : (negWidth s).1.desc.cardType = s.desc.cardType := by
  have happ : (issueApp 6#6 2#32 .r1 (setSeq .negWidth s)).1.desc.cardType = s.desc.cardType :=
    keepsType_andThen (keepsType_issueCmd _ _ _ (setSeq .negWidth s)) fun _ => keepsType_issueCmd _ _ _ _
  unfold negWidth
  dsimp only
  split
  · rfl
  · split <;> exact happ

theorem keepsType_negIdentCid (s : State) : (negIdentCid s).1.desc.cardType = s.desc.cardType :=
  keepsType_andThen (keepsType_issueCmd 2#6 0#32 .r2 (setSeq .negIdent s)) fun _ => rfl

theorem keepsType_negIdentRca (s : State) : (negIdentRca s).1.desc.cardType = s.desc.cardType :=
  keepsType_andThen (keepsType_issueCmd 3#6 0#32 .r6 s) fun _ => rfl

theorem keepsType_negRegfetch (s : State) : (negRegfetch s).1.desc.cardType = s.desc.cardType :=
  keepsType_andThen (keepsType_issueCmd 9#6 (rcaArg s) .r2 (setSeq .negRegfetch s)) fun _ => keepsType_negParse _

theorem keepsType_negSelect (s : State) : (negSelect s).1.desc.cardType = s.desc.cardType :=
  keepsType_andThen (keepsType_issueCmd 7#6 (rcaArg s) .r1b (setSeq .negSelect s)) fun _ => rfl

theorem keepsType_negBlklen (s : State) : (negBlklen s).1.desc.cardType = s.desc.cardType :=
  keepsType_andThen (keepsType_issueCmd 16#6 512#32 .r1 (setSeq .negBlklen s)) fun _ => rfl

theorem keepsType_tailBlklen (s : State) : (tailBlklen s).1.desc.cardType = s.desc.cardType :=
  keepsType_andThen (keepsType_negBlklen s) fun _ => rfl

theorem keepsType_tailWidth (s : State) : (tailWidth s).1.desc.cardType = s.desc.cardType :=
  keepsType_andThen (keepsType_negWidth s) fun _ => keepsType_tailBlklen _

theorem keepsType_tailSelect (s : State) : (tailSelect s).1.desc.cardType = s.desc.cardType :=
  keepsType_andThen (keepsType_negSelect s) fun _ => keepsType_tailWidth _

theorem keepsType_tailFetch (s : State) : (tailFetch s).1.desc.cardType = s.desc.cardType :=
  keepsType_andThen (keepsType_negRegfetch s) fun _ => keepsType_tailSelect _

theorem keepsType_tailRca (s : State) : (tailRca s).1.desc.cardType = s.desc.cardType :=
  keepsType_andThen (keepsType_negIdentRca s) fun _ => keepsType_tailFetch _

/-- The steps after the voltage step leave the card type. -/
theorem keepsType_tailCid (s : State) : (tailCid s).1.desc.cardType = s.desc.cardType :=
  keepsType_andThen (keepsType_negIdentCid s) fun _ => keepsType_tailRca _

theorem negVoltage_eq (s : State) :
    negVoltage s =
      andThen (voltLoop s.inp.ms (opCondArg s) (s.inp.sched.length + 2) false true (setSeq .negVoltage s)) fun mmc s =>
        (setCardType (cardTypeOf mmc s.neg.ocr s.neg.sdv2) s, .ok ()) := rfl

theorem negVoltage_asks {s t : State} {x : Unit} (happ : s.app = false) (h : negVoltage s = (t, .ok x)) :
    ∃ cs, t.wire = s.wire ++ cs ∧ (asksMmc cs = true ↔ t.desc.cardType = .mmc) := by
  rw [negVoltage_eq] at h
  obtain ⟨m, hloop, hend⟩ := andThen_eq_ok h
  obtain ⟨⟨cs, hwire, hasks⟩, -⟩ := voltLoop_asks _ _ _ _ _ (s := setSeq .negVoltage s) happ (Prod.ext rfl hloop)
  cases hend
  exact ⟨cs, hwire, by rw [hasks]; exact (cardTypeOf_mmc _ _ _).symm⟩

theorem negProbe_app (s : State) : (negProbe s).1.app = false :=
  (issueCmd_issued 8#6 s.cfg.ifCondArg .r7 (setSeq .negProbe s)).app.trans (prefixOf_other (by decide) _)

/-- Where negotiation succeeds the card type is MMC exactly where CMD1 was sent (42_negotiation R303). -/
theorem negotiate_asks {s u : State} {v : Word} (h : negotiate s = (u, .ok v)) :
    ∃ cs, u.wire = s.wire ++ cs ∧ (asksMmc cs = true ↔ u.desc.cardType = .mmc) := by
  rw [negotiate_eq] at h
  obtain ⟨_, -, h⟩ := andThen_eq_ok h
  obtain ⟨_, -, h⟩ := andThen_eq_ok h
  obtain ⟨_, -, h⟩ := andThen_eq_ok h
  obtain ⟨_, hvolt, h⟩ := andThen_eq_ok h
  obtain ⟨es, hes, hesNone⟩ := stage_asks_none (stage_negEntry s) (by decide)
  obtain ⟨rs, hrs, hrsNone⟩ := stage_asks_none (stage_negReset (negEntry s).1) (by decide)
  obtain ⟨ps, hps, hpsNone⟩ := stage_asks_none (stage_negProbe (negReset (negEntry s).1).1) (by decide)
  obtain ⟨vs, hvs, hasks⟩ := negVoltage_asks (negProbe_app _) (Prod.ext rfl hvolt)
  obtain ⟨ts, hts, htsNone⟩ := stage_asks_none (stage_tailCid (negVoltage (negProbe (negReset (negEntry s).1).1).1).1) (by decide)
  have htype := keepsType_tailCid (negVoltage (negProbe (negReset (negEntry s).1).1).1).1
  rw [h] at hts htype
  refine ⟨es ++ rs ++ ps ++ vs ++ ts, ?_, ?_⟩
  · rw [hts, hvs, hps, hrs, hes]
    simp only [List.append_assoc]
  · simp only [asksMmc_append, hesNone, hrsNone, hpsNone, htsNone, Bool.false_or, Bool.or_false]
    rw [htype]
    exact hasks

/-- Settles O36: what a successful negotiation publishes, and that a failed one publishes nothing. -/
theorem initializePublishes : Obligations.InitializePublishes := by
  intro s hidle happ
  have hexec : exec .initializeCard s = settle s (endWith (negotiate (beginOp s))) := hostOp_idle hidle
  have hpost := negotiate_post (beginOp s)
  rw [hexec]
  rcases settle_cases s (endWith (negotiate (beginOp s))) with hnext | ⟨hduty, hb⟩ | ⟨c, l, -, happ', -⟩
  · refine .inr ?_
    cases hneg : negotiate (beginOp s) with
    | mk u r =>
      rw [hneg] at hnext hpost
      cases r with
      | err e =>
        obtain ⟨cs, hwire, -⟩ := stage_negotiate (beginOp s)
        rw [hneg] at hwire
        have hno : u.desc.valid ≠ true := ne_true_of_eq_false hpost
        exact ⟨_, cs, hnext, hwire, ⟨fun hv => absurd hv hno, fun h0 => nomatch (endWith_result_zero (u, .err e)).1 h0⟩, rfl,
          fun hv => absurd hv hno⟩
      | ok v =>
        obtain ⟨cs, hwire, hasks⟩ := negotiate_asks hneg
        have hpublished : Published u.desc := hpost.published
        obtain ⟨hv, w, ⟨⟨-, hready, mmc, htype⟩, -⟩, hu⟩ := hpost
        have hu : u = { w with desc := { w.desc with valid := true } } := hu
        rw [hu] at hasks
        refine ⟨_, cs, hnext, hwire, ⟨fun _ => rfl, fun _ => by rw [hu]; rfl⟩, hv, fun _ => ⟨hpublished, by rw [hu]; exact hready, ?_⟩⟩
        rw [hu]
        show w.desc.cardType = cardTypeOf (asksMmc cs) w.neg.ocr w.neg.sdv2
        rw [htype]
        congr 1
        exact Bool.eq_iff_iff.2 ((cardTypeOf_mmc mmc _ _).symm.trans (htype ▸ hasks.symm))
  · refine .inl ⟨hduty, fun hs => hb ?_⟩
    rw [endWith_inp]
    exact ((ran_negotiate (fun _ => True) (fun _ => True) (beginOp s)).calm hs).2
  · exact absurd (happ.symm.trans happ') (by decide)

end Sys2Proof.Machine
end

section
/-! PROOFS. A negotiation under way, step by step, its commands answered at once (42_negotiation R300-R309): what each step makes of the
descriptor, the working registers and the commands sent. -/

namespace Sys2Proof.Machine

open Sys2Proof.Safety

/-! ## What a negotiation shows of the machine -/

/-- The cells a negotiation writes step by step, the commands it has sent, and the time. -/
structure View where
  seq : Seq
  app : Bool
  desc : Descriptor
  neg : Negotiation
  log : List LogEvent
  sent : List Sent
  ms : Nat

/-- The view after one command, which leaves this prefix bit. -/
def View.issue (idx : BitVec 6) (arg : Word) (kind : Kind) (app : Bool) (v : View) : View :=
  { v with app := app, sent := v.sent ++ [{ seq := v.seq, app := v.app, idx := idx, arg := arg, kind := kind }] }

/-- INITIALIZE begun at `s` has come to `b` with this view and `r` of the schedule to come; the clock and the width are those of the
working registers. -/
structure Negotiating (s : State) (v : View) (r : List (List Ev)) (b : State) : Prop where
  sched : b.inp.sched = r
  breaches : b.inp.breaches = s.inp.breaches
  cfg : b.cfg = s.cfg
  host : b.host = { s.host with hbusy := true }
  csd : b.card.csd = s.card.csd
  byBlock : b.card.byBlock = s.card.byBlock
  div : b.bc.div = v.neg.clkdiv
  width : b.bc.width = v.neg.busWidth
  seq : b.seq = v.seq
  app : b.app = v.app
  desc : b.desc = v.desc
  neg : b.neg = v.neg
  log : b.log = v.log
  wire : b.wire = s.wire ++ v.sent
  ms : b.inp.ms = v.ms

section
variable {s b : State} {v : View} {r : List (List Ev)}

/-- A command, once it has ended. -/
theorem Negotiating.issued {r0 : List (List Ev)} {idx : BitVec 6} {arg : Word} {kind : Kind} {t : State} {res : Res Fields}
    (h : Negotiating s v r0 b) (k : Issued idx arg kind b t res) (hsched : t.inp.sched = r) (hbreaches : t.inp.breaches = b.inp.breaches) :
    Negotiating s { v.issue idx arg kind (prefixOf idx res) with ms := t.inp.ms } r t where
  sched := hsched
  breaches := hbreaches.trans h.breaches
  cfg := k.cfg.trans h.cfg
  host := k.host.trans h.host
  csd := k.csd.trans h.csd
  byBlock := k.byBlock.trans h.byBlock
  div := k.div.trans h.div
  width := k.width.trans h.width
  seq := k.seq.trans h.seq
  app := k.app
  desc := k.desc.trans h.desc
  neg := k.neg.trans h.neg
  log := k.log.trans h.log
  wire := by
    rw [k.wire, h.wire, List.append_assoc]
    unfold sentAs
    rw [h.seq, h.app]
    rfl
  ms := rfl

/-- A command answered at once takes no time. -/
theorem Negotiating.prompted {r0 : List (List Ev)} {idx : BitVec 6} {arg : Word} {kind : Kind} {a : Answer} {y : Word × Word × Word × Word}
    {t : State} {res : Res Fields} (h : Negotiating s v r0 b) (hp : Prompted idx arg kind a y r res b t) :
    Negotiating s (v.issue idx arg kind (prefixOf idx res)) r t := by
  have hnext := h.issued hp.issued (congrArg Inputs.sched hp.inp) (by rw [hp.inp])
  have hms : t.inp.ms = v.ms := (congrArg Inputs.ms hp.inp).trans h.ms
  rw [hms] at hnext
  exact hnext

/-! ## Commands, by how they are answered -/

/-- Any prompt answer. -/
theorem Negotiating.answer {idx : BitVec 6} {arg : Word} {kind : Kind} {a : Answer} {rc : BitVec 6} {w : Word} {res : Res Fields}
    (h : Negotiating s v (promptly a rc w 0#32 0#32 0#32 ++ r) b)
    (hres : answerOf kind idx a rc (answerAt idx arg kind a (w, 0#32, 0#32, 0#32) b) = res) :
    ∃ t, issueCmd idx arg kind b = (t, res) ∧ Negotiating s (v.issue idx arg kind (prefixOf idx res)) r t := by
  obtain ⟨t, hissue, hp⟩ := issueCmd_prompted idx arg kind a rc w 0#32 0#32 0#32 r b h.sched
  rw [hres] at hissue hp
  exact ⟨t, hissue, h.prompted hp⟩

/-- A status word without an error bit. -/
theorem Negotiating.status {idx : BitVec 6} {w : Word} {kind : Kind} (h : Negotiating s v (prompt idx w ++ r) b) (hk : kind = .r1 ∨ kind = .r1b)
    (h9 : idx ≠ 9#6) (arg : Word) (hw : w &&& 0xFDFFE008#32 = 0#32) :
    ∃ t f, issueCmd idx arg kind b = (t, .ok f) ∧ Negotiating s (v.issue idx arg kind (idx == 55#6)) r t := by
  obtain ⟨t, x, -, hissue, hp⟩ := issueCmd_r1 (r := r) hk h9 arg h.sched ((hasFlag_eq_false_iff _ _).2 hw)
  exact ⟨t, _, hissue, h.prompted hp⟩

/-- A register, the card's own CSD for a CMD9. -/
theorem Negotiating.register {idx : BitVec 6} {reg : Reg128} (h : Negotiating s v (promptLong reg ++ r) b) (h55 : idx ≠ 55#6) (arg : Word)
    (hcsd : idx = 9#6 → s.card.csd = reg) :
    ∃ t, issueCmd idx arg .r2 b = (t, .ok (.reg reg)) ∧ Negotiating s (v.issue idx arg .r2 false) r t := by
  obtain ⟨t, hissue, hp⟩ := issueCmd_r2 (r := r) h55 arg h.sched fun e => h.csd.trans (hcsd e)
  have hnext := h.prompted hp
  rw [prefixOf_other h55] at hnext
  exact ⟨t, hissue, hnext⟩

/-- An R6 without an error bit. -/
theorem Negotiating.address {w : Word} (h : Negotiating s v (prompt 3#6 w ++ r) b) (arg : Word) (hw : w &&& 0x0000E000#32 = 0#32) :
    ∃ t st, issueCmd 3#6 arg .r6 b = (t, .ok (.rca (w.extractLsb' 16 16) st)) ∧ Negotiating s (v.issue 3#6 arg .r6 false) r t := by
  obtain ⟨t, x, hissue, hp⟩ := issueCmd_r6 (r := r) (by decide) (by decide) arg h.sched ((hasFlag_eq_false_iff _ _).2 hw)
  exact ⟨t, _, hissue, h.prompted hp⟩

/-- An OCR: busy, or ready and of the card's own addressing mode, where that is asked for (log entry 29). -/
theorem Negotiating.ocr {idx : BitVec 6} {a : Answer} {rc : BitVec 6} {w : Word} (h : Negotiating s v (promptly a rc w 0#32 0#32 0#32 ++ r) b)
    (h9 : idx ≠ 9#6) (h55 : idx ≠ 55#6) (arg : Word) (ha : a ≠ .noResponse)
    (hown : w.getLsbD 31 = true → idx = 41#6 → s.card.byBlock = w.getLsbD 30) :
    ∃ t, issueCmd idx arg .r3 b = (t, .ok (.ocr w)) ∧ Negotiating s (v.issue idx arg .r3 false) r t := by
  have hword : ocrOf (sentAs idx arg .r3 b) b.card.byBlock w = w := by
    by_cases hready : w.getLsbD 31 = true
    · by_cases h41 : idx = 41#6
      · exact ocrOf_own (h.byBlock.trans (hown hready h41)) _
      · exact ocrOf_other (.inr h41) _ _
    · exact ocrOf_busy (Bool.not_eq_true _ ▸ hready) _ _
  obtain ⟨t, hissue, hnext⟩ := h.answer (idx := idx) (arg := arg) (kind := .r3) (res := .ok (.ocr w))
    (by rw [answerAt_r3 h9 h55, hword, answerOf_r3 ha])
  rw [prefixOf_other h55] at hnext
  exact ⟨t, hissue, hnext⟩

/-- A command that fails, by its answer or by silence. -/
theorem Negotiating.fails {idx : BitVec 6} {fails : List (List Ev)} {kind : Kind} {e : TransferError} (h : Negotiating s v (fails ++ r) b)
    (h9 : idx = 9#6 → kind = .r2) (h55 : idx = 55#6 → kind = .r1) (arg : Word) (hf : CommandFails kind idx fails r e) :
    ∃ t, issueCmd idx arg kind b = (t, .err e) ∧ Negotiating s { v.issue idx arg kind false with ms := t.inp.ms } r t := by
  obtain ⟨t, hissue, k, hsched, hbreaches, -⟩ := issueCmd_fails h9 h55 arg hf h.sched
  exact ⟨t, hissue, h.issued k hsched hbreaches⟩

theorem Negotiating.rcaArg_eq (h : Negotiating s v r b) : rcaArg b = v.desc.rca ++ 0#16 := by
  rw [Machine.rcaArg_eq, h.desc]

/-! ## Cells written between commands -/

theorem Negotiating.setSeq (h : Negotiating s v r b) (q : Seq) : Negotiating s { v with seq := q } r (setSeq q b) := { h with seq := rfl }

theorem Negotiating.setDesc (h : Negotiating s v r b) (d : Descriptor) : Negotiating s { v with desc := d } r { b with desc := d } :=
  { h with desc := rfl }

theorem Negotiating.setOcr (h : Negotiating s v r b) (w : Word) :
    Negotiating s { v with neg := { v.neg with ocr := w } } r (setOcr w b) :=
  { h with neg := by show ({ b.neg with ocr := w } : Negotiation) = _; rw [h.neg] }

theorem Negotiating.setSdv2 (h : Negotiating s v r b) (x : Bool) :
    Negotiating s { v with neg := { v.neg with sdv2 := x } } r (setSdv2 x b) :=
  { h with neg := by show ({ b.neg with sdv2 := x } : Negotiation) = _; rw [h.neg] }

theorem Negotiating.voltPause (h : Negotiating s v r b) :
    Negotiating s { v with ms := v.ms + s.cfg.voltPollDelay.toNat } r (voltPause b) :=
  { h with ms := by show b.inp.ms + b.cfg.voltPollDelay.toNat = _; rw [h.ms, h.cfg] }

theorem Negotiating.sync (h : Negotiating s v ([] :: r) b) : Negotiating s v r (sync b) := by
  rw [sync_cons h.sched]
  exact { h with sched := rfl }

/-- Time passes at a look at the inputs. -/
theorem Negotiating.sync_tick {d : Word} (h : Negotiating s v ([.tick d] :: r) b) :
    Negotiating s { v with ms := v.ms + d.toNat } r (Machine.sync b) := by
  have hsync : Machine.sync b = tick d (setSched r b) := by
    unfold Machine.sync
    rw [h.sched]
    rfl
  rw [hsync]
  exact { h with sched := rfl, ms := congrArg (· + d.toNat) h.ms }

end

/-! ## How it ends -/

/-- What INITIALIZE leaves where it ended with this result. -/
structure Negotiated (s : State) (v : View) (r : List (List Ev)) (res : Res Word) (t : State) : Prop where
  result : t.host.result = match res with | .ok _ => 0#8 | .err e => e.code
  value : t.host.value = match res with | .ok x => x | .err _ => 0#32
  idle : t.seq = .idle
  free : t.host.hbusy = false
  sched : t.inp.sched = r
  desc : t.desc = v.desc
  neg : t.neg = v.neg
  log : t.log = v.log
  div : t.bc.div = v.neg.clkdiv
  width : t.bc.width = v.neg.busWidth
  wire : t.wire = s.wire ++ v.sent

theorem Negotiating.ends {s u : State} {v : View} {r : List (List Ev)} {res : Res Word} (h : Negotiating s v r u) (hidle : s.host.hbusy = false)
    (happ : s.app = false) (hbody : negotiate (beginOp s) = (u, res)) :
    ∃ t, exec .initializeCard s = .next t ∧ Negotiated s v r res t := by
  have hexec : exec .initializeCard s = settle s (endWith (u, res)) := hbody ▸ hostOp_idle hidle
  cases res with
  | ok x =>
    exact ⟨_, hexec.trans (settle_ok happ h.breaches), rfl, rfl, rfl, rfl, h.sched, h.desc, h.neg, h.log, h.div, h.width, h.wire⟩
  | err e =>
    exact ⟨_, hexec.trans (settle_ok happ h.breaches), rfl, rfl, rfl, rfl, h.sched, h.desc, h.neg, h.log, h.div, h.width, h.wire⟩

/-! ## Reset and probe -/

/-- The view before the first command (42_negotiation R300, R301). -/
def viewAtReset (s : State) : View where
  seq := .negReset
  app := false
  desc := (negClear s).desc
  neg := { sdv2 := false, ocr := 0#32, busWidth := 1#3, clkdiv := s.cfg.initClkdiv }
  log := s.log
  sent := []
  ms := s.inp.ms

/-- The view after the interface probe (42_negotiation R302). -/
def viewAfterProbe (s : State) (v2 : Bool) : View :=
  { viewAtReset s with
    seq := .negProbe
    neg := { sdv2 := v2, ocr := 0#32, busWidth := 1#3, clkdiv := s.cfg.initClkdiv }
    sent :=
      [{ seq := .negReset, app := false, idx := 0#6, arg := 0#32, kind := .rNone },
        { seq := .negProbe, app := false, idx := 8#6, arg := s.cfg.ifCondArg, kind := .r7 }] }

/-- The reset step behind its writes to the clock and the width. -/
def resetCommand (u : State) : State × Res Word := andThen (issueCmd 0#6 0#32 .rNone u) fun _ s => tailProbe s

theorem andThen_skip {α β : Type} (x : State × Res α) (k : State → State × Res β) :
    andThen (andThen x fun _ s => (s, Res.ok ())) (fun _ s => k s) = andThen x fun _ s => k s := by
  obtain ⟨t, res⟩ := x
  cases res <;> rfl

theorem tailReset_eq (u : State) : tailReset u = resetCommand (configure u.cfg.initClkdiv 1#3 (setSeq .negReset u)) :=
  andThen_skip _ tailProbe

section
variable {s : State} {r : List (List Ev)}

/-- With a card, INITIALIZE comes to its first command (42_negotiation R300, R301). -/
theorem negotiate_begins (happ : s.app = false) (hp : s.inp.cardPresent = true) (hs : s.inp.sched = [] :: r) :
    ∃ b, negotiate (beginOp s) = resetCommand b ∧ Negotiating s (viewAtReset s) r b := by
  have hsync : sync (negClear (beginOp s)) = setSched r (negClear (beginOp s)) := sync_cons hs
  refine ⟨configure s.cfg.initClkdiv 1#3 (setSeq .negReset (setSched r (negClear (beginOp s)))), ?_, ?_⟩
  · rw [negotiate_eq, tailEntry, negEntry, cardCheck_eq, hsync, if_pos (by exact hp), andThen_ok, tailReset_eq]
    rfl
  · exact ⟨rfl, rfl, rfl, rfl, rfl, rfl, rfl, rfl, rfl, happ, rfl, rfl, rfl, (List.append_nil _).symm, rfl⟩

theorem isOk_answerOf_r7 (idx rc : BitVec 6) (a : Answer) (y : Word × Word × Word × Word) :
    Res.isOk (answerOf .r7 idx a rc y) = (a != .noResponse) := by
  rw [answerOf_r7]
  cases a <;> rfl

theorem negProbe_of_issue {b t : State} {res : Res Fields} (h : issueCmd 8#6 b.cfg.ifCondArg .r7 (setSeq .negProbe b) = (t, res)) :
    negProbe b = (setSdv2 (Res.isOk res) t, .ok ()) := by
  unfold negProbe
  rw [h]

/-- The interface probe never fails (42_negotiation R302). -/
theorem tailProbe_answered {v : View} {a : Answer} {rc : BitVec 6} {w : Word} {b : State}
    (h : Negotiating s v (promptly a rc w 0#32 0#32 0#32 ++ r) b) :
    ∃ t, tailProbe b = tailVoltage t ∧
      Negotiating s
        { { v with seq := .negProbe }.issue 8#6 s.cfg.ifCondArg .r7 false with neg := { v.neg with sdv2 := a != .noResponse } } r t := by
  obtain ⟨t, hissue, hnext⟩ := (h.setSeq .negProbe).answer (idx := 8#6) (arg := s.cfg.ifCondArg) (kind := .r7) rfl
  rw [prefixOf_other (by decide)] at hnext
  refine ⟨setSdv2 (a != .noResponse) t, ?_, hnext.setSdv2 _⟩
  rw [← h.cfg] at hissue
  rw [tailProbe, negProbe_of_issue hissue, isOk_answerOf_r7, andThen_ok]

/-- The first two steps (42_negotiation R300-R302). -/
theorem negotiate_probed {a0 a8 : Answer} {rc : BitVec 6} {w : Word} (happ : s.app = false) (hp : s.inp.cardPresent = true)
    (hs : s.inp.sched = [] :: (promptly a0 0#6 0#32 0#32 0#32 0#32 ++ (promptly a8 rc w 0#32 0#32 0#32 ++ r))) :
    ∃ b, negotiate (beginOp s) = tailVoltage b ∧ Negotiating s (viewAfterProbe s (a8 != .noResponse)) r b := by
  obtain ⟨b0, hbegins, h0⟩ := negotiate_begins happ hp hs
  obtain ⟨b1, hissue, h1⟩ := h0.answer (idx := 0#6) (arg := 0#32) (kind := .rNone) rfl
  rw [prefixOf_other (by decide)] at h1
  obtain ⟨b2, hprobe, h2⟩ := tailProbe_answered h1
  refine ⟨b2, ?_, h2⟩
  rw [hbegins, resetCommand, hissue, ← hprobe]
  rfl

end

/-! ## The voltage loop -/

/-- What the loop makes of the answer to a command that asks for the OCR (42_negotiation R303). -/
def voltAnswer (m0 : Nat) (arg : Word) (n : Nat) (mmc : Bool) (x : State × Res Fields) : State × Res Bool :=
  andThen x fun f s =>
    if f.ocrWord.getLsbD 31 then (setOcr f.ocrWord s, .ok mmc)
    else
      if expired (sync (setOcr f.ocrWord s)).inp.ms m0 (voltageDeadlineMs (sync (setOcr f.ocrWord s)).cfg) then
        (sync (setOcr f.ocrWord s), .err .invalidVoltageRange)
      else voltLoop m0 arg n mmc false (voltPause (sync (setOcr f.ocrWord s)))

section
variable {m0 : Nat} {arg : Word} {n : Nat} {first : Bool} {s t : State}

theorem voltLoop_of_attempt {mmc : Bool} {x : State × Res Fields} (h : voltAttempt mmc first arg s = (x.1, attemptOf x.2)) :
    voltLoop m0 arg (n + 1) mmc first s = voltAnswer m0 arg n mmc x := by
  rw [voltLoop_succ, h]
  obtain ⟨u, res⟩ := x
  cases res <;> rfl

theorem voltLoop_mmc : voltLoop m0 arg (n + 1) true first s = voltAnswer m0 arg n true (issueCmd 1#6 s.cfg.voltageWindowMmc .r3 s) :=
  voltLoop_of_attempt (voltAttempt_mmc first arg s)

theorem voltLoop_of_prefix_ok {f : Fields} (h : issueCmd 55#6 (rcaArg s) .r1 s = (t, .ok f)) :
    voltLoop m0 arg (n + 1) false first s = voltAnswer m0 arg n false (issueCmd 41#6 arg .r3 t) :=
  voltLoop_of_attempt (voltAttempt_of_prefix_ok h)

theorem voltLoop_of_prefix_err {e : TransferError} (h : issueCmd 55#6 (rcaArg s) .r1 s = (t, .err e))
    (hno : ¬ (first = true ∧ s.neg.sdv2 = false ∧ e = .cmdResponseTimeout)) : voltLoop m0 arg (n + 1) false first s = (t, .err e) := by
  rw [voltLoop_succ, voltAttempt_of_prefix_err h, if_neg hno]

/-- The first CMD55 without an answer, of a card that answered no probe: the card is MMC (42_negotiation R303). -/
theorem voltLoop_of_silence (h : issueCmd 55#6 (rcaArg s) .r1 s = (t, .err .cmdResponseTimeout)) (hv2 : s.neg.sdv2 = false) :
    voltLoop m0 arg (n + 1) false true s = voltLoop m0 arg n true false t := by
  rw [voltLoop_succ, voltAttempt_of_prefix_err h, if_pos ⟨rfl, hv2, rfl⟩]

/-- More fuel than the schedule allows attempts changes nothing. -/
theorem voltLoop_more_fuel {m : Nat} (hn : s.inp.sched.length + 2 ≤ n) (hm : n ≤ m) :
    voltLoop m0 arg m false true s = voltLoop m0 arg n false true s := by
  induction m, hm using Nat.le_induction with
  | base => rfl
  | succ m hm ih => rw [voltLoop_fuel m0 arg m false true s (by rw [if_pos ⟨rfl, rfl⟩]; omega), ih]

end

section
variable {s b : State} {v : View} {r : List (List Ev)} {m0 : Nat} {arg : Word} {n : Nat} {mmc : Bool} {idx : BitVec 6} {g : Word}
  {a : Answer} {rc : BitVec 6} {w : Word}

/-- A command that asks for the OCR: CMD1, or ACMD41. -/
def Asks (idx : BitVec 6) : Prop := idx = 1#6 ∨ idx = 41#6

theorem asks_ne (h : Asks idx) : idx ≠ 9#6 ∧ idx ≠ 55#6 := by
  rcases h with rfl | rfl <;> decide

/-- A ready OCR ends the loop. -/
theorem voltAnswer_ready (h : Negotiating s v (promptly a rc w 0#32 0#32 0#32 ++ r) b) (hidx : Asks idx) (ha : a ≠ .noResponse)
    (hready : w.getLsbD 31 = true) (hown : idx = 41#6 → s.card.byBlock = w.getLsbD 30) :
    ∃ t, voltAnswer m0 arg n mmc (issueCmd idx g .r3 b) = (t, .ok mmc) ∧
      Negotiating s { v.issue idx g .r3 false with neg := { v.neg with ocr := w }, ms := v.ms } r t := by
  obtain ⟨t, hissue, hnext⟩ := h.ocr (asks_ne hidx).1 (asks_ne hidx).2 g ha fun _ => hown
  refine ⟨setOcr w t, ?_, hnext.setOcr w⟩
  rw [voltAnswer, hissue, andThen_ok, if_pos (by exact hready)]
  rfl

theorem not_expired_of_lt {ms : Nat} (p : Params) (hm : m0 ≤ ms) (ht : ms < m0 + max 1 p.voltageDeadline.toNat) :
    ¬ expired ms m0 (voltageDeadlineMs p) = true := by
  have hlt := p.voltageDeadline.isLt
  have hle : voltageDeadlineMs p ≤ 2 ^ 32 := by show max 1 _ ≤ _; omega
  rw [expired_iff hm hle]
  show ¬ m0 + max 1 _ ≤ ms
  omega

/-- A busy OCR within the deadline: the next attempt follows after the pause. -/
theorem voltAnswer_busy (h : Negotiating s v (prompt rc w ++ ([] :: r)) b) (hidx : Asks idx) (hbusy : w.getLsbD 31 = false) (hm : m0 ≤ v.ms)
    (ht : v.ms < m0 + max 1 s.cfg.voltageDeadline.toNat) :
    ∃ t, voltAnswer m0 arg n mmc (issueCmd idx g .r3 b) = voltLoop m0 arg n mmc false t ∧
      Negotiating s
        { v.issue idx g .r3 false with neg := { v.neg with ocr := w }, ms := v.ms + s.cfg.voltPollDelay.toNat } r t := by
  obtain ⟨t, hissue, hnext⟩ := h.ocr (asks_ne hidx).1 (asks_ne hidx).2 g (by decide) fun hready => absurd (hbusy.symm.trans hready) (by decide)
  have hlook := (hnext.setOcr w).sync
  refine ⟨voltPause (sync (setOcr w t)), ?_, hlook.voltPause⟩
  rw [voltAnswer, hissue, andThen_ok, if_neg (by exact ne_true_of_eq_false hbusy), if_neg]
  · rfl
  · show ¬ expired (sync (setOcr w t)).inp.ms m0 (voltageDeadlineMs (sync (setOcr w t)).cfg) = true
    rw [hlook.ms, hlook.cfg]
    exact not_expired_of_lt _ hm ht

/-- A busy OCR, the deadline past at the look that follows. -/
theorem voltAnswer_late {d : Word} (h : Negotiating s v (prompt rc w ++ ([.tick d] :: r)) b) (hidx : Asks idx) (hbusy : w.getLsbD 31 = false)
    (hm : m0 ≤ v.ms) (ht : m0 + max 1 s.cfg.voltageDeadline.toNat ≤ v.ms + d.toNat) :
    ∃ t, voltAnswer m0 arg n mmc (issueCmd idx g .r3 b) = (t, .err .invalidVoltageRange) ∧
      Negotiating s { v.issue idx g .r3 false with neg := { v.neg with ocr := w }, ms := v.ms + d.toNat } r t := by
  obtain ⟨t, hissue, hnext⟩ := h.ocr (asks_ne hidx).1 (asks_ne hidx).2 g (by decide) fun hready => absurd (hbusy.symm.trans hready) (by decide)
  have hlook := (hnext.setOcr w).sync_tick
  have hlt := s.cfg.voltageDeadline.isLt
  refine ⟨sync (setOcr w t), ?_, hlook⟩
  rw [voltAnswer, hissue, andThen_ok, if_neg (by exact ne_true_of_eq_false hbusy), if_pos]
  · rfl
  · show expired (sync (setOcr w t)).inp.ms m0 (voltageDeadlineMs (sync (setOcr w t)).cfg) = true
    rw [hlook.ms, hlook.cfg]
    show expired (v.ms + d.toNat) m0 (max 1 s.cfg.voltageDeadline.toNat) = true
    rw [expired_iff (by omega) (by omega)]
    exact ht

end

end Sys2Proof.Machine
end

section
/-! PROOFS. INITIALIZE of a card that answers at once (42_negotiation R303-R311): the attempts of the voltage loop, the steps behind it,
and how it ends, with success, with the voltage deadline past, or with a bus-width step that failed. -/

namespace Sys2Proof.Machine

open Sys2Proof.Safety

/-! ## The attempts of the voltage loop -/

/-- The index of the command that asks for the OCR. -/
def askIndex (mmc : Bool) : BitVec 6 := if mmc then 1#6 else 41#6

/-- The argument of ACMD41, by what the probe found (41_command_issuer R272). -/
def opCondWord (s : State) (v2 : Bool) : Word := s.cfg.voltageWindowSd ||| if v2 then 1#32 <<< s.cfg.hcsBit else 0#32

/-- The argument of the command that asks for the OCR. -/
def askWord (s : State) (mmc v2 : Bool) : Word := if mmc then s.cfg.voltageWindowMmc else opCondWord s v2

/-- A CMD55 of the voltage loop, before the card has an address. -/
def voltPrefix : Sent := { seq := .negVoltage, app := false, idx := 55#6, arg := 0#32, kind := .r1 }

/-- The command of an attempt that asks for the OCR. -/
def voltAsk (s : State) (mmc v2 : Bool) : Sent :=
  { seq := .negVoltage, app := !mmc, idx := askIndex mmc, arg := askWord s mmc v2, kind := .r3 }

/-- The commands of one attempt. -/
def attemptSent (s : State) (mmc v2 : Bool) : List Sent := if mmc then [voltAsk s true v2] else [voltPrefix, voltAsk s false v2]

/-- The batches of the CMD55 of an attempt: none with an MMC card. -/
def prefixBatches (mmc : Bool) (w : Word) : List (List Ev) := if mmc then [] else prompt 55#6 w

/-- The batches of attempts answered with busy OCRs, each with the look at the TIMER behind it. -/
def busyBatches (mmc : Bool) (busy : List (Word × Word)) : List (List Ev) :=
  busy.flatMap fun x => prefixBatches mmc x.1 ++ (prompt 63#6 x.2 ++ [[]])

/-- The view behind the CMD55 of an attempt, if it has one. -/
def View.prefixed (mmc : Bool) (v : View) : View := if mmc then v else v.issue 55#6 0#32 .r1 true

/-- The view after `k` attempts, the last of them answered with `w`. -/
def View.asked (s : State) (mmc v2 : Bool) (k : Nat) (w : Word) (ms : Nat) (v : View) : View :=
  { v with neg := { v.neg with ocr := w }, ms := ms, sent := v.sent ++ (List.replicate k (attemptSent s mmc v2)).flatten }

theorem View.asked_zero (s : State) (mmc v2 : Bool) (v : View) : v.asked s mmc v2 0 v.neg.ocr v.ms = v := by
  unfold View.asked
  rw [List.replicate_zero, List.flatten_nil, List.append_nil]

theorem View.asked_asked (s : State) (mmc v2 : Bool) (j k : Nat) (w w' : Word) (ms ms' : Nat) (v : View) :
    (v.asked s mmc v2 j w ms).asked s mmc v2 k w' ms' = v.asked s mmc v2 (j + k) w' ms' := by
  unfold View.asked
  rw [List.replicate_add, List.flatten_append, ← List.append_assoc]

/-- One attempt. -/
theorem View.asked_one (s : State) (mmc v2 : Bool) (w : Word) (ms : Nat) {v : View} (hseq : v.seq = .negVoltage) (happ : v.app = false) :
    { (v.prefixed mmc).issue (askIndex mmc) (askWord s mmc v2) .r3 false with neg := { v.neg with ocr := w }, ms := ms } =
      v.asked s mmc v2 1 w ms := by
  obtain ⟨q, app, d, g, l, cs, m⟩ := v
  cases hseq
  cases happ
  cases mmc with
  | true => rfl
  | false =>
    unfold View.asked View.prefixed View.issue
    simp [attemptSent, voltPrefix, voltAsk]

theorem zero_append_zero : (0#16 ++ 0#16 : BitVec 32) = 0#32 := by decide

theorem askIndex_eq_41 {mmc : Bool} (h : askIndex mmc = 41#6) : mmc = false := by
  cases mmc with
  | false => rfl
  | true => exact absurd h (by decide)

theorem askIndex_asks (mmc : Bool) : Asks (askIndex mmc) := by
  cases mmc
  · exact .inr rfl
  · exact .inl rfl

section
variable {s b : State} {v : View} {r : List (List Ev)} {m0 n : Nat} {mmc v2 first : Bool}

/-- An attempt comes to the command that asks for the OCR. -/
theorem attempt_asks {w : Word} (h : Negotiating s v (prefixBatches mmc w ++ r) b) (hrca : v.desc.rca = 0#16)
    (hw : w &&& 0xFDFFE008#32 = 0#32) :
    ∃ t, voltLoop m0 (opCondWord s v2) (n + 1) mmc first b =
        voltAnswer m0 (opCondWord s v2) n mmc (issueCmd (askIndex mmc) (askWord s mmc v2) .r3 t) ∧
      Negotiating s (v.prefixed mmc) r t := by
  cases mmc with
  | true => exact ⟨b, by rw [voltLoop_mmc, h.cfg]; rfl, h⟩
  | false =>
    obtain ⟨t, f, hissue, hnext⟩ := Negotiating.status (r := r) h (.inl rfl) (by decide) (rcaArg b) hw
    have harg : rcaArg b = 0#32 := by rw [h.rcaArg_eq, hrca, zero_append_zero]
    rw [harg] at hnext
    exact ⟨t, voltLoop_of_prefix_ok hissue, hnext⟩

theorem View.prefixed_ms (mmc : Bool) (v : View) : (v.prefixed mmc).ms = v.ms := by
  cases mmc <;> rfl

theorem View.prefixed_neg (mmc : Bool) (v : View) : (v.prefixed mmc).neg = v.neg := by
  cases mmc <;> rfl

/-- Where the deadline is not past at the last busy OCR it is not past at the first, nor at those behind it. -/
theorem busy_in_time {y : Word × Word} {busy : List (Word × Word)} {ms d limit : Nat}
    (h : ms + ((y :: busy).length - 1) * d < limit) : ms < limit ∧ (busy ≠ [] → ms + d + (busy.length - 1) * d < limit) := by
  rw [List.length_cons, Nat.add_sub_cancel] at h
  refine ⟨by omega, fun hne => ?_⟩
  obtain ⟨k, hk⟩ := Nat.exists_eq_succ_of_ne_zero (fun e => hne (List.length_eq_zero_iff.1 e))
  rw [hk, Nat.succ_eq_add_one, Nat.succ_mul] at h
  rw [hk, Nat.succ_eq_add_one, Nat.add_sub_cancel]
  omega

/-- Busy OCRs within the deadline: as many attempts, the pauses between them. -/
theorem voltLoop_busy {busy : List (Word × Word)} (hbusy : ∀ x ∈ busy, x.1 &&& 0xFDFFE008#32 = 0#32 ∧ x.2.getLsbD 31 = false)
    (hseq : v.seq = .negVoltage) (happ : v.app = false) (hrca : v.desc.rca = 0#16) (hm : m0 ≤ v.ms)
    (ht : busy ≠ [] → v.ms + (busy.length - 1) * s.cfg.voltPollDelay.toNat < m0 + max 1 s.cfg.voltageDeadline.toNat)
    (h : Negotiating s v (busyBatches mmc busy ++ r) b) :
    ∃ t first' w, voltLoop m0 (opCondWord s v2) (busy.length + n) mmc first b = voltLoop m0 (opCondWord s v2) n mmc first' t ∧
      Negotiating s (v.asked s mmc v2 busy.length w (v.ms + busy.length * s.cfg.voltPollDelay.toNat)) r t := by
  induction busy generalizing b v first with
  | nil =>
    refine ⟨b, first, v.neg.ocr, by rw [List.length_nil, Nat.zero_add], ?_⟩
    rw [List.length_nil, Nat.zero_mul, Nat.add_zero, View.asked_zero]
    exact h
  | cons x busy ih =>
    obtain ⟨hw, hocr⟩ := hbusy x List.mem_cons_self
    obtain ⟨hnow, hlater⟩ := busy_in_time (ht (List.cons_ne_nil _ _))
    rw [busyBatches, List.flatMap_cons, List.append_assoc, List.append_assoc, List.append_assoc] at h
    obtain ⟨b1, hask, h1⟩ := attempt_asks (m0 := m0) (n := busy.length + n) (v2 := v2) (first := first) h hrca hw
    have hms := v.prefixed_ms mmc
    obtain ⟨b2, hanswer, h2⟩ := voltAnswer_busy (m0 := m0) (arg := opCondWord s v2) (n := busy.length + n) (mmc := mmc)
      (r := busyBatches mmc busy ++ r) (g := askWord s mmc v2) h1 (askIndex_asks mmc) hocr (hms ▸ hm) (hms ▸ hnow)
    rw [hms, View.prefixed_neg, View.asked_one s mmc v2 _ _ hseq happ] at h2
    have hstep : (busy.length + 1) * s.cfg.voltPollDelay.toNat = busy.length * s.cfg.voltPollDelay.toNat + s.cfg.voltPollDelay.toNat :=
      Nat.succ_mul _ _
    obtain ⟨t, first', w, hloop, ht⟩ := ih (first := false) (v := v.asked s mmc v2 1 x.2 (v.ms + s.cfg.voltPollDelay.toNat))
      (fun y hy => hbusy y (List.mem_cons_of_mem _ hy)) hseq happ hrca (Nat.le_add_right_of_le hm) hlater h2
    refine ⟨t, first', w, ?_, ?_⟩
    · rw [List.length_cons, Nat.add_right_comm, hask, hanswer, hloop]
    · rw [View.asked_asked] at ht
      rw [List.length_cons, hstep, Nat.add_comm busy.length 1, Nat.add_comm (busy.length * _), ← Nat.add_assoc]
      exact ht

end

/-! ## The voltage step -/

/-- The batches of the first CMD55 to an MMC card, which does not answer. -/
def legacyBatches (mmc : Bool) : List (List Ev) := if mmc then promptly .noResponse 0#6 0#32 0#32 0#32 0#32 else []

/-- The view at the first attempt that counts (42_negotiation R303). -/
def viewAtVoltage (s : State) (mmc v2 : Bool) : View :=
  { viewAfterProbe s v2 with
    seq := .negVoltage
    sent := (viewAfterProbe s v2).sent ++ if mmc then [voltPrefix] else [] }

/-- The view after a voltage step of `k` attempts. -/
def viewAfterVoltage (s : State) (mmc v2 : Bool) (k : Nat) (ocr : Word) (ms : Nat) : View :=
  { (viewAtVoltage s mmc v2).asked s mmc v2 k ocr ms with
    desc := { (viewAtVoltage s mmc v2).desc with cardType := cardTypeOf mmc ocr v2 } }

/-- The rest of negotiation from an attempt on. -/
def tailLoop (m0 : Nat) (arg : Word) (n : Nat) (mmc first : Bool) (s : State) : State × Res Word :=
  andThen (voltLoop m0 arg n mmc first s) fun mmc s => tailCid (setCardType (cardTypeOf mmc s.neg.ocr s.neg.sdv2) s)

theorem tailVoltage_eq (s : State) :
    tailVoltage s = tailLoop s.inp.ms (opCondArg s) (s.inp.sched.length + 2) false true (setSeq .negVoltage s) := by
  rw [tailVoltage, negVoltage_eq, andThen_assoc]
  rfl

section
variable {s b : State} {v : View} {r : List (List Ev)} {mmc v2 : Bool}

theorem Negotiating.opCondArg_eq (h : Negotiating s v r b) (hv2 : v.neg.sdv2 = v2) : opCondArg b = opCondWord s v2 := by
  unfold opCondArg opCondWord
  rw [h.cfg, h.neg, hv2]

/-- The voltage step comes to its first attempt that counts, with fuel for any number of them. -/
theorem tailVoltage_begins (k : Nat) (hlegacy : mmc = true → v2 = false)
    (h : Negotiating s (viewAfterProbe s v2) (legacyBatches mmc ++ r) b) :
    ∃ t n first, k ≤ n ∧ tailVoltage b = tailLoop s.inp.ms (opCondWord s v2) n mmc first t ∧
      Negotiating s (viewAtVoltage s mmc v2) r t := by
  have hbegin := h.setSeq .negVoltage
  have hfuel (m : Nat) : tailVoltage b =
      tailLoop s.inp.ms (opCondWord s v2) (b.inp.sched.length + 2 + m) false true (setSeq .negVoltage b) := by
    rw [tailVoltage_eq, h.ms, h.opCondArg_eq rfl, tailLoop, tailLoop]
    rw [voltLoop_more_fuel (s := setSeq .negVoltage b) (n := b.inp.sched.length + 2) (Nat.le_refl _) (Nat.le_add_right _ m)]
    rfl
  cases hmmc : mmc with
  | false =>
    rw [hmmc] at hbegin
    exact ⟨_, _, _, Nat.le_add_left _ _, hfuel k, hbegin⟩
  | true =>
    rw [hmmc] at hbegin
    obtain ⟨t, hissue, hnext⟩ := Negotiating.answer (r := r) hbegin (idx := 55#6) (arg := rcaArg (setSeq .negVoltage b)) (kind := .r1) rfl
    have hv2 : (setSeq .negVoltage b).neg.sdv2 = false := (congrArg Negotiation.sdv2 hbegin.neg).trans (hlegacy hmmc)
    have harg : rcaArg (setSeq .negVoltage b) = 0#32 := hbegin.rcaArg_eq.trans zero_append_zero
    rw [harg] at hnext
    refine ⟨t, b.inp.sched.length + 1 + k, false, by omega, ?_, hnext⟩
    rw [hfuel k, tailLoop, tailLoop, show b.inp.sched.length + 2 + k = b.inp.sched.length + 1 + k + 1 by omega, voltLoop_of_silence hissue hv2]

/-- The rest of negotiation behind the voltage loop. -/
def tailTyped (mmc : Bool) (s : State) : State × Res Word := tailCid (setCardType (cardTypeOf mmc s.neg.ocr s.neg.sdv2) s)

theorem tailTyped_eq (mmc : Bool) {t : State} {d : Descriptor} {ocr : Word} {v2 : Bool} (hd : t.desc = d) (hocr : t.neg.ocr = ocr)
    (hv2 : t.neg.sdv2 = v2) : tailTyped mmc t = tailCid { t with desc := { d with cardType := cardTypeOf mmc ocr v2 } } := by
  rw [tailTyped, setCardType, hd, hocr, hv2]

/-- The voltage step comes to the command that asks for the OCR behind the busy ones (42_negotiation R303). -/
theorem tailVoltage_asks {busy : List (Word × Word)} {w55 : Word} (hlegacy : mmc = true → v2 = false)
    (hbusy : ∀ x ∈ busy, x.1 &&& 0xFDFFE008#32 = 0#32 ∧ x.2.getLsbD 31 = false)
    (ht : (busy.length - 1) * s.cfg.voltPollDelay.toNat < max 1 s.cfg.voltageDeadline.toNat) (hw55 : w55 &&& 0xFDFFE008#32 = 0#32)
    (h : Negotiating s (viewAfterProbe s v2) (legacyBatches mmc ++ (busyBatches mmc busy ++ (prefixBatches mmc w55 ++ r))) b) :
    ∃ t n w,
      tailVoltage b =
        andThen (voltAnswer s.inp.ms (opCondWord s v2) n mmc (issueCmd (askIndex mmc) (askWord s mmc v2) .r3 t)) tailTyped ∧
      Negotiating s
        (((viewAtVoltage s mmc v2).asked s mmc v2 busy.length w (s.inp.ms + busy.length * s.cfg.voltPollDelay.toNat)).prefixed mmc) r t := by
  obtain ⟨b0, n, first, hn, hbegins, h0⟩ := tailVoltage_begins (busy.length + 1) hlegacy h
  obtain ⟨m, rfl⟩ := Nat.exists_eq_add_of_le hn
  obtain ⟨b1, first', w, hloop, h1⟩ := voltLoop_busy (n := m + 1) (v2 := v2) (first := first) hbusy rfl rfl rfl (Nat.le_refl _)
    (fun _ => Nat.add_lt_add_left ht _) h0
  obtain ⟨b2, hask, h2⟩ := attempt_asks (m0 := s.inp.ms) (n := m) (v2 := v2) (first := first') h1 rfl hw55
  refine ⟨b2, m, w, ?_, h2⟩
  rw [hbegins, tailLoop, Nat.add_assoc, Nat.add_comm 1 m]
  exact congrArg (andThen · tailTyped) (hloop.trans hask)

section
variable {busy : List (Word × Word)} {w55 : Word} {a : Answer} {rc : BitVec 6} {ocr d : Word} (hlegacy : mmc = true → v2 = false)
  (hbusy : ∀ x ∈ busy, x.1 &&& 0xFDFFE008#32 = 0#32 ∧ x.2.getLsbD 31 = false)
  (ht : (busy.length - 1) * s.cfg.voltPollDelay.toNat < max 1 s.cfg.voltageDeadline.toNat) (hw55 : w55 &&& 0xFDFFE008#32 = 0#32)

include hlegacy hbusy ht hw55

/-- The voltage step of a card that is ready in time. -/
theorem tailVoltage_ready (ha : a ≠ .noResponse) (hready : ocr.getLsbD 31 = true) (hown : mmc = false → s.card.byBlock = ocr.getLsbD 30)
    (h : Negotiating s (viewAfterProbe s v2)
      (legacyBatches mmc ++ (busyBatches mmc busy ++ (prefixBatches mmc w55 ++ (promptly a rc ocr 0#32 0#32 0#32 ++ r)))) b) :
    ∃ t ms, tailVoltage b = tailCid t ∧ Negotiating s (viewAfterVoltage s mmc v2 (busy.length + 1) ocr ms) r t := by
  obtain ⟨b0, n, w, hasks, h0⟩ := tailVoltage_asks hlegacy hbusy ht hw55 h
  obtain ⟨t, hanswer, h1⟩ := voltAnswer_ready (m0 := s.inp.ms) (arg := opCondWord s v2) (n := n) (mmc := mmc) (g := askWord s mmc v2) h0
    (askIndex_asks mmc) ha hready fun h41 => hown (askIndex_eq_41 h41)
  rw [View.prefixed_neg, View.prefixed_ms, View.asked_one s mmc v2 _ _ (by rfl) (by rfl), View.asked_asked] at h1
  refine ⟨_, _, ?_, h1.setDesc _⟩
  rw [hasks, hanswer, andThen_ok]
  exact tailTyped_eq mmc h1.desc (congrArg Negotiation.ocr h1.neg) (congrArg Negotiation.sdv2 h1.neg)

/-- The voltage step of a card that stays busy until the deadline is past. -/
theorem tailVoltage_late (hocr : ocr.getLsbD 31 = false)
    (hlate : max 1 s.cfg.voltageDeadline.toNat ≤ busy.length * s.cfg.voltPollDelay.toNat + d.toNat)
    (h : Negotiating s (viewAfterProbe s v2)
      (legacyBatches mmc ++ (busyBatches mmc busy ++ (prefixBatches mmc w55 ++ (prompt rc ocr ++ ([.tick d] :: r))))) b) :
    ∃ t ms, tailVoltage b = (t, .err .invalidVoltageRange) ∧
      Negotiating s ((viewAtVoltage s mmc v2).asked s mmc v2 (busy.length + 1) ocr ms) r t := by
  obtain ⟨b0, n, w, hasks, h0⟩ := tailVoltage_asks hlegacy hbusy ht hw55 h
  have hms := View.prefixed_ms mmc
    ((viewAtVoltage s mmc v2).asked s mmc v2 busy.length w (s.inp.ms + busy.length * s.cfg.voltPollDelay.toNat))
  have hms : _ = s.inp.ms + busy.length * s.cfg.voltPollDelay.toNat := hms
  obtain ⟨t, hanswer, h1⟩ := voltAnswer_late (m0 := s.inp.ms) (arg := opCondWord s v2) (n := n) (mmc := mmc) (g := askWord s mmc v2) h0
    (askIndex_asks mmc) hocr (by rw [hms]; omega) (by rw [hms]; omega)
  rw [View.prefixed_neg, View.asked_one s mmc v2 _ _ (by rfl) (by rfl), View.asked_asked] at h1
  refine ⟨t, _, ?_, h1⟩
  rw [hasks, hanswer, andThen_err]

end

end

end Sys2Proof.Machine
end

section
/-! PROOFS. The steps of INITIALIZE behind the voltage step (42_negotiation R304-R311), and its end: with success on an SD and on an MMC
card, with the voltage deadline past, and with a bus-width step that failed. -/

namespace Sys2Proof.Machine

open Sys2Proof.Safety

/-! ## Identification, registers, selection -/

/-- The view after the CID (42_negotiation R304). -/
def View.named (cid : Reg128) (v : View) : View :=
  { { v with seq := .negIdent }.issue 2#6 0#32 .r2 false with desc := { v.desc with cidRaw := cid } }

/-- The view after the RCA (42_negotiation R305). -/
def View.addressed (rca : BitVec 16) (v : View) : View :=
  { v.issue 3#6 0#32 .r6 false with desc := { v.desc with rca := rca } }

/-- The view once the CSD has arrived (42_negotiation R306). -/
def View.fetched (csd : Reg128) (v : View) : View :=
  { { v with seq := .negRegfetch }.issue 9#6 (v.desc.rca ++ 0#16) .r2 false with desc := { v.desc with csdRaw := csd } }

/-- The descriptor with its registers parsed (42_negotiation R306). -/
def parsedDesc (c : Csd) (n : Word) (d : Descriptor) : Descriptor := { d with cid := parseCid d.cidRaw, csd := c, capacity := n }

/-- The view after the register fetch (42_negotiation R306). -/
def View.parsed (csd : Reg128) (c : Csd) (n : Word) (v : View) : View :=
  { v.fetched csd with desc := parsedDesc c n (v.fetched csd).desc }

/-- The view after the selection (42_negotiation R307). -/
def View.selected (div : Nat) (v : View) : View :=
  { { v with seq := .negSelect }.issue 7#6 (v.desc.rca ++ 0#16) .r1b false with neg := { v.neg with clkdiv := div } }

section
variable {s b : State} {v : View} {r : List (List Ev)}

theorem tailCid_answered {cid : Reg128} (h : Negotiating s v (promptLong cid ++ r) b) :
    ∃ t, tailCid b = tailRca t ∧ Negotiating s (v.named cid) r t := by
  obtain ⟨t, hissue, hnext⟩ := (h.setSeq .negIdent).register (idx := 2#6) (by decide) 0#32 nofun
  refine ⟨{ t with desc := { t.desc with cidRaw := cid } }, ?_, ?_⟩
  · rw [tailCid, negIdentCid, hissue, andThen_ok, andThen_ok]
    rfl
  · rw [hnext.desc]
    exact hnext.setDesc _

theorem tailRca_answered {w : Word} (hw : w &&& 0x0000E000#32 = 0#32) (h : Negotiating s v (prompt 3#6 w ++ r) b) :
    ∃ t, tailRca b = tailFetch t ∧ Negotiating s (v.addressed (w.extractLsb' 16 16)) r t := by
  obtain ⟨t, st, hissue, hnext⟩ := h.address 0#32 hw
  refine ⟨{ t with desc := { t.desc with rca := w.extractLsb' 16 16 } }, ?_, ?_⟩
  · rw [tailRca, negIdentRca, hissue, andThen_ok, andThen_ok]
    rfl
  · rw [hnext.desc]
    exact hnext.setDesc _

theorem negParse_ok {c : Csd} {n : Word} {u : State} (hc : parseCsd u.desc.csdRaw u.desc.cardType = .ok c)
    (hn : capacity c u.desc.cardType = .ok n) : negParse u = ({ u with desc := parsedDesc c n u.desc }, .ok ()) := by
  unfold negParse
  simp only [hc, hn]
  rfl

/-- A CSD that cannot be parsed, or whose capacity does not fit, is the error of the step. -/
theorem negParse_err {e : TransferError} {u : State}
    (h : parseCsd u.desc.csdRaw u.desc.cardType = .err e ∨
      ∃ c, parseCsd u.desc.csdRaw u.desc.cardType = .ok c ∧ capacity c u.desc.cardType = .err e) :
    ∃ d, negParse u = ({ u with desc := d }, .err e) ∧ d.valid = u.desc.valid := by
  unfold negParse
  rcases h with hc | ⟨c, hc, hn⟩
  · simp only [hc]
    exact ⟨_, rfl, rfl⟩
  · simp only [hc, hn]
    exact ⟨_, rfl, rfl⟩

/-- The register fetch comes to the parsing of the CSD. -/
theorem tailFetch_answered {csd : Reg128} (hcsd : s.card.csd = csd) (h : Negotiating s v (promptLong csd ++ r) b) :
    ∃ t, tailFetch b = andThen (negParse t) (fun _ s => tailSelect s) ∧ Negotiating s (v.fetched csd) r t := by
  obtain ⟨t, hissue, hnext⟩ := (h.setSeq .negRegfetch).register (idx := 9#6) (by decide) (rcaArg b) fun _ => hcsd
  rw [h.rcaArg_eq] at hnext
  refine ⟨{ t with desc := { t.desc with csdRaw := csd } }, ?_, ?_⟩
  · rw [tailFetch, negRegfetch, hissue, andThen_ok]
    rfl
  · rw [hnext.desc]
    exact hnext.setDesc _

theorem tailFetch_parsed {csd : Reg128} {c : Csd} {n : Word} (hcsd : s.card.csd = csd) (hc : parseCsd csd v.desc.cardType = .ok c)
    (hn : capacity c v.desc.cardType = .ok n) (h : Negotiating s v (promptLong csd ++ r) b) :
    ∃ t, tailFetch b = tailSelect t ∧ Negotiating s (v.parsed csd c n) r t := by
  obtain ⟨t, hfetch, hnext⟩ := tailFetch_answered hcsd h
  have hparse : negParse t = ({ t with desc := parsedDesc c n t.desc }, .ok ()) :=
    negParse_ok (by rw [hnext.desc]; exact hc) (by rw [hnext.desc]; exact hn)
  refine ⟨{ t with desc := parsedDesc c n t.desc }, ?_, ?_⟩
  · rw [hfetch, hparse, andThen_ok]
  · rw [hnext.desc]
    exact hnext.setDesc _

theorem tailSelect_answered {w : Word} (hw : w &&& 0xFDFFE008#32 = 0#32) (hwidth : v.neg.busWidth = 1#3)
    (h : Negotiating s v (prompt 7#6 w ++ r) b) :
    ∃ t, tailSelect b = tailWidth t ∧ Negotiating s (v.selected s.cfg.transferClkdiv) r t := by
  obtain ⟨t, f, hissue, hnext⟩ := (h.setSeq .negSelect).status (.inr rfl) (by decide) (rcaArg b) hw
  rw [h.rcaArg_eq] at hnext
  refine ⟨{ bcConfig t.cfg.transferClkdiv 1#3 t with neg := { t.neg with clkdiv := t.cfg.transferClkdiv } }, ?_, ?_⟩
  · rw [tailSelect, negSelect, hissue, andThen_ok, andThen_ok]
    rfl
  · rw [hnext.cfg, hnext.neg]
    exact { hnext with div := rfl, width := hwidth.symm, neg := rfl }

/-! ## The bus width -/

/-- The view after the bus-width step of an SD card that took it (42_negotiation R308). -/
def View.widened (v : View) : View :=
  { ({ v with seq := .negWidth }.issue 55#6 (v.desc.rca ++ 0#16) .r1 true).issue 6#6 2#32 .r1 false with
    neg := { v.neg with busWidth := 4#3 } }

theorem negWidth_of_mmc {u : State} (h : u.desc.cardType = .mmc) : negWidth u = (setSeq .negWidth u, .ok ()) := by
  unfold negWidth
  exact if_pos h

theorem negWidth_of_ok {u t : State} {f : Fields} (h : u.desc.cardType ≠ .mmc)
    (hissue : issueApp 6#6 2#32 .r1 (setSeq .negWidth u) = (t, .ok f)) :
    negWidth u = ({ bcConfig t.cfg.transferClkdiv 4#3 t with neg := { t.neg with busWidth := 4#3 } }, .ok ()) := by
  unfold negWidth
  dsimp only
  rw [if_neg (by exact h), hissue]
  rfl

theorem negWidth_of_err {u t : State} {e : TransferError} (h : u.desc.cardType ≠ .mmc)
    (hissue : issueApp 6#6 2#32 .r1 (setSeq .negWidth u) = (t, .err e)) :
    negWidth u = ({ t with log := t.log ++ [.widthUpgradeFailed e.code] }, .ok ()) := by
  unfold negWidth
  dsimp only
  rw [if_neg (by exact h), hissue]

theorem tailWidth_mmc (hct : v.desc.cardType = .mmc) (h : Negotiating s v r b) :
    ∃ t, tailWidth b = tailBlklen t ∧ Negotiating s { v with seq := .negWidth } r t :=
  ⟨_, by rw [tailWidth, negWidth_of_mmc (by rw [h.desc]; exact hct), andThen_ok], h.setSeq .negWidth⟩

theorem tailWidth_answered {w55 w6 : Word} (hct : v.desc.cardType ≠ .mmc) (hdiv : v.neg.clkdiv = s.cfg.transferClkdiv)
    (hw55 : w55 &&& 0xFDFFE008#32 = 0#32) (hw6 : w6 &&& 0xFDFFE008#32 = 0#32)
    (h : Negotiating s v (prompt 55#6 w55 ++ (prompt 6#6 w6 ++ r)) b) :
    ∃ t, tailWidth b = tailBlklen t ∧ Negotiating s v.widened r t := by
  obtain ⟨b1, f1, hprefix, h1⟩ := Negotiating.status (r := prompt 6#6 w6 ++ r) (h.setSeq .negWidth) (.inl rfl) (by decide)
    (rcaArg (setSeq .negWidth b)) hw55
  obtain ⟨b2, f2, hissue, h2⟩ := Negotiating.status (r := r) h1 (.inl rfl) (by decide) 2#32 hw6
  rw [(h.setSeq .negWidth).rcaArg_eq] at h2
  have happ : issueApp 6#6 2#32 .r1 (setSeq .negWidth b) = (b2, .ok f2) := by rw [issueApp, hprefix, andThen_ok, hissue]
  refine ⟨{ bcConfig b2.cfg.transferClkdiv 4#3 b2 with neg := { b2.neg with busWidth := 4#3 } }, ?_, ?_⟩
  · rw [tailWidth, negWidth_of_ok (by rw [h.desc]; exact hct) happ, andThen_ok]
  · rw [h2.cfg, h2.neg]
    exact { h2 with div := hdiv.symm, width := rfl, neg := rfl }

/-- A bus-width step whose prefix or ACMD6 fails: it is logged, and the next step follows (42_negotiation R308). -/
theorem tailWidth_fails {upgrade : List (List Ev)} {e : TransferError} (hct : v.desc.cardType ≠ .mmc)
    (hfail : (∃ a rc w, upgrade = promptly a rc w 0#32 0#32 0#32 ∧ AnswerFails .r1 55#6 a rc w e) ∨
      ∃ w55b a rc w, upgrade = prompt 55#6 w55b ++ promptly a rc w 0#32 0#32 0#32 ∧ w55b &&& 0xFDFFE008#32 = 0#32 ∧
        AnswerFails .r1 6#6 a rc w e)
    (h : Negotiating s v (upgrade ++ r) b) :
    ∃ t cs ms, tailWidth b = tailBlklen t ∧
      Negotiating s
        { v with seq := .negWidth, app := false, log := v.log ++ [.widthUpgradeFailed e.code], sent := cs, ms := ms } r t := by
  have hissue : ∃ t cs ms, issueApp 6#6 2#32 .r1 (setSeq .negWidth b) = (t, .err e) ∧
      Negotiating s { v with seq := .negWidth, app := false, sent := cs, ms := ms } r t := by
    rcases hfail with ⟨a, rc, w, rfl, hf⟩ | ⟨w55b, a, rc, w, rfl, hw55b, hf⟩
    · obtain ⟨t, hprefix, hnext⟩ := (h.setSeq .negWidth).fails (by decide) (fun _ => rfl) (rcaArg (setSeq .negWidth b))
        (.inl ⟨a, rc, w, rfl, hf⟩)
      exact ⟨t, _, _, by rw [issueApp, hprefix, andThen_err], hnext⟩
    · rw [List.append_assoc] at h
      obtain ⟨b1, f1, hprefix, h1⟩ := Negotiating.status (r := promptly a rc w 0#32 0#32 0#32 ++ r) (h.setSeq .negWidth) (.inl rfl) (by decide)
        (rcaArg (setSeq .negWidth b)) hw55b
      obtain ⟨t, hsend, hnext⟩ := h1.fails (by decide) (by decide) 2#32 (.inl ⟨a, rc, w, rfl, hf⟩)
      exact ⟨t, _, _, by rw [issueApp, hprefix, andThen_ok, hsend], hnext⟩
  obtain ⟨t, cs, ms, happ, hnext⟩ := hissue
  refine ⟨{ t with log := t.log ++ [.widthUpgradeFailed e.code] }, cs, ms, ?_, ?_⟩
  · rw [tailWidth, negWidth_of_err (by rw [h.desc]; exact hct) happ, andThen_ok]
  · rw [hnext.log]
    exact { hnext with log := rfl }

/-! ## The block length, and publication -/

/-- The view of a published descriptor (42_negotiation R309, R311). -/
def View.published (v : View) : View :=
  { { v with seq := .negBlklen }.issue 16#6 512#32 .r1 false with desc := { v.desc with valid := true } }

theorem tailBlklen_eq (u : State) : tailBlklen u = andThen (issueCmd 16#6 512#32 .r1 (setSeq .negBlklen u)) fun _ s => publish s :=
  andThen_skip _ publish

theorem tailBlklen_answered {w : Word} (hw : w &&& 0xFDFFE008#32 = 0#32) (h : Negotiating s v (prompt 16#6 w ++ r) b) :
    ∃ t, tailBlklen b = (t, .ok 0#32) ∧ Negotiating s v.published r t := by
  obtain ⟨t, f, hissue, hnext⟩ := (h.setSeq .negBlklen).status (.inl rfl) (by decide) 512#32 hw
  refine ⟨{ t with desc := { t.desc with valid := true } }, ?_, ?_⟩
  · rw [tailBlklen_eq, hissue, andThen_ok, publish]
  · rw [hnext.desc]
    exact hnext.setDesc _

end

/-! ## A card that answers at once -/

/-- The view once the card is selected. -/
def viewSelected (x : NegAnswers) (c : Csd) (n : Word) (ms : Nat) (s : State) : View :=
  (((((viewAfterVoltage s x.mmc x.v2 (x.busy.length + 1) x.ocr ms).named x.cid).addressed (x.w3.extractLsb' 16 16)).parsed x.csd c
    n).selected s.cfg.transferClkdiv)

/-- A card's answers up to its selection. -/
theorem negotiate_selected {x : NegAnswers} {rc8 rc : BitVec 6} {w8 : Word} {c : Csd} {n : Word} {r : List (List Ev)} {s : State}
    (happ : s.app = false) (hp : s.inp.cardPresent = true) (hx : NegOk x s) (hc : parseCsd x.csd x.cardType = .ok c)
    (hn : capacity c x.cardType = .ok n)
    (hs : s.inp.sched =
      [] :: (promptly x.a0 0#6 0#32 0#32 0#32 0#32 ++ (promptly x.a8 rc8 w8 0#32 0#32 0#32 ++ (legacyBatches x.mmc ++
        (busyBatches x.mmc x.busy ++ (prefixBatches x.mmc x.w55 ++ (promptly x.aOcr rc x.ocr 0#32 0#32 0#32 ++
          (promptLong x.cid ++ (prompt 3#6 x.w3 ++ (promptLong x.csd ++ (prompt 7#6 x.w7 ++ r))))))))))) :
    ∃ b ms, negotiate (beginOp s) = tailWidth b ∧ Negotiating s (viewSelected x c n ms s) r b := by
  obtain ⟨b0, hprobe, h0⟩ := negotiate_probed happ hp hs
  have hlegacy : x.mmc = true → x.v2 = false := fun h => bne_eq_false_iff_eq.2 (hx.legacy h)
  obtain ⟨b1, ms, hvolt, h1⟩ := tailVoltage_ready hlegacy hx.busy hx.inTime (hx.words _ (by simp)) hx.arrives hx.ready hx.mode h0
  obtain ⟨b2, hcid, h2⟩ := tailCid_answered h1
  obtain ⟨b3, hrca, h3⟩ := tailRca_answered hx.rca h2
  obtain ⟨b4, hfetch, h4⟩ := tailFetch_parsed hx.csd hc hn h3
  obtain ⟨b5, hselect, h5⟩ := tailSelect_answered (hx.words _ (by simp)) rfl h4
  exact ⟨b5, ms, by rw [hprobe, hvolt, hcid, hrca, hfetch, hselect], h5⟩

/-- The commands of identification, register fetch and selection. -/
def identSent (rca : BitVec 16) : List Sent :=
  [{ seq := .negIdent, app := false, idx := 2#6, arg := 0#32, kind := .r2 },
    { seq := .negIdent, app := false, idx := 3#6, arg := 0#32, kind := .r6 },
    { seq := .negRegfetch, app := false, idx := 9#6, arg := rca ++ 0#16, kind := .r2 },
    { seq := .negSelect, app := false, idx := 7#6, arg := rca ++ 0#16, kind := .r1b }]

theorem viewSelected_sent (x : NegAnswers) (c : Csd) (n : Word) (ms : Nat) (s : State) :
    (viewSelected x c n ms s).sent =
      (viewAtVoltage s x.mmc x.v2).sent ++ ((List.replicate (x.busy.length + 1) (attemptSent s x.mmc x.v2)).flatten ++
        identSent (x.w3.extractLsb' 16 16)) := by
  show (((((_ ++ _) ++ [_]) ++ [_]) ++ [_]) ++ [_] : List Sent) = _
  simp only [List.append_assoc]
  rfl

/-- The type of a card by its answers is what the voltage step makes of them (42_negotiation R303). -/
theorem cardType_eq (x : NegAnswers) : x.cardType = cardTypeOf x.mmc x.ocr x.v2 := rfl

theorem cardType_sd {x : NegAnswers} (hmmc : x.mmc = false) : x.cardType ≠ .mmc := fun h => by
  rw [cardType_eq, cardTypeOf_mmc, hmmc] at h
  cases h

/-- Settles O39: the steps one after the other, the bus-width step included. -/
theorem initializeSd : Obligations.InitializeSd := by
  intro a0 a8 aOcr busy w8 w55 ocr w3 w7 w55b w6 w16 csdReg cidReg c n r s hidle hp happ harrives hs hbusy ht hwords hrca hready hcsd hmode
    v2 ct hc hn rca sent attempt
  let x : NegAnswers :=
    { mmc := false, a0 := a0, a8 := a8, w8 := w8, busy := busy, w55 := w55, aOcr := aOcr, ocr := ocr, cid := cidReg, w3 := w3, csd := csdReg,
      w7 := w7, w55b := w55b, w6 := w6, w16 := w16 }
  have hx : NegOk x s := ⟨nofun, harrives, hbusy, ht, hwords, hrca, hready, hcsd, fun _ => hmode⟩
  obtain ⟨b0, ms, hselected, h0⟩ := negotiate_selected (x := x) (r := prompt 55#6 w55b ++ (prompt 6#6 w6 ++ (prompt 16#6 w16 ++ r)))
    happ hp hx hc hn (by rw [hs]; simp only [List.append_assoc]; rfl)
  obtain ⟨b1, hwidth, h1⟩ := tailWidth_answered (cardType_sd (x := x) rfl) rfl (hwords _ (by simp)) (hwords _ (by simp)) h0
  obtain ⟨b2, hblklen, h2⟩ := tailBlklen_answered (hwords _ (by simp)) h1
  obtain ⟨t, hexec, hend⟩ := h2.ends hidle happ (hselected.trans (hwidth.trans hblklen))
  refine ⟨t, hexec, hend.result, hend.value, hend.free, hend.idle, hend.desc, hend.neg, hend.div, hend.width, hend.log, hend.sched, ?_⟩
  rw [hend.wire]
  show s.wire ++ ((((viewSelected x c n ms s).sent ++ [_]) ++ [_]) ++ [_]) = _
  rw [viewSelected_sent]
  simp only [List.append_assoc]
  rfl

/-- Settles O40: the steps one after the other, without the bus-width step. -/
theorem initializeMmc : Obligations.InitializeMmc := by
  intro a0 aOcr busy ocr w3 w7 w16 csdReg cidReg c n r s hidle hp happ harrives hs hbusy ht hwords hrca hready hcsd hc hn rca sent
  let x : NegAnswers :=
    { mmc := true, a0 := a0, a8 := .noResponse, w8 := 0#32, busy := busy.map fun w => (0#32, w), w55 := 0#32, aOcr := aOcr, ocr := ocr,
      cid := cidReg, w3 := w3, csd := csdReg, w7 := w7, w55b := 0#32, w6 := 0#32, w16 := w16 }
  have hlen : x.busy.length = busy.length := List.length_map ..
  have hw7 := hwords w7 (by simp)
  have hw16 := hwords w16 (by simp)
  have hx : NegOk x s :=
    { legacy := fun _ => rfl
      arrives := harrives
      busy := fun y hy => by
        obtain ⟨w, hw, rfl⟩ := List.mem_map.1 hy
        exact ⟨BitVec.zero_and, hbusy w hw⟩
      inTime := by rw [hlen]; exact ht
      words := by simp [x, hw7, hw16]
      rca := hrca
      ready := hready
      csd := hcsd
      mode := nofun }
  obtain ⟨b0, ms, hselected, h0⟩ := negotiate_selected (x := x) (r := prompt 16#6 w16 ++ r) happ hp hx hc hn
    (by rw [hs]; simp only [List.append_assoc, busyBatches, x, List.flatMap_map]; rfl)
  obtain ⟨b1, hwidth, h1⟩ := tailWidth_mmc rfl h0
  obtain ⟨b2, hblklen, h2⟩ := tailBlklen_answered hw16 h1
  obtain ⟨t, hexec, hend⟩ := h2.ends hidle happ (hselected.trans (hwidth.trans hblklen))
  refine ⟨t, hexec, hend.result, hend.value, hend.free, hend.idle, hend.desc, hend.neg, hend.log, hend.sched, ?_⟩
  rw [hend.wire]
  show s.wire ++ ((viewSelected x c n ms s).sent ++ [_]) = _
  rw [viewSelected_sent, hlen]
  simp only [List.append_assoc]
  show _ ++ (_ ++ ((List.replicate (busy.length + 1) [_]).flatten ++ _)) = _
  rw [List.flatten_replicate_singleton]
  rfl

/-- Settles O41: the busy attempts, then the look that finds the deadline past. -/
theorem voltageDeadline : Obligations.VoltageDeadline := by
  refine ⟨?sd, ?mmc⟩
  case sd =>
    intro a0 a8 busy last w8 d r s hidle hp happ hs hbusy ht hlate v2 sent attempt
    obtain ⟨hw55, hocr⟩ := hbusy last List.mem_cons_self
    obtain ⟨b0, hprobe, h0⟩ := negotiate_probed (a0 := a0) (a8 := a8) (rc := 8#6) (w := w8)
      (r := busyBatches false busy ++ (prompt 55#6 last.1 ++ (prompt 63#6 last.2 ++ ([.tick d] :: r)))) happ hp
      (by rw [hs]; simp only [List.append_assoc]; rfl)
    obtain ⟨b1, ms, hvolt, h1⟩ := tailVoltage_late (mmc := false) nofun (fun y hy => hbusy y (List.mem_cons_of_mem _ hy)) ht hw55 hocr hlate h0
    obtain ⟨t, hexec, hend⟩ := h1.ends hidle happ (hprobe.trans hvolt)
    exact ⟨t, hexec, hend.result, hend.value, hend.free, hend.idle, hend.desc, congrArg Negotiation.ocr hend.neg,
      congrArg Negotiation.sdv2 hend.neg, hend.log, hend.sched, hend.wire⟩
  case mmc =>
    intro a0 busy last d r s hidle hp happ hs hbusy ht hlate sent
    have hlen : (busy.map fun w => ((0#32, w) : Word × Word)).length = busy.length := List.length_map ..
    obtain ⟨b0, hprobe, h0⟩ := negotiate_probed (a0 := a0) (a8 := .noResponse) (rc := 0#6) (w := 0#32)
      (r := legacyBatches true ++ (busyBatches true (busy.map fun w => (0#32, w)) ++ (prompt 63#6 last ++ ([.tick d] :: r)))) happ hp
      (by rw [hs]; simp only [List.append_assoc, busyBatches, List.flatMap_map]; rfl)
    obtain ⟨b1, ms, hvolt, h1⟩ := tailVoltage_late (mmc := true) (w55 := 0#32) (fun _ => rfl)
      (fun y hy => by
        obtain ⟨w, hw, rfl⟩ := List.mem_map.1 hy
        exact ⟨BitVec.zero_and, hbusy w (List.mem_cons_of_mem _ hw)⟩)
      (by rw [hlen]; exact ht) rfl (hbusy last List.mem_cons_self) (by rw [hlen]; exact hlate) h0
    obtain ⟨t, hexec, hend⟩ := h1.ends hidle happ (hprobe.trans hvolt)
    refine ⟨t, hexec, hend.result, hend.value, hend.free, hend.idle, hend.desc, congrArg Negotiation.ocr hend.neg,
      congrArg Negotiation.sdv2 hend.neg, hend.log, hend.sched, hend.wire.trans ?_⟩
    show s.wire ++ (_ ++ (List.replicate ((busy.map _).length + 1) [_]).flatten) = _
    rw [List.flatten_replicate_singleton, hlen]
    rfl

/-- A command behind its prefix leaves descriptor, working registers, log, clock and width (41_command_issuer R241, R243). -/
theorem issueApp_keeps (idx : BitVec 6) (arg : Word) (kind : Kind) (s : State) :
    (issueApp idx arg kind s).1.desc = s.desc ∧ (issueApp idx arg kind s).1.neg = s.neg ∧ (issueApp idx arg kind s).1.log = s.log ∧
      (issueApp idx arg kind s).1.bc.div = s.bc.div ∧ (issueApp idx arg kind s).1.bc.width = s.bc.width := by
  have h := issueCmd_issued 55#6 (rcaArg s) .r1 s
  cases hp : (issueCmd 55#6 (rcaArg s) .r1 s).2 with
  | err e =>
    rw [issueApp_of_err hp]
    exact ⟨h.desc, h.neg, h.log, h.div, h.width⟩
  | ok f =>
    have h2 := issueCmd_issued idx arg kind (issueCmd 55#6 (rcaArg s) .r1 s).1
    rw [issueApp_of_ok hp]
    exact ⟨h2.desc.trans h.desc, h2.neg.trans h.neg, h2.log.trans h.log, h2.div.trans h.div, h2.width.trans h.width⟩

/-- Settles O42: the failure is logged, and the steps go on. -/
theorem widthFailureLogged : Obligations.WidthFailureLogged := by
  refine ⟨?step, ?whole⟩
  case step =>
    intro s e hct herr
    have hissue : issueApp 6#6 2#32 .r1 (setSeq .negWidth s) = ((issueApp 6#6 2#32 .r1 (setSeq .negWidth s)).1, .err e) := Prod.ext rfl herr
    obtain ⟨hdesc, hneg, hlog, hdiv, hwidth⟩ := issueApp_keeps 6#6 2#32 .r1 (setSeq .negWidth s)
    show (negWidth s).2 = .ok () ∧ _
    rw [negWidth_of_err hct hissue]
    exact ⟨rfl, congrArg (· ++ _) hlog, hneg, hwidth, hdiv, hdesc⟩
  case whole =>
    intro a0 a8 aOcr w8 w55 ocr w3 w7 w16 csdReg cidReg c n upgrade e r s hidle hp happ harrives hs hfail hwords hrca hready hcsd hmode
      v2 ct hc hn
    let x : NegAnswers :=
      { mmc := false, a0 := a0, a8 := a8, w8 := w8, busy := [], w55 := w55, aOcr := aOcr, ocr := ocr, cid := cidReg, w3 := w3, csd := csdReg,
        w7 := w7, w55b := 0#32, w6 := 0#32, w16 := w16 }
    have hw55 := hwords w55 (by simp)
    have hw7 := hwords w7 (by simp)
    have hw16 := hwords w16 (by simp)
    have hx : NegOk x s :=
      ⟨nofun, harrives, nofun, by simp [x], by simp [x, hw55, hw7, hw16], hrca, hready, hcsd, fun _ => hmode⟩
    obtain ⟨b0, ms, hselected, h0⟩ := negotiate_selected (x := x) (r := upgrade ++ (prompt 16#6 w16 ++ r)) happ hp hx hc hn
      (by rw [hs]; simp only [List.append_assoc]; rfl)
    obtain ⟨b1, cs, ms', hwidth, h1⟩ := tailWidth_fails (cardType_sd (x := x) rfl) hfail h0
    obtain ⟨b2, hblklen, h2⟩ := tailBlklen_answered hw16 h1
    obtain ⟨t, hexec, hend⟩ := h2.ends hidle happ (hselected.trans (hwidth.trans hblklen))
    exact ⟨t, hexec, hend.result, hend.free, hend.idle, hend.desc, hend.neg, hend.width, hend.log, hend.sched⟩

end Sys2Proof.Machine
end

section
/-! PROOFS. A command that fails ends its operation (44_block_transfer R410-R413, R424, R430, R431; 45_status_poller R470; 42_negotiation
R303, R306, R313), INITIALIZE command by command along its script. -/

namespace Sys2Proof.Machine

open Sys2Proof.Safety

/-! ## What ends a negotiation -/

/-- What ends a negotiation at its command number `n`, of these batches where it is answered: batches that fail it, or a CSD that
cannot be used. -/
inductive Ends (x : NegAnswers) (n : Nat) (c : Sent) (bt fails r : List (List Ev)) (e : TransferError) : Prop where
  | command (probe : c.seq ≠ .negProbe) (width : c.seq ≠ .negWidth)
      (parses : c.seq = .negSelect ∨ c.seq = .negBlklen → ∃ d k, parseCsd x.csd x.cardType = .ok d ∧ capacity d x.cardType = .ok k)
      (legacy : n = 2 → x.v2 = true ∨ e ≠ .cmdResponseTimeout) (fails : CommandFails c.kind c.idx fails r e)
  | registers (fetch : c.seq = .negRegfetch) (answered : fails = bt)
      (unusable : parseCsd x.csd x.cardType = .err e ∨ ∃ d, parseCsd x.csd x.cardType = .ok d ∧ capacity d x.cardType = .err e)

/-- A command that only fails by its own answer. -/
theorem Ends.fails {x : NegAnswers} {n : Nat} {c : Sent} {bt fails r : List (List Ev)} {e : TransferError} (h : Ends x n c bt fails r e)
    (hseq : c.seq ≠ .negRegfetch) : CommandFails c.kind c.idx fails r e := by
  cases h with
  | command _ _ _ _ hf => exact hf
  | registers hfetch => exact absurd hfetch hseq

/-- Negotiation has ended at `t` with this error, behind these commands, with nothing published and nothing logged. -/
def Stopped (s : State) (v : View) (cs : List Sent) (r : List (List Ev)) (e : TransferError) (y : State × Res Word) : Prop :=
  ∃ t v', y = (t, .err e) ∧ Negotiating s v' r t ∧ v'.sent = v.sent ++ cs ∧ v'.desc.valid = v.desc.valid ∧ v'.log = v.log

/-- From this view on, what is left of negotiation ends with each of the commands of the script that fails, those before it
answered. -/
def Aborts (x : NegAnswers) (s : State) (v : View) (k : State → State × Res Word) (script : List (Sent × List (List Ev))) : Prop :=
  ∀ pre c bt post fails r e b, script = pre ++ (c, bt) :: post → Ends x (v.sent.length + pre.length) c bt fails r e →
    Negotiating s v (pre.flatMap (·.2) ++ (fails ++ r)) b → Stopped s v (pre.map (·.1) ++ [c]) r e (k b)

section
variable {x : NegAnswers} {s : State} {v v' : View} {k k' : State → State × Res Word} {c : Sent} {bt : List (List Ev)}
  {rest : List (Sent × List (List Ev))}

/-- The first command of the script fails, or is answered, and what follows then aborts with the rest. -/
theorem Aborts.cons_of
    (hhead : ∀ fails r e b, Ends x v.sent.length c bt fails r e → Negotiating s v (fails ++ r) b → Stopped s v [c] r e (k b))
    (hstep : ∀ r b, Negotiating s v (bt ++ r) b → ∃ k' t, k b = k' t ∧ Negotiating s v' r t ∧ Aborts x s v' k' rest)
    (hsent : v'.sent = v.sent ++ [c]) (hvalid : v'.desc.valid = v.desc.valid) (hlog : v'.log = v.log) :
    Aborts x s v k ((c, bt) :: rest) := by
  intro pre c' bt' post fails r e b hscript hends h
  cases pre with
  | nil =>
    cases hscript
    exact hhead fails r e b hends h
  | cons y pre =>
    cases hscript
    rw [List.flatMap_cons, List.append_assoc] at h
    obtain ⟨k', t, hk, ht, hrest⟩ := hstep _ b h
    rw [List.length_cons] at hends
    have hn : v'.sent.length + pre.length = v.sent.length + (pre.length + 1) := by
      rw [hsent, List.length_append, List.length_singleton]
      omega
    obtain ⟨u, w, heq, hu, hwsent, hwvalid, hwlog⟩ := hrest pre c' bt' post fails r e t rfl (hn ▸ hends) ht
    refine ⟨u, w, hk.trans heq, hu, ?_, hwvalid.trans hvalid, hwlog.trans hlog⟩
    rw [hwsent, hsent, List.append_assoc]
    rfl

/-- The first command of the script fails, or is answered, and the rest follows. -/
theorem Aborts.cons
    (hhead : ∀ fails r e b, Ends x v.sent.length c bt fails r e → Negotiating s v (fails ++ r) b → Stopped s v [c] r e (k b))
    (hstep : ∀ r b, Negotiating s v (bt ++ r) b → ∃ t, k b = k' t ∧ Negotiating s v' r t) (hsent : v'.sent = v.sent ++ [c])
    (hvalid : v'.desc.valid = v.desc.valid) (hlog : v'.log = v.log) (hrest : Aborts x s v' k' rest) : Aborts x s v k ((c, bt) :: rest) :=
  Aborts.cons_of hhead (fun r b h => (hstep r b h).elim fun t ht => ⟨k', t, ht.1, ht.2, hrest⟩) hsent hvalid hlog

/-- Nothing behind the first command of the script ends it. -/
theorem Aborts.last
    (hhead : ∀ fails r e b, Ends x v.sent.length c bt fails r e → Negotiating s v (fails ++ r) b → Stopped s v [c] r e (k b))
    (hrest : ∀ y ∈ rest, ∀ n fails r e, ¬ Ends x n y.1 y.2 fails r e) : Aborts x s v k ((c, bt) :: rest) := by
  intro pre c' bt' post fails r e b hscript hends h
  cases pre with
  | nil =>
    cases hscript
    exact hhead fails r e b hends h
  | cons y pre =>
    cases hscript
    exact absurd hends (hrest (c', bt') (by simp) _ _ _ _)

/-- What is left of negotiation may begin with writes to cells. -/
theorem Aborts.of_eq {script : List (Sent × List (List Ev))} (hsent : v'.sent = v.sent) (hvalid : v'.desc.valid = v.desc.valid)
    (hlog : v'.log = v.log)
    (h : ∀ r b, Negotiating s v r b → ∃ k' t, k b = k' t ∧ Negotiating s v' r t ∧ Aborts x s v' k' script) : Aborts x s v k script := by
  intro pre c bt post fails r e b hscript hends hb
  obtain ⟨k', t, hk, ht, ha⟩ := h _ b hb
  obtain ⟨u, w, heq, hu, hwsent, hwvalid, hwlog⟩ := ha pre c bt post fails r e t hscript (hsent ▸ hends) ht
  exact ⟨u, w, hk.trans heq, hu, hsent ▸ hwsent, hwvalid.trans hvalid, hwlog.trans hlog⟩

/-- Commands that never end it, answered together. -/
theorem Aborts.skip {skipped : List (Sent × List (List Ev))} (hskip : ∀ y ∈ skipped, ∀ n fails r e, ¬ Ends x n y.1 y.2 fails r e)
    (hstep : ∀ r b, Negotiating s v (skipped.flatMap (·.2) ++ r) b → ∃ t, k b = k' t ∧ Negotiating s v' r t)
    (hsent : v'.sent = v.sent ++ skipped.map (·.1)) (hvalid : v'.desc.valid = v.desc.valid) (hlog : v'.log = v.log)
    (hrest : Aborts x s v' k' rest) : Aborts x s v k (skipped ++ rest) := by
  intro pre c' bt' post fails r e b hscript hends h
  have hbehind : ∃ pre', pre = skipped ++ pre' ∧ rest = pre' ++ (c', bt') :: post := by
    rcases List.append_eq_append_iff.1 hscript with hbehind | ⟨ys, hys, hpost⟩
    · exact hbehind
    · cases ys with
      | nil => exact ⟨[], by rw [hys, List.append_nil, List.append_nil], hpost.symm⟩
      | cons y ys =>
        cases hpost
        exact absurd hends (hskip (c', bt') (by rw [hys]; simp) _ _ _ _)
  obtain ⟨pre', rfl, hrest'⟩ := hbehind
  rw [List.flatMap_append, List.append_assoc] at h
  obtain ⟨t, hk, ht⟩ := hstep _ b h
  have hn : v'.sent.length + pre'.length = v.sent.length + (skipped ++ pre').length := by
    rw [hsent, List.length_append, List.length_append, List.length_map]
    omega
  obtain ⟨u, w, heq, hu, hwsent, hwvalid, hwlog⟩ := hrest pre' c' bt' post fails r e t hrest' (hn ▸ hends) ht
  refine ⟨u, w, hk.trans heq, hu, ?_, hwvalid.trans hvalid, hwlog.trans hlog⟩
  rw [hwsent, hsent, List.map_append, List.append_assoc, List.append_assoc]

/-- A command of negotiation that fails ends it, where the rest waits for its answer. -/
theorem stopped_of_fails {idx : BitVec 6} {arg : Word} {kind : Kind} {K : Fields → State → State × Res Word} {y : State × Res Word}
    {fails r : List (List Ev)} {e : TransferError} {b : State} (h : Negotiating s v (fails ++ r) b)
    (hk : y = andThen (issueCmd idx arg kind b) K) (h9 : idx = 9#6 → kind = .r2) (h55 : idx = 55#6 → kind = .r1)
    (hf : CommandFails kind idx fails r e) :
    Stopped s v [{ seq := v.seq, app := v.app, idx := idx, arg := arg, kind := kind }] r e y := by
  obtain ⟨t, hissue, hnext⟩ := h.fails h9 h55 arg hf
  exact ⟨t, _, by rw [hk, hissue, andThen_err], hnext, rfl, rfl, rfl⟩

end

/-! ## The steps behind the voltage step -/

/-- The end of the script: the bus-width step of an SD card, which ends nothing, and the block length. -/
def widthScript (x : NegAnswers) (rca : BitVec 16) : List (Sent × List (List Ev)) :=
  if x.mmc then []
  else
    [({ seq := .negWidth, app := false, idx := 55#6, arg := rca ++ 0#16, kind := .r1 }, prompt 55#6 x.w55b),
      ({ seq := .negWidth, app := true, idx := 6#6, arg := 2#32, kind := .r1 }, prompt 6#6 x.w6)]

def blklenScript (x : NegAnswers) : List (Sent × List (List Ev)) :=
  [({ seq := .negBlklen, app := false, idx := 16#6, arg := 512#32, kind := .r1 }, prompt 16#6 x.w16)]

def selectScript (x : NegAnswers) (rca : BitVec 16) : List (Sent × List (List Ev)) :=
  ({ seq := .negSelect, app := false, idx := 7#6, arg := rca ++ 0#16, kind := .r1b }, prompt 7#6 x.w7) ::
    (widthScript x rca ++ blklenScript x)

/-- The command of the register fetch. -/
def fetchSent (rca : BitVec 16) : Sent := { seq := .negRegfetch, app := false, idx := 9#6, arg := rca ++ 0#16, kind := .r2 }

def fetchScript (x : NegAnswers) (rca : BitVec 16) : List (Sent × List (List Ev)) :=
  (fetchSent rca, promptLong x.csd) :: selectScript x rca

def identScript (x : NegAnswers) : List (Sent × List (List Ev)) :=
  ({ seq := .negIdent, app := false, idx := 2#6, arg := 0#32, kind := .r2 }, promptLong x.cid) ::
    ({ seq := .negIdent, app := false, idx := 3#6, arg := 0#32, kind := .r6 }, prompt 3#6 x.w3) ::
      fetchScript x (x.w3.extractLsb' 16 16)

/-- The bus-width step ends nothing (42_negotiation R308). -/
theorem widthScript_ends {x : NegAnswers} {rca : BitVec 16} {y : Sent × List (List Ev)} (hy : y ∈ widthScript x rca) (n : Nat)
    (fails r : List (List Ev)) (e : TransferError) : ¬ Ends x n y.1 y.2 fails r e := by
  have hseq : y.1.seq = .negWidth := by
    unfold widthScript at hy
    split at hy
    · cases hy
    · simp only [List.mem_cons, List.not_mem_nil, or_false] at hy
      rcases hy with rfl | rfl <;> rfl
  rintro (⟨-, hwidth, -⟩ | ⟨hfetch, -⟩)
  · exact hwidth hseq
  · rw [hseq] at hfetch
    cases hfetch

section
variable {x : NegAnswers} {s : State} {v : View}

theorem aborts_tailBlklen (happ : v.app = false) : Aborts x s v tailBlklen (blklenScript x) := by
  refine Aborts.last (fun fails r e b hends h => ?_) nofun
  have hstop := stopped_of_fails (h.setSeq .negBlklen) (tailBlklen_eq b) (by decide) (by decide) (hends.fails (by exact nofun))
  rw [happ] at hstop
  exact hstop

theorem fetched_sent (happ : v.app = false) (csd : Reg128) : (v.fetched csd).sent = v.sent ++ [fetchSent v.desc.rca] := by
  unfold fetchSent
  rw [← happ]
  rfl

/-- Once the CSD cannot be used nothing behind it is reached. -/
theorem selectScript_ends (hno : ¬ ∃ d n, parseCsd x.csd x.cardType = .ok d ∧ capacity d x.cardType = .ok n) {rca : BitVec 16}
    {y : Sent × List (List Ev)} (hy : y ∈ selectScript x rca) (n : Nat) (fails r : List (List Ev)) (e : TransferError) :
    ¬ Ends x n y.1 y.2 fails r e := by
  unfold selectScript blklenScript at hy
  simp only [List.mem_cons, List.mem_append, List.not_mem_nil, or_false] at hy
  rcases hy with rfl | hy | rfl
  · rintro (⟨-, -, hparses, -⟩ | ⟨hfetch, -⟩)
    · exact hno (hparses (.inl rfl))
    · cases hfetch
  · exact widthScript_ends hy n fails r e
  · rintro (⟨-, -, hparses, -⟩ | ⟨hfetch, -⟩)
    · exact hno (hparses (.inr rfl))
    · cases hfetch

variable (hx : NegOk x s)

include hx

theorem aborts_tailWidth (happ : v.app = false) (hct : v.desc.cardType = x.cardType) (hdiv : v.neg.clkdiv = s.cfg.transferClkdiv) :
    Aborts x s v tailWidth (widthScript x v.desc.rca ++ blklenScript x) := by
  cases hmmc : x.mmc with
  | true =>
    have hscript : widthScript x v.desc.rca = [] := if_pos hmmc
    refine Aborts.skip (v' := { v with seq := .negWidth }) (fun y hy => widthScript_ends hy) (fun r b h => ?_) ?_ rfl rfl
      (aborts_tailBlklen (by exact happ))
    · rw [hscript] at h
      exact tailWidth_mmc (by rw [hct, cardType_eq, cardTypeOf_mmc]; exact hmmc) h
    · rw [hscript]
      exact (List.append_nil _).symm
  | false =>
    have hscript : widthScript x v.desc.rca = _ := if_neg (by rw [hmmc]; decide)
    refine Aborts.skip (v' := v.widened) (fun y hy => widthScript_ends hy) (fun r b h => ?_) ?_ rfl rfl (aborts_tailBlklen rfl)
    · rw [hscript] at h
      exact tailWidth_answered (by rw [hct]; exact cardType_sd hmmc) hdiv (hx.words _ (by simp)) (hx.words _ (by simp)) h
    · rw [hscript]
      unfold View.widened View.issue
      rw [happ]
      exact List.append_assoc ..

theorem aborts_tailSelect (happ : v.app = false) (hct : v.desc.cardType = x.cardType) (hwidth : v.neg.busWidth = 1#3) :
    Aborts x s v tailSelect (selectScript x v.desc.rca) := by
  refine Aborts.cons (v' := v.selected s.cfg.transferClkdiv) (fun fails r e b hends h => ?_)
    (fun r b h => tailSelect_answered (hx.words _ (by simp)) hwidth h) ?_ rfl rfl (aborts_tailWidth hx rfl hct rfl)
  · have hstop := stopped_of_fails (y := tailSelect b) (idx := 7#6) (kind := .r1b) (h.setSeq .negSelect)
      (by rw [tailSelect, negSelect, andThen_assoc]) (by decide) (by decide) (hends.fails (by exact nofun))
    rw [happ, h.rcaArg_eq] at hstop
    exact hstop
  · unfold View.selected View.issue
    rw [happ]

theorem aborts_tailFetch (happ : v.app = false) (hct : v.desc.cardType = x.cardType) (hwidth : v.neg.busWidth = 1#3) :
    Aborts x s v tailFetch (fetchScript x v.desc.rca) := by
  have hhead : ∀ fails r e b, Ends x v.sent.length (fetchSent v.desc.rca) (promptLong x.csd) fails r e →
      Negotiating s v (fails ++ r) b → Stopped s v [fetchSent v.desc.rca] r e (tailFetch b) := by
    intro fails r e b hends h
    cases hends with
    | command _ _ _ _ hf =>
      have hstop := stopped_of_fails (y := tailFetch b) (idx := 9#6) (kind := .r2) (h.setSeq .negRegfetch)
        (by rw [tailFetch, negRegfetch, andThen_assoc]) (fun _ => rfl) (by decide) hf
      rw [happ, h.rcaArg_eq] at hstop
      exact hstop
    | registers _ hbt hunusable =>
      rw [hbt] at h
      obtain ⟨t, hfetch, ht⟩ := tailFetch_answered hx.csd h
      have htype : t.desc.cardType = x.cardType := by rw [ht.desc]; exact hct
      have hraw : t.desc.csdRaw = x.csd := by rw [ht.desc]; rfl
      obtain ⟨d, hparse, hvalid⟩ := negParse_err (u := t) (e := e) (by rw [htype, hraw]; exact hunusable)
      refine ⟨{ t with desc := d }, _, by rw [hfetch, hparse, andThen_err], ht.setDesc d, fetched_sent happ x.csd, ?_, rfl⟩
      rw [hvalid, ht.desc]
      rfl
  by_cases hparse : ∃ d n, parseCsd x.csd x.cardType = .ok d ∧ capacity d x.cardType = .ok n
  · obtain ⟨c, n, hc, hn⟩ := hparse
    exact Aborts.cons (v' := v.parsed x.csd c n) hhead
      (fun r b h => tailFetch_parsed hx.csd (by rw [hct]; exact hc) (by rw [hct]; exact hn) h) (fetched_sent happ x.csd) rfl rfl
      (aborts_tailSelect hx rfl hct hwidth)
  · exact Aborts.last hhead fun y hy => selectScript_ends hparse hy

theorem aborts_tailCid (happ : v.app = false) (hct : v.desc.cardType = x.cardType) (hwidth : v.neg.busWidth = 1#3) :
    Aborts x s v tailCid (identScript x) := by
  refine Aborts.cons (v' := v.named x.cid) (k' := tailRca) (fun fails r e b hends h => ?_) (fun r b h => tailCid_answered h) ?_ rfl rfl ?_
  · have hstop := stopped_of_fails (y := tailCid b) (h.setSeq .negIdent) (by rw [tailCid, negIdentCid, andThen_assoc]) (by decide) (by decide)
      (hends.fails (by exact nofun))
    rw [happ] at hstop
    exact hstop
  · unfold View.named View.issue
    rw [happ]
  · refine Aborts.cons (v' := (v.named x.cid).addressed (x.w3.extractLsb' 16 16)) (fun fails r e b hends h => ?_)
      (fun r b h => tailRca_answered hx.rca h) rfl rfl rfl (aborts_tailFetch hx rfl hct hwidth)
    exact stopped_of_fails (y := tailRca b) h (by rw [tailRca, negIdentRca, andThen_assoc]) (by decide) (by decide) (hends.fails (by exact nofun))

end

/-! ## The voltage step -/

/-- An attempt that asks for the OCR, with the batches of its answer. -/
def attemptScript (x : NegAnswers) (s : State) (w : Word) (bt : List (List Ev)) : List (Sent × List (List Ev)) :=
  if x.mmc then [(voltAsk s true x.v2, bt)] else [(voltPrefix, prompt 55#6 w), (voltAsk s false x.v2, bt)]

/-- What follows the command that asks for the OCR. -/
def askRest (m0 : Nat) (s : State) (mmc v2 : Bool) (n : Nat) (b : State) : State × Res Word :=
  andThen (voltAnswer m0 (opCondWord s v2) n mmc (issueCmd (askIndex mmc) (askWord s mmc v2) .r3 b)) tailTyped

section
variable {x : NegAnswers} {s : State} {v : View} {rest : List (Sent × List (List Ev))} {m0 n : Nat}

/-- The command that asks for the OCR fails, or is answered. -/
theorem aborts_ask {v' : View} {bt : List (List Ev)} {k' : State → State × Res Word} (hseq : v.seq = .negVoltage) (happ : v.app = false)
    (hstep : ∀ r b, Negotiating s (v.prefixed x.mmc) (bt ++ r) b → ∃ t, askRest m0 s x.mmc x.v2 n b = k' t ∧ Negotiating s v' r t)
    (hsent : v'.sent = v.sent ++ attemptSent s x.mmc x.v2) (hvalid : v'.desc.valid = v.desc.valid) (hlog : v'.log = v.log)
    (hrest : Aborts x s v' k' rest) :
    Aborts x s (v.prefixed x.mmc) (askRest m0 s x.mmc x.v2 n) ((voltAsk s x.mmc x.v2, bt) :: rest) := by
  have hview : (v.prefixed x.mmc).seq = .negVoltage ∧ (v.prefixed x.mmc).app = (!x.mmc) ∧ (v.prefixed x.mmc).desc = v.desc ∧
      (v.prefixed x.mmc).log = v.log ∧ (v.prefixed x.mmc).sent ++ [voltAsk s x.mmc x.v2] = v.sent ++ attemptSent s x.mmc x.v2 := by
    cases x.mmc with
    | true => exact ⟨hseq, happ, rfl, rfl, rfl⟩
    | false =>
      refine ⟨hseq, rfl, rfl, rfl, ?_⟩
      show (v.sent ++ [_]) ++ [_] = _
      rw [List.append_assoc, hseq, happ]
      rfl
  obtain ⟨hpseq, hpapp, hpdesc, hplog, hpsent⟩ := hview
  refine Aborts.cons (fun fails r e b hends h => ?_) hstep (hsent.trans hpsent.symm) (by rw [hvalid, hpdesc]) (hlog.trans hplog.symm) hrest
  have hne := asks_ne (askIndex_asks x.mmc)
  have hstop := stopped_of_fails (y := askRest m0 s x.mmc x.v2 n b) (idx := askIndex x.mmc) (arg := askWord s x.mmc x.v2)
    (kind := .r3) h (by rw [askRest, voltAnswer, andThen_assoc]) (fun e => absurd e hne.1) (fun e => absurd e hne.2) (hends.fails (by exact nofun))
  rw [hpseq, hpapp] at hstop
  exact hstop

/-- A CMD55 of the voltage loop that fails ends it, but for the first one left without an answer where the probe had none. -/
theorem stopped_of_prefix {first : Bool} {bt fails r : List (List Ev)} {e : TransferError} {b : State} (hseq : v.seq = .negVoltage)
    (happ : v.app = false) (hrca : v.desc.rca = 0#16) (hv2 : v.neg.sdv2 = x.v2) (hfirst : first = true → v.sent.length = 2)
    (hends : Ends x v.sent.length voltPrefix bt fails r e) (h : Negotiating s v (fails ++ r) b) :
    Stopped s v [voltPrefix] r e (tailLoop m0 (opCondWord s x.v2) (n + 1) false first b) := by
  cases hends with
  | registers hfetch => cases hfetch
  | command _ _ _ hlegacy hf =>
    obtain ⟨t, hissue, hnext⟩ := h.fails (by decide) (fun _ => rfl) (rcaArg b) hf
    have hno : ¬ (first = true ∧ b.neg.sdv2 = false ∧ e = .cmdResponseTimeout) := by
      rintro ⟨hf1, hno2, hsilent⟩
      rw [h.neg, hv2] at hno2
      rcases hlegacy (hfirst hf1) with h2 | he
      · exact absurd (h2.symm.trans hno2) (by decide)
      · exact he hsilent
    rw [h.rcaArg_eq, hrca, zero_append_zero] at hnext
    refine ⟨t, _, by rw [tailLoop, voltLoop_of_prefix_err hissue hno, andThen_err], hnext, ?_, rfl, rfl⟩
    unfold View.issue
    rw [hseq, happ]
    rfl

/-- An attempt: its CMD55, where it has one, and then the command that asks for the OCR. -/
theorem aborts_attempt {first : Bool} {w : Word} {bt : List (List Ev)} (hseq : v.seq = .negVoltage) (happ : v.app = false)
    (hrca : v.desc.rca = 0#16) (hv2 : v.neg.sdv2 = x.v2) (hfirst : x.mmc = false → first = true → v.sent.length = 2)
    (hw : w &&& 0xFDFFE008#32 = 0#32)
    (hask : Aborts x s (v.prefixed x.mmc) (askRest m0 s x.mmc x.v2 n) ((voltAsk s x.mmc x.v2, bt) :: rest)) :
    Aborts x s v (tailLoop m0 (opCondWord s x.v2) (n + 1) x.mmc first) (attemptScript x s w bt ++ rest) := by
  have hstep (r : List (List Ev)) (b : State) (h : Negotiating s v (prefixBatches x.mmc w ++ r) b) :
      ∃ t, tailLoop m0 (opCondWord s x.v2) (n + 1) x.mmc first b = askRest m0 s x.mmc x.v2 n t ∧ Negotiating s (v.prefixed x.mmc) r t := by
    obtain ⟨t, hloop, ht⟩ := attempt_asks (m0 := m0) (n := n) (v2 := x.v2) (first := first) h hrca hw
    exact ⟨t, congrArg (andThen · tailTyped) hloop, ht⟩
  cases hmmc : x.mmc with
  | true =>
    rw [hmmc] at hstep hask
    have hscript : attemptScript x s w bt = _ := if_pos hmmc
    rw [hscript]
    refine Aborts.of_eq (v' := v.prefixed true) rfl rfl rfl fun r b h => ?_
    obtain ⟨t, hloop, ht⟩ := hstep r b h
    exact ⟨_, t, hloop, ht, hask⟩
  | false =>
    rw [hmmc] at hstep hask
    have hscript : attemptScript x s w bt = _ := if_neg (by rw [hmmc]; decide)
    rw [hscript]
    refine Aborts.cons (v' := v.prefixed false) (fun fails r e b hends h => ?_) hstep ?_ rfl rfl hask
    · exact stopped_of_prefix hseq happ hrca hv2 (hfirst hmmc) hends h
    · show v.sent ++ [_] = _
      rw [hseq, happ]
      rfl

end

/-- The attempts answered with busy OCRs, each with the look at the TIMER behind it. -/
def busyScript (x : NegAnswers) (s : State) (busy : List (Word × Word)) : List (Sent × List (List Ev)) :=
  busy.flatMap fun y => attemptScript x s y.1 (prompt 63#6 y.2 ++ [[]])

/-- The script of a whole negotiation, step by step. -/
theorem negScript_eq (x : NegAnswers) (s : State) :
    negScript x s =
      ({ seq := .negReset, app := false, idx := 0#6, arg := 0#32, kind := .rNone }, promptly x.a0 0#6 0#32 0#32 0#32 0#32) ::
        ([({ seq := .negProbe, app := false, idx := 8#6, arg := s.cfg.ifCondArg, kind := .r7 }, promptly x.a8 8#6 x.w8 0#32 0#32 0#32)] ++
          ((if x.mmc then [(voltPrefix, promptly .noResponse 0#6 0#32 0#32 0#32 0#32)] else []) ++ (busyScript x s x.busy ++
            (attemptScript x s x.w55 (promptly x.aOcr 63#6 x.ocr 0#32 0#32 0#32) ++ identScript x)))) := by
  unfold negScript
  simp only [List.append_assoc]
  rfl

/-- The view of a negotiation in its voltage step. -/
structure AtVoltage (x : NegAnswers) (v : View) : Prop where
  seq : v.seq = .negVoltage
  app : v.app = false
  rca : v.desc.rca = 0#16
  sdv2 : v.neg.sdv2 = x.v2
  width : v.neg.busWidth = 1#3

section
variable {x : NegAnswers} {s : State} {v : View} {m0 n : Nat} {first : Bool} (hx : NegOk x s)

include hx

/-- The last attempt, answered with the ready OCR. -/
theorem aborts_lastAttempt (hv : AtVoltage x v) (hfirst : x.mmc = false → first = true → v.sent.length = 2) :
    Aborts x s v (tailLoop m0 (opCondWord s x.v2) (n + 1) x.mmc first)
      (attemptScript x s x.w55 (promptly x.aOcr 63#6 x.ocr 0#32 0#32 0#32) ++ identScript x) := by
  refine aborts_attempt hv.seq hv.app hv.rca hv.sdv2 hfirst (hx.words _ (by simp)) ?_
  refine aborts_ask (k' := tailCid)
    (v' := { v.asked s x.mmc x.v2 1 x.ocr v.ms with desc := { v.desc with cardType := x.cardType } }) hv.seq hv.app (fun r b h => ?_) ?_
    rfl rfl (aborts_tailCid hx hv.app rfl hv.width)
  · obtain ⟨t, hanswer, ht⟩ := voltAnswer_ready (m0 := m0) (arg := opCondWord s x.v2) (n := n) (mmc := x.mmc) (g := askWord s x.mmc x.v2) h
      (askIndex_asks x.mmc) hx.arrives hx.ready fun h41 => hx.mode (askIndex_eq_41 h41)
    rw [View.prefixed_neg, View.prefixed_ms, View.asked_one s x.mmc x.v2 _ _ hv.seq hv.app] at ht
    refine ⟨_, ?_, ht.setDesc { v.desc with cardType := x.cardType }⟩
    rw [askRest, hanswer, andThen_ok]
    exact tailTyped_eq x.mmc ht.desc (congrArg Negotiation.ocr ht.neg) ((congrArg Negotiation.sdv2 ht.neg).trans hv.sdv2)
  · show v.sent ++ (List.replicate 1 _).flatten = _
    rw [List.replicate_one, List.flatten_singleton]

/-- Any number of attempts answered with busy OCRs, and the last one. -/
theorem aborts_attempts {busy : List (Word × Word)} (hbusy : ∀ y ∈ busy, y.1 &&& 0xFDFFE008#32 = 0#32 ∧ y.2.getLsbD 31 = false)
    (hv : AtVoltage x v) (hfirst : x.mmc = false → first = true → v.sent.length = 2) (hm : m0 ≤ v.ms)
    (ht : busy ≠ [] → v.ms + (busy.length - 1) * s.cfg.voltPollDelay.toNat < m0 + max 1 s.cfg.voltageDeadline.toNat) :
    Aborts x s v (tailLoop m0 (opCondWord s x.v2) (busy.length + (n + 1)) x.mmc first)
      (busyScript x s busy ++ (attemptScript x s x.w55 (promptly x.aOcr 63#6 x.ocr 0#32 0#32 0#32) ++ identScript x)) := by
  induction busy generalizing v first with
  | nil =>
    rw [List.length_nil, Nat.zero_add]
    exact aborts_lastAttempt hx hv hfirst
  | cons y busy ih =>
    obtain ⟨hw, hocr⟩ := hbusy y List.mem_cons_self
    obtain ⟨hnow, hlater⟩ := busy_in_time (ht (List.cons_ne_nil _ _))
    rw [busyScript, List.flatMap_cons, List.append_assoc, List.length_cons, Nat.add_right_comm]
    refine aborts_attempt hv.seq hv.app hv.rca hv.sdv2 hfirst hw ?_
    refine aborts_ask (v' := v.asked s x.mmc x.v2 1 y.2 (v.ms + s.cfg.voltPollDelay.toNat))
      (k' := tailLoop m0 (opCondWord s x.v2) (busy.length + (n + 1)) x.mmc false) hv.seq hv.app (fun r b h => ?_) ?_ rfl rfl
      (ih (fun z hz => hbusy z (List.mem_cons_of_mem _ hz)) ⟨hv.seq, hv.app, hv.rca, hv.sdv2, hv.width⟩
        (fun _ => nofun) (Nat.le_add_right_of_le hm) hlater)
    · rw [List.append_assoc] at h
      obtain ⟨t, hanswer, hnext⟩ := voltAnswer_busy (m0 := m0) (arg := opCondWord s x.v2) (n := busy.length + (n + 1)) (mmc := x.mmc) (r := r)
        (g := askWord s x.mmc x.v2) h (askIndex_asks x.mmc) hocr (by rw [View.prefixed_ms]; exact hm) (by rw [View.prefixed_ms]; exact hnow)
      rw [View.prefixed_ms, View.prefixed_neg, View.asked_one s x.mmc x.v2 _ _ hv.seq hv.app] at hnext
      exact ⟨t, congrArg (andThen · tailTyped) hanswer, hnext⟩
    · show v.sent ++ (List.replicate 1 _).flatten = _
      rw [List.replicate_one, List.flatten_singleton]

/-- The voltage step: the first CMD55 of an MMC card, which is not answered, and the attempts. -/
theorem aborts_tailVoltage :
    Aborts x s (viewAfterProbe s x.v2) tailVoltage
      ((if x.mmc then [(voltPrefix, promptly .noResponse 0#6 0#32 0#32 0#32 0#32)] else []) ++ (busyScript x s x.busy ++
        (attemptScript x s x.w55 (promptly x.aOcr 63#6 x.ocr 0#32 0#32 0#32) ++ identScript x))) := by
  have hattempts (n : Nat) (hn : x.busy.length + 1 ≤ n) (first : Bool)
      (hfirst : x.mmc = false → first = true → (viewAtVoltage s x.mmc x.v2).sent.length = 2) :
      Aborts x s (viewAtVoltage s x.mmc x.v2) (tailLoop s.inp.ms (opCondWord s x.v2) n x.mmc first)
        (busyScript x s x.busy ++ (attemptScript x s x.w55 (promptly x.aOcr 63#6 x.ocr 0#32 0#32 0#32) ++ identScript x)) := by
    obtain ⟨m, rfl⟩ := Nat.exists_eq_add_of_le hn
    rw [Nat.add_assoc, Nat.add_comm 1 m]
    exact aborts_attempts hx hx.busy ⟨rfl, rfl, rfl, rfl, rfl⟩ hfirst (Nat.le_refl _) fun _ => Nat.add_lt_add_left hx.inTime _
  have hlegacy : x.mmc = true → x.v2 = false := fun h => bne_eq_false_iff_eq.2 (hx.legacy h)
  cases hmmc : x.mmc with
  | false =>
    rw [hmmc] at hattempts
    refine Aborts.of_eq (v' := viewAtVoltage s false x.v2) rfl rfl rfl fun r b h => ?_
    obtain ⟨t, n, first, hn, hbegins, ht⟩ := tailVoltage_begins (mmc := false) (x.busy.length + 1) nofun h
    exact ⟨_, t, hbegins, ht, hattempts n hn first fun _ _ => rfl⟩
  | true =>
    rw [hmmc] at hattempts
    refine Aborts.cons_of (v' := viewAtVoltage s true x.v2) (fun fails r e b hends h => ?_) (fun r b h => ?_) rfl rfl rfl
    · have hstop := stopped_of_prefix (v := { viewAfterProbe s x.v2 with seq := .negVoltage }) (m0 := s.inp.ms) (n := b.inp.sched.length + 1)
        (first := true) rfl rfl rfl rfl (fun _ => rfl) hends (h.setSeq .negVoltage)
      rw [tailVoltage_eq, h.ms, h.opCondArg_eq rfl]
      exact hstop
    · obtain ⟨t, n, first, hn, hbegins, ht⟩ := tailVoltage_begins (mmc := true) (x.busy.length + 1) (fun _ => hlegacy hmmc) h
      exact ⟨_, t, hbegins, ht, hattempts n hn first nofun⟩

theorem aborts_resetCommand : Aborts x s (viewAtReset s) resetCommand (negScript x s) := by
  rw [negScript_eq]
  refine Aborts.cons (k' := tailProbe) (v' := (viewAtReset s).issue 0#6 0#32 .rNone false) (fun fails r e b hends h => ?_) (fun r b h => ?_)
    rfl rfl rfl ?_
  · exact stopped_of_fails h rfl (by decide) (by decide) (hends.fails (by exact nofun))
  · obtain ⟨t, hissue, ht⟩ := h.answer (idx := 0#6) (arg := 0#32) (kind := .rNone) rfl
    rw [prefixOf_other (by decide)] at ht
    exact ⟨t, by rw [resetCommand, hissue]; rfl, ht⟩
  · refine Aborts.skip (v' := viewAfterProbe s x.v2) (fun y hy n fails r e => ?_) (fun r b h => ?_) rfl rfl rfl (aborts_tailVoltage hx)
    · rw [List.mem_singleton] at hy
      rw [hy]
      rintro (⟨hprobe, -⟩ | ⟨hfetch, -⟩)
      · exact hprobe rfl
      · cases hfetch
    · exact tailProbe_answered h

end

/-! ## Every operation -/

/-- INITIALIZE ends with what ends it (42_negotiation R313). -/
theorem initialize_stops {x : NegAnswers} {s : State} {pre post : List (Sent × List (List Ev))} {c : Sent} {bt fails r : List (List Ev)}
    {e : TransferError} (hidle : s.host.hbusy = false) (hp : s.inp.cardPresent = true) (happ : s.app = false) (hx : NegOk x s)
    (hscript : negScript x s = pre ++ (c, bt) :: post) (hends : Ends x pre.length c bt fails r e)
    (hs : s.inp.sched = [] :: (pre.flatMap (·.2) ++ (fails ++ r))) :
    ∃ t, exec .initializeCard s = .next t ∧ t.host.result = e.code ∧ t.host.value = 0#32 ∧ t.seq = .idle ∧ t.host.hbusy = false ∧
      t.desc.valid = false ∧ t.log = s.log ∧ t.inp.sched = r ∧ t.wire = s.wire ++ pre.map (·.1) ++ [c] := by
  obtain ⟨b, hbegins, hb⟩ := negotiate_begins happ hp hs
  obtain ⟨u, v', heq, hu, hsent, hvalid, hlog⟩ := aborts_resetCommand hx pre c bt post fails r e b hscript ((Nat.zero_add _).symm ▸ hends) hb
  obtain ⟨t, hexec, hend⟩ := hu.ends hidle happ (hbegins.trans heq)
  refine ⟨t, hexec, hend.result, hend.value, hend.idle, hend.free, ?_, hend.log.trans hlog, hend.sched, ?_⟩
  · rw [hend.desc, hvalid]
    rfl
  · rw [hend.wire, hsent, List.append_assoc]
    rfl

/-- Settles O51: each operation by its commands in turn. -/
theorem commandErrorAborts : Obligations.CommandErrorAborts := by
  refine ⟨?transfers, ?status, ?erase, ?negotiation, ?registers⟩
  case transfers =>
    intro i p ws c fails r e s hi hready hget hw hf hs
    exact transfer_aborts hi hready hget hw hf (by rw [hs, List.append_assoc, List.append_assoc])
  case status =>
    intro fails r e s hidle hp hv happ hf hs
    exact queryStatus_aborts hidle hp hv happ hf hs
  case erase =>
    intro ws fails r e s hidle hp hv hclass horder hrange happ hw
    have hready : EraseReady s := ⟨hidle, hp, hv, hclass, horder, hrange, happ⟩
    refine ⟨fun c hget hf hs => ?_, fun busy hl hlen hbusy hf hs => ?_⟩
    · exact erase_aborts hready hget hw hf (by rw [hs, List.append_assoc])
    · exact erase_query_aborts hready hl hw hlen hbusy hf (by rw [hs]; simp only [List.append_assoc])
  case negotiation =>
    intro x pre post c b fails r e s hidle hp happ hx hscript hprobe hwidth hparses hlegacy hf hs
    exact initialize_stops hidle hp happ hx hscript (.command hprobe hwidth hparses hlegacy hf) (by rw [hs, List.append_assoc])
  case registers =>
    intro x pre post c b r e s hidle hp happ hx hscript hfetch hunusable hs
    exact initialize_stops hidle hp happ hx hscript (.registers hfetch rfl hunusable) (by rw [hs, List.append_assoc])

end Sys2Proof.Machine
end
